-- ==== Sys2Proof/Word.lean ====
section
/-! DEFINITION. The machine's plain widths (R1, R8, R9, R249) and the association lists in which sparse data are held. -/

namespace Sys2Proof

/-- A byte (R3). -/
abbrev Byte := BitVec 8
/-- A 32-bit lane of a vector register or an RCW (R76, R249). -/
abbrev Lane := BitVec 32
/-- A scalar register, a lane mask or a control register (R249). -/
abbrev Word := BitVec 64
/-- A vector register: lane i is bits [32i+31 : 32i] (R249). -/
abbrev Vec := BitVec 2048
/-- The 128 element bytes of a tile row, little-endian (R250, R1). -/
abbrev RowBits := BitVec 1024
/-- A stream register (R342). -/
abbrev StreamBits := BitVec 256
/-- A ring handle (R358). -/
abbrev RingBits := BitVec 128
/-- A global context id, 0 to 1,087 (R19). -/
abbrev CtxId := BitVec 11

/-- Sparse data by key: keys strictly rising. -/
abbrev Tab (β : Type) := List (Nat × β)

/-- The value at key k, where one is listed. -/
def Tab.find {β : Type} : Tab β → Nat → Option β
  | [], _ => none
  | (k, v) :: r, n => if k == n then some v else Tab.find r n

/-- The value at key k, or the default d where none is listed. -/
def Tab.get {β : Type} (d : β) (t : Tab β) (n : Nat) : β := (Tab.find t n).getD d

/-- t with key n holding v, keys kept rising. -/
def Tab.set {β : Type} : Tab β → Nat → β → Tab β
  | [], n, v => [(n, v)]
  | (k, w) :: r, n, v =>
    if n < k then (n, v) :: (k, w) :: r
    else if n = k then (n, v) :: r
    else (k, w) :: Tab.set r n v

/-- t with key n no longer listed. -/
def Tab.del {β : Type} : Tab β → Nat → Tab β
  | [], _ => []
  | (k, w) :: r, n => if n = k then Tab.del r n else (k, w) :: Tab.del r n

/-- Sign extension read as an integer: sext(x, w) of R11 for a field of w bits. -/
abbrev sx {w : Nat} (x : BitVec w) : Int := x.toInt

/-- The integer z stored in a register of w bits: modulo 2^w (R8). -/
abbrev wrap (w : Nat) (z : Int) : BitVec w := BitVec.ofInt w z

end Sys2Proof
end

