-- ==== Sys2Proof/Config.lean ====
section
/-! DEFINITION. The values the spec leaves open and the secrets it never states: opaque, so that nothing can evaluate them. -/

namespace Sys2Proof.Config

/-- A free value of w bits for the n-th value the spec leaves undefined (log entry 4). -/
opaque freeBits (w : Nat) : Nat → BitVec w

/-- Byte i of the ciphertext and tag of a save area (R63): key serial, global context id, save count, launch id, i. -/
opaque cipherByte : Nat → Nat → Nat → Nat → Nat → Byte

/-- An ECDSA P-384 signature, r then s, by the key named (R221, R226, R230): key serial and message. -/
opaque ecSig : Nat → List Byte → BitVec 768

/-- An LMS signature of 1,772 bytes (R221): key serial, leaf, message. -/
opaque lmsSig : Nat → Nat → List Byte → BitVec 14176

/-- An HSS signature of 3,444 bytes (R228, R230): boot index, bottom leaf, message. -/
opaque hssSig : Nat → Nat → List Byte → BitVec 27552

/-- The identity public keys of R228 and the epoch keys of R221, in the encodings of R230. -/
opaque idEcPub : BitVec 776
/-- The identity HSS public key, 60 bytes (R230). -/
opaque idHssPub : BitVec 480
/-- The ECDSA public key of a CER key epoch of a boot (R230): boot index, epoch. -/
opaque epochEcPub : Nat → Nat → BitVec 776
/-- The LMS public key of a CER key epoch of a boot (R230): boot index, epoch. -/
opaque epochLmsPub : Nat → Nat → BitVec 448

/-- Whether the ECDSA signature of an image verifies under vendor key pair KEYID (R226): key, message, signature. -/
opaque vendorEcOk : BitVec 8 → List Byte → List Byte → Bool

/-- Whether the LMS signature of an image verifies under vendor key pair KEYID (R226): key, message, signature. -/
opaque vendorLmsOk : BitVec 8 → List Byte → List Byte → Bool

/-- How many items beyond the first a job's receive queue for ROWS items holds (R408): the spec states no number. -/
opaque rowsQueueMore : Nat
/-- Items that a receive queue holds (R408): at least the one that FRECV takes (R409). -/
def rowsQueue : Nat := rowsQueueMore + 1

/-- Whether a stop that holds a number of flits can buffer one more of an MSEND (R309, R324): the spec states no capacity. -/
opaque stopTakes : Nat → Bool

/-- Module power in milliwatts at a package cycle (R235): the spec states no value. -/
opaque power : Nat → Word

/-- The highest die temperature in millidegrees Celsius at a package cycle (R235): the spec states no value. -/
opaque temperature : Nat → Word

end Sys2Proof.Config
end

