-- ==== Sys2Proof/Syntax.lean ====
section
/-! DEFINITION. The instructions and the indivisible steps of the machine: one constructor for each row of the opcode table.
A slot instruction carries its operands typed by register class (R245, R246, R277); its qualifying predicate, its sense and its slot
belong to the bundle (R244) and stand in Decode.lean. A step of the hardware or of the outside carries what selects it. -/

namespace Sys2Proof

/-- s0 to s63. -/
abbrev SReg := BitVec 6
/-- v0 to v31. -/
abbrev VReg := BitVec 5
/-- p0 to p15. -/
abbrev PReg := BitVec 4
/-- k0 to k7. -/
abbrev KReg := BitVec 3
/-- q0 to q7. -/
abbrev QReg := BitVec 3
/-- m0 to m15. -/
abbrev TReg := BitVec 4
/-- g0 to g15. -/
abbrev GReg := BitVec 4
/-- a0 and a1. -/
abbrev AReg := BitVec 1

/-- Condition codes of R278. -/
inductive Cond | eq | ne | lt | le | gt | ge | ltu | leu | gtu | geu | un
  deriving DecidableEq, Repr

/-- Combining types of R248 and R279. -/
inductive Comb | set | setz | all | any | alln | anyn | tog | split
  deriving DecidableEq, Repr

/-- Scopes of R146. -/
inductive Scope | ctx | core | lvl | stk | pkg | sys
  deriving DecidableEq, Repr

/-- Retention hints of R136 and R281. -/
inductive Hint | df | st | sk | bypass
  deriving DecidableEq, Repr

/-- Load sizes of R285. -/
inductive LdSize | b | bu | h | hu | w | wu | d
  deriving DecidableEq, Repr

/-- Store sizes of R285. -/
inductive StSize | b | h | w | d
  deriving DecidableEq, Repr

/-- PROBE access kinds of R285. -/
inductive ProbeKind | r | w | a | x
  deriving DecidableEq, Repr

/-- Two logic operations and their negated form (R287, R288). -/
inductive LogOp | and | or | xor | andn
  deriving DecidableEq, Repr

/-- AMO operations of R286. -/
inductive AmoOp | add | smin | smax | umin | umax | and | or | xor | swap
  deriving DecidableEq, Repr

/-- RED operations of R286. -/
inductive RedOp | add | smin | smax | umin | umax | and | or | xor | fadd | fmin | fmax
  deriving DecidableEq, Repr

/-- Pipeline mode a loop names (R283). -/
inductive PipeMode | inherit | exp | int
  deriving DecidableEq, Repr

/-- Format codes of R94. -/
inductive Fmt | nbf2 | nbf3 | nbf4 | nbf5 | nbf6 | nbf7 | nbf8 | bf16 | fp16 | fp32 | i8 | i16 | i32 | rcw
  deriving DecidableEq, Repr

/-- Rounding modes of R99. -/
inductive Round | rne | sr
  deriving DecidableEq, Repr

/-- VRED operations of R287. -/
inductive VRedOp | sum | max | min | argmax
  deriving DecidableEq, Repr

/-- Units of CANCEL and WAITC (R288). -/
inductive WorkUnit | iter | lnch | graph | step | job
  deriving DecidableEq, Repr

/-- Field groups of GSET (R345). -/
inductive GField | addr | fmt | blk | brot | sstr | str0 | str1 | str2 | n0 | n1 | n2 | pos
  deriving DecidableEq, Repr

/-- Bit number of TBIT: an immediate or a scalar (R278). -/
inductive BitSrc | imm (n : BitVec 6) | reg (b : SReg)
  deriving DecidableEq, Repr

/-- A matrix operand: a tile or a stream (R382, R386). -/
inductive MatSrc | tile (t : TReg) | stream (g : GReg)
  deriving DecidableEq, Repr

/-- Point of a CTXRES (R205). -/
inductive Resume | retry | skip
  deriving DecidableEq, Repr

/-- The engines that hold command queues (R34). -/
inductive Engine | m | x | a
  deriving DecidableEq, Repr

/-- What PUT names as its end: nothing more, a handler, or a ring (R393, R406). -/
inductive PutEnd | plain | handler (x : BitVec 4) | ring (q : QReg)
  deriving DecidableEq, Repr

/-- Kinds of fabric items (R238, R405, R408). -/
inductive ItemKind | store | rows | notice | gathRequest | gathReply
  deriving DecidableEq, Repr

/-- A fabric item (R238), with the fields of the send descriptor of R407 that it carries. -/
structure FabItem where
  dst : BitVec 18
  src : BitVec 18
  job : BitVec 6
  priority : Bool
  kind : ItemKind
  sourceSeq : BitVec 32
  queue : BitVec 4
  queueSeq : BitVec 32
  sendTick : BitVec 64
  rva : Word
  stepn : BitVec 32
  bnd : BitVec 16
  fmt : BitVec 4
  ds : Bool
  launch : BitVec 32
  ctx : BitVec 11
  payload : List Byte
  deriving DecidableEq, Repr

/-- Where an error strikes (R215, R220 CLASS): a place in memory or in a cache that holds it, or in a register, or a core's queues. Cores are
numbered as in the model: foreman core f is core 256 + f. -/
inductive EccSite
  | hbm (pa : BitVec 52)
  | scratch (core : BitVec 8) (off : BitVec 22)
  | l1 (core : BitVec 9) (pa : BitVec 52)
  | icache (core : BitVec 9) (pa : BitVec 52)
  | l2 (slice : BitVec 7) (pa : BitVec 52)
  | l3 (pa : BitVec 52)
  | tile (ctx : BitVec 11) (t : BitVec 4) (row : BitVec 6)
  | acc (ctx : BitVec 11) (a : BitVec 1) (lane : BitVec 12)
  | replica (level : BitVec 4) (off : BitVec 20)
  | tcache (core : BitVec 9) (pa : BitVec 52)
  | queue (core : BitVec 9)
  | saveArea (ctx : BitVec 11) (pa : BitVec 52)
  deriving DecidableEq, Repr

/-- The instructions and steps: one constructor for each row of spec/opcode_table.json. -/
inductive Instr
  -- S slot: integer (R271, R290 to R294)
  | add (d a b : SReg)
  | sub (d a b : SReg)
  | mul (d a b : SReg)
  | mulh (u : Bool) (d a b : SReg)
  | div (u : Bool) (d a b : SReg)
  | rem (u : Bool) (d a b : SReg)
  | and (d a b : SReg)
  | or (d a b : SReg)
  | xor (d a b : SReg)
  | andn (d a b : SReg)
  | shl (d a b : SReg)
  | shr (d a b : SReg)
  | sar (d a b : SReg)
  | rotl (d a b : SReg)
  | min (u : Bool) (d a b : SReg)
  | max (u : Bool) (d a b : SReg)
  | clz (d a : SReg)
  | ctz (d a : SReg)
  | popc (d a : SReg)
  | addi (d a : SReg) (imm : BitVec 23)
  | andi (d a : SReg) (imm : BitVec 23)
  | ori (d a : SReg) (imm : BitVec 23)
  | xori (d a : SReg) (imm : BitVec 23)
  | shli (d a : SReg) (n : BitVec 6)
  | shri (d a : SReg) (n : BitVec 6)
  | sari (d a : SReg) (n : BitVec 6)
  | bfx (signed : Bool) (d a : SReg) (pos wm1 : BitVec 6)
  | bfi (d a : SReg) (pos wm1 : BitVec 6)
  | sxt (d a : SReg) (nm1 : BitVec 6)
  | ldi (d : SReg) (imm : BitVec 29)
  | ldih (d : SReg) (imm : BitVec 29)
  | sel (d a b : SReg) (c : PReg)
  | lea (d a b : SReg) (sh : BitVec 4)
  -- S slot: compares and predicates (R295 to R297)
  | cmp (c : Cond) (ct : Comb) (p1 p2 : PReg) (a b : SReg)
  | cmpi (c : Cond) (ct : Comb) (p1 p2 : PReg) (a : SReg) (imm : BitVec 13)
  | tbit (set : Bool) (ct : Comb) (p1 p2 : PReg) (a : SReg) (n : BitSrc)
  | plog (op : LogOp) (d a b : PReg)
  | pmov (d a : PReg)
  | pmovN (d a : PReg)
  | pmovP2s (d : SReg)
  | pmovS2p (a : SReg)
  -- S slot: control flow (R298 to R303)
  | br (off : BitVec 26)
  | bri (a : SReg) (imm : BitVec 23)
  | call (off : BitVec 26)
  | calli (a : SReg) (imm : BitVec 23)
  | ret (a : SReg) (imm : BitVec 23)
  | loop (pm : PipeMode) (a : SReg) (endOff : BitVec 12)
  | loopr (pm : PipeMode) (sh : BitVec 5) (endOff : BitVec 12)
  | loopp (pm : PipeMode) (a : SReg) (stm1 : BitVec 3) (endOff : BitVec 12)
  | iterationEnd (g : CtxId)
  -- S slot: scalar memory (R304 to R307)
  | ld (sz : LdSize) (h : Hint) (d a : SReg) (off : BitVec 18)
  | st (sz : StSize) (h : Hint) (d a : SReg) (off : BitVec 18)
  | ldAcq (sc : Scope) (d a : SReg) (off : BitVec 15)
  | stRel (sc : Scope) (d a : SReg) (off : BitVec 15)
  -- S slot: atomics and reductions (R311 to R316)
  | amo (op : AmoOp) (dbl : Bool) (a b : SReg)
  | acas (dbl : Bool) (d a b : SReg)
  | apop (dbl : Bool) (d a : SReg)
  | red (op : RedOp) (dbl : Bool) (a b : SReg)
  | redPerform (g : CtxId)
  | ored (a : SReg)
  | oredCompletion (g : CtxId)
  -- S slot: synchronisation (R317 to R323)
  | phreg (sig ix : Bool) (d a b : SReg)
  | phdrop (a : SReg)
  | phsig (sc : Scope) (a : SReg)
  | phwait (sc : Scope) (a : SReg)
  | phsw (sc : Scope) (a : SReg)
  | tkacq (sc : Scope) (tk : Bool) (d : PReg) (a b : SReg)
  | tkrel (sc : Scope) (a : SReg)
  | bar (tag : BitVec 3)
  | fence (sc : Scope)
  | rbind (d a b : SReg)
  | runbind (d b : SReg)
  | flwait (sc : Scope) (a b : SReg)
  -- S slot: messages and the shaft (R324 to R327)
  | msend (ds : Bool) (d a : SReg)
  | mrecv (d b : SReg)
  | mpoll (d : SReg)
  | shput (d a b : SReg)
  | shget (d a : SReg)
  | shsync (sc : Scope)
  -- S slot: system (R328 to R331, R255 to R258)
  | trap (imm : BitVec 29)
  | getc (d : SReg) (num : BitVec 12)
  | dqPop (d : SReg)
  | setc (num : BitVec 12) (a : SReg)
  | fpstatWrite (a : SReg)
  | rngControlWrite (r : BitVec 2) (a : SReg)
  | ctxlogWrite (size : Bool) (a : SReg)
  | probe (k : ProbeKind) (nf : Bool) (d a : SReg) (off : BitVec 18)
  | logmark (a : SReg)
  -- S slot: work (R332 to R339)
  | launch (d a : SReg)
  | glaunch (d a b : SReg)
  | cancel (u : WorkUnit) (d a : SReg)
  | waitc (u : WorkUnit) (d a : SReg)
  | admitReq (d a : SReg)
  | rqrd (d a b : SReg)
  | rqwr (mask : BitVec 12) (d a b : SReg)
  | preempt (d a b : SReg)
  | preemptRel (d a b : SReg)
  | ctxres (pt : Resume) (d a b : SReg)
  | ctxresKill (d a b : SReg)
  | pmig (d a : SReg)
  | evict (d a : SReg)
  -- A slot: addresses and streams (R341 to R347)
  | aadd (d a : SReg) (imm : BitVec 23)
  | aaddr (d a b : SReg) (sh : BitVec 3)
  | gset (f : GField) (g : GReg) (a : SReg)
  | gload (scr : Bool) (g : GReg) (a : SReg)
  | gadv (g : GReg) (a : SReg)
  | gidx (g : GReg) (a : SReg)
  -- A slot: tiles and scratch (R349 to R353)
  | tld (h : Hint) (scr adv : Bool) (t : TReg) (g : GReg) (a : SReg)
  | tst (h : Hint) (scr adv : Bool) (t : TReg) (g : GReg) (a : SReg)
  | sld (sz : LdSize) (d a : SReg) (off : BitVec 18)
  | sst (sz : StSize) (d a : SReg) (off : BitVec 18)
  | vlds (d : VReg) (a : SReg) (off : BitVec 18)
  | vsts (d : VReg) (a : SReg) (off : BitVec 18)
  -- A slot: scratch regions and rings (R354 to R361)
  | rmap (d a b : SReg)
  | runmap (d a : SReg)
  | rwb (d a b : SReg)
  | rinv (d a b : SReg)
  | rfill (d a b : SReg)
  | qcfg (q : QReg) (d a b : SReg)
  | qwaitf (q : QReg) (a : SReg)
  | qwaite (q : QReg) (a : SReg)
  | qadvH (q : QReg) (a : SReg)
  | qadvT (q : QReg) (a : SReg)
  -- V slot: FP32 (R366, R367)
  | vadd (d a b : VReg) (k : KReg)
  | vsub (d a b : VReg) (k : KReg)
  | vmul (d a b : VReg) (k : KReg)
  | vfma (d a b : VReg) (k : KReg)
  | vmax (d a b : VReg) (k : KReg)
  | vmin (d a b : VReg) (k : KReg)
  | vabs (d a : VReg) (k : KReg)
  | vneg (d a : VReg) (k : KReg)
  | vdiv (d a b : VReg) (k : KReg)
  | vsqrt (d a : VReg) (k : KReg)
  | vexp2 (d a : VReg) (k : KReg)
  | vscale (d a b : VReg) (k : KReg)
  | vcmp (c : Cond) (d : KReg) (a b : VReg) (k : KReg)
  | vicmp (c : Cond) (d : KReg) (a b : VReg) (k : KReg)
  -- V slot: integer (R368)
  | viadd (d a b : VReg) (k : KReg)
  | visub (d a b : VReg) (k : KReg)
  | vimul (d a b : VReg) (k : KReg)
  | vimin (u : Bool) (d a b : VReg) (k : KReg)
  | vimax (u : Bool) (d a b : VReg) (k : KReg)
  | vand (d a b : VReg) (k : KReg)
  | vor (d a b : VReg) (k : KReg)
  | vxor (d a b : VReg) (k : KReg)
  | vshl (d a b : VReg) (k : KReg)
  | vshr (u : Bool) (d a b : VReg) (k : KReg)
  -- V slot: lanes, conversions, tile rows (R369 to R373)
  | vsel (d a b : VReg) (k : KReg)
  | vbcst (d : VReg) (a : SReg) (k : KReg)
  | vgetl (lane : BitVec 6) (d : SReg) (a : VReg)
  | vputl (lane : BitVec 6) (d : VReg) (a : SReg) (k : KReg)
  | vperm (d a b : VReg) (k : KReg)
  | viota (d : VReg) (a : SReg) (k : KReg)
  | vcvt (src dst : Fmt) (rm : Round) (d a : VReg) (k : KReg)
  | vtr (rm : Round) (rc : Bool) (d : VReg) (a : TReg) (b : SReg)
  | vtw (rm : Round) (rc : Bool) (d : TReg) (a : VReg) (b : SReg)
  -- V slot: reductions, masks, random rows (R374 to R377)
  | vred (op : VRedOp) (d a : VReg) (k : KReg)
  | vtopk (nm1 : BitVec 6) (d a b : VReg) (k : KReg)
  | klog (op : LogOp) (d a b : KReg)
  | kpopc (d : SReg) (a : KReg)
  | kmov (d a : KReg)
  | kmovS2k (d : KReg) (a : SReg)
  | kmovK2s (d : SReg) (a : KReg)
  | vrng (d : VReg) (k : KReg)
  -- M slot (R381 to R389)
  | mma (a : AReg) (l r : MatSrc)
  | mmas (a : AReg) (l r : MatSrc) (m : TReg)
  | matt (a : AReg) (q : TReg) (k v : MatSrc)
  | mattf (f : Fmt) (rm : Round) (t : TReg) (a : AReg)
  | aclr (a : AReg) (s : SReg)
  | acrd (f : Fmt) (rm : Round) (hi : Bool) (t : TReg) (a : AReg)
  | acld (a : AReg) (t : TReg) (s : SReg)
  | cmpr (t t2 m : TReg)
  | mtrn (t t2 : TReg)
  | mzero (t : TReg)
  | mcvt (f : Fmt) (rm : Round) (t t2 : TReg)
  -- X slot (R394 to R409)
  | cwld (scr : Bool) (t : TReg) (a : SReg)
  | cwst (scr : Bool) (t : TReg) (a : SReg)
  | cwupd (sh nl : Bool) (t : TReg) (a : SReg) (k : KReg)
  | cwcnt (sh : Bool) (d : SReg) (t : TReg)
  | compact (sh : Bool) (km1 : BitVec 3) (d a : TReg)
  | restore (km1 : BitVec 3) (d a : TReg)
  | exnote (t : TReg)
  | kvapp (v f : Bool) (h : BitVec 6) (t : TReg) (b : SReg)
  | kvg (hint : Hint) (v : Bool) (h : BitVec 6) (t : TReg) (g : GReg) (a : SReg) (mq : Option TReg)
  | kvscan (v : Bool) (h : BitVec 6) (d a b : SReg)
  | kvexs (t : TReg) (a : SReg)
  | gath (h : Hint) (t : TReg) (g : GReg) (a : SReg)
  | scat (h : Hint) (t : TReg) (g : GReg) (a : SReg)
  | put (ds : Bool) (e : PutEnd) (d a b : SReg)
  | get (ds : Bool) (d a b : SReg)
  | fsend (ds pri : Bool) (a b : SReg)
  | frecv (src : Option SReg) (t : TReg) (a : SReg)
  -- Steps of the engines and the scoreboard (R411, R378, R392, R349, R262)
  | engineCommandAccept (core : BitVec 8) (e : Engine)
  | matrixCommandComplete (core : BitVec 8)
  | xCommandComplete (core : BitVec 8)
  | tileCommandComplete (core : BitVec 8)
  | scoreboardResultLand (g : CtxId) (n : BitVec 6)
  -- Steps of the dispatcher, the walker and the save engine (R46 to R64, R38, R23)
  | launchComplete (lid : BitVec 32)
  | contextSave (g : CtxId)
  | contextRestore (g : CtxId)
  | watchdogTimeout (g : CtxId)
  -- Supervisor registers with a step of their own (R257)
  | budcmt (a : SReg)
  | jobstart (a : SReg)
  | shaftgo (a : SReg)
  | tsinv (a : SReg)
  | codemapSubmit (v : Word)
  | codemapRelease (v : Word)
  | levelSleepRequest (level : BitVec 3)
  | levelSleepFreeze (level : BitVec 3)
  | levelWakeRequest (level : BitVec 3)
  | wakeReplicaCopy (level : BitVec 3)
  | wakeComplete (level : BitVec 3)
  | routeswap (a : SReg)
  | barcfg (a : SReg)
  | barrierRelease (tag : BitVec 3)
  | contain (a : SReg)
  | coreLogicUncorrectable (core : BitVec 8)
  | containmentComplete (core : BitVec 8)
  -- Steps of the stack (R187 to R199, R406)
  | flitInject (level : BitVec 3) (stop : BitVec 4)
  | flitEject (level : BitVec 3) (stop : BitVec 4)
  | overflowStoreDrain (level : BitVec 3)
  | winzeArrival (level : BitVec 3) (up : Bool)
  | putDelivery (core : BitVec 8)
  -- Steps of the fabric and the clock (R184, R185, R238, R240)
  | fabricItemReceive (it : FabItem)
  | fabricItemAbandon (n : BitVec 16)
  | linkRetransmit (port : BitVec 5) (count : BitVec 16)
  | ptpTimeSync (elapsed : BitVec 64) (master : Word)
  -- Steps of the tier engine, the trap queue and the error log (R140, R145, R209, R214 to R222, R237)
  | migrationComplete (n : BitVec 8)
  | demotionPage (job : BitVec 6)
  | trapRecordWrite (job : BitVec 6)
  | eccSingleBit (site : EccSite)
  | eccDoubleBit (site : EccSite)
  | registerParityFail (g : CtxId) (cls : BitVec 8) (num : BitVec 8)
  | expanderLinkDrop (port : BitVec 3)
  -- Steps of the host and of boot (R223 to R236, R27)
  | moduleReset (fail : Option (BitVec 8))
  | rstctl (v : Word)
  | bootdb (desc v : Word)
  | bootVerify (fw cfg : Option (List Byte))
  | bootInit (memOk : Bool) (cxlUp : BitVec 8) (portUp : BitVec 32) (capacity : List (BitVec 52)) (time : Word)
  | cmdwr (slots : List (BitVec 512))
  | rsprd (v : Word)
  | resgo (seq v : Word)
  | ceridx (v : Word)
  | ckpidx (v : Word)
  | cerack (v : Word)
  | stripRepair (level : BitVec 3) (slice : Bool) (strip : BitVec 3)
  -- Instructions and steps without operands (R271, R303, R328, R333 and the rules of their groups above)
  | nop
  | endi
  | halt
  | step
  | dispatch
  | iterationAssign
  | budgetPeriodRefill
  | codeScanComplete
  | routeSwapComplete
  | frameBoundary
  | shaftSlotSend
  | shaftTransferApply
  | goldenStopAdvance
  | tickBoundary
  | patrolScrubPass
  | cerCheckpoint
  | pcieFundamentalReset
  | create
  | endJob
  | setreg
  | query
  | ckpt
  | attest
  | ckpdataRead
  deriving DecidableEq, Repr

end Sys2Proof
end

