-- ==== Sys2Proof/WellFormed.lean ====
section
/-! DEFINITION. What the spec asks of an instruction's operands beyond their classes: the limits refused with reason 5
(wfFields) and the double writes of one instruction refused with reason 7 (wfWrites), both of R213. -/

namespace Sys2Proof

/-- NBF2 to NBF8 (R94). -/
def Fmt.isNbf : Fmt → Bool
  | .nbf2 | .nbf3 | .nbf4 | .nbf5 | .nbf6 | .nbf7 | .nbf8 => true
  | _ => false

/-- The formats MATTF and ACRD may name (R387, R388). -/
def Fmt.isReadout (f : Fmt) : Bool := f.isNbf || f == .bf16 || f == .fp16 || f == .fp32

/-- The pairings R103 refuses: RCW with any format but RCW and I32. -/
def Fmt.pairOk (s d : Fmt) : Bool :=
  !((s == .rcw && !(d == .rcw || d == .i32)) || (d == .rcw && !(s == .rcw || s == .i32)))

/-- RED operations on FP32, which need .W (R286). -/
def RedOp.isFloat : RedOp → Bool
  | .fadd | .fmin | .fmax => true
  | _ => false

/-- The context registers of R256. -/
def ctxNumbers : List Nat :=
  [0x000, 0x001, 0x002, 0x003, 0x008, 0x010, 0x018, 0x020, 0x021, 0x022, 0x028, 0x029, 0x02A, 0x02B,
   0x030, 0x031, 0x040, 0x048, 0x049, 0x04A]

/-- The job and package registers of R257. -/
def jobNumbers : List Nat :=
  [0x100, 0x101, 0x102, 0x103, 0x104, 0x105, 0x108, 0x109, 0x10A, 0x10B, 0x10C, 0x10D, 0x10E, 0x10F,
   0x110, 0x111, 0x112, 0x113, 0x114, 0x115, 0x116, 0x117, 0x118, 0x119, 0x11A, 0x11B,
   0x11C, 0x11D, 0x11E, 0x11F, 0x120] ++
  [0x140, 0x141, 0x142, 0x148, 0x149, 0x14A, 0x14B, 0x14C, 0x150, 0x151, 0x158, 0x160, 0x161, 0x162,
   0x168, 0x169, 0x16A, 0x16B, 0x16C, 0x170]

/-- A control register number that R256 or R257 lists (R255). -/
def listedNumber (n : BitVec 12) : Bool := ctxNumbers.contains n.toNat || jobNumbers.contains n.toNat

/-- The SETC numbers whose write is a row of its own. -/
def ownRowNumbers : List Nat :=
  [0x010, 0x020, 0x021, 0x022, 0x102, 0x103, 0x114, 0x120, 0x142, 0x14C, 0x162, 0x16C, 0x170]

/-- An even tile number (R386, R393). -/
def evenTile (t : TReg) : Bool := t.extractLsb' 0 1 == 0

/-- A key operand tile of MATT must be even, a stream may be any (R386). -/
def MatSrc.evenOk : MatSrc → Bool
  | .tile t => evenTile t
  | .stream _ => true

/-- The limits refused with reason 5 (R213): a field the instruction does not use is zero, a run of registers stays in its class,
a code lies in its table. -/
def wfFields : Instr → Bool
  | .cmp c _ _ _ _ _ => c != .un
  | .cmpi c _ _ _ _ _ => c != .un
  | .loop _ _ e => e != 0
  | .loopr _ sh e => e != 0 && decide (sh.toNat ≤ 16)
  | .loopp _ _ _ e => e != 0
  | .iterationEnd g => decide (g.toNat < 1088)
  | .red op dbl _ _ => !(op.isFloat && dbl)
  | .redPerform g => decide (g.toNat < 1088)
  | .oredCompletion g => decide (g.toNat < 1088)
  | .phreg _ ix _ _ b => ix || b == 0
  | .tkacq _ tk _ _ b => tk || b == 0
  | .msend _ d _ => decide (d.toNat ≤ 60)
  | .mrecv d _ => decide (d.toNat ≤ 60)
  | .shput d _ _ => decide (d.toNat ≤ 56)
  | .shget d _ => decide (d.toNat ≤ 56)
  | .getc _ n => listedNumber n && n != 0x030
  | .setc n _ => listedNumber n && !ownRowNumbers.contains n.toNat
  | .rngControlWrite r _ => decide (r.toNat ≤ 2)
  | .probe _ nf d _ _ => nf || d == 0
  | .cancel u _ a => !(u == .step || u == .job) || a == 0
  | .waitc u _ a => u != .iter && (!(u == .step || u == .job) || a == 0)
  | .tld h scr _ _ _ _ => !scr || h == .df
  | .tst h scr _ _ _ _ => !scr || h == .df
  | .vcmp c _ _ _ _ => c != .ltu && c != .leu && c != .gtu && c != .geu
  | .vicmp c _ _ _ _ => c != .un
  | .vcvt s d _ _ _ _ => !s.isNbf && !d.isNbf && Fmt.pairOk s d
  | .vtr rm rc _ _ _ => !rc || rm == .rne
  | .vtw rm rc _ _ _ => !rc || rm == .rne
  | .matt _ q k _ => evenTile q && k.evenOk
  | .mattf f _ _ _ => f.isReadout
  | .acrd f _ hi _ _ => f.isReadout && (!hi || f == .fp32)
  | .mcvt f _ _ _ => f.isNbf || f == .bf16 || f == .fp16 || f == .i8 || f == .i16
  | .compact _ k d a => decide (d.toNat + k.toNat ≤ 15) && decide (a.toNat + k.toNat ≤ 15)
  | .restore k d a => decide (d.toNat + k.toNat ≤ 15) && decide (a.toNat + k.toNat ≤ 15)
  | .kvapp _ f _ t b => evenTile t && (f || b == 0)
  | .kvg _ _ _ t _ _ _ => evenTile t
  | .scoreboardResultLand g _ => decide (g.toNat < 1088)
  | .contextSave g => decide (g.toNat < 1024)
  | .contextRestore g => decide (g.toNat < 1024)
  | .watchdogTimeout g => decide (g.toNat < 1088)
  | .flitInject _ s => decide (s.toNat < 12)
  | .flitEject _ s => decide (s.toNat < 12)
  | .registerParityFail g _ _ => decide (g.toNat < 1088)
  | _ => true

/-- One instruction that would write one register twice, refused with reason 7 (R213, R247, R364, R384). -/
def wfWrites : Instr → Bool
  | .cmp _ _ p1 p2 _ _ => p1 != p2 || p1 == 0
  | .cmpi _ _ p1 p2 _ _ => p1 != p2 || p1 == 0
  | .tbit _ _ p1 p2 _ _ => p1 != p2 || p1 == 0
  | .mrecv d b => b == 0 || !(decide (d.toNat ≤ b.toNat) && decide (b.toNat ≤ d.toNat + 3))
  | .vtopk _ d _ b _ => d != b
  | .cmpr t _ m => t != m
  | .kvg _ _ _ t _ _ mq => mq != some t && mq != some (t + 1)
  | _ => true

/-- An instruction the scanner accepts in some page, or a step whose identifiers exist. -/
def WellFormed (i : Instr) : Prop := wfFields i = true ∧ wfWrites i = true

end Sys2Proof
end

