-- ==== Sys2Proof/Decode.lean ====
section
/-! DEFINITION. The bundle and slot encodings of R241 to R289: the formats F1 to F8 with their packing and unpacking, the decoder with the
scanner's refusals by reason (R213), and after it the encoder, written from the same tables. -/

namespace Sys2Proof

/-! ## Formats (R245) -/

/-- F1: three registers and fn. -/
structure F1 where
  d : BitVec 6
  a : BitVec 6
  b : BitVec 6
  fn : BitVec 17
  deriving DecidableEq, Repr

/-- F2: two registers and imm23. -/
structure F2 where
  d : BitVec 6
  a : BitVec 6
  imm : BitVec 23
  deriving DecidableEq, Repr

/-- F3: a register and imm29. -/
structure F3 where
  d : BitVec 6
  imm : BitVec 29
  deriving DecidableEq, Repr

/-- F4: compares. -/
structure F4 where
  p1 : BitVec 4
  p2 : BitVec 4
  ct : BitVec 3
  cond : BitVec 4
  a : BitVec 6
  ib : BitVec 1
  imm : BitVec 13
  deriving DecidableEq, Repr

/-- F5: branches. -/
structure F5 where
  off : BitVec 26
  mod : BitVec 9
  deriving DecidableEq, Repr

/-- F6: memory. -/
structure F6 where
  d : BitVec 6
  a : BitVec 6
  rh : BitVec 2
  sz : BitVec 3
  off : BitVec 18
  deriving DecidableEq, Repr

/-- F7: tiles and streams. -/
structure F7 where
  t : BitVec 4
  g : BitVec 4
  t2 : BitVec 4
  g2 : BitVec 4
  a : BitVec 6
  mod : BitVec 13
  deriving DecidableEq, Repr

/-- F8: three registers, ctl12 and mod. -/
structure F8 where
  d : BitVec 6
  a : BitVec 6
  b : BitVec 6
  ctl : BitVec 12
  mod : BitVec 5
  deriving DecidableEq, Repr

/-- The operand bits of F1. -/
def F1.pack (f : F1) : BitVec 35 := f.d ++ f.a ++ f.b ++ f.fn
/-- The fields of F1. -/
def F1.unpack (x : BitVec 35) : F1 := ⟨x.extractLsb' 29 6, x.extractLsb' 23 6, x.extractLsb' 17 6, x.extractLsb' 0 17⟩
/-- The operand bits of F2. -/
def F2.pack (f : F2) : BitVec 35 := f.d ++ f.a ++ f.imm
/-- The fields of F2. -/
def F2.unpack (x : BitVec 35) : F2 := ⟨x.extractLsb' 29 6, x.extractLsb' 23 6, x.extractLsb' 0 23⟩
/-- The operand bits of F3. -/
def F3.pack (f : F3) : BitVec 35 := f.d ++ f.imm
/-- The fields of F3. -/
def F3.unpack (x : BitVec 35) : F3 := ⟨x.extractLsb' 29 6, x.extractLsb' 0 29⟩
/-- The operand bits of F4. -/
def F4.pack (f : F4) : BitVec 35 := f.p1 ++ f.p2 ++ f.ct ++ f.cond ++ f.a ++ f.ib ++ f.imm
/-- The fields of F4. -/
def F4.unpack (x : BitVec 35) : F4 :=
  ⟨x.extractLsb' 31 4, x.extractLsb' 27 4, x.extractLsb' 24 3, x.extractLsb' 20 4, x.extractLsb' 14 6,
   x.extractLsb' 13 1, x.extractLsb' 0 13⟩
/-- The operand bits of F5. -/
def F5.pack (f : F5) : BitVec 35 := f.off ++ f.mod
/-- The fields of F5. -/
def F5.unpack (x : BitVec 35) : F5 := ⟨x.extractLsb' 9 26, x.extractLsb' 0 9⟩
/-- The operand bits of F6. -/
def F6.pack (f : F6) : BitVec 35 := f.d ++ f.a ++ f.rh ++ f.sz ++ f.off
/-- The fields of F6. -/
def F6.unpack (x : BitVec 35) : F6 :=
  ⟨x.extractLsb' 29 6, x.extractLsb' 23 6, x.extractLsb' 21 2, x.extractLsb' 18 3, x.extractLsb' 0 18⟩
/-- The operand bits of F7. -/
def F7.pack (f : F7) : BitVec 35 := f.t ++ f.g ++ f.t2 ++ f.g2 ++ f.a ++ f.mod
/-- The fields of F7. -/
def F7.unpack (x : BitVec 35) : F7 :=
  ⟨x.extractLsb' 31 4, x.extractLsb' 27 4, x.extractLsb' 23 4, x.extractLsb' 19 4, x.extractLsb' 13 6, x.extractLsb' 0 13⟩
/-- The operand bits of F8. -/
def F8.pack (f : F8) : BitVec 35 := f.d ++ f.a ++ f.b ++ f.ctl ++ f.mod
/-- The fields of F8. -/
def F8.unpack (x : BitVec 35) : F8 :=
  ⟨x.extractLsb' 29 6, x.extractLsb' 23 6, x.extractLsb' 17 6, x.extractLsb' 5 12, x.extractLsb' 0 5⟩

/-- A field read as a narrower one: none where a bit above is set (R246, R277). -/
def narrow {m : Nat} (n : Nat) (x : BitVec m) : Option (BitVec n) :=
  if (x.setWidth n).setWidth m = x then some (x.setWidth n) else none

/-! ## Modifier codes (R278 to R288, R345) -/

/-- R278. -/
def Cond.code : Cond → BitVec 4
  | .eq => 0 | .ne => 1 | .lt => 2 | .le => 3 | .gt => 4 | .ge => 5
  | .ltu => 6 | .leu => 7 | .gtu => 8 | .geu => 9 | .un => 10
/-- R278. -/
def Cond.ofCode (c : BitVec 4) : Option Cond :=
  match c.toNat with
  | 0 => some .eq | 1 => some .ne | 2 => some .lt | 3 => some .le | 4 => some .gt | 5 => some .ge
  | 6 => some .ltu | 7 => some .leu | 8 => some .gtu | 9 => some .geu | 10 => some .un
  | _ => none
/-- R279. -/
def Comb.code : Comb → BitVec 3
  | .set => 0 | .setz => 1 | .all => 2 | .any => 3 | .alln => 4 | .anyn => 5 | .tog => 6 | .split => 7
/-- R279. -/
def Comb.ofCode (c : BitVec 3) : Comb :=
  match c.toNat with
  | 0 => .set | 1 => .setz | 2 => .all | 3 => .any | 4 => .alln | 5 => .anyn | 6 => .tog | _ => .split
/-- R280. -/
def Scope.code : Scope → BitVec 3
  | .ctx => 0 | .core => 1 | .lvl => 2 | .stk => 3 | .pkg => 4 | .sys => 5
/-- R280. -/
def Scope.ofCode (c : BitVec 3) : Option Scope :=
  match c.toNat with
  | 0 => some .ctx | 1 => some .core | 2 => some .lvl | 3 => some .stk | 4 => some .pkg | 5 => some .sys
  | _ => none
/-- R281. -/
def Hint.code : Hint → BitVec 2
  | .df => 0 | .st => 1 | .sk => 2 | .bypass => 3
/-- R281. -/
def Hint.ofCode (c : BitVec 2) : Hint :=
  match c.toNat with
  | 0 => .df | 1 => .st | 2 => .sk | _ => .bypass
/-- R285. -/
def LdSize.code : LdSize → BitVec 3
  | .b => 0 | .bu => 1 | .h => 2 | .hu => 3 | .w => 4 | .wu => 5 | .d => 6
/-- R285. -/
def LdSize.ofCode (c : BitVec 3) : Option LdSize :=
  match c.toNat with
  | 0 => some .b | 1 => some .bu | 2 => some .h | 3 => some .hu | 4 => some .w | 5 => some .wu | 6 => some .d
  | _ => none
/-- R285. -/
def StSize.code : StSize → BitVec 3
  | .b => 0 | .h => 1 | .w => 2 | .d => 3
/-- R285. -/
def StSize.ofCode (c : BitVec 3) : Option StSize :=
  match c.toNat with
  | 0 => some .b | 1 => some .h | 2 => some .w | 3 => some .d
  | _ => none
/-- R285. -/
def ProbeKind.code : ProbeKind → BitVec 2
  | .r => 0 | .w => 1 | .a => 2 | .x => 3
/-- R285. -/
def ProbeKind.ofCode (c : BitVec 2) : ProbeKind :=
  match c.toNat with
  | 0 => .r | 1 => .w | 2 => .a | _ => .x
/-- R287, R288. -/
def LogOp.code : LogOp → BitVec 2
  | .and => 0 | .or => 1 | .xor => 2 | .andn => 3
/-- R287, R288. -/
def LogOp.ofCode (c : BitVec 2) : LogOp :=
  match c.toNat with
  | 0 => .and | 1 => .or | 2 => .xor | _ => .andn
/-- R286. -/
def AmoOp.code : AmoOp → BitVec 4
  | .add => 0 | .smin => 1 | .smax => 2 | .umin => 3 | .umax => 4 | .and => 5 | .or => 6 | .xor => 7 | .swap => 8
/-- R286. -/
def AmoOp.ofCode (c : BitVec 4) : Option AmoOp :=
  match c.toNat with
  | 0 => some .add | 1 => some .smin | 2 => some .smax | 3 => some .umin | 4 => some .umax
  | 5 => some .and | 6 => some .or | 7 => some .xor | 8 => some .swap
  | _ => none
/-- R286. -/
def RedOp.code : RedOp → BitVec 4
  | .add => 0 | .smin => 1 | .smax => 2 | .umin => 3 | .umax => 4 | .and => 5 | .or => 6 | .xor => 7
  | .fadd => 8 | .fmin => 9 | .fmax => 10
/-- R286. -/
def RedOp.ofCode (c : BitVec 4) : Option RedOp :=
  match c.toNat with
  | 0 => some .add | 1 => some .smin | 2 => some .smax | 3 => some .umin | 4 => some .umax
  | 5 => some .and | 6 => some .or | 7 => some .xor | 8 => some .fadd | 9 => some .fmin | 10 => some .fmax
  | _ => none
/-- R283. -/
def PipeMode.code : PipeMode → BitVec 2
  | .inherit => 0 | .exp => 1 | .int => 2
/-- R283. -/
def PipeMode.ofCode (c : BitVec 2) : Option PipeMode :=
  match c.toNat with
  | 0 => some .inherit | 1 => some .exp | 2 => some .int
  | _ => none
/-- R94. -/
def Fmt.code : Fmt → BitVec 4
  | .nbf2 => 0 | .nbf3 => 1 | .nbf4 => 2 | .nbf5 => 3 | .nbf6 => 4 | .nbf7 => 5 | .nbf8 => 6
  | .bf16 => 7 | .fp16 => 8 | .fp32 => 9 | .i8 => 10 | .i16 => 11 | .i32 => 12 | .rcw => 13
/-- R94. -/
def Fmt.ofCode (c : BitVec 4) : Option Fmt :=
  match c.toNat with
  | 0 => some .nbf2 | 1 => some .nbf3 | 2 => some .nbf4 | 3 => some .nbf5 | 4 => some .nbf6 | 5 => some .nbf7
  | 6 => some .nbf8 | 7 => some .bf16 | 8 => some .fp16 | 9 => some .fp32 | 10 => some .i8 | 11 => some .i16
  | 12 => some .i32 | 13 => some .rcw
  | _ => none
/-- R99. -/
def Round.code : Round → BitVec 1
  | .rne => 0 | .sr => 1
/-- R99. -/
def Round.ofCode (c : BitVec 1) : Round := if c = 0 then .rne else .sr
/-- R287. -/
def VRedOp.code : VRedOp → BitVec 2
  | .sum => 0 | .max => 1 | .min => 2 | .argmax => 3
/-- R287. -/
def VRedOp.ofCode (c : BitVec 2) : VRedOp :=
  match c.toNat with
  | 0 => .sum | 1 => .max | 2 => .min | _ => .argmax
/-- R288. -/
def WorkUnit.code : WorkUnit → BitVec 3
  | .iter => 0 | .lnch => 1 | .graph => 2 | .step => 3 | .job => 4
/-- R288. -/
def WorkUnit.ofCode (c : BitVec 3) : Option WorkUnit :=
  match c.toNat with
  | 0 => some .iter | 1 => some .lnch | 2 => some .graph | 3 => some .step | 4 => some .job
  | _ => none
/-- R345. -/
def GField.code : GField → BitVec 4
  | .addr => 0 | .fmt => 1 | .blk => 2 | .brot => 3 | .sstr => 4 | .str0 => 5 | .str1 => 6 | .str2 => 7
  | .n0 => 8 | .n1 => 9 | .n2 => 10 | .pos => 11
/-- R345. -/
def GField.ofCode (c : BitVec 4) : Option GField :=
  match c.toNat with
  | 0 => some .addr | 1 => some .fmt | 2 => some .blk | 3 => some .brot | 4 => some .sstr | 5 => some .str0
  | 6 => some .str1 | 7 => some .str2 | 8 => some .n0 | 9 => some .n1 | 10 => some .n2 | 11 => some .pos
  | _ => none

/-- One bit as a Bool. -/
def bit1 (x : BitVec 1) : Bool := x == 1

/-! ## Slot decoding -/

/-- The slots of a bundle, in the order a bundle's slots are taken (R204). -/
inductive Slot | s | a | v | m | x
  deriving DecidableEq, Repr

/-- The scanner's reasons (R213). -/
inductive Reject
  | version | headerReserved | absentNotZero | opcode | field | pageKind | doubleWrite
  deriving DecidableEq, Repr

/-- The REASON code of CODESTAT (R213, R257). -/
def Reject.reason : Reject → Nat
  | .version => 1 | .headerReserved => 2 | .absentNotZero => 3 | .opcode => 4 | .field => 5
  | .pageKind => 6 | .doubleWrite => 7

/-- F1 with fn zero (R290). -/
def dec3 (mk : SReg → SReg → SReg → Instr) (o : BitVec 35) : Option Instr :=
  let f := F1.unpack o
  if f.fn = 0 then some (mk f.d f.a f.b) else none

/-- F1 with .U in fn[0] (R283). -/
def dec3u (mk : Bool → SReg → SReg → SReg → Instr) (o : BitVec 35) : Option Instr :=
  let f := F1.unpack o
  (narrow 1 f.fn).map fun u => mk (bit1 u) f.d f.a f.b

/-- F1 with b and fn zero (R290). -/
def dec2 (mk : SReg → SReg → Instr) (o : BitVec 35) : Option Instr :=
  let f := F1.unpack o
  if f.fn = 0 ∧ f.b = 0 then some (mk f.d f.a) else none

/-- F2 with a whole immediate (R291). -/
def decI (mk : SReg → SReg → BitVec 23 → Instr) (o : BitVec 35) : Option Instr :=
  let f := F2.unpack o
  some (mk f.d f.a f.imm)

/-- F2 with a 6-bit immediate (R291). -/
def decI6 (mk : SReg → SReg → BitVec 6 → Instr) (o : BitVec 35) : Option Instr :=
  let f := F2.unpack o
  (narrow 6 f.imm).map fun n => mk f.d f.a n

/-- F2 with d zero (R298). -/
def decJ (mk : SReg → BitVec 23 → Instr) (o : BitVec 35) : Option Instr :=
  let f := F2.unpack o
  if f.d = 0 then some (mk f.a f.imm) else none

/-- F5 with mod zero (R298). -/
def decB (mk : BitVec 26 → Instr) (o : BitVec 35) : Option Instr :=
  let f := F5.unpack o
  if f.mod = 0 then some (mk f.off) else none

/-- F8 with mod zero and the control field c: the fields d, a, b and c bits of ctl12 (R310). -/
def dec8 (c : Nat) (mk : SReg → SReg → SReg → BitVec c → Option Instr) (o : BitVec 35) : Option Instr :=
  let f := F8.unpack o
  if f.mod = 0 then (narrow c f.ctl).bind fun x => mk f.d f.a f.b x else none

/-- F8 with mod and ctl12 zero. -/
def dec80 (mk : SReg → SReg → SReg → Option Instr) (o : BitVec 35) : Option Instr :=
  let f := F8.unpack o
  if f.mod = 0 ∧ f.ctl = 0 then mk f.d f.a f.b else none

/-- F8 naming a scope in ctl12[2:0] and nothing above it (R280). -/
def decScope (mk : Scope → SReg → SReg → SReg → Option Instr) (o : BitVec 35) : Option Instr :=
  dec8 3 (fun d a b c => (Scope.ofCode c).bind fun sc => mk sc d a b) o

/-- Where a field must be zero. -/
def need (c : Bool) (i : Instr) : Option Instr := if c then some i else none

/-- CMP, CMPI and TBIT (R278, R279, R295). -/
def decCmp (o : BitVec 35) : Option Instr :=
  let f := F4.unpack o
  (Cond.ofCode f.cond).bind fun c =>
    if f.ib = 0 then (narrow 6 f.imm).map fun b => .cmp c (Comb.ofCode f.ct) f.p1 f.p2 f.a b else none
/-- CMPI (R295). -/
def decCmpi (o : BitVec 35) : Option Instr :=
  let f := F4.unpack o
  (Cond.ofCode f.cond).bind fun c =>
    if f.ib = 1 then some (.cmpi c (Comb.ofCode f.ct) f.p1 f.p2 f.a f.imm) else none
/-- TBIT (R295). -/
def decTbit (o : BitVec 35) : Option Instr :=
  let f := F4.unpack o
  (narrow 1 f.cond).bind fun c => (narrow 6 f.imm).map fun n =>
    .tbit (bit1 c) (Comb.ofCode f.ct) f.p1 f.p2 f.a (if f.ib = 1 then .imm n else .reg n)

/-- PLOG (R296). -/
def decPlog (o : BitVec 35) : Option Instr :=
  let f := F1.unpack o
  (narrow 2 f.fn).bind fun op => (narrow 4 f.d).bind fun d => (narrow 4 f.a).bind fun a => (narrow 4 f.b).map fun b =>
    .plog (LogOp.ofCode op) d a b

/-- PMOV and its forms (R297). -/
def decPmov (o : BitVec 35) : Option Instr :=
  let f := F1.unpack o
  if f.b = 0 then
    match f.fn.toNat with
    | 0 => (narrow 4 f.d).bind fun d => (narrow 4 f.a).map fun a => .pmov d a
    | 1 => (narrow 4 f.d).bind fun d => (narrow 4 f.a).map fun a => .pmovN d a
    | 2 => need (f.a == 0) (.pmovP2s f.d)
    | 3 => need (f.d == 0) (.pmovS2p f.a)
    | _ => none
  else none

/-- LOOP, LOOPR and LOOPP (R284). -/
def decLoop (mk : PipeMode → SReg → SReg → BitVec 12 → Option Instr) (o : BitVec 35) : Option Instr :=
  let f := F8.unpack o
  (narrow 2 f.mod).bind fun m => (PipeMode.ofCode m).bind fun pm => if f.d = 0 then mk pm f.a f.b f.ctl else none

/-- LD and LD.ACQ (R285, R280, R281). -/
def decLd (o : BitVec 35) : Option Instr :=
  let f := F6.unpack o
  if f.sz = 7 then
    (Scope.ofCode (f.off.extractLsb' 15 3)).bind fun sc => need (f.rh == 0) (.ldAcq sc f.d f.a (f.off.extractLsb' 0 15))
  else (LdSize.ofCode f.sz).map fun z => .ld z (Hint.ofCode f.rh) f.d f.a f.off
/-- ST and ST.REL (R285, R280, R281). -/
def decSt (o : BitVec 35) : Option Instr :=
  let f := F6.unpack o
  if f.sz = 4 then
    (Scope.ofCode (f.off.extractLsb' 15 3)).bind fun sc => need (f.rh == 0) (.stRel sc f.d f.a (f.off.extractLsb' 0 15))
  else (StSize.ofCode f.sz).map fun z => .st z (Hint.ofCode f.rh) f.d f.a f.off

/-- GETC (R329, R254). -/
def decGetc (o : BitVec 35) : Option Instr :=
  let f := F2.unpack o
  (narrow 12 f.imm).bind fun n => need (f.a == 0) (if n = 0x030 then .dqPop f.d else .getc f.d n)

/-- SETC (R329), each row of the opcode table that names a register apart (R257). -/
def decSetc (o : BitVec 35) : Option Instr :=
  let f := F2.unpack o
  (narrow 12 f.imm).bind fun n => need (f.d == 0) (match n.toNat with
    | 0x010 => .fpstatWrite f.a
    | 0x020 => .rngControlWrite 0 f.a
    | 0x021 => .rngControlWrite 1 f.a
    | 0x022 => .rngControlWrite 2 f.a
    | 0x102 => .ctxlogWrite false f.a
    | 0x103 => .ctxlogWrite true f.a
    | 0x114 => .budcmt f.a
    | 0x120 => .jobstart f.a
    | 0x142 => .tsinv f.a
    | 0x14C => .shaftgo f.a
    | 0x162 => .routeswap f.a
    | 0x16C => .barcfg f.a
    | 0x170 => .contain f.a
    | _ => .setc n f.a)

/-- The S slot (R272, R310). The answer is none where the opcode is unassigned and some none where a field is refused. -/
def decS (op : BitVec 8) (o : BitVec 35) : Option (Option Instr) :=
  match op.toNat with
  | 0x00 => some (need (o == 0) .nop)
  | 0x01 => some (dec3 .add o) | 0x02 => some (decI .addi o) | 0x03 => some (dec3 .sub o) | 0x04 => some (dec3 .mul o)
  | 0x05 => some (dec3u .mulh o) | 0x06 => some (dec3u .div o) | 0x07 => some (dec3u .rem o) | 0x08 => some (dec3 .and o)
  | 0x09 => some (decI .andi o) | 0x0A => some (dec3 .or o) | 0x0B => some (decI .ori o) | 0x0C => some (dec3 .xor o)
  | 0x0D => some (decI .xori o) | 0x0E => some (dec3 .andn o) | 0x0F => some (dec3 .shl o) | 0x10 => some (decI6 .shli o)
  | 0x11 => some (dec3 .shr o) | 0x12 => some (decI6 .shri o) | 0x13 => some (dec3 .sar o) | 0x14 => some (decI6 .sari o)
  | 0x15 => some (dec3 .rotl o) | 0x16 => some (dec3u .min o) | 0x17 => some (dec3u .max o) | 0x18 => some (dec2 .clz o)
  | 0x19 => some (dec2 .ctz o) | 0x1A => some (dec2 .popc o)
  | 0x1B => some (let f := F2.unpack o
      (narrow 13 f.imm).map fun x => .bfx (bit1 (x.extractLsb' 12 1)) f.d f.a (x.extractLsb' 0 6) (x.extractLsb' 6 6))
  | 0x1C => some (let f := F2.unpack o
      (narrow 12 f.imm).map fun x => .bfi f.d f.a (x.extractLsb' 0 6) (x.extractLsb' 6 6))
  | 0x1D => some (decI6 .sxt o)
  | 0x1E => some (let f := F3.unpack o; some (.ldi f.d f.imm))
  | 0x1F => some (let f := F3.unpack o; some (.ldih f.d f.imm))
  | 0x20 => some (dec8 4 (fun d a b c => some (.sel d a b c)) o)
  | 0x21 => some (dec8 4 (fun d a b c => some (.lea d a b c)) o)
  | 0x28 => some (decCmp o) | 0x29 => some (decCmpi o) | 0x2A => some (decTbit o)
  | 0x2B => some (decPlog o) | 0x2C => some (decPmov o)
  | 0x30 => some (decB .br o) | 0x31 => some (decJ .bri o) | 0x32 => some (decB .call o) | 0x33 => some (decJ .calli o)
  | 0x34 => some (decJ .ret o)
  | 0x35 => some (decLoop (fun pm a b c => need (b == 0) (.loop pm a c)) o)
  | 0x36 => some (decLoop (fun pm a b c => (narrow 5 b).bind fun sh => need (a == 0) (.loopr pm sh c)) o)
  | 0x37 => some (decLoop (fun pm a b c => (narrow 3 b).map fun st => .loopp pm a st c) o)
  | 0x38 => some (need (o == 0) .endi)
  | 0x40 => some (decLd o) | 0x41 => some (decSt o)
  | 0x48 => some (dec8 12 (fun d a b c => (AmoOp.ofCode (c.extractLsb' 8 4)).bind fun p =>
      need (d == 0 && c.extractLsb' 0 7 == 0) (.amo p (bit1 (c.extractLsb' 7 1)) a b)) o)
  | 0x49 => some (dec8 8 (fun d a b c => need (c.extractLsb' 0 7 == 0) (.acas (bit1 (c.extractLsb' 7 1)) d a b)) o)
  | 0x4A => some (dec8 8 (fun d a b c => need (b == 0 && c.extractLsb' 0 7 == 0) (.apop (bit1 (c.extractLsb' 7 1)) d a)) o)
  | 0x4B => some (dec8 12 (fun d a b c => (RedOp.ofCode (c.extractLsb' 8 4)).bind fun p =>
      need (d == 0 && c.extractLsb' 0 7 == 0) (.red p (bit1 (c.extractLsb' 7 1)) a b)) o)
  | 0x4C => some (let f := F2.unpack o; need (f.d == 0 && f.imm == 0) (.ored f.a))
  | 0x50 => some (dec8 2 (fun d a b c => some (.phreg (bit1 (c.extractLsb' 0 1)) (bit1 (c.extractLsb' 1 1)) d a b)) o)
  | 0x51 => some (dec80 (fun d a b => need (d == 0 && b == 0) (.phdrop a)) o)
  | 0x52 => some (decScope (fun sc d a b => need (d == 0 && b == 0) (.phsig sc a)) o)
  | 0x53 => some (decScope (fun sc d a b => need (d == 0 && b == 0) (.phwait sc a)) o)
  | 0x54 => some (decScope (fun sc d a b => need (d == 0 && b == 0) (.phsw sc a)) o)
  | 0x55 => some (dec8 4 (fun d a b c => (Scope.ofCode (c.extractLsb' 0 3)).bind fun sc => (narrow 4 d).map fun p =>
      .tkacq sc (bit1 (c.extractLsb' 3 1)) p a b) o)
  | 0x56 => some (decScope (fun sc d a b => need (d == 0 && b == 0) (.tkrel sc a)) o)
  | 0x57 => some (dec8 3 (fun d a b c => need (d == 0 && a == 0 && b == 0) (.bar c)) o)
  | 0x58 => some (decScope (fun sc d a b => need (d == 0 && a == 0 && b == 0) (.fence sc)) o)
  | 0x59 => some (dec80 (fun d a b => some (.rbind d a b)) o)
  | 0x5A => some (dec80 (fun d a b => need (a == 0) (.runbind d b)) o)
  | 0x5B => some (decScope (fun sc d a b => need (d == 0) (.flwait sc a b)) o)
  | 0x60 => some (dec8 12 (fun d a b c => need (b == 0 && c.extractLsb' 0 11 == 0) (.msend (bit1 (c.extractLsb' 11 1)) d a)) o)
  | 0x61 => some (dec80 (fun d a b => need (a == 0) (.mrecv d b)) o)
  | 0x62 => some (dec80 (fun d a b => need (a == 0 && b == 0) (.mpoll d)) o)
  | 0x64 => some (dec80 (fun d a b => some (.shput d a b)) o)
  | 0x65 => some (dec80 (fun d a b => need (b == 0) (.shget d a)) o)
  | 0x66 => some (decScope (fun sc d a b => need (d == 0 && a == 0 && b == 0) (.shsync sc)) o)
  | 0x70 => some (let f := F3.unpack o; need (f.d == 0) (.trap f.imm))
  | 0x71 => some (decGetc o)
  | 0x72 => some (decSetc o)
  | 0x73 => some (let f := F6.unpack o
      need (f.rh == 0) (.probe (ProbeKind.ofCode (f.sz.extractLsb' 0 2)) (bit1 (f.sz.extractLsb' 2 1)) f.d f.a f.off))
  | 0x74 => some (let f := F2.unpack o; need (f.d == 0 && f.imm == 0) (.logmark f.a))
  | 0x75 => some (need (o == 0) .halt)
  | 0x78 => some (dec80 (fun d a b => need (b == 0) (.launch d a)) o)
  | 0x79 => some (dec80 (fun d a b => some (.glaunch d a b)) o)
  | 0x7A => some (need (o == 0) .step)
  | 0x7B => some (dec8 3 (fun d a b c => (WorkUnit.ofCode c).bind fun u => need (b == 0) (.cancel u d a)) o)
  | 0x7C => some (dec8 3 (fun d a b c => (WorkUnit.ofCode c).bind fun u => need (b == 0) (.waitc u d a)) o)
  | 0x7D => some (dec80 (fun d a b => need (b == 0) (.admitReq d a)) o)
  | 0x7E => some (dec80 (fun d a b => some (.rqrd d a b)) o)
  | 0x7F => some (dec8 12 (fun d a b c => some (.rqwr c d a b)) o)
  | 0x80 => some (dec8 1 (fun d a b c => some (if c = 0 then .preempt d a b else .preemptRel d a b)) o)
  | 0x81 => some (dec8 2 (fun d a b c => match c.toNat with
      | 0 => some (.ctxres .retry d a b) | 1 => some (.ctxres .skip d a b) | 2 => some (.ctxresKill d a b) | _ => none) o)
  | 0x82 => some (dec80 (fun d a b => need (b == 0) (.pmig d a)) o)
  | 0x83 => some (dec80 (fun d a b => need (b == 0) (.evict d a)) o)
  | _ => none

/-- The A-slot F7 instructions: t, t2 and g2 zero, c bits of mod in use (R345 to R350). -/
def dec7 (c : Nat) (mk : BitVec 4 → GReg → SReg → BitVec c → Option Instr) (o : BitVec 35) : Option Instr :=
  let f := F7.unpack o
  if f.t2 = 0 ∧ f.g2 = 0 then (narrow c f.mod).bind fun x => mk f.t f.g f.a x else none

/-- F6 scratch access with rh zero (R352, R353). -/
def decScr (mk : BitVec 6 → SReg → BitVec 3 → BitVec 18 → Option Instr) (o : BitVec 35) : Option Instr :=
  let f := F6.unpack o
  if f.rh = 0 then mk f.d f.a f.sz f.off else none

/-- The A slot (R273, R340 to R361). -/
def decA (op : BitVec 8) (o : BitVec 35) : Option (Option Instr) :=
  match op.toNat with
  | 0x00 => some (need (o == 0) .nop)
  | 0x01 => some (decI .aadd o)
  | 0x02 => some (let f := F1.unpack o; (narrow 3 f.fn).map fun sh => .aaddr f.d f.a f.b sh)
  | 0x08 => some (dec7 4 (fun t g a c => (GField.ofCode c).bind fun f => need (t == 0) (.gset f g a)) o)
  | 0x09 => some (dec7 1 (fun t g a c => need (t == 0) (.gload (bit1 c) g a)) o)
  | 0x0A => some (dec7 0 (fun t g a _ => need (t == 0) (.gadv g a)) o)
  | 0x0B => some (dec7 0 (fun t g a _ => need (t == 0) (.gidx g a)) o)
  | 0x10 => some (dec7 4 (fun t g a c => some (.tld (Hint.ofCode (c.extractLsb' 1 2)) (bit1 (c.extractLsb' 0 1))
      (bit1 (c.extractLsb' 3 1)) t g a)) o)
  | 0x11 => some (dec7 4 (fun t g a c => some (.tst (Hint.ofCode (c.extractLsb' 1 2)) (bit1 (c.extractLsb' 0 1))
      (bit1 (c.extractLsb' 3 1)) t g a)) o)
  | 0x12 => some (decScr (fun d a z off => (LdSize.ofCode z).map fun z => .sld z d a off) o)
  | 0x13 => some (decScr (fun d a z off => (StSize.ofCode z).map fun z => .sst z d a off) o)
  | 0x14 => some (decScr (fun d a z off => (narrow 5 d).bind fun d => need (z == 0) (.vlds d a off)) o)
  | 0x15 => some (decScr (fun d a z off => (narrow 5 d).bind fun d => need (z == 0) (.vsts d a off)) o)
  | 0x18 => some (dec80 (fun d a b => some (.rmap d a b)) o)
  | 0x19 => some (dec80 (fun d a b => need (b == 0) (.runmap d a)) o)
  | 0x1A => some (dec80 (fun d a b => some (.rwb d a b)) o)
  | 0x1B => some (dec80 (fun d a b => some (.rinv d a b)) o)
  | 0x1C => some (dec80 (fun d a b => some (.rfill d a b)) o)
  | 0x20 => some (dec8 3 (fun d a b c => some (.qcfg c d a b)) o)
  | 0x21 => some (dec8 3 (fun d a b c => need (d == 0 && b == 0) (.qwaitf c a)) o)
  | 0x22 => some (dec8 3 (fun d a b c => need (d == 0 && b == 0) (.qwaite c a)) o)
  | 0x23 => some (dec8 4 (fun d a b c => need (d == 0 && b == 0)
      (if c.extractLsb' 3 1 = 0 then .qadvH (c.extractLsb' 0 3) a else .qadvT (c.extractLsb' 0 3) a)) o)
  | _ => none

/-- Vector F1 with c bits above the mask in fn (R287, R363). -/
def decV (c : Nat) (mk : BitVec 6 → BitVec 6 → BitVec 6 → BitVec c → KReg → Option Instr) (o : BitVec 35) : Option Instr :=
  let f := F1.unpack o
  (narrow (c + 3) f.fn).bind fun x => mk f.d f.a f.b (x.extractLsb' 3 c) (x.extractLsb' 0 3)

/-- Three vectors and a mask (R363). -/
def decV3 (mk : VReg → VReg → VReg → KReg → Instr) (o : BitVec 35) : Option Instr :=
  decV 0 (fun d a b _ k => (narrow 5 d).bind fun d => (narrow 5 a).bind fun a => (narrow 5 b).map fun b => mk d a b k) o
/-- Three vectors, .U and a mask (R363). -/
def decV3u (mk : Bool → VReg → VReg → VReg → KReg → Instr) (o : BitVec 35) : Option Instr :=
  decV 1 (fun d a b u k => (narrow 5 d).bind fun d => (narrow 5 a).bind fun a => (narrow 5 b).map fun b => mk (bit1 u) d a b k) o
/-- Two vectors and a mask, b zero (R363). -/
def decV2 (mk : VReg → VReg → KReg → Instr) (o : BitVec 35) : Option Instr :=
  decV 0 (fun d a b _ k => (narrow 5 d).bind fun d => (narrow 5 a).bind fun a => need (b == 0) (mk d a k)) o
/-- A vector compare (R363, R367). -/
def decVc (mk : Cond → KReg → VReg → VReg → KReg → Instr) (o : BitVec 35) : Option Instr :=
  decV 4 (fun d a b c k => (narrow 3 d).bind fun d => (narrow 5 a).bind fun a => (narrow 5 b).bind fun b =>
    (Cond.ofCode c).map fun c => mk c d a b k) o
/-- A vector from a scalar (R363). -/
def decVs (mk : VReg → SReg → KReg → Instr) (o : BitVec 35) : Option Instr :=
  decV 0 (fun d a b _ k => (narrow 5 d).bind fun d => need (b == 0) (mk d a k)) o

/-- The V slot (R274, R363). -/
def decVSlot (op : BitVec 8) (o : BitVec 35) : Option (Option Instr) :=
  match op.toNat with
  | 0x00 => some (need (o == 0) .nop)
  | 0x01 => some (decV3 .vadd o) | 0x02 => some (decV3 .vsub o) | 0x03 => some (decV3 .vmul o) | 0x04 => some (decV3 .vfma o)
  | 0x05 => some (decV3 .vmax o) | 0x06 => some (decV3 .vmin o) | 0x07 => some (decV2 .vabs o) | 0x08 => some (decV2 .vneg o)
  | 0x09 => some (decV3 .vdiv o) | 0x0A => some (decV2 .vsqrt o) | 0x0B => some (decV2 .vexp2 o) | 0x0C => some (decV3 .vscale o)
  | 0x0D => some (decVc .vcmp o) | 0x10 => some (decV3 .viadd o) | 0x11 => some (decV3 .visub o) | 0x12 => some (decV3 .vimul o)
  | 0x13 => some (decV3u .vimin o) | 0x14 => some (decV3u .vimax o) | 0x15 => some (decV3 .vand o) | 0x16 => some (decV3 .vor o)
  | 0x17 => some (decV3 .vxor o) | 0x18 => some (decV3 .vshl o) | 0x19 => some (decV3u .vshr o) | 0x1A => some (decVc .vicmp o)
  | 0x20 => some (decV3 .vsel o) | 0x21 => some (decVs .vbcst o)
  | 0x22 => some (decV 6 (fun d a b n k => (narrow 5 a).bind fun a => need (b == 0 && k == 0) (.vgetl n d a)) o)
  | 0x23 => some (decV 6 (fun d a b n k => (narrow 5 d).bind fun d => need (b == 0) (.vputl n d a k)) o)
  | 0x24 => some (decV3 .vperm o) | 0x25 => some (decVs .viota o)
  | 0x28 => some (decV 9 (fun d a b c k => (narrow 5 d).bind fun d => (narrow 5 a).bind fun a =>
      (Fmt.ofCode (c.extractLsb' 0 4)).bind fun s => (Fmt.ofCode (c.extractLsb' 4 4)).bind fun t =>
      need (b == 0) (.vcvt s t (Round.ofCode (c.extractLsb' 8 1)) d a k)) o)
  | 0x2A => some (dec8 2 (fun d a b c => (narrow 5 d).bind fun d => (narrow 4 a).map fun a =>
      .vtr (Round.ofCode (c.extractLsb' 0 1)) (bit1 (c.extractLsb' 1 1)) d a b) o)
  | 0x2B => some (dec8 2 (fun d a b c => (narrow 4 d).bind fun d => (narrow 5 a).map fun a =>
      .vtw (Round.ofCode (c.extractLsb' 0 1)) (bit1 (c.extractLsb' 1 1)) d a b) o)
  | 0x30 => some (decV 2 (fun d a b c k => (narrow 5 d).bind fun d => (narrow 5 a).bind fun a =>
      need (b == 0) (.vred (VRedOp.ofCode c) d a k)) o)
  | 0x31 => some (decV 6 (fun d a b c k => (narrow 5 d).bind fun d => (narrow 5 a).bind fun a => (narrow 5 b).map fun b =>
      .vtopk c d a b k) o)
  | 0x34 => some (decV 2 (fun d a b c k => (narrow 3 d).bind fun d => (narrow 3 a).bind fun a => (narrow 3 b).bind fun b =>
      need (k == 0) (.klog (LogOp.ofCode c) d a b)) o)
  | 0x35 => some (decV 0 (fun d a b _ k => (narrow 3 a).bind fun a => need (b == 0 && k == 0) (.kpopc d a)) o)
  | 0x36 => some (decV 2 (fun d a b c k => if b = 0 ∧ k = 0 then
      match c.toNat with
      | 0 => (narrow 3 d).bind fun d => (narrow 3 a).map fun a => .kmov d a
      | 1 => (narrow 3 d).map fun d => .kmovS2k d a
      | 2 => (narrow 3 a).map fun a => .kmovK2s d a
      | _ => none
      else none) o)
  | 0x38 => some (decV 0 (fun d a b _ k => (narrow 5 d).bind fun d => need (a == 0 && b == 0) (.vrng d k)) o)
  | _ => none

/-- A matrix operand: the tile field, or the stream field where its mod bit is set; the other is zero (R275, R382). -/
def decMatSrc (s : BitVec 1) (t g : BitVec 4) : Option MatSrc :=
  if s = 1 then (if t = 0 then some (.stream g) else none) else (if g = 0 then some (.tile t) else none)

/-- The M slot (R275, R282). -/
def decM (op : BitVec 8) (o : BitVec 35) : Option (Option Instr) :=
  let f := F7.unpack o
  let m0 := f.mod.extractLsb' 0 1
  let rm := Round.ofCode (f.mod.extractLsb' 1 1)
  let fmt := Fmt.ofCode (f.mod.extractLsb' 2 4)
  match op.toNat with
  | 0x00 => some (need (o == 0) .nop)
  | 0x01 => some ((decMatSrc (f.mod.extractLsb' 6 1) f.t f.g).bind fun l => (decMatSrc (f.mod.extractLsb' 7 1) f.t2 f.g2).bind fun r =>
      need (f.a == 0 && f.mod.extractLsb' 8 5 == 0 && f.mod.extractLsb' 1 5 == 0) (.mma m0 l r))
  | 0x02 => some ((decMatSrc (f.mod.extractLsb' 6 1) f.t f.g).bind fun l => (decMatSrc (f.mod.extractLsb' 7 1) f.t2 f.g2).bind fun r =>
      (narrow 4 f.a).bind fun m => need (f.mod.extractLsb' 8 5 == 0 && f.mod.extractLsb' 1 5 == 0) (.mmas m0 l r m))
  | 0x04 => some ((decMatSrc (f.mod.extractLsb' 7 1) f.t2 f.g2).bind fun k => (narrow 4 f.a).bind fun a =>
      (decMatSrc (f.mod.extractLsb' 6 1) a f.g).bind fun v =>
      need (f.mod.extractLsb' 8 5 == 0 && f.mod.extractLsb' 1 5 == 0) (.matt m0 f.t k v))
  | 0x05 => some (fmt.bind fun x => need (f.g == 0 && f.t2 == 0 && f.g2 == 0 && f.a == 0 && f.mod.extractLsb' 6 7 == 0)
      (.mattf x rm f.t m0))
  | 0x06 => some (need (f.t == 0 && f.g == 0 && f.t2 == 0 && f.g2 == 0 && f.mod.extractLsb' 1 12 == 0) (.aclr m0 f.a))
  | 0x07 => some (fmt.bind fun x => need (f.g == 0 && f.t2 == 0 && f.g2 == 0 && f.a == 0 && f.mod.extractLsb' 6 2 == 0
      && f.mod.extractLsb' 9 4 == 0) (.acrd x rm (bit1 (f.mod.extractLsb' 8 1)) f.t m0))
  | 0x08 => some (need (f.g == 0 && f.t2 == 0 && f.g2 == 0 && f.mod.extractLsb' 1 12 == 0) (.acld m0 f.t f.a))
  | 0x09 => some ((narrow 4 f.a).bind fun m => need (f.g == 0 && f.g2 == 0 && f.mod == 0) (.cmpr f.t f.t2 m))
  | 0x0A => some (need (f.g == 0 && f.g2 == 0 && f.a == 0 && f.mod == 0) (.mtrn f.t f.t2))
  | 0x0B => some (need (f.g == 0 && f.t2 == 0 && f.g2 == 0 && f.a == 0 && f.mod == 0) (.mzero f.t))
  | 0x0C => some (fmt.bind fun x => need (f.g == 0 && f.g2 == 0 && f.a == 0 && m0 == 0 && f.mod.extractLsb' 6 7 == 0)
      (.mcvt x rm f.t f.t2))
  | _ => none

/-- What PUT's ring, .Q, .H and handler fields name (R393). -/
def decPutEnd (c : BitVec 12) : Option PutEnd :=
  let ring := c.extractLsb' 7 3
  let x := c.extractLsb' 0 5
  if c.extractLsb' 5 1 = 1 then
    (narrow 4 x).bind fun x => if c.extractLsb' 6 1 = 0 ∧ ring = 0 then some (.handler x) else none
  else if x = 0 then
    if c.extractLsb' 6 1 = 1 then some (.ring ring) else if ring = 0 then some .plain else none
  else none

/-- The X slot (R276, R393). -/
def decX (op : BitVec 8) (o : BitVec 35) : Option (Option Instr) :=
  let f := F7.unpack o
  match op.toNat with
  | 0x00 => some (need (o == 0) .nop)
  | 0x01 => some (dec8 1 (fun d a b c => (narrow 4 d).bind fun t => need (b == 0) (.cwld (bit1 c) t a)) o)
  | 0x02 => some (dec8 1 (fun d a b c => (narrow 4 d).bind fun t => need (b == 0) (.cwst (bit1 c) t a)) o)
  | 0x03 => some (dec8 6 (fun d a b c => (narrow 4 d).bind fun t => (narrow 3 b).bind fun k =>
      need (c.extractLsb' 0 4 == 0) (.cwupd (bit1 (c.extractLsb' 4 1)) (bit1 (c.extractLsb' 5 1)) t a k)) o)
  | 0x04 => some (dec8 5 (fun d a b c => (narrow 4 a).bind fun t =>
      need (b == 0 && c.extractLsb' 0 4 == 0) (.cwcnt (bit1 (c.extractLsb' 4 1)) d t)) o)
  | 0x05 => some (dec8 5 (fun d a b c => (narrow 4 d).bind fun d => (narrow 4 a).bind fun a =>
      need (b == 0 && c.extractLsb' 3 1 == 0) (.compact (bit1 (c.extractLsb' 4 1)) (c.extractLsb' 0 3) d a)) o)
  | 0x06 => some (dec8 3 (fun d a b c => (narrow 4 d).bind fun d => (narrow 4 a).bind fun a =>
      need (b == 0) (.restore c d a)) o)
  | 0x07 => some (dec80 (fun d a b => (narrow 4 d).bind fun t => need (a == 0 && b == 0) (.exnote t)) o)
  | 0x08 => some (dec8 8 (fun d a b c => (narrow 4 d).bind fun t =>
      need (a == 0) (.kvapp (bit1 (c.extractLsb' 0 1)) (bit1 (c.extractLsb' 7 1)) (c.extractLsb' 1 6) t b)) o)
  | 0x09 => some ((narrow 10 f.mod).bind fun m =>
      if f.g2 = 0 then
        if m.extractLsb' 9 1 = 1 then
          some (.kvg (Hint.ofCode (m.extractLsb' 1 2)) (bit1 (m.extractLsb' 0 1)) (m.extractLsb' 3 6) f.t f.g f.a (some f.t2))
        else need (f.t2 == 0) (.kvg (Hint.ofCode (m.extractLsb' 1 2)) (bit1 (m.extractLsb' 0 1)) (m.extractLsb' 3 6) f.t f.g f.a none)
      else none)
  | 0x0A => some (dec8 7 (fun d a b c => some (.kvscan (bit1 (c.extractLsb' 0 1)) (c.extractLsb' 1 6) d a b)) o)
  | 0x0B => some (dec80 (fun d a b => (narrow 4 d).bind fun t => need (b == 0) (.kvexs t a)) o)
  | 0x0C => some (dec7 3 (fun t g a c => need (c.extractLsb' 0 1 == 0) (.gath (Hint.ofCode (c.extractLsb' 1 2)) t g a)) o)
  | 0x0D => some (dec7 3 (fun t g a c => need (c.extractLsb' 0 1 == 0) (.scat (Hint.ofCode (c.extractLsb' 1 2)) t g a)) o)
  | 0x0E => some (dec8 12 (fun d a b c => (decPutEnd c).bind fun e =>
      need (c.extractLsb' 10 1 == 0) (.put (bit1 (c.extractLsb' 11 1)) e d a b)) o)
  | 0x0F => some (dec8 12 (fun d a b c => need (c.extractLsb' 0 11 == 0) (.get (bit1 (c.extractLsb' 11 1)) d a b)) o)
  | 0x10 => some (dec8 12 (fun d a b c => need (d == 0 && c.extractLsb' 0 10 == 0)
      (.fsend (bit1 (c.extractLsb' 11 1)) (bit1 (c.extractLsb' 10 1)) a b)) o)
  | 0x11 => some (dec8 1 (fun d a b c => (narrow 4 d).bind fun t =>
      if c = 1 then some (.frecv (some b) t a) else need (b == 0) (.frecv none t a)) o)
  | _ => none

/-- The table of the slot named (R271). -/
def decTable : Slot → BitVec 8 → BitVec 35 → Option (Option Instr)
  | .s => decS
  | .a => decA
  | .v => decVSlot
  | .m => decM
  | .x => decX

/-- Checks 4 and 5 of R213 on one slot's opcode and operands. -/
def decodeOps (sl : Slot) (op : BitVec 8) (o : BitVec 35) : Except Reject Instr :=
  match decTable sl op o with
  | none => .error .opcode
  | some none => .error .field
  | some (some i) => if wfFields i then .ok i else .error .field

/-! ## Registers an instruction writes and reads -/

/-- An architected register by class (R249). -/
inductive RegName
  | s (n : Nat) | p (n : Nat) | v (n : Nat) | k (n : Nat) | t (n : Nat) | a (n : Nat) | g (n : Nat) | q (n : Nat)
  | lc | ec | lr | ctl (n : Nat)
  deriving DecidableEq, Repr

/-- A run of registers. -/
def runOf (f : Nat → RegName) (start n : Nat) : List RegName := (List.range n).map fun i => f (start + i)

/-- The registers an instruction writes, implicit writes among them (R213, R265). -/
def Instr.writes : Instr → List RegName
  | .add d _ _ | .sub d _ _ | .mul d _ _ | .mulh _ d _ _ | .div _ d _ _ | .rem _ d _ _ | .and d _ _ | .or d _ _ | .xor d _ _
  | .andn d _ _ | .shl d _ _ | .shr d _ _ | .sar d _ _ | .rotl d _ _ | .min _ d _ _ | .max _ d _ _ | .clz d _ | .ctz d _
  | .popc d _ | .addi d _ _ | .andi d _ _ | .ori d _ _ | .xori d _ _ | .shli d _ _ | .shri d _ _ | .sari d _ _
  | .bfx _ d _ _ _ | .bfi d _ _ _ | .sxt d _ _ | .ldi d _ | .ldih d _ | .sel d _ _ _ | .lea d _ _ _ | .pmovP2s d
  | .ld _ _ d _ _ | .ldAcq _ d _ _ | .apop _ d _ | .phreg _ _ d _ _ | .rbind d _ _ | .runbind d _ | .mpoll d
  | .getc d _ | .dqPop d | .launch d _ | .glaunch d _ _ | .cancel _ d _ | .waitc _ d _ | .admitReq d _ | .rqrd d _ _
  | .rqwr _ d _ _ | .preempt d _ _ | .preemptRel d _ _ | .ctxres _ d _ _ | .ctxresKill d _ _ | .pmig d _ | .evict d _
  | .aadd d _ _ | .aaddr d _ _ _ | .sld _ d _ _ | .rmap d _ _ | .runmap d _ | .rwb d _ _ | .rinv d _ _ | .rfill d _ _
  | .vgetl _ d _ | .kpopc d _ | .kmovK2s d _ => [.s d.toNat]
  | .probe _ nf d _ _ => if nf then [.s d.toNat] else []
  | .cmp _ _ p1 p2 _ _ | .cmpi _ _ p1 p2 _ _ | .tbit _ _ p1 p2 _ _ => [.p p1.toNat, .p p2.toNat]
  | .plog _ d _ _ | .pmov d _ | .pmovN d _ | .tkacq _ _ d _ _ => [.p d.toNat]
  | .pmovS2p _ => runOf .p 1 15
  | .call _ | .calli _ _ => [.s 63]
  | .loop _ _ _ | .loopr _ _ _ => [.lc, .ec]
  | .loopp _ _ _ _ => [.lc, .ec] ++ runOf .p 8 8
  | .mrecv d b => runOf .s d.toNat 4 ++ [.s b.toNat]
  | .shget d _ => runOf .s d.toNat 8
  | .setc n _ => [.ctl n.toNat]
  | .fpstatWrite _ => [.ctl 0x010]
  | .rngControlWrite r _ => [.ctl (0x020 + r.toNat)]
  | .gset _ g _ | .gload _ g _ | .gadv g _ | .gidx g _ => [.g g.toNat]
  | .tld _ _ adv t g _ => .t t.toNat :: (if adv then [.g g.toNat] else [])
  | .tst _ _ adv _ g _ => if adv then [.g g.toNat] else []
  | .vlds d _ _ => [.v d.toNat]
  | .qcfg q d _ _ => [.q q.toNat, .s d.toNat]
  | .qadvH q _ | .qadvT q _ => [.q q.toNat]
  | .vadd d _ _ _ | .vsub d _ _ _ | .vmul d _ _ _ | .vfma d _ _ _ | .vmax d _ _ _ | .vmin d _ _ _ | .vabs d _ _ | .vneg d _ _
  | .vdiv d _ _ _ | .vsqrt d _ _ | .vexp2 d _ _ | .vscale d _ _ _ | .viadd d _ _ _ | .visub d _ _ _ | .vimul d _ _ _
  | .vimin _ d _ _ _ | .vimax _ d _ _ _ | .vand d _ _ _ | .vor d _ _ _ | .vxor d _ _ _ | .vshl d _ _ _ | .vshr _ d _ _ _
  | .vsel d _ _ _ | .vbcst d _ _ | .vputl _ d _ _ | .vperm d _ _ _ | .viota d _ _ | .vcvt _ _ _ d _ _ | .vtr _ _ d _ _
  | .vred _ d _ _ | .vrng d _ => [.v d.toNat]
  | .vtopk _ d _ b _ => [.v d.toNat, .v b.toNat]
  | .vcmp _ d _ _ _ | .vicmp _ d _ _ _ | .klog _ d _ _ | .kmov d _ | .kmovS2k d _ => [.k d.toNat]
  | .vtw _ _ d _ _ => [.t d.toNat]
  | .mma a _ _ | .mmas a _ _ _ | .matt a _ _ _ | .aclr a _ | .acld a _ _ => [.a a.toNat]
  | .mattf _ _ t _ | .acrd _ _ _ t _ | .mtrn t _ | .mzero t | .mcvt _ _ t _ | .cwld _ t _ | .cwupd _ _ t _ _
  | .gath _ t _ _ | .frecv _ t _ => [.t t.toNat]
  | .cmpr t _ m => [.t t.toNat, .t m.toNat]
  | .cwcnt _ d _ => [.s d.toNat, .lr]
  | .compact _ k d _ => runOf .t d.toNat (k.toNat + 1) ++ [.lr]
  | .restore k d _ => runOf .t d.toNat (k.toNat + 1)
  | .kvg _ _ _ t _ _ mq => runOf .t t.toNat 2 ++ (match mq with | some m => [.t m.toNat] | none => [])
  | .kvscan _ _ d _ _ => [.s d.toNat, .lr]
  | _ => []

/-- The tiles and accumulators a matrix operand names. -/
def MatSrc.reads : MatSrc → List RegName
  | .tile t => [.t t.toNat]
  | .stream g => [.g g.toNat]

/-- The registers an instruction reads, a merged destination among them (R292, R293, R364). -/
def Instr.reads : Instr → List RegName
  | .add _ a b | .sub _ a b | .mul _ a b | .mulh _ _ a b | .div _ _ a b | .rem _ _ a b | .and _ a b | .or _ a b | .xor _ a b
  | .andn _ a b | .shl _ a b | .shr _ a b | .sar _ a b | .rotl _ a b | .min _ _ a b | .max _ _ a b | .lea _ a b _
  | .aaddr _ a b _ | .cmp _ _ _ _ a b | .amo _ _ a b | .red _ _ a b | .phreg _ _ _ a b | .tkacq _ _ _ a b | .rbind _ a b
  | .flwait _ a b | .glaunch _ a b | .rqrd _ a b | .rqwr _ _ a b | .preempt _ a b | .preemptRel _ a b | .ctxres _ _ a b
  | .ctxresKill _ a b | .rmap _ a b | .rwb _ a b | .rinv _ a b | .rfill _ a b | .qcfg _ _ a b | .fsend _ _ a b
  | .kvscan _ _ _ a b => [.s a.toNat, .s b.toNat]
  | .clz _ a | .ctz _ a | .popc _ a | .addi _ a _ | .andi _ a _ | .ori _ a _ | .xori _ a _ | .shli _ a _ | .shri _ a _ | .sari _ a _
  | .bfx _ _ a _ _ | .sxt _ a _ | .cmpi _ _ _ _ a _ | .pmovS2p a | .bri a _ | .calli a _ | .ret a _ | .loop _ a _ | .loopp _ a _ _
  | .ld _ _ _ a _ | .ldAcq _ _ a _ | .apop _ _ a | .ored a | .phdrop a | .phsig _ a | .phwait _ a | .phsw _ a | .tkrel _ a
  | .shget _ a | .fpstatWrite a | .rngControlWrite _ a | .ctxlogWrite _ a | .probe _ _ _ a _ | .logmark a
  | .launch _ a | .cancel _ _ a | .waitc _ _ a | .admitReq _ a | .pmig _ a | .evict _ a | .aadd _ a _ | .sld _ _ a _
  | .vlds _ a _ | .runmap _ a | .qwaitf _ a | .qwaite _ a | .qadvH _ a | .qadvT _ a | .kmovS2k _ a | .cwld _ _ a
  | .gload _ _ a | .budcmt a | .jobstart a | .shaftgo a | .tsinv a | .routeswap a | .barcfg a | .contain a => [.s a.toNat]
  | .setc _ a => [.s a.toNat]
  | .getc _ n => if n = 0x04A then [.lr] else [.ctl n.toNat]
  | .bfi d a _ _ => [.s d.toNat, .s a.toNat]
  | .ldih d _ => [.s d.toNat]
  | .sel _ a b c => [.s a.toNat, .s b.toNat, .p c.toNat]
  | .tbit _ _ _ _ a n => .s a.toNat :: (match n with | .reg b => [.s b.toNat] | .imm _ => [])
  | .plog _ _ a b => [.p a.toNat, .p b.toNat]
  | .pmov _ a | .pmovN _ a => [.p a.toNat]
  | .pmovP2s _ => runOf .p 0 16
  | .loopr _ _ _ => [.lr]
  | .st _ _ d a _ | .stRel _ d a _ | .sst _ d a _ => [.s d.toNat, .s a.toNat]
  | .acas _ d a b => [.s d.toNat, .s a.toNat, .s b.toNat]
  | .runbind _ b => [.s b.toNat]
  | .msend _ d a => runOf .s d.toNat 4 ++ [.s a.toNat]
  | .shput d a b => runOf .s d.toNat 8 ++ [.s a.toNat, .s b.toNat]
  | .gset _ g a | .gadv g a | .gidx g a => [.g g.toNat, .s a.toNat]
  | .tld _ _ _ _ g a => [.g g.toNat, .s a.toNat]
  | .tst _ _ _ t g a => [.g g.toNat, .s a.toNat, .t t.toNat]
  | .vsts d a _ => [.v d.toNat, .s a.toNat]
  | .vadd d a b k | .vsub d a b k | .vmul d a b k | .vfma d a b k | .vmax d a b k | .vmin d a b k | .vdiv d a b k
  | .vscale d a b k | .viadd d a b k | .visub d a b k | .vimul d a b k | .vimin _ d a b k | .vimax _ d a b k | .vand d a b k
  | .vor d a b k | .vxor d a b k | .vshl d a b k | .vshr _ d a b k | .vperm d a b k =>
    [.v d.toNat, .v a.toNat, .v b.toNat, .k k.toNat]
  | .vsel _ a b k => [.v a.toNat, .v b.toNat, .k k.toNat]
  | .vabs d a k | .vneg d a k | .vsqrt d a k | .vexp2 d a k | .vcvt _ _ _ d a k => [.v d.toNat, .v a.toNat, .k k.toNat]
  | .vcmp _ _ a b k | .vicmp _ _ a b k => [.v a.toNat, .v b.toNat, .k k.toNat]
  | .vbcst d a k | .vputl _ d a k | .viota d a k => [.v d.toNat, .s a.toNat, .k k.toNat]
  | .vgetl _ _ a => [.v a.toNat]
  | .vtr _ _ _ a b => [.t a.toNat, .s b.toNat]
  | .vtw _ _ _ a b => [.v a.toNat, .s b.toNat]
  | .vred _ _ a k => [.v a.toNat, .k k.toNat]
  | .vtopk _ _ a b k => [.v a.toNat, .v b.toNat, .k k.toNat]
  | .klog _ _ a b => [.k a.toNat, .k b.toNat]
  | .kpopc _ a | .kmov _ a | .kmovK2s _ a => [.k a.toNat]
  | .vrng d k => [.v d.toNat, .k k.toNat]
  | .mma _ l r => l.reads ++ r.reads
  | .mmas _ l r m => l.reads ++ r.reads ++ [.t m.toNat]
  | .matt _ q k v => runOf .t q.toNat 2 ++ (match k with | .tile t => runOf .t t.toNat 2 | .stream g => [.g g.toNat]) ++ v.reads
  | .mattf _ _ _ a | .acrd _ _ _ _ a => [.a a.toNat]
  | .aclr _ s => [.s s.toNat]
  | .acld _ t s => [.t t.toNat, .s s.toNat]
  | .cmpr _ t2 _ | .mtrn _ t2 | .mcvt _ _ _ t2 => [.t t2.toNat]
  | .cwst _ t a => [.t t.toNat, .s a.toNat]
  | .cwupd _ _ t a k => [.t t.toNat, .s a.toNat, .k k.toNat]
  | .cwcnt _ _ t => [.t t.toNat]
  | .compact _ k _ a => runOf .t a.toNat (k.toNat + 1)
  | .restore k _ a => runOf .t a.toNat (k.toNat + 1)
  | .exnote t => [.t t.toNat]
  | .kvapp _ f _ t b => runOf .t t.toNat 2 ++ (if f then [.s b.toNat] else [])
  | .kvg _ _ _ _ g a mq => [.g g.toNat, .s a.toNat] ++ (match mq with | some m => [.t m.toNat] | none => [])
  | .kvexs t a => [.t t.toNat, .s a.toNat]
  | .gath _ _ g a => [.g g.toNat, .s a.toNat]
  | .scat _ t g a => [.t t.toNat, .g g.toNat, .s a.toNat]
  | .put _ _ d a b | .get _ d a b => [.s d.toNat, .s a.toNat, .s b.toNat]
  | .frecv src _ a => .s a.toNat :: (match src with | some b => [.s b.toNat] | none => [])
  | _ => []

/-- A register whose writes are discarded: s0, p0 and k0 (R8, R213). -/
def RegName.constant : RegName → Bool
  | .s 0 | .p 0 | .k 0 => true
  | _ => false

/-- No register named twice. -/
def noTwice : List RegName → Bool
  | [] => true
  | r :: l => !l.contains r && noTwice l

/-! ## Bundles (R241 to R244, R213) -/

/-- One present slot: its slot, its qualifying test and its instruction. -/
structure SlotInstr where
  slot : Slot
  qp : PReg
  sn : Bool
  instr : Instr
  deriving DecidableEq, Repr

/-- A decoded bundle, present slots in the order S, A, V, M, X. -/
structure Bundle where
  le : Bool
  sc : BitVec 4
  slots : List SlotInstr
  deriving DecidableEq, Repr

/-- The kinds of code page (R212). -/
inductive PageKind | kernel | foreman
  deriving DecidableEq, Repr

/-- The slot's place in the bundle: presence bit 4 + n, slot bits from 16 + 48n. -/
def Slot.index : Slot → Nat
  | .s => 0 | .a => 1 | .v => 2 | .m => 3 | .x => 4

/-- The slots in bundle order. -/
def allSlots : List Slot := [.s, .a, .v, .m, .x]

/-- The 48 bits of a slot (R241). -/
def slotBits (b : BitVec 256) (sl : Slot) : BitVec 48 := b.extractLsb' (16 + 48 * sl.index) 48

/-- The presence bit of a slot (R242). -/
def slotPresent (b : BitVec 256) (sl : Slot) : Bool := b.getLsbD (4 + sl.index)

/-- Opcode of a slot (R244). -/
def slotOp (x : BitVec 48) : BitVec 8 := x.extractLsb' 40 8

/-- One slot decoded: checks 4 and 5; a NOP's QP and SN must be zero as well (R271). -/
def decodeSlot (sl : Slot) (x : BitVec 48) : Except Reject SlotInstr :=
  match decodeOps sl (slotOp x) (x.extractLsb' 0 35) with
  | .error e => .error e
  | .ok i =>
    if slotOp x = 0 ∧ x.extractLsb' 35 5 ≠ 0 then .error .field
    else .ok ⟨sl, x.extractLsb' 36 4, x.getLsbD 35, i⟩

/-- The slots of a list decoded in order, stopping at the first refusal. -/
def decodeSlots (b : BitVec 256) : List Slot → Except Reject (List SlotInstr)
  | [] => .ok []
  | sl :: r =>
    if slotPresent b sl then
      match decodeSlot sl (slotBits b sl), decodeSlots b r with
      | .error e, _ => .error e
      | .ok _, .error e => .error e
      | .ok i, .ok l => .ok (i :: l)
    else decodeSlots b r

/-- Check 6 of R213 on one slot of a page of the kind named. -/
def kindAllows (k : PageKind) (op : BitVec 8) (i : SlotInstr) : Bool :=
  match k with
  | .kernel =>
    !(i.slot == .s && decide (0x78 ≤ op.toNat) && decide (op.toNat ≤ 0x83)) &&
    (match i.instr with
     | .getc _ n | .setc n _ => decide (n.toNat < 0x100)
     | .ctxlogWrite _ _ | .budcmt _ | .jobstart _ | .tsinv _ | .shaftgo _ | .routeswap _ | .barcfg _ | .contain _ => false
     | _ => true)
  | .foreman => i.slot == .s && i.instr != .endi

/-- Checks 1 to 7 of R213 on a bundle of a page of the kind named; none checks no page kind. -/
def decodeBundle (k : Option PageKind) (b : BitVec 256) : Except Reject Bundle :=
  if b.extractLsb' 13 3 ≠ 1 then .error .version
  else if b.extractLsb' 10 3 ≠ 0 then .error .headerReserved
  else if allSlots.any (fun sl => !slotPresent b sl && slotBits b sl != 0) then .error .absentNotZero
  else if allSlots.any (fun sl => slotPresent b sl &&
      (decTable sl (slotOp (slotBits b sl)) ((slotBits b sl).extractLsb' 0 35)).isNone) then .error .opcode
  else match decodeSlots b allSlots with
    | .error e => .error e
    | .ok l =>
      if (match k with
          | some k => l.any fun i => !kindAllows k (slotOp (slotBits b i.slot)) i
          | none => false) then .error .pageKind
      else if !noTwice ((l.flatMap fun i => i.instr.writes).filter fun r => !r.constant) then .error .doubleWrite
      else .ok ⟨b.getLsbD 9, b.extractLsb' 0 4, l⟩

/-- The instruction of the first present slot of the bundle whose bits are w, bit 0 of w being bit 0 of the header: what decodeTableWord of
the host reads. A bundle with no slot present acts as NOP (R271). -/
def decodeTableWord (_nbits w : Nat) : Option Instr :=
  match decodeBundle none (BitVec.ofNat 256 w) with
  | .error _ => none
  | .ok b => match b.slots with
    | [] => some .nop
    | i :: _ => some i.instr

/-! ## The encoder -/

/-- One bit of a Bool. -/
def ofB (b : Bool) : BitVec 1 := BitVec.ofBool b

/-- F1 of three scalars. -/
def enc3 (op : BitVec 8) (d a b : SReg) (fn : BitVec 17) : Option (Slot × BitVec 8 × BitVec 35) := some (.s, op, F1.pack ⟨d, a, b, fn⟩)
/-- F2 in the S slot. -/
def enc2 (op : BitVec 8) (d a : SReg) (imm : BitVec 23) : Option (Slot × BitVec 8 × BitVec 35) := some (.s, op, F2.pack ⟨d, a, imm⟩)
/-- F8 with mod zero. -/
def enc8 (sl : Slot) (op : BitVec 8) (d a b : BitVec 6) (ctl : BitVec 12) : Option (Slot × BitVec 8 × BitVec 35) :=
  some (sl, op, F8.pack ⟨d, a, b, ctl, 0⟩)
/-- F6. -/
def enc6 (sl : Slot) (op : BitVec 8) (d a : BitVec 6) (rh : BitVec 2) (sz : BitVec 3) (off : BitVec 18) :
    Option (Slot × BitVec 8 × BitVec 35) := some (sl, op, F6.pack ⟨d, a, rh, sz, off⟩)
/-- F7. -/
def enc7 (sl : Slot) (op : BitVec 8) (t g t2 g2 : BitVec 4) (a : BitVec 6) (mod : BitVec 13) :
    Option (Slot × BitVec 8 × BitVec 35) := some (sl, op, F7.pack ⟨t, g, t2, g2, a, mod⟩)
/-- F1 in the V slot: the mask in fn[2:0], c bits above it. -/
def encV {c : Nat} (op : BitVec 8) (d a b : BitVec 6) (x : BitVec c) (k : KReg) : Option (Slot × BitVec 8 × BitVec 35) :=
  some (.v, op, F1.pack ⟨d, a, b, (x ++ k).setWidth 17⟩)
/-- Three vectors. -/
def encV3 (op : BitVec 8) (d a b : VReg) (k : KReg) : Option (Slot × BitVec 8 × BitVec 35) :=
  encV op (d.setWidth 6) (a.setWidth 6) (b.setWidth 6) (0 : BitVec 0) k
/-- Compares. -/
def enc4 (op : BitVec 8) (p1 p2 : PReg) (ct : Comb) (cond : BitVec 4) (a : SReg) (ib : BitVec 1) (imm : BitVec 13) :
    Option (Slot × BitVec 8 × BitVec 35) := some (.s, op, F4.pack ⟨p1, p2, ct.code, cond, a, ib, imm⟩)
/-- Loops. -/
def encL (op : BitVec 8) (a b : BitVec 6) (e : BitVec 12) (pm : PipeMode) : Option (Slot × BitVec 8 × BitVec 35) :=
  some (.s, op, F8.pack ⟨0, a, b, e, pm.code.setWidth 5⟩)

/-- Tile field, stream field and select bit of a matrix operand. -/
def MatSrc.enc : MatSrc → BitVec 4 × BitVec 4 × BitVec 1
  | .tile t => (t, 0, 0)
  | .stream g => (0, g, 1)

/-- ctl12[9:0] of PUT (R393). -/
def PutEnd.enc : PutEnd → BitVec 10
  | .plain => 0
  | .handler x => (0 : BitVec 4) ++ (1 : BitVec 1) ++ (0 : BitVec 1) ++ x
  | .ring q => q ++ (1 : BitVec 1) ++ (0 : BitVec 6)

/-- Slot, opcode and operands of a slot instruction (R271 to R288); none for the steps, which have no word. -/
def encode : Instr → Option (Slot × BitVec 8 × BitVec 35)
  | .nop => some (.s, 0, 0)
  | .add d a b => enc3 0x01 d a b 0
  | .sub d a b => enc3 0x03 d a b 0
  | .mul d a b => enc3 0x04 d a b 0
  | .mulh u d a b => enc3 0x05 d a b ((ofB u).setWidth 17)
  | .div u d a b => enc3 0x06 d a b ((ofB u).setWidth 17)
  | .rem u d a b => enc3 0x07 d a b ((ofB u).setWidth 17)
  | .and d a b => enc3 0x08 d a b 0
  | .or d a b => enc3 0x0A d a b 0
  | .xor d a b => enc3 0x0C d a b 0
  | .andn d a b => enc3 0x0E d a b 0
  | .shl d a b => enc3 0x0F d a b 0
  | .shr d a b => enc3 0x11 d a b 0
  | .sar d a b => enc3 0x13 d a b 0
  | .rotl d a b => enc3 0x15 d a b 0
  | .min u d a b => enc3 0x16 d a b ((ofB u).setWidth 17)
  | .max u d a b => enc3 0x17 d a b ((ofB u).setWidth 17)
  | .clz d a => enc3 0x18 d a 0 0
  | .ctz d a => enc3 0x19 d a 0 0
  | .popc d a => enc3 0x1A d a 0 0
  | .addi d a n => enc2 0x02 d a n
  | .andi d a n => enc2 0x09 d a n
  | .ori d a n => enc2 0x0B d a n
  | .xori d a n => enc2 0x0D d a n
  | .shli d a n => enc2 0x10 d a (n.setWidth 23)
  | .shri d a n => enc2 0x12 d a (n.setWidth 23)
  | .sari d a n => enc2 0x14 d a (n.setWidth 23)
  | .bfx s d a pos w => enc2 0x1B d a ((ofB s ++ w ++ pos).setWidth 23)
  | .bfi d a pos w => enc2 0x1C d a ((w ++ pos).setWidth 23)
  | .sxt d a n => enc2 0x1D d a (n.setWidth 23)
  | .ldi d n => some (.s, 0x1E, F3.pack ⟨d, n⟩)
  | .ldih d n => some (.s, 0x1F, F3.pack ⟨d, n⟩)
  | .sel d a b c => enc8 .s 0x20 d a b (c.setWidth 12)
  | .lea d a b sh => enc8 .s 0x21 d a b (sh.setWidth 12)
  | .cmp c ct p1 p2 a b => enc4 0x28 p1 p2 ct c.code a 0 (b.setWidth 13)
  | .cmpi c ct p1 p2 a n => enc4 0x29 p1 p2 ct c.code a 1 n
  | .tbit s ct p1 p2 a (.imm n) => enc4 0x2A p1 p2 ct ((ofB s).setWidth 4) a 1 (n.setWidth 13)
  | .tbit s ct p1 p2 a (.reg b) => enc4 0x2A p1 p2 ct ((ofB s).setWidth 4) a 0 (b.setWidth 13)
  | .plog op d a b => enc3 0x2B (d.setWidth 6) (a.setWidth 6) (b.setWidth 6) (op.code.setWidth 17)
  | .pmov d a => enc3 0x2C (d.setWidth 6) (a.setWidth 6) 0 0
  | .pmovN d a => enc3 0x2C (d.setWidth 6) (a.setWidth 6) 0 1
  | .pmovP2s d => enc3 0x2C d 0 0 2
  | .pmovS2p a => enc3 0x2C 0 a 0 3
  | .br off => some (.s, 0x30, F5.pack ⟨off, 0⟩)
  | .bri a n => enc2 0x31 0 a n
  | .call off => some (.s, 0x32, F5.pack ⟨off, 0⟩)
  | .calli a n => enc2 0x33 0 a n
  | .ret a n => enc2 0x34 0 a n
  | .loop pm a e => encL 0x35 a 0 e pm
  | .loopr pm sh e => encL 0x36 0 (sh.setWidth 6) e pm
  | .loopp pm a st e => encL 0x37 a (st.setWidth 6) e pm
  | .endi => some (.s, 0x38, 0)
  | .ld z h d a off => enc6 .s 0x40 d a h.code z.code off
  | .ldAcq sc d a off => enc6 .s 0x40 d a 0 7 (sc.code ++ off)
  | .st z h d a off => enc6 .s 0x41 d a h.code z.code off
  | .stRel sc d a off => enc6 .s 0x41 d a 0 4 (sc.code ++ off)
  | .amo op dbl a b => enc8 .s 0x48 0 a b (op.code ++ ofB dbl ++ (0 : BitVec 7))
  | .acas dbl d a b => enc8 .s 0x49 d a b ((0 : BitVec 4) ++ ofB dbl ++ (0 : BitVec 7))
  | .apop dbl d a => enc8 .s 0x4A d a 0 ((0 : BitVec 4) ++ ofB dbl ++ (0 : BitVec 7))
  | .red op dbl a b => enc8 .s 0x4B 0 a b (op.code ++ ofB dbl ++ (0 : BitVec 7))
  | .ored a => enc2 0x4C 0 a 0
  | .phreg sig ix d a b => enc8 .s 0x50 d a b ((ofB ix ++ ofB sig).setWidth 12)
  | .phdrop a => enc8 .s 0x51 0 a 0 0
  | .phsig sc a => enc8 .s 0x52 0 a 0 (sc.code.setWidth 12)
  | .phwait sc a => enc8 .s 0x53 0 a 0 (sc.code.setWidth 12)
  | .phsw sc a => enc8 .s 0x54 0 a 0 (sc.code.setWidth 12)
  | .tkacq sc tk d a b => enc8 .s 0x55 (d.setWidth 6) a b ((ofB tk ++ sc.code).setWidth 12)
  | .tkrel sc a => enc8 .s 0x56 0 a 0 (sc.code.setWidth 12)
  | .bar t => enc8 .s 0x57 0 0 0 (t.setWidth 12)
  | .fence sc => enc8 .s 0x58 0 0 0 (sc.code.setWidth 12)
  | .rbind d a b => enc8 .s 0x59 d a b 0
  | .runbind d b => enc8 .s 0x5A d 0 b 0
  | .flwait sc a b => enc8 .s 0x5B 0 a b (sc.code.setWidth 12)
  | .msend ds d a => enc8 .s 0x60 d a 0 (ofB ds ++ (0 : BitVec 11))
  | .mrecv d b => enc8 .s 0x61 d 0 b 0
  | .mpoll d => enc8 .s 0x62 d 0 0 0
  | .shput d a b => enc8 .s 0x64 d a b 0
  | .shget d a => enc8 .s 0x65 d a 0 0
  | .shsync sc => enc8 .s 0x66 0 0 0 (sc.code.setWidth 12)
  | .trap n => some (.s, 0x70, F3.pack ⟨0, n⟩)
  | .getc d n => enc2 0x71 d 0 (n.setWidth 23)
  | .dqPop d => enc2 0x71 d 0 0x030
  | .setc n a => enc2 0x72 0 a (n.setWidth 23)
  | .fpstatWrite a => enc2 0x72 0 a 0x010
  | .rngControlWrite r a => enc2 0x72 0 a (0x020 + r.setWidth 23)
  | .ctxlogWrite z a => enc2 0x72 0 a (if z then 0x103 else 0x102)
  | .budcmt a => enc2 0x72 0 a 0x114
  | .jobstart a => enc2 0x72 0 a 0x120
  | .tsinv a => enc2 0x72 0 a 0x142
  | .shaftgo a => enc2 0x72 0 a 0x14C
  | .routeswap a => enc2 0x72 0 a 0x162
  | .barcfg a => enc2 0x72 0 a 0x16C
  | .contain a => enc2 0x72 0 a 0x170
  | .probe k nf d a off => enc6 .s 0x73 d a 0 (ofB nf ++ k.code) off
  | .logmark a => enc2 0x74 0 a 0
  | .halt => some (.s, 0x75, 0)
  | .launch d a => enc8 .s 0x78 d a 0 0
  | .glaunch d a b => enc8 .s 0x79 d a b 0
  | .step => some (.s, 0x7A, 0)
  | .cancel u d a => enc8 .s 0x7B d a 0 (u.code.setWidth 12)
  | .waitc u d a => enc8 .s 0x7C d a 0 (u.code.setWidth 12)
  | .admitReq d a => enc8 .s 0x7D d a 0 0
  | .rqrd d a b => enc8 .s 0x7E d a b 0
  | .rqwr m d a b => enc8 .s 0x7F d a b m
  | .preempt d a b => enc8 .s 0x80 d a b 0
  | .preemptRel d a b => enc8 .s 0x80 d a b 1
  | .ctxres .retry d a b => enc8 .s 0x81 d a b 0
  | .ctxres .skip d a b => enc8 .s 0x81 d a b 1
  | .ctxresKill d a b => enc8 .s 0x81 d a b 2
  | .pmig d a => enc8 .s 0x82 d a 0 0
  | .evict d a => enc8 .s 0x83 d a 0 0
  | .aadd d a n => some (.a, 0x01, F2.pack ⟨d, a, n⟩)
  | .aaddr d a b sh => some (.a, 0x02, F1.pack ⟨d, a, b, sh.setWidth 17⟩)
  | .gset f g a => enc7 .a 0x08 0 g 0 0 a (f.code.setWidth 13)
  | .gload scr g a => enc7 .a 0x09 0 g 0 0 a ((ofB scr).setWidth 13)
  | .gadv g a => enc7 .a 0x0A 0 g 0 0 a 0
  | .gidx g a => enc7 .a 0x0B 0 g 0 0 a 0
  | .tld h scr adv t g a => enc7 .a 0x10 t g 0 0 a ((ofB adv ++ h.code ++ ofB scr).setWidth 13)
  | .tst h scr adv t g a => enc7 .a 0x11 t g 0 0 a ((ofB adv ++ h.code ++ ofB scr).setWidth 13)
  | .sld z d a off => enc6 .a 0x12 d a 0 z.code off
  | .sst z d a off => enc6 .a 0x13 d a 0 z.code off
  | .vlds d a off => enc6 .a 0x14 (d.setWidth 6) a 0 0 off
  | .vsts d a off => enc6 .a 0x15 (d.setWidth 6) a 0 0 off
  | .rmap d a b => enc8 .a 0x18 d a b 0
  | .runmap d a => enc8 .a 0x19 d a 0 0
  | .rwb d a b => enc8 .a 0x1A d a b 0
  | .rinv d a b => enc8 .a 0x1B d a b 0
  | .rfill d a b => enc8 .a 0x1C d a b 0
  | .qcfg q d a b => enc8 .a 0x20 d a b (q.setWidth 12)
  | .qwaitf q a => enc8 .a 0x21 0 a 0 (q.setWidth 12)
  | .qwaite q a => enc8 .a 0x22 0 a 0 (q.setWidth 12)
  | .qadvH q a => enc8 .a 0x23 0 a 0 (q.setWidth 12)
  | .qadvT q a => enc8 .a 0x23 0 a 0 (((1 : BitVec 1) ++ q).setWidth 12)
  | .vadd d a b k => encV3 0x01 d a b k
  | .vsub d a b k => encV3 0x02 d a b k
  | .vmul d a b k => encV3 0x03 d a b k
  | .vfma d a b k => encV3 0x04 d a b k
  | .vmax d a b k => encV3 0x05 d a b k
  | .vmin d a b k => encV3 0x06 d a b k
  | .vabs d a k => encV3 0x07 d a 0 k
  | .vneg d a k => encV3 0x08 d a 0 k
  | .vdiv d a b k => encV3 0x09 d a b k
  | .vsqrt d a k => encV3 0x0A d a 0 k
  | .vexp2 d a k => encV3 0x0B d a 0 k
  | .vscale d a b k => encV3 0x0C d a b k
  | .vcmp c d a b k => encV 0x0D (d.setWidth 6) (a.setWidth 6) (b.setWidth 6) c.code k
  | .vicmp c d a b k => encV 0x1A (d.setWidth 6) (a.setWidth 6) (b.setWidth 6) c.code k
  | .viadd d a b k => encV3 0x10 d a b k
  | .visub d a b k => encV3 0x11 d a b k
  | .vimul d a b k => encV3 0x12 d a b k
  | .vimin u d a b k => encV 0x13 (d.setWidth 6) (a.setWidth 6) (b.setWidth 6) (ofB u) k
  | .vimax u d a b k => encV 0x14 (d.setWidth 6) (a.setWidth 6) (b.setWidth 6) (ofB u) k
  | .vand d a b k => encV3 0x15 d a b k
  | .vor d a b k => encV3 0x16 d a b k
  | .vxor d a b k => encV3 0x17 d a b k
  | .vshl d a b k => encV3 0x18 d a b k
  | .vshr u d a b k => encV 0x19 (d.setWidth 6) (a.setWidth 6) (b.setWidth 6) (ofB u) k
  | .vsel d a b k => encV3 0x20 d a b k
  | .vbcst d a k => encV 0x21 (d.setWidth 6) a 0 (0 : BitVec 0) k
  | .vgetl n d a => encV 0x22 d (a.setWidth 6) 0 n 0
  | .vputl n d a k => encV 0x23 (d.setWidth 6) a 0 n k
  | .vperm d a b k => encV3 0x24 d a b k
  | .viota d a k => encV 0x25 (d.setWidth 6) a 0 (0 : BitVec 0) k
  | .vcvt s t rm d a k => encV 0x28 (d.setWidth 6) (a.setWidth 6) 0 (rm.code ++ t.code ++ s.code) k
  | .vtr rm rc d a b => enc8 .v 0x2A (d.setWidth 6) (a.setWidth 6) b ((ofB rc ++ rm.code).setWidth 12)
  | .vtw rm rc d a b => enc8 .v 0x2B (d.setWidth 6) (a.setWidth 6) b ((ofB rc ++ rm.code).setWidth 12)
  | .vred op d a k => encV 0x30 (d.setWidth 6) (a.setWidth 6) 0 op.code k
  | .vtopk n d a b k => encV 0x31 (d.setWidth 6) (a.setWidth 6) (b.setWidth 6) n k
  | .klog op d a b => encV 0x34 (d.setWidth 6) (a.setWidth 6) (b.setWidth 6) op.code 0
  | .kpopc d a => encV 0x35 d (a.setWidth 6) 0 (0 : BitVec 0) 0
  | .kmov d a => encV 0x36 (d.setWidth 6) (a.setWidth 6) 0 (0 : BitVec 2) 0
  | .kmovS2k d a => encV 0x36 (d.setWidth 6) a 0 (1 : BitVec 2) 0
  | .kmovK2s d a => encV 0x36 d (a.setWidth 6) 0 (2 : BitVec 2) 0
  | .vrng d k => encV 0x38 (d.setWidth 6) 0 0 (0 : BitVec 0) k
  | .mma a l r => enc7 .m 0x01 l.enc.1 l.enc.2.1 r.enc.1 r.enc.2.1 0
      ((r.enc.2.2 ++ l.enc.2.2 ++ (0 : BitVec 5) ++ a).setWidth 13)
  | .mmas a l r m => enc7 .m 0x02 l.enc.1 l.enc.2.1 r.enc.1 r.enc.2.1 (m.setWidth 6)
      ((r.enc.2.2 ++ l.enc.2.2 ++ (0 : BitVec 5) ++ a).setWidth 13)
  | .matt a q k v => enc7 .m 0x04 q v.enc.2.1 k.enc.1 k.enc.2.1 (v.enc.1.setWidth 6)
      ((k.enc.2.2 ++ v.enc.2.2 ++ (0 : BitVec 5) ++ a).setWidth 13)
  | .mattf f rm t a => enc7 .m 0x05 t 0 0 0 0 ((f.code ++ rm.code ++ a).setWidth 13)
  | .aclr a s => enc7 .m 0x06 0 0 0 0 s (a.setWidth 13)
  | .acrd f rm hi t a => enc7 .m 0x07 t 0 0 0 0 ((ofB hi ++ (0 : BitVec 2) ++ f.code ++ rm.code ++ a).setWidth 13)
  | .acld a t s => enc7 .m 0x08 t 0 0 0 s (a.setWidth 13)
  | .cmpr t t2 m => enc7 .m 0x09 t 0 t2 0 (m.setWidth 6) 0
  | .mtrn t t2 => enc7 .m 0x0A t 0 t2 0 0 0
  | .mzero t => enc7 .m 0x0B t 0 0 0 0 0
  | .mcvt f rm t t2 => enc7 .m 0x0C t 0 t2 0 0 ((f.code ++ rm.code ++ (0 : BitVec 1)).setWidth 13)
  | .cwld scr t a => enc8 .x 0x01 (t.setWidth 6) a 0 ((ofB scr).setWidth 12)
  | .cwst scr t a => enc8 .x 0x02 (t.setWidth 6) a 0 ((ofB scr).setWidth 12)
  | .cwupd sh nl t a k => enc8 .x 0x03 (t.setWidth 6) a (k.setWidth 6) ((ofB nl ++ ofB sh ++ (0 : BitVec 4)).setWidth 12)
  | .cwcnt sh d t => enc8 .x 0x04 d (t.setWidth 6) 0 ((ofB sh ++ (0 : BitVec 4)).setWidth 12)
  | .compact sh k d a => enc8 .x 0x05 (d.setWidth 6) (a.setWidth 6) 0 ((ofB sh ++ (0 : BitVec 1) ++ k).setWidth 12)
  | .restore k d a => enc8 .x 0x06 (d.setWidth 6) (a.setWidth 6) 0 (k.setWidth 12)
  | .exnote t => enc8 .x 0x07 (t.setWidth 6) 0 0 0
  | .kvapp v f h t b => enc8 .x 0x08 (t.setWidth 6) 0 b ((ofB f ++ h ++ ofB v).setWidth 12)
  | .kvg hint v h t g a mq => enc7 .x 0x09 t g (mq.getD 0) 0 a ((ofB mq.isSome ++ h ++ hint.code ++ ofB v).setWidth 13)
  | .kvscan v h d a b => enc8 .x 0x0A d a b ((h ++ ofB v).setWidth 12)
  | .kvexs t a => enc8 .x 0x0B (t.setWidth 6) a 0 0
  | .gath h t g a => enc7 .x 0x0C t g 0 0 a ((h.code ++ (0 : BitVec 1)).setWidth 13)
  | .scat h t g a => enc7 .x 0x0D t g 0 0 a ((h.code ++ (0 : BitVec 1)).setWidth 13)
  | .put ds e d a b => enc8 .x 0x0E d a b (ofB ds ++ (0 : BitVec 1) ++ e.enc)
  | .get ds d a b => enc8 .x 0x0F d a b (ofB ds ++ (0 : BitVec 11))
  | .fsend ds pri a b => enc8 .x 0x10 0 a b (ofB ds ++ ofB pri ++ (0 : BitVec 10))
  | .frecv src t a => enc8 .x 0x11 (t.setWidth 6) a (src.getD 0) ((ofB src.isSome).setWidth 12)
  | _ => none

/-- The 48 bits of a slot holding instruction i under qualifying predicate qp and sense sn (R244). -/
def encodeSlot (qp : PReg) (sn : Bool) (i : Instr) : Option (Slot × BitVec 48) :=
  (encode i).map fun (sl, op, o) => (sl, op ++ qp ++ ofB sn ++ o)

/-- A bundle holding the one slot given, with stall count sc and loop end le (R241, R242). -/
def oneSlotBundle (le : Bool) (sc : BitVec 4) (sl : Slot) (x : BitVec 48) : BitVec 256 :=
  let hdr : BitVec 16 := (1 : BitVec 3) ++ (0 : BitVec 3) ++ ofB le ++ ((1 : BitVec 5) <<< sl.index) ++ sc
  hdr.setWidth 256 ||| (x.setWidth 256 <<< (16 + 48 * sl.index))

end Sys2Proof
end

