-- ==== Sys2Proof/Machine/State.lean ====
section
/-! DEFINITION. The machine's state as plain data, grouped by the unit that holds it, its reset value, and the reasons a step can stop. -/

namespace Sys2Proof.Machine

/-- Why a step stops with a fault. -/
inductive Fault
  /-- Issue fetched a bundle that does not decode: R213 has the decoder assume that every bundle fetched is legal. Raised by the issue of a
  bundle. Safe: the spec gives no effect. -/
  | illegalBundle (why : Reject)
  /-- The device itself (a save area, the demotion pool, the code scanner, the error log) named a physical address that R117 calls
  unpopulated. Raised by the steps that use a physical base register. Safe: the spec gives no effect. -/
  | noSuchAddress (pa : Nat)
  deriving DecidableEq, Repr

/-- Why a step is refused. -/
inductive Refusal
  /-- The instruction has no meaning in the model yet. Raised by its arm of exec. Safe. -/
  | notModelled (mnemonic : String)
  /-- The agenda names a slot instruction as a step of its own; a slot instruction runs only in a bundle (R243). Raised by step. Safe. -/
  | notAnEvent
  deriving DecidableEq, Repr

/-! ## Registers of a context (R249 to R253) -/

/-- The state of a context (R32). -/
inductive Status | free | reserved | running | stopped | saved
  deriving DecidableEq, Repr

/-- A tile row: element data, block exponents, RCW, poison (R250, R215). -/
structure TileRow where
  data : RowBits := 0
  e0 : BitVec 9 := 0
  e1 : BitVec 9 := 0
  rcw : Lane := 0
  poison : Bool := false
  deriving DecidableEq, Repr

/-- A tile register: rows by number (an unlisted row is all zero), format tag, live-row count (R250). -/
structure Tile where
  rows : Tab TileRow := []
  fmt : BitVec 4 := 0
  live : BitVec 7 := 0
  deriving DecidableEq, Repr

/-- An accumulator lane (R104, R215). -/
structure AccLane where
  n : BitVec 128 := 0
  nan : Bool := false
  ovf : Bool := false
  cnt : BitVec 17 := 0
  poison : Bool := false
  deriving DecidableEq, Repr

/-- An accumulator: lanes by 64r + c (an unlisted lane is zero), anchor, row count, MU by row (unlisted: minus infinity) and SUM by row
(unlisted: +0), as after ACLR with anchor 0 (R104, R380). -/
structure Acc where
  lanes : Tab AccLane := []
  alpha : BitVec 12 := 0
  rc : BitVec 7 := 0
  mu : Tab Lane := []
  sum : Tab Lane := []
  deriving DecidableEq, Repr

/-- The kinds of hardware loop (R252). -/
inductive LoopKind | loop | loopr | loopp
  deriving DecidableEq, Repr

/-- A loop-stack entry (R252). -/
structure LoopEntry where
  kind : LoopKind
  start : Word
  stop : Word
  pmode : PipeMode
  lc : Lane
  ec : Lane
  n : Lane
  st : BitVec 4
  pass : BitVec 33
  deriving DecidableEq, Repr

/-- One register write, the register named physically (R251, R260). -/
inductive RegWrite
  | s (n : BitVec 6) (v : Word)
  | p (mask v : BitVec 16)
  | v (n : BitVec 5) (v : Vec)
  | k (n : BitVec 3) (v : Word)
  | g (n : BitVec 4) (v : StreamBits)
  | q (n : BitVec 3) (v : RingBits)
  | qadv (n : BitVec 3) (head tail : BitVec 20)
  | ctl (num : BitVec 12) (v : Word)
  deriving DecidableEq, Repr

/-- An entry of the exposed writeback queue: ticks left until it lands, its writes, the flags landing with it, and how many of the sixteen
entries it takes (R260, R263, R114). -/
structure Pending where
  left : Nat
  writes : List RegWrite
  flags : BitVec 8
  cost : Nat
  flagged : Bool := false
  deriving DecidableEq, Repr

/-- A scoreboarded result on its way (R262). -/
inductive Landing
  | regs (l : List RegWrite)
  | dq (v : Word)
  | row (t : BitVec 4) (r : BitVec 6) (rc : Bool) (v : TileRow) (rcws : List Lane)
  deriving DecidableEq, Repr

/-- A scoreboarded result, the flags that land with it, and the sector transfers toward the HBM that it still waits for (R24, R36). -/
structure Coming where
  res : Landing
  flags : BitVec 8
  owed : Nat := 0
  deriving DecidableEq, Repr

/-- The context control registers of R256 that are not held elsewhere. -/
structure CtxRegs where
  job : BitVec 6 := 0
  launch : Lane := 0
  iterno : Lane := 0
  mode : BitVec 3 := 0
  fpstat : BitVec 8 := 0
  wdog : Lane := 0
  key0 : Word := 0
  key1 : Word := 0
  rngctr : Word := 0
  logbase : Word := 0
  logsize : BitVec 6 := 0
  logwr : Word := 0
  logrd : Word := 0
  blockno : BitVec 8 := 0
  deriving DecidableEq, Repr

/-- The causes of a block, in the numbering of R210, and the budget cause of R34, which the watchdog does not count. -/
inductive Cause
  | engineFull (e : Engine)
  | busy (n : BitVec 32)
  | ring (n : BitVec 32)
  | phaser (n : BitVec 32)
  | token (n : BitVec 32)
  | flag (va : Word)
  | message
  | apop (va : Word)
  | logFull
  | replay
  | launchRoom
  | waitc
  | step
  | budget
  deriving DecidableEq, Repr

/-- A trap record without its SEQ (R208); of a poison consumption the place where it lay, where ADDR and INFO do not say it: class, unit and
offset in the numbering of the error log (R220). -/
structure TrapRec where
  code : BitVec 8
  kind : BitVec 4
  tslot : BitVec 3
  done : BitVec 5
  acc : BitVec 3
  ctx : BitVec 11
  job : BitVec 6
  pc : Word
  addr : Word
  launch : Lane
  ord : Lane
  info : Word
  exp : BitVec 256
  act : BitVec 256
  site : Option (Nat × Nat × Nat) := none
  deriving DecidableEq, Repr

/-- The register tables of a context as a bundle reads them at its issue tick, kept with what a stop or a wait leaves of it (R204, R205,
R243). -/
structure Operands where
  s : Tab Word
  v : Tab Vec
  k : Tab Word
  g : Tab StreamBits
  q : Tab RingBits
  t : Tab Tile
  lr : BitVec 16
  fpstat : BitVec 8
  deriving DecidableEq, Repr

/-- The bundle being issued: its core and context, the slot being executed, its qualifying outcome, the operand values that a write of the
same bundle could change (age offsets and predicates) and those that a result on its way could once the bundle waits (none while it has not),
what it has done, the slots still to run, and whether the next of them must wait (R204, R205, R243, R251); the context's count of commands when
it issued; and, while its slots are asked whether they may issue, the order-log records and queued transfers of those asked before (R35). -/
structure Frame where
  core : Nat := 0
  ctx : Nat := 0
  slot : Slot := .s
  q : Bool := true
  pc : Word := 0
  le : Bool := false
  sc : BitVec 4 := 0
  ages : BitVec 4 := 0
  agev : BitVec 3 := 0
  preds : BitVec 16 := 0
  exposed : Bool := true
  ops : Option Operands := none
  done : BitVec 5 := 0
  rest : List SlotInstr := []
  target : Option Word := none
  taken : Bool := false
  ended : Bool := false
  halted : Bool := false
  issued : Bool := false
  paused : Bool := false
  first : Nat := 0
  ahead : Nat := 0
  sends : Nat := 0
  deriving DecidableEq, Repr

/-- A stopped context's held record: the record, its SEQ once written, and the bundle with the slots not yet executed; none where the bundle
had issued whole when the stop was found (R204, R205). -/
structure Held where
  record : TrapRec
  seq : Option Word
  frame : Option Frame
  deriving DecidableEq, Repr

/-- One page resolved by a KV instruction (R89, R400). -/
inductive KvPage
  | page (pa : Nat)
  | deferred
  | faulted
  deriving DecidableEq, Repr

/-- One row of a KV instruction: tile row, position, slot and the page its position resolves to; for an exit-store entry its address, its
address space and the hidden width. -/
structure KvRow where
  row : Nat
  pos : Nat
  slot : Nat
  page : KvPage
  va : Nat := 0
  asid : Nat := 0
  dim : Nat := 0
  deriving DecidableEq, Repr

/-- The operand values an engine command captures at issue, the format tags and live-row counts of the tiles it reads among them, and the whole
of those that its own bundle writes (R243, R340, R378, R392). -/
structure Capture where
  sa : Word := 0
  sb : Word := 0
  sd : Word := 0
  g : StreamBits := 0
  g2 : StreamBits := 0
  mask : Word := 0
  blockno : BitVec 8 := 0
  rngctr : Word := 0
  key0 : Word := 0
  key1 : Word := 0
  exposed : Bool := true
  pd : BitVec 6 := 0
  idx : List Nat := []
  idx2 : List Nat := []
  kv : List KvRow := []
  tiles : List Tile := []
  tags : Tab (BitVec 4 × BitVec 7) := []
  olds : Tab Tile := []
  items : List FabItem := []
  base : Nat := 0
  count : Nat := 0
  deriving DecidableEq, Repr

/-- An engine command (R34, R411): the issuing context, the instruction, its captured operands, its place in the context's program order, and
the sector transfers toward the HBM that it still waits for (R24, R36). -/
structure Command where
  ctx : Nat
  instr : Instr
  cap : Capture
  serial : Nat
  pc : Word
  launch : Lane
  owed : Nat := 0
  deriving DecidableEq, Repr

/-- A queued RED, or an ORED after its hold (R314, R316): the instruction, its job and mode at issue, the RED's word and operand, the ORED's
destination and sources as physical pieces (address, length), operation, element count, flag word and value; the launch and ordinal of an
ORED's issuer. -/
structure Reduction where
  instr : Instr
  job : Nat
  mode : Nat
  exposed : Bool
  serial : Nat
  va : Word
  pa : Nat := 0
  val : Word := 0
  dst : List (Nat × Nat) := []
  srcs : List (List (Nat × Nat)) := []
  op : Nat := 0
  count : Nat := 0
  flag : Nat := 0
  pv : Word := 0
  lid : Lane := 0
  ord : Lane := 0xFFFFFFFF
  deriving DecidableEq, Repr

/-- A flit waiting in a receive queue: the sender's id and the payload (R324, R325). -/
structure Message where
  sender : BitVec 11
  payload : BitVec 256
  deriving DecidableEq, Repr

/-- A write of the operand log (R214): register class and number. -/
structure LogWrite where
  cls : Nat
  num : Nat
  deriving DecidableEq, Repr

/-- A context (R249 to R253, R32, R38, R204). Register files list the registers written, by physical number; an unlisted register is zero. -/
structure Ctx where
  status : Status := .free
  endi : Bool := false
  handlerRun : Bool := false
  pc : Word := 0
  s : Tab Word := []
  p : BitVec 16 := 0
  v : Tab Vec := []
  k : Tab Word := []
  t : Tab Tile := []
  a : Tab Acc := []
  g : Tab StreamBits := []
  q : Tab RingBits := []
  loops : List LoopEntry := []
  lr : BitVec 16 := 0
  i0 : Lane := 0
  i1 : Lane := 0
  i2 : Lane := 0
  i3 : Lane := 0
  ages : BitVec 4 := 0
  agev : BitVec 3 := 0
  cr : CtxRegs := {}
  clk : Word := 0
  pend : List Pending := []
  coming : List Coming := []
  dq : List Word := []
  dqComing : Nat := 0
  perm : Tab (BitVec 16) := []
  recv : List Message := []
  wdCount : Nat := 0
  blocked : Option Cause := none
  stallPosted : Bool := false
  signalled : Bool := false
  arrived : Option Nat := none
  held : Option Held := none
  doom : Option TrapRec := none
  kept : Option Frame := none
  preempting : Bool := false
  cancelling : Bool := false
  killed : Bool := false
  saves : Word := 0
  atRestore : Option (BitVec 2 × Word) := none
  oplog : List LogWrite := []
  logStart : Word × Word := (0, 0)
  sStart : Tab Word := []
  modeStart : BitVec 3 := 0
  wdogStart : Lane := 0
  reds : List Reduction := []
  oreds : List Reduction := []
  serial : Nat := 0
  fencing : Nat := 0
  queued : List Command := []
  deriving DecidableEq, Repr

/-- The operand log's sixteen writes and everything else that R62 saves, as one record of the device's own (R63). -/
structure SaveArea where
  ctx : Ctx
  count : Word
  launch : Lane
  job : BitVec 6
  base : Nat
  deriving DecidableEq, Repr

/-! ## Cores, jobs, work (R32 to R65, R131, R257) -/

/-- A core: the context it is on and whether it has left it, the cycle from which it may issue, its engines' queues and commands in flight,
commands that wait for rows and restored commands that wait for a place in their queue (R64; log entry 49), the map entries and the states of
their sectors (unlisted: INVALID; mask zero: CLEAN; else DIRTY), a containment reset in progress, mapped out (R33, R34, R131, R132, R218, R28).
Sector j of entry e has key e * 2^20 + j. -/
structure Core where
  cur : Nat := 0
  left : Bool := false
  freeAt : Nat := 0
  mq : List Command := []
  xq : List Command := []
  aq : List Command := []
  fly : List Command := []
  waitRows : List Command := []
  late : List Command := []
  map : Tab (BitVec 128) := []
  sect : Tab (BitVec 48) := []
  resetting : Bool := false
  mappedOut : Bool := false
  deriving DecidableEq, Repr

/-- A record waiting for the trap queue (R209); own names the context of a stop or fatal record. -/
structure Waiting where
  record : TrapRec
  own : Option Nat
  deriving DecidableEq, Repr

/-- A bound region (R153), with its publication and the contexts that observed it (R156). -/
structure Region where
  base : Nat
  len : Nat
  ctl : BitVec 8
  nslice : Nat
  prod : Nat
  slen : Nat
  obj : Nat
  pv : Word
  published : Bool
  seen : List Nat
  deriving DecidableEq, Repr

/-- The four staged or committed allowances (R24, R257). -/
structure Allowance where
  cls : Word := 0
  hbm : BitVec 21 := 0
  fab : BitVec 32 := 0
  shf : BitVec 14 := 0
  deriving DecidableEq, Repr

/-- A request record (R67). -/
structure Req where
  rid : Word := 0
  state : BitVec 8 := 0
  prio : BitVec 8 := 0
  flags : BitVec 16 := 0
  slot : BitVec 16 := 0xFFFF
  pos : Lane := 0
  maxtok : Lane := 0
  admseq : Word := 0
  kvpt : Word := 0
  xst : Word := 0
  stopset : Word := 0
  seed : Word := 0
  asid : BitVec 16 := 0
  fltcode : Lane := 0
  lasttok : Lane := 0
  swarea : BitVec 384 := 0
  deriving DecidableEq, Repr

/-- A logged operation: its record fields and the object whose order count it takes (R176 to R178). -/
structure Logged where
  type : Nat
  flags : Nat := 0
  obj : Word := 0
  val : Word := 0
  ctx : Nat
  lid : Lane := 0
  ord : Lane := 0xFFFFFFFF
  key : Nat
  deriving DecidableEq, Repr

/-- A STEP that has begun and waits for its foreman's ring (R73, R175, R181): in RECORD the request table it leads to, the records still to be
written, its trap records and the requests to demote; in REPLAY the records it has taken. -/
structure StepRun where
  reqs : Tab Req := []
  recs : List Logged
  posts : List TrapRec := []
  dems : List Nat := []
  deriving DecidableEq, Repr

/-- A job (R20, R257): its registers by number (unlisted: the reset value of R257), allowances in force and used, launches' statuses, step,
trap queue, regions, notices, fabric queues and order counts; of the HBM allowance the sectors charged in this period and the transfers of
performed writes that wait in the memory queues (R24, R36). -/
structure Job where
  started : Bool := false
  key : Bool := false
  keySerial : Nat := 0
  regs : Tab Word := []
  alw : Allowance := {}
  commit : Option Allowance := none
  commitRefused : Bool := false
  startRefused : Bool := false
  used : Tab Nat := []
  hbmUsed : Nat := 0
  hbmHeld : Nat := 0
  fabUsed : Nat := 0
  shfUsed : Nat := 0
  seqNext : Nat := 0
  window : List (Nat × Nat) := []
  worst : Nat := 0
  graphs : Tab (List Nat) := []
  steps : Tab Nat := []
  stepNo : Lane := 0
  live : Lane := 0
  snapMem : List Host.Cell := []
  snapPoison : List Nat := []
  snapReq : Tab Req := []
  stepping : Option StepRun := none
  admseq : Word := 1
  preempted : BitVec 256 := 0
  tqSeq : Word := 0
  lost : Word := 0
  waiting : List Waiting := []
  regions : Tab Region := []
  notices : Nat := 0
  rowsq : Tab (List FabItem) := []
  taken : Tab Nat := []
  sentRows : Tab Nat := []
  noticeStore : List FabItem := []
  rowsSeen : List (Nat × Nat) := []
  counts : Tab Lane := []
  diverged : Bool := false
  ringFault : Bool := false
  ending : Bool := false
  fmPages : List Nat := []
  hbmArea : Option (Nat × Nat) := none
  deriving DecidableEq, Repr

/-- An arrival waiting for a launch's handler (R59). -/
structure Arrival where
  core : Nat
  handler : Nat
  off : Word
  sender : BitVec 11
  deriving DecidableEq, Repr

/-- A launch (R39 to R53): its record, place, walk (index and bound by nesting position), outcome so far, private grants by sector
(the iteration that writes it, the iterations that read it) and handler state. -/
structure Launch where
  job : Nat
  seq : Nat
  step : Lane
  graph : Nat
  image : BitVec 2048
  preds : List Nat
  active : Bool
  order : Nat
  cursor : Nat
  walk : Option (List Nat × List Nat)
  done : Bool
  ord : Nat
  count : Nat
  cancelled : Bool
  failed : Bool
  overflow : Bool
  depfail : Bool
  priv : List (Nat × Nat)
  grants : Tab (Option Nat × List Nat)
  holds : List Nat
  arrivals : List Arrival
  deriving DecidableEq, Repr

/-! ## Synchronisation and the stack (R150, R187 to R202, R317 to R320) -/

/-- A phaser member: kind, index, next phase to signal, next phase to wait on, and whether it has completed a wait (R157, R317). -/
structure Member where
  ctx : Nat
  ix : Nat
  sig : Bool
  sp : Lane
  wp : Lane
  waited : Bool := false
  deriving DecidableEq, Repr

/-- A phaser (R317). -/
structure Phaser where
  k : Lane := 0
  members : List Member := []
  deriving DecidableEq, Repr

/-- The states of a token (R150). -/
inductive TokenState | free | held (ctx : Nat) | abandoned
  deriving DecidableEq, Repr

/-- A token: state, ticket turn, whether its grant was STRICT, waiters in arrival order (R171, R319). -/
structure Token where
  state : TokenState := .free
  turn : Lane := 0
  strict : Bool := false
  waiters : List Nat := []
  deriving DecidableEq, Repr

/-- A barrier route tag (R200): job, mask, CNT, the current generation, by core the cycles of the arrivals not yet released, and the cycle of
release. -/
structure Barrier where
  set : Bool := false
  job : Nat := 0
  mask : BitVec 256 := 0
  cnt : Nat := 0
  gen : Nat := 0
  arrivals : Tab (List Nat) := []
  releaseAt : Option Nat := none
  deriving DecidableEq, Repr

/-- A shaft transfer (R187). -/
structure Transfer where
  ctx : Nat
  job : Nat
  notice : Bool
  line : Nat
  mask : Word
  payload : BitVec 512
  entered : Nat
  deriving DecidableEq, Repr

/-- What a flit carries (R192, R324, R361, R362, R406). -/
inductive Cargo
  | message (payload : BitVec 256)
  | credit (ring : BitVec 3) (c : BitVec 20)
  | put (off : Word) (bytes : List Byte) (last : Bool) (e : PutEnd) (start : Word)
  | getRequest (off : Word) (len : Nat) (dst : Nat) (serial : Nat)
  | getReply (dst : Nat) (bytes : List Byte) (last : Bool) (serial : Nat)
  | refused (serial : Nat)
  | body
  deriving DecidableEq, Repr

/-- A flit (R192): partition tag, destination, target context or core, source, packet sequence, place in its packet, circuit count. -/
structure Flit where
  part : BitVec 6
  dlvl : BitVec 3
  dstop : BitVec 4
  target : Nat
  slvl : BitVec 3
  sstop : BitVec 4
  sender : BitVec 11
  pseq : Nat
  ix : Nat
  len : Nat
  circuit : BitVec 4
  ds : Bool
  launch : Lane
  cargo : Cargo
  deriving DecidableEq, Repr

/-- A packet delivered to its stop whole and not yet written (R193, R406). -/
structure Delivered where
  flit : Flit
  core : Nat
  deriving DecidableEq, Repr

/-- A level's stage between awake and asleep: freezing has a frozen replica and memberships still to drop (R201, R202). -/
inductive Power | awake | draining | freezing | asleep | waking | refilling
  deriving DecidableEq, Repr

/-- A level: power and the cycle of the sleep or wake request in hand, mapped out, barrier inputs read as arrived on a tag until its current
generation releases (R201, R202), how many flits its sink has recorded (R197), the spares in use and the slice strips mapped out (R27, R28). -/
structure Level where
  power : Power := .awake
  asked : Nat := 0
  mappedOut : Bool := false
  stuck : List Nat := []
  buffered : List Transfer := []
  sunk : Nat := 0
  spareCore : Bool := false
  spareSlice : Bool := false
  slicesOut : List Nat := []
  deriving DecidableEq, Repr

/-! ## The rest of the package (R119, R140, R212, R219, R223, R238) -/

/-- An accepted or blocked code page (R212). -/
structure CodePage where
  base : Nat
  big : Bool
  kind : PageKind
  accepted : Bool
  deriving DecidableEq, Repr

/-- A migration (R140): the source way, the page, the destination, the KV entry to write, and what the demotion pool expects of it. -/
structure Migration where
  job : Nat
  asid : Nat
  va : Word
  src : Nat
  dst : Nat
  big : Bool
  way : Nat
  kve : Word
  pool : Option Nat
  deriving DecidableEq, Repr

/-- A request's pages that the Evict phase or EVICT hands to the tier engine (R144, R145): its KV page table, the next entry to take up, and
how many entries there are. -/
structure Demotion where
  job : Nat
  asid : Nat
  kvpt : Word
  next : Nat
  total : Nat
  deriving DecidableEq, Repr

/-- The corrected-error log (R219 to R222) and its export (R236). -/
structure Cer where
  base : Nat := 0
  recBlocks : Nat := 0
  ckpBlocks : Nat := 0
  next : Nat := 0
  ack : Nat := 0
  chain : BitVec 384 := 0
  sinceCkp : Nat := 0
  records : Tab (BitVec 512) := []
  ckpNext : Nat := 0
  ckpSeqs : Tab Nat := []
  ckps : Tab (List Byte) := []
  gaps : Tab Nat := []
  lastTime : Word := 0
  epoch : Nat := 0
  spent : Nat := 0
  wanted : Bool := false
  pass : Word := 0
  cerix : Word := 0
  ckpix : Word := 0
  ckpPos : Nat := 0
  cerack : Word := 0
  ckpWord : Word := 0
  deriving DecidableEq, Repr

/-- The fabric and the clock (R184, R185, R229, R238, R240); an item that has arrived stands with the tick in which it did. -/
structure Fabric where
  time : Word := 0
  t0 : Word := 0
  tickus : Nat := 2
  dist : Nat := 4
  tick : Nat := 0
  peers : Tab (BitVec 32) := []
  ports : BitVec 32 := 0
  sent : List FabItem := []
  inbox : List (Nat × FabItem) := []
  sourceSeq : Tab Nat := []
  replies : List FabItem := []
  overruns : Word := 0
  offset : Word := 0
  deriving DecidableEq, Repr

/-- The host's view and boot (R223 to R236): MSTAT, mailbox, fault window, images, identity. -/
structure HostSide where
  state : BitVec 3 := 1
  failcode : BitVec 8 := 0
  pkgid : BitVec 18 := 0
  bootdesc : Word := 0
  cells : Nat := 0
  fw : List Byte := []
  cfg : List Byte := []
  cmd : Tab (BitVec 512) := []
  cmdwr : Word := 0
  cmdrd : Word := 0
  rsp : Tab (BitVec 512) := []
  rspwr : Word := 0
  rsprd : Word := 0
  fault : BitVec 1024 := 0
  fvalid : Bool := false
  resseq : Word := 0
  faultSeq : Word := 0
  msix : Nat := 0
  attest : List Byte := []
  attests : Nat := 0
  endTag : Option (BitVec 512) := none
  keySerial : Nat := 0
  deriving DecidableEq, Repr

/-- The supervisor's package registers that no other unit holds (R257), the physical map's holes (R28, R117), and the base in HBM of the eight
levels' sink rings (R197; log entry 45). -/
structure Sup where
  tsbase : Word := 0
  tscfg : BitVec 5 := 10
  jobsel : BitVec 6 := 0
  codestat : Word := 0
  levelRefused : Bool := false
  routeix : BitVec 13 := 0
  routeRefused : Bool := false
  barmask : BitVec 256 := 0
  barRefused : Bool := false
  deadChannels : List Nat := []
  tier2 : Nat := 0
  expanders : List (Nat × Nat × Nat) := []
  dropped : List Nat := []
  deadPorts : BitVec 32 := 0
  sinkBase : Nat := 0
  deriving DecidableEq, Repr

/-- The shaft (R187 to R191). -/
structure Shaft where
  table : BitVec 256 := BitVec.allOnes 256
  staged : BitVec 256 := BitVec.allOnes 256
  commit : Option (BitVec 256) := none
  refused : Bool := false
  queue : List Transfer := []
  flight : List (Nat × Transfer) := []
  deriving DecidableEq, Repr

/-- The viaducts, winzes and routing tables (R192 to R199). Position key: level * 24 + direction * 12 + position (direction 0 east, 1 west);
stop key: level * 12 + stop; routing key: 64 * stop key + entry; winze key: 2 * level, plus 1 downward, its flits with their cycle of
arrival and the stop they left by; asm: by 8 * packet sequence + level the flits of a packet that comes by a winze, until it is whole at its
stop; ejected: the stops whose ejection port has taken a flit in this cycle. -/
structure Net where
  pos : Tab Flit := []
  inject : Tab (List Flit) := []
  asm : Tab (List Flit) := []
  parts : Tab (List Flit) := []
  ready : List Delivered := []
  overflow : Tab (List Flit) := []
  winze : Tab (List (Nat × Nat × Flit)) := []
  ejected : List Nat := []
  routes : Tab Lane := []
  shadow : Tab Lane := []
  swap : Option (BitVec 8) := none
  golden : Nat := 0
  pseq : Nat := 0
  sunk : Word := 0
  deriving DecidableEq, Repr

/-- What a move of the machine is: a step of the table, the issue of a bundle on a core, or the passing of one cycle (log entry 3). -/
inductive Action
  | event (i : Instr)
  | issue (core : Nat)
  | tick
  deriving DecidableEq, Repr

/-- The model's own: package cycle (R23), the timed steps already taken in it, the moves chosen from outside, the core that moves when none is
chosen, the bundle being issued, and the counter of free values (log entries 3 and 4). -/
structure Run where
  cyc : Nat := 0
  once : List Nat := []
  agenda : List Action := []
  turn : Nat := 0
  cur : Frame := {}
  free : Nat := 0
  deriving DecidableEq, Repr

/-- Everything but the three memories; poisoned sectors of memory, poisoned sectors of scratch as key of the first byte and length (a mapped
sector need not lie on a sector boundary of scratch), and poisoned lines of the replicas by replica times 2^14 plus line (R131, R215). -/
structure Chip where
  ctxs : Tab Ctx := []
  cores : Tab Core := []
  jobs : Tab Job := []
  launches : Tab Launch := []
  nextLid : Nat := 1
  wrapped : Bool := false
  lastLid : Nat := 0
  lastJob : Nat := 0
  dispatched : Nat := 0
  reqs : Tab Req := []
  phasers : Tab Phaser := []
  tokens : Tab Token := []
  barriers : Tab Barrier := []
  apops : Tab (List Nat) := []
  shaft : Shaft := {}
  net : Net := {}
  levels : Tab Level := []
  code : List CodePage := []
  scan : Option CodePage := none
  poison : List Nat := []
  scrPoison : List (Nat × Nat) := []
  repPoison : List Nat := []
  areas : Tab SaveArea := []
  migs : List Migration := []
  dems : List Demotion := []
  cer : Cer := {}
  fab : Fabric := {}
  host : HostSide := {}
  sup : Sup := {}
  run : Run := {}
  deriving DecidableEq, Repr

/-- The machine's state: physical memory, scratchpads (key core * 2^22 + offset), replicas (key level * 2^20 + byte, level 8 the master),
and the rest. Each memory lists the bytes that are not zero, addresses strictly rising. -/
structure State where
  mem : List Host.Cell
  scr : List Host.Cell
  rep : List Host.Cell
  chip : Chip
  deriving DecidableEq, Repr

/-- The machine right after module reset: MSTAT in RESET (R224), no job, every context free, the slot table all idle (R188), routing entries
ACT 5 (R196), BCAP 1, TSCFG 10, all levels awake; memory with nothing listed. Every register for which the spec states no reset value is
zero (log entry 2). -/
def State.reset : State := { mem := [], scr := [], rep := [], chip := {} }

end Sys2Proof.Machine
end

