-- ==== Sys2Proof/Machine/Store.lean ====
section
/-! DEFINITION. The three byte memories in canonical form, sectors and their poison, and the physical map (R1, R117, R118, R130, R215, R216). -/

namespace Sys2Proof.Machine

/-- The byte at address a; a byte not listed reads zero (log entry 1). -/
def Cells.read : List Host.Cell → Nat → Byte
  | [], _ => 0
  | (k, v) :: r, a => if k = a then v else Cells.read r a

/-- The bytes from address a upward as cells, no zero byte listed. -/
def Cells.listed : Nat → List Byte → List Host.Cell
  | _, [] => []
  | a, b :: r => if b = 0 then Cells.listed (a + 1) r else (a, b) :: Cells.listed (a + 1) r

/-- Bytes written from address a upward: the cells below them, theirs, and the cells above them, so that the form stays canonical. -/
def Cells.put (m : List Host.Cell) (a : Nat) (bs : List Byte) : List Host.Cell :=
  (m.filter fun c => decide (c.1 < a)) ++ Cells.listed a bs ++ m.filter fun c => decide (a + bs.length ≤ c.1)

/-- Every address of a list lies above n, the list rises and no byte is zero. -/
def Cells.wfFrom : Nat → List Host.Cell → Bool
  | _, [] => true
  | n, (k, v) :: r => decide (n ≤ k) && v != 0 && Cells.wfFrom (k + 1) r

/-- The canonical form of a memory. -/
def Memory.wf (m : List Host.Cell) : Bool := Cells.wfFrom 0 m

/-- n bytes from address a, lowest first. -/
def Cells.bytes (m : List Host.Cell) (a : Nat) : Nat → List Byte
  | 0 => []
  | n + 1 => Cells.read m a :: Cells.bytes m (a + 1) n

/-- Bytes as a little-endian number (R1). -/
def leNat : List Byte → Nat
  | [] => 0
  | b :: r => b.toNat + 256 * leNat r

/-- The n low bytes of a number, lowest first (R1). -/
def leBytes : Nat → Nat → List Byte
  | 0, _ => []
  | n + 1, v => BitVec.ofNat 8 v :: leBytes n (v / 256)

/-- The n-byte little-endian value at address a. -/
def Cells.num (m : List Host.Cell) (a n : Nat) : Nat := leNat (Cells.bytes m a n)

/-- Sector number of an address: 1,366 sectors to each 64 KiB unit (R130). -/
def sectorOf (a : Nat) : Nat := a / 65536 * 1366 + a % 65536 / 48
/-- First address of a sector. -/
def sectorBase (k : Nat) : Nat := k / 1366 * 65536 + k % 1366 * 48
/-- Length of a sector: 48 bytes, the last of a unit 16 (R130). -/
def sectorLen (k : Nat) : Nat := if k % 1366 = 1365 then 16 else 48
/-- An address on a sector boundary (R131, R154). -/
def sectorEdge (a : Nat) : Bool := a % 65536 % 48 == 0

/-- The sectors that hold the n bytes from a. -/
def sectorsOf (a n : Nat) : List Nat :=
  if n = 0 then [] else (List.range (sectorOf (a + n - 1) + 1 - sectorOf a)).map (sectorOf a + ·)

/-- A number inserted in a rising list without repeats. -/
def insertNat (n : Nat) : List Nat → List Nat
  | [] => [n]
  | k :: r => if n < k then n :: k :: r else if n = k then k :: r else k :: insertNat n r

/-- Size of the HBM (R117). -/
def hbmSize : Nat := 0x8000000000
/-- Base of the second tier (R117). -/
def tier2Base : Nat := 0x200000000000

/-- The pseudo-channel of an HBM address (R118). -/
def channelOf (pa : Nat) : Nat := pa / 65536 % 512

/-- The CER window (R219). -/
def inCerWindow (c : Cer) (pa : Nat) : Bool :=
  decide (c.base ≤ pa) && decide (pa < c.base + 4096 * (c.recBlocks + c.ckpBlocks))

/-- The address lies in the second tier's range of 32 TiB (R117, R140). -/
def inTier2 (pa : Nat) : Bool := decide (tier2Base ≤ pa) && decide (pa < 0x400000000000)

/-- An address of HBM or of installed second tier that is populated (R117, R219). -/
def populated (s : State) (pa : Nat) : Bool :=
  if pa < hbmSize then !s.chip.sup.deadChannels.contains (channelOf pa) && !inCerWindow s.chip.cer pa
  else inTier2 pa && decide (pa < tier2Base + s.chip.sup.tier2)

/-- A byte behind an expander whose link dropped reads poisoned (R237). -/
def droppedAt (s : State) (pa : Nat) : Bool :=
  s.chip.sup.expanders.any fun (port, base, len) =>
    s.chip.sup.dropped.contains port && decide (base ≤ pa) && decide (pa < base + len)

/-- A poisoned sector (R215). -/
def poisoned (s : State) (k : Nat) : Bool := s.chip.poison.contains k || droppedAt s (sectorBase k)

/-- The first poisoned sector's physical base among those of the n bytes at pa (R216). -/
def firstPoison (s : State) (pa n : Nat) : Option Nat := ((sectorsOf pa n).find? (poisoned s)).map sectorBase

/-- s with a changed chip. -/
def State.onChip (s : State) (f : Chip → Chip) : State := { s with chip := f s.chip }

/-- n bytes of physical memory as a number. -/
def State.peek (s : State) (pa n : Nat) : Nat := Cells.num s.mem pa n

/-- Bytes stored to physical memory; a sector written whole loses its poison (R216). -/
def State.poke (s : State) (pa : Nat) (bs : List Byte) : State :=
  { s with
    mem := Cells.put s.mem pa bs
    chip := { s.chip with poison := s.chip.poison.filter fun k =>
      !(decide (pa ≤ sectorBase k) && decide (sectorBase k + sectorLen k ≤ pa + bs.length)) } }

/-- The n low bytes of a number stored. -/
def State.pokeNum (s : State) (pa n v : Nat) : State := s.poke pa (leBytes n v)

/-- Key of a scratch byte. -/
def scrKey (core off : Nat) : Nat := core * 0x400000 + off

/-- n bytes of a core's scratchpad. -/
def State.scrBytes (s : State) (core off n : Nat) : List Byte := Cells.bytes s.scr (scrKey core off) n

/-- Bytes stored to a core's scratchpad; a poisoned sector written whole loses its poison (R215, R216). -/
def State.scrPut (s : State) (core off : Nat) (bs : List Byte) : State :=
  { s with
    scr := Cells.put s.scr (scrKey core off) bs
    chip := { s.chip with scrPoison := s.chip.scrPoison.filter fun x =>
      !(decide (scrKey core off ≤ x.1) && decide (x.1 + x.2 ≤ scrKey core off + bs.length)) } }

/-- Whether scratch bytes hold poison. -/
def scrPoisoned (s : State) (core off n : Nat) : Bool :=
  s.chip.scrPoison.any fun x => decide (x.1 < scrKey core off + n) && decide (scrKey core off < x.1 + x.2)

/-- A sector of scratch marked poisoned (R215, R216). -/
def State.scrTaint (s : State) (core off n : Nat) : State :=
  s.onChip fun c => { c with scrPoison := (scrKey core off, n) :: c.scrPoison.filter fun x => x != (scrKey core off, n) }

/-- Byte offset of a line of a replica; level 8 is the master (R190). -/
def repKey (level line : Nat) : Nat := level * 0x100000 + line * 64

/-- Number of a line of a replica among those of all replicas. -/
def repLine (level line : Nat) : Nat := level * 0x4000 + line

/-- Masked bytes of a 64-byte line: byte i replaced where bit i of the mask is set (R190). -/
def maskLine (old new : List Byte) (mask : Word) : List Byte :=
  (List.range 64).map fun i => if mask.getLsbD i then new.getD i 0 else old.getD i 0

/-- A transfer's line applied at one replica; a line written whole loses its poison (R190, R216). -/
def applyLine (s : State) (level line : Nat) (mask : Word) (bs : List Byte) : State :=
  { s with
    rep := Cells.put s.rep (repKey level line) (maskLine (Cells.bytes s.rep (repKey level line) 64) bs mask)
    chip := { s.chip with repPoison := s.chip.repPoison.filter fun k => !(k == repLine level line && mask == BitVec.allOnes 64) } }

end Sys2Proof.Machine
end

