-- ==== Sys2Proof/Machine/Ops.lean ====
section
/-! DEFINITION. Named operations over the state: the units by number, the operand view of the bundle being issued, results on their way, and
the taking of a trap, a fatal error and a kill (R204 to R209, R243, R251, R260, R262). -/

namespace Sys2Proof.Machine

/-- What a meaning answers. -/
abbrev Out := Host.Outcome State Fault Refusal

/-! ## Units by number (R19) -/

/-- Context g. -/
def State.ctx (s : State) (g : Nat) : Ctx := Tab.get {} s.chip.ctxs g
/-- s with context g changed. -/
def State.mapCtx (s : State) (g : Nat) (f : Ctx → Ctx) : State :=
  s.onChip fun c => { c with ctxs := Tab.set c.ctxs g (f (s.ctx g)) }
/-- Core c; foreman core f is core 256 + f. -/
def State.core (s : State) (c : Nat) : Core := Tab.get {} s.chip.cores c
/-- s with core c changed. -/
def State.mapCore (s : State) (c : Nat) (f : Core → Core) : State :=
  s.onChip fun x => { x with cores := Tab.set x.cores c (f (s.core c)) }
/-- Job j. -/
def State.job (s : State) (j : Nat) : Job := Tab.get {} s.chip.jobs j
/-- s with job j changed. -/
def State.mapJob (s : State) (j : Nat) (f : Job → Job) : State :=
  s.onChip fun x => { x with jobs := Tab.set x.jobs j (f (s.job j)) }
/-- Level l. -/
def State.level (s : State) (l : Nat) : Level := Tab.get {} s.chip.levels l
/-- s with level l changed. -/
def State.mapLevel (s : State) (l : Nat) (f : Level → Level) : State :=
  s.onChip fun x => { x with levels := Tab.set x.levels l (f (s.level l)) }
/-- s with its run data changed. -/
def State.onRun (s : State) (f : Run → Run) : State := s.onChip fun c => { c with run := f c.run }
/-- The bundle being issued. -/
def State.cur (s : State) : Frame := s.chip.run.cur
/-- s with the bundle being issued changed. -/
def State.onCur (s : State) (f : Frame → Frame) : State := s.onRun fun r => { r with cur := f r.cur }
/-- The context of the bundle being issued. -/
def State.me (s : State) : Ctx := s.ctx s.cur.ctx
/-- s with that context changed. -/
def State.mapMe (s : State) (f : Ctx → Ctx) : State := s.mapCtx s.cur.ctx f

/-- The core of a context (R19). -/
def coreOf (g : Nat) : Nat := if g < 1024 then g / 4 else 256 + (g - 1024) / 8
/-- The level of a kernel context (R19). -/
def levelOf (g : Nat) : Nat := g / 128
/-- The level of a global core (R19). -/
def coreLevel (c : Nat) : Nat := c / 32
/-- The viaduct stop of a global core: the strip of its core-strip index (R13, R14, R19). -/
def coreStop (c : Nat) : Nat := c % 32 / 4 + c % 32 / 8
/-- A foreman context. -/
def isForeman (g : Nat) : Bool := decide (1024 ≤ g)
/-- The contexts of a core (R19). -/
def coreCtxs (c : Nat) : List Nat :=
  if c < 256 then (List.range 4).map (4 * c + ·) else (List.range 8).map (1024 + 8 * (c - 256) + ·)
/-- Every context. -/
def allCtxs : List Nat := List.range 1088
/-- The package cycle (R23). -/
def State.cyc (s : State) : Nat := s.chip.run.cyc

/-! ## Job registers (R257) -/

/-- Reset value of a job register: BCAP 1 in BATCHCFG, else 0 (R257). -/
def jobRegReset (n : Nat) : Word := if n = 0x10C then 1 else 0
/-- A job register. -/
def Job.reg (j : Job) (n : Nat) : Word := Tab.get (jobRegReset n) j.regs n
/-- A job with a register written. -/
def Job.setReg (j : Job) (n : Nat) (v : Word) : Job := { j with regs := Tab.set j.regs n v }
/-- Bits [hi:lo] as a number (R1). -/
def bits {w : Nat} (x : BitVec w) (hi lo : Nat) : Nat := x.toNat / 2 ^ lo % 2 ^ (hi + 1 - lo)
/-- The primary ASID (R116, R257). -/
def Job.asid (j : Job) : Nat := bits (j.reg 0x118) 12 0
/-- The job's partition: bit n names global core n (R21, R257). -/
def Job.partition (j : Job) : BitVec 256 := j.reg 0x11F ++ j.reg 0x11E ++ j.reg 0x11D ++ j.reg 0x11C
/-- Base and length of the scratch share (R60, R257). -/
def Job.scrBase (j : Job) : Nat := bits (j.reg 0x115) 21 0
/-- Length of the scratch share (R257). -/
def Job.scrLen (j : Job) : Nat := bits (j.reg 0x115) 53 32
/-- The foreman mode of a job, in the codes of MODE (R169, R257). -/
def Job.fmode (j : Job) : Nat := bits (j.reg 0x10F) 5 4
/-- The foreman context that owns the job: 1,024 for job 0, else 1,024 + FMIX of its start (R20, R232). -/
def Job.owner (j : Job) (n : Nat) : Nat := if n = 0 then 1024 else 1024 + bits (j.reg 0x120) 5 0

/-! ## Engine queues (R34) -/

/-- The engine whose queue an instruction needs (R34, R378, R392, R349). -/
def cmdEngine : Instr → Option Engine
  | .tld _ _ _ _ _ _ | .tst _ _ _ _ _ _ => some .a
  | .mma _ _ _ | .mmas _ _ _ _ | .matt _ _ _ _ | .mattf _ _ _ _ | .aclr _ _ | .acrd _ _ _ _ _ | .acld _ _ _ | .cmpr _ _ _ | .mtrn _ _
  | .mzero _ | .mcvt _ _ _ _ => some .m
  | .cwld _ _ _ | .cwst _ _ _ | .cwupd _ _ _ _ _ | .cwcnt _ _ _ | .compact _ _ _ _ | .restore _ _ _ | .exnote _ | .kvapp _ _ _ _ _
  | .kvg _ _ _ _ _ _ _ | .kvscan _ _ _ _ _ | .kvexs _ _ | .gath _ _ _ _ | .scat _ _ _ _ | .put _ _ _ _ _ | .get _ _ _ _
  | .fsend _ _ _ _ | .frecv _ _ _ => some .x
  | _ => none

/-- The queue of an engine (R34). -/
def Core.queue (c : Core) (e : Engine) : List Command :=
  match e with
  | .m => c.mq | .x => c.xq | .a => c.aq
/-- A core with an engine's queue replaced. -/
def Core.setQueue (c : Core) (e : Engine) (l : List Command) : Core :=
  match e with
  | .m => { c with mq := l } | .x => { c with xq := l } | .a => { c with aq := l }

/-- An engine's queue is full: eight entries (R34). While a restored command waits for a place in it, it is. -/
def Core.engineFull (k : Core) (e : Engine) : Bool := decide (8 ≤ (k.queue e).length)

/-- Commands of restored contexts that found their queue full enter it as places come free, in order (R34, R64; log entry 49). -/
def Core.fill (k : Core) : Core :=
  k.late.foldl (fun k c => match cmdEngine c.instr with
    | some e => if k.engineFull e then { k with late := k.late ++ [c] } else k.setQueue e (k.queue e ++ [c])
    | none => k) { k with late := [] }

/-- The commands of a core not yet complete. -/
def Core.commands (k : Core) : List Command := k.mq ++ k.xq ++ k.aq ++ k.fly ++ k.waitRows ++ k.late

/-! ## Operands at the issue tick (R243, R251) -/

/-- The physical scalar a name denotes under an age offset (R251). -/
def physS (ages : BitVec 4) (n : SReg) : BitVec 6 :=
  if 32 ≤ n.toNat ∧ n.toNat ≤ 47 then BitVec.ofNat 6 (32 + (n.toNat - 32 + ages.toNat) % 16) else n
/-- The physical vector a name denotes under an age offset (R251). -/
def physV (agev : BitVec 3) (n : VReg) : BitVec 5 :=
  if 24 ≤ n.toNat then BitVec.ofNat 5 (24 + (n.toNat - 24 + agev.toNat) % 8) else n

/-- The operands of a context as they stand. -/
def Ctx.operands (c : Ctx) : Operands := { s := c.s, v := c.v, k := c.k, g := c.g, q := c.q, t := c.t, lr := c.lr, fpstat := c.cr.fpstat }

/-- The operands that the bundle being issued reads: those kept from its issue tick where it has waited since, else those of its context
(R204, R205, R243). -/
def State.operands (s : State) : Operands := s.cur.ops.getD s.me.operands

/-- The frame with the operands of its issue tick kept (R204). -/
def State.keepOps (s : State) : Frame := { s.cur with ops := some s.operands }

/-- S[n] as the bundle reads it; s0 reads zero (R8). -/
def State.rS (s : State) (n : SReg) : Word := if n = 0 then 0 else Tab.get 0 s.operands.s (physS s.cur.ages n).toNat
/-- P[n] as the bundle reads it; p0 reads one (R8). -/
def State.rP (s : State) (n : PReg) : Bool := n == 0 || s.cur.preds.getLsbD n.toNat
/-- All predicates as the bundle reads them. -/
def State.rPreds (s : State) : BitVec 16 := s.cur.preds ||| 1
/-- V[n] as the bundle reads it. -/
def State.rV (s : State) (n : VReg) : Vec := Tab.get 0 s.operands.v (physV s.cur.agev n).toNat
/-- K[n]; k0 reads all ones (R8). -/
def readK (t : Tab Word) (n : KReg) : Word := if n = 0 then BitVec.allOnes 64 else Tab.get 0 t n.toNat
/-- K[n] as it stands. -/
def Ctx.rK (c : Ctx) (n : KReg) : Word := readK c.k n
/-- K[n] as the bundle reads it. -/
def State.rK (s : State) (n : KReg) : Word := readK s.operands.k n
/-- G[n] as the bundle reads it. -/
def State.rG (s : State) (n : GReg) : StreamBits := Tab.get 0 s.operands.g n.toNat
/-- Q[n] as the bundle reads it. -/
def State.rQ (s : State) (n : QReg) : RingBits := Tab.get 0 s.operands.q n.toNat
/-- Q[n]. -/
def Ctx.rQ (c : Ctx) (n : QReg) : RingBits := Tab.get 0 c.q n.toNat
/-- T[n]. -/
def Ctx.tile (c : Ctx) (n : Nat) : Tile := Tab.get {} c.t n
/-- A[n]. -/
def Ctx.acc (c : Ctx) (n : Nat) : Acc := Tab.get {} c.a n
/-- Row r of a tile. -/
def Tile.row (t : Tile) (r : Nat) : TileRow := Tab.get {} t.rows r
/-- A tile with row r set. -/
def Tile.setRow (t : Tile) (r : Nat) (x : TileRow) : Tile := { t with rows := Tab.set t.rows r x }
/-- s with tile n of context g set. -/
def State.setTile (s : State) (g n : Nat) (t : Tile) : State := s.mapCtx g fun c => { c with t := Tab.set c.t n t }
/-- s with accumulator n of context g set. -/
def State.setAcc (s : State) (g n : Nat) (a : Acc) : State := s.mapCtx g fun c => { c with a := Tab.set c.a n a }

/-! ## Register writes (R8, R251, R260) -/

/-- The write of a scalar named at issue; a write of s0 is discarded (R8). -/
def State.wS (s : State) (d : SReg) (v : Word) : List RegWrite := if d = 0 then [] else [.s (physS s.cur.ages d) v]
/-- The write of a vector named at issue. -/
def State.wV (s : State) (d : VReg) (v : Vec) : List RegWrite := [.v (physV s.cur.agev d) v]
/-- The write of a mask; a write of k0 is discarded (R8). -/
def wK (d : KReg) (v : Word) : List RegWrite := if d = 0 then [] else [.k d v]
/-- The write of predicates by mask; p0 is never written (R8). -/
def wP (mask v : BitVec 16) : List RegWrite := if mask &&& 0xFFFE = 0 then [] else [.p (mask &&& 0xFFFE) v]
/-- One predicate's bit. -/
def pBit (d : PReg) (b : Bool) : BitVec 16 := if b then 1 <<< d.toNat else 0

/-- A 12-bit position group reduced modulo its counts, and the reserved bit cleared (R343). -/
def streamFix (g : StreamBits) : StreamBits :=
  let c0 := bits g 195 184 + 1
  let c1 := bits g 207 196 + 1
  let c2 := bits g 219 208 + 1
  let p0 : BitVec 12 := BitVec.ofNat 12 (bits g 231 220 % c0)
  let p1 : BitVec 12 := BitVec.ofNat 12 (bits g 243 232 % c1)
  let p2 : BitVec 12 := BitVec.ofNat 12 (bits g 255 244 % c2)
  p2 ++ p1 ++ p0 ++ g.extractLsb' 64 156 ++ (0 : BitVec 1) ++ g.extractLsb' 0 63

/-- A ring handle's fields (R358): tail, head, ring peer and the rest below FILLED. -/
def ringTail (q : RingBits) : BitVec 20 := q.extractLsb' 108 20
/-- HEAD (R358). -/
def ringHead (q : RingBits) : BitVec 20 := q.extractLsb' 88 20
/-- FILLED = (TAIL − HEAD) mod 2^20 (R358). -/
def ringFilled (q : RingBits) : Nat := (ringTail q - ringHead q).toNat
/-- CAP (R358). -/
def ringCap (q : RingBits) : Nat := bits q 60 49 + 1
/-- SSZ (R358). -/
def ringSsz (q : RingBits) : Nat := 16 * (bits q 48 37 + 1)
/-- A handle with TAIL and HEAD set and FILLED recomputed; reserved bits zero (R358). -/
def ringSet (q : RingBits) (tail head : BitVec 20) : RingBits :=
  tail ++ head ++ (tail - head).setWidth 13 ++ q.extractLsb' 19 56 ++ (0 : BitVec 19)

/-- Class number of a register for parity records and the operand log, which the spec does not give (R210, R214): s 0, p 1, v 2, k 3, g 4, q 5,
control 6 by its number, lc and ec 7, lr 8, i0 to i3 9 (log entry 47). -/
def RegWrite.log : RegWrite → List LogWrite
  | .s n _ => [⟨0, n.toNat⟩]
  | .p m _ => ((List.range 16).filter fun i => m.getLsbD i).map fun i => ⟨1, i⟩
  | .v n _ => [⟨2, n.toNat⟩]
  | .k n _ => [⟨3, n.toNat⟩]
  | .g n _ => [⟨4, n.toNat⟩]
  | .q n _ | .qadv n _ _ => [⟨5, n.toNat⟩]
  | .ctl n _ => [⟨6, n.toNat⟩]

/-- Register writes entered in the operand log, which holds the last sixteen (R214). -/
def Ctx.noting (c : Ctx) (l : List LogWrite) : Ctx := { c with oplog := (l ++ c.oplog).take 16 }

/-- One register write landed, control registers of R256 as SETC leaves them (R256, R329). -/
def Ctx.landWrite (c : Ctx) (w : RegWrite) : Ctx :=
  let c := match w with
    | .s n v => { c with s := Tab.set c.s n.toNat v }
    | .p m v => { c with p := (c.p &&& ~~~m) ||| (v &&& m) }
    | .v n v => { c with v := Tab.set c.v n.toNat v }
    | .k n v => { c with k := Tab.set c.k n.toNat v }
    | .g n v => { c with g := Tab.set c.g n.toNat (streamFix v) }
    | .q n v => { c with q := Tab.set c.q n.toNat v }
    | .qadv n h t => { c with q := Tab.set c.q n.toNat (ringSet (c.rQ n) (ringTail (c.rQ n) + t) (ringHead (c.rQ n) + h)) }
    | .ctl n v =>
      match n.toNat with
      | 0x008 => { c with cr := { c.cr with mode := v.extractLsb' 2 1 ++ c.cr.mode.extractLsb' 0 2 } }
      | 0x010 => { c with cr := { c.cr with fpstat := v.extractLsb' 0 8 } }
      | 0x018 => { c with cr := { c.cr with wdog := v.extractLsb' 0 32 } }
      | 0x020 => { c with cr := { c.cr with key0 := v } }
      | 0x021 => { c with cr := { c.cr with key1 := v } }
      | 0x022 => { c with cr := { c.cr with rngctr := v } }
      | 0x040 => { c with cr := { c.cr with blockno := v.extractLsb' 0 8 } }
      | _ => c
  c.noting w.log

/-- Flags ORed into FPSTAT, a write of it where there are any (R114, R214). -/
def Ctx.orFlags (c : Ctx) (f : BitVec 8) : Ctx :=
  let c := { c with cr := { c.cr with fpstat := c.cr.fpstat ||| f } }
  if f = 0 then c else c.noting [⟨6, 0x010⟩]

/-- The writes of one entry landed. -/
def Ctx.landWrites (c : Ctx) (l : List RegWrite) : Ctx := l.foldl Ctx.landWrite c

/-- The pending writes due now landed in issue order, then their flags, so that flags landing with a SETC of FPSTAT are ORed into it
(R114, R260). -/
def Ctx.landDue (c : Ctx) : Ctx :=
  let due := c.pend.filter fun p => p.left == 0
  let c := { c with pend := c.pend.filter fun p => p.left != 0 }
  let c := due.foldl (fun c p => c.landWrites p.writes) c
  due.foldl (fun c p => c.orFlags p.flags) c

/-- The bundle clock advanced by n ticks, each tick's writes landing as it passes (R259, R260). -/
def Ctx.advance : Ctx → Nat → Ctx
  | c, 0 => c
  | c, n + 1 =>
    let c : Ctx := { c with clk := c.clk + 1, pend := c.pend.map (fun p : Pending => { p with left := p.left - 1 }) }
    Ctx.advance c.landDue n

/-- A fixed-latency result of the instruction being executed: it lands lat ticks after issue (R260, R264). -/
def State.result (s : State) (lat : Nat) (w : List RegWrite) (flags : BitVec 8 := 0) (cost : Nat := 1)
    (flagged : Bool := false) : State :=
  s.mapMe fun c => { c with pend := c.pend ++ [⟨lat, w, flags, cost, flagged⟩] }

/-- A scalar result (R290). -/
def State.resS (s : State) (lat : Nat) (d : SReg) (v : Word) : Out := .next (s.result lat (s.wS d v))

/-- A scoreboarded result of the instruction being executed (R262). -/
def State.coming (s : State) (r : Landing) (flags : BitVec 8 := 0) : State :=
  s.mapMe fun c => { c with coming := c.coming ++ [{ res := r, flags }] }

/-- A scoreboarded result landed in a context (R254, R262, R372, R373). -/
def Ctx.landComing (c : Ctx) (x : Coming) : Ctx :=
  let c := match x.res with
    | .regs l => c.landWrites l
    | .dq v => { c with dq := (if c.dq.length < 8 then c.dq else c.dq.drop 1) ++ [v], dqComing := c.dqComing - 1 }
    | .row t r rc v rcws =>
      let tile := c.tile t.toNat
      let tile := if rc then
          rcws.zipIdx.foldl (fun (tl : Tile) (w, i) => tl.setRow i { tl.row i with rcw := w }) tile
        else tile.setRow r.toNat { v with rcw := (tile.row r.toNat).rcw }
      { c with t := Tab.set c.t t.toNat tile }
  c.orFlags x.flags

/-- The next free value of w bits (log entry 4). -/
def State.fresh (s : State) (w : Nat) : BitVec w := Config.freeBits w s.chip.run.free
/-- s after taking a free value. -/
def State.bump (s : State) : State := s.onRun fun r => { r with free := r.free + 1 }

/-! ## The HBM allowance (R24, R26, R36; log entry 33) -/

/-- The sector transfers that an access of at most n sectors makes: the caches, which hold the others, are no state. -/
def State.transfers (s : State) (most : Nat) : Nat := (s.fresh 32).toNat % (most + 1)

/-- The most sectors that the walks of an access read: two sets of eight ways for each of two pages (R122, R130). -/
def walkSectors : Nat := 16

/-- The most sectors that a command, a write-back or a KV instruction transfers. -/
def commandSectors : Nat := 0x10000

/-- What is left of a job's HBM allowance in this period (R23, R24). -/
def Job.hbmLeft (j : Job) : Nat := j.alw.hbm.toNat - j.hbmUsed

/-- Transfers issued toward the HBM as far as the allowance goes: the number still to be issued, and the job charged (R24, R36). -/
def Job.issueSectors (j : Job) (n : Nat) : Nat × Job := (n - j.hbmLeft, { j with hbmUsed := j.hbmUsed + min n j.hbmLeft })

/-- Transfers of a performed write: those beyond the allowance wait in the memory queues (R36). -/
def Job.sendSectors (j : Job) (n : Nat) : Job := let (rest, j) := j.issueSectors n; { j with hbmHeld := j.hbmHeld + rest }

/-- A write of at most n sectors by job j, charged. -/
def State.chargeWrite (s : State) (j most : Nat) : State :=
  if most = 0 then s else (s.mapJob j fun x => x.sendSectors (s.transfers most)).bump

/-- Transfers that a read or command of job j waits for, issued as far as the allowance goes: those left, and the state. -/
def State.paySectors (s : State) (j n : Nat) : Nat × State := (((s.job j).issueSectors n).1, if n = 0 then s else s.mapJob j fun x => (x.issueSectors n).2)

/-! ## Blocks and holds (R34, R35, R309) -/

/-- The instruction cannot proceed: its bundle is left unissued on this cause (R34, R35). -/
def State.block (s : State) (c : Cause) : Out :=
  .next (s.mapMe fun x => { x with blocked := some c })

/-! ## Records, traps, fatal errors (R203 to R210) -/

/-- Number of a slot in TSLOT (R208). -/
def Slot.tslot : Slot → BitVec 3
  | .s => 0 | .a => 1 | .v => 2 | .m => 3 | .x => 4

/-- The header word of a record (R208). -/
def TrapRec.hdr (r : TrapRec) : Word :=
  (0 : BitVec 23) ++ r.job ++ r.ctx ++ r.acc ++ r.done ++ (0 : BitVec 1) ++ r.tslot ++ r.kind ++ r.code

/-- The 128 bytes of a record with its SEQ (R208). -/
def TrapRec.image (r : TrapRec) (seq : Word) : BitVec 1024 :=
  r.act ++ r.exp ++ (0 : BitVec 128) ++ seq ++ r.info ++ r.ord ++ r.launch ++ r.addr ++ r.pc ++ r.hdr

/-- A record of the context of the bundle being issued (R208). -/
def State.recordHere (s : State) (code : BitVec 8) (kind : BitVec 4) (acc : BitVec 3) (addr info : Word) : TrapRec :=
  { code, kind, tslot := Slot.tslot s.cur.slot, done := s.cur.done, acc, ctx := BitVec.ofNat 11 s.cur.ctx, job := s.me.cr.job
    pc := s.cur.pc, addr, launch := s.me.cr.launch
    ord := if isForeman s.cur.ctx || s.me.handlerRun then 0xFFFFFFFF else s.me.cr.iterno
    info, exp := 0, act := 0 }

/-- A record of context g outside any bundle (R206, R208): its PC is the context's. -/
def State.recordOf (s : State) (g : Nat) (code : BitVec 8) (kind : BitVec 4) (addr info : Word) : TrapRec :=
  let c := s.ctx g
  { code, kind, tslot := 7, done := 0, acc := 7, ctx := BitVec.ofNat 11 g, job := c.cr.job, pc := c.pc, addr
    launch := c.cr.launch, ord := if isForeman g || c.handlerRun then 0xFFFFFFFF else c.cr.iterno, info, exp := 0, act := 0 }

/-- A record of an agent: walker 0x7F0, batch former 0x7F1, tick delivery 0x7F2, tier engine 0x7F3 (R208). -/
def agentRecord (code : BitVec 8) (kind : BitVec 4) (agent : BitVec 11) (job : Nat) (launch : Lane) (addr info : Word) : TrapRec :=
  { code, kind, tslot := 7, done := 0, acc := 7, ctx := agent, job := BitVec.ofNat 6 job, pc := 0, addr, launch
    ord := 0xFFFFFFFF, info, exp := 0, act := 0 }

/-- MSI-X vector 0 posted (R223). -/
def State.msix (s : State) : State := s.onChip fun c => { c with host := { c.host with msix := c.host.msix + 1 } }

/-- A record of the supervisor held in the host's fault window under the next number of its sequence (R207, R234). -/
def State.faultWindow (s : State) (r : TrapRec) : State :=
  let h := s.chip.host
  let s := s.onChip fun c => { c with host := { c.host with
    fault := r.image h.faultSeq, fvalid := true, faultSeq := h.faultSeq + 1 } }
  let s := s.mapCtx 1024 fun c => match c.held with
    | some x => if x.seq.isNone then { c with held := some { x with seq := some h.faultSeq } } else c
    | none => c
  s.msix

/-- A record posted (R207, R209): the supervisor's own to the fault window while it is free, a foreman's to the queue of job 0, any other to
its job's queue. A stop or fatal record waits in its context and is never dropped; of the other kinds 256 wait and the newest beyond that is
dropped and counted in LOST. -/
def State.post (s : State) (r : TrapRec) : State :=
  let g := r.ctx.toNat
  let own := if r.kind.toNat ≤ 1 then some g else none
  if g = 1024 && !s.chip.host.fvalid then s.faultWindow r
  else
    let j := if 1024 ≤ g ∧ g < 1088 then 0 else r.job.toNat
    s.mapJob j fun jb =>
      if own.isNone && decide (256 ≤ (jb.waiting.filter fun w => w.own.isNone).length) then { jb with lost := jb.lost + 1 }
      else { jb with waiting := jb.waiting ++ [⟨r, own⟩] }

/-- The slots that a stop leaves unexecuted: the trapping slot and those after it; TRAP's own slot has executed (R204, R205). -/
def Frame.leave (f : Frame) (executed : Bool) : Frame := if executed then { f with rest := f.rest.drop 1 } else f

/-- The bit of DONE for a slot (R208). -/
def Slot.doneBit (sl : Slot) : BitVec 5 := 1 <<< sl.index

/-- A stop (R204): the context is stopped, its record posted and held with the slots not yet executed. -/
def State.stopWith (s : State) (r : TrapRec) (executed : Bool) : State :=
  let s := s.mapMe fun c => { c with
    status := .stopped, blocked := none
    held := some ⟨r, none, some { s.keepOps.leave executed with done := r.done }⟩ }
  s.post r

/-- Trap(code) of R11 for a stop code: a precise stop at the slot being executed (R203, R204, R210). -/
def State.trap (s : State) (code : BitVec 8) (acc : BitVec 3) (addr info : Word) : Out :=
  .next (s.stopWith (s.recordHere code 0 acc addr info) false)

/-- A fatal error found by the instruction being executed: it kills the context at the next bundle boundary (R206). -/
def State.fatal (s : State) (code : BitVec 8) (acc : BitVec 3) (addr info : Word) : Out :=
  .next (s.mapMe fun c => { c with doom := some (c.doom.getD (s.recordHere code 1 acc addr info)) })

/-- A notice of the context of the bundle being issued (R203). -/
def State.notice (s : State) (code : BitVec 8) (addr info : Word) : State := s.post (s.recordHere code 2 7 addr info)

end Sys2Proof.Machine
end

