-- ==== Sys2Proof/Machine/ErrorLog.lean ====
section
/-! DEFINITION. SHA-384 (log entry 7) and the corrected-error log: its records, chain, rings, gaps and checkpoints (R219 to R222, R236). -/

namespace Sys2Proof.Machine

/-! ## SHA-384

Its constants are the first 64 bits of the fractional parts of roots of primes, computed here; the eight working words are kept as the last
four values of the two sequences that the rounds extend. -/

/-- n applications. -/
def times {α : Type} (f : α → α) : Nat → α → α
  | 0, x => x
  | n + 1, x => times f n (f x)

/-- The greatest number whose k-th power is at most n, its bits from the place n0 downward decided one by one. -/
def rootBelow (k n : Nat) : Nat → Nat → Nat
  | 0, r => r
  | i + 1, r => rootBelow k n i (if (r + 2 ^ i) ^ k ≤ n then r + 2 ^ i else r)

/-- The first 64 bits of the fraction of the k-th root of a number below 2^12. -/
def rootFraction (k p : Nat) : Word := BitVec.ofNat 64 (rootBelow k (p * 2 ^ (64 * k)) 71 0)

/-- The primes below 410, eighty of them. -/
def shaPrimes : List Nat := (List.range 410).filter fun p => decide (2 ≤ p) && (List.range 21).all fun d => d < 2 || p ≤ d || p % d != 0

/-- The two sequences before the first block, newest value first: square roots of the ninth to the sixteenth prime. -/
def shaStart : List Word := ((shaPrimes.drop 8).take 8).map (rootFraction 2)

/-- What each of the eighty rounds adds: cube roots. -/
def shaAdds : List Word := shaPrimes.map (rootFraction 3)

/-- The sum without carry of the rotations of a word to the right. -/
def spin (x : Word) (l : List Nat) : Word := l.foldl (fun a n => a ^^^ x.rotateRight n) 0

/-- The schedule of a block, newest word first, with one word more. -/
def shaExtend (w : List Word) : List Word :=
  let back := fun n => w.getD (n - 1) 0
  let near := spin (back 2) [19, 61] ^^^ (back 2 >>> 6)
  let far := spin (back 15) [1, 8] ^^^ (back 15 >>> 7)
  (back 16 + back 7 + near + far) :: w

/-- One round: each sequence takes its next value, of which it keeps the last four. -/
def shaRound (x : List Word × List Word) (kw : Word) : List Word × List Word :=
  let (a, e) := (fun n => x.1.getD n 0, fun n => x.2.getD n 0)
  let gain := kw + e 3 + (e 2 ^^^ (e 0 &&& (e 1 ^^^ e 2))) + spin (e 0) [14, 18, 41]
  let top := ((a 0 ||| a 1) &&& a 2 ||| (a 0 &&& a 1)) + spin (a 0) [28, 34, 39]
  ((gain + top) :: x.1.take 3, (a 3 + gain) :: x.2.take 3)

/-- n bytes, most significant first, of a number. -/
def beBytes (n v : Nat) : List Byte := (leBytes n v).reverse

/-- The sixteen words of a block, newest first. -/
def shaWords (block : List Byte) : List Word :=
  (List.range 16).map fun i => BitVec.ofNat 64 (leNat ((block.drop (120 - 8 * i)).take 8).reverse)

/-- One block taken in. -/
def shaBlock (h : List Word) (block : List Byte) : List Word :=
  let ws := (times shaExtend 64 (shaWords block)).reverse
  let x := (shaAdds.zip ws).foldl (fun x kw => shaRound x (kw.1 + kw.2)) (h.take 4, h.drop 4)
  (h.zip (x.1 ++ x.2)).map fun y => y.1 + y.2

/-- n blocks of 128 bytes taken in, in order. -/
def shaBlocks : Nat → List Word → List Byte → List Word
  | 0, h, _ => h
  | n + 1, h, bs => shaBlocks n (shaBlock h (bs.take 128)) (bs.drop 128)

/-- The 48 bytes of SHA-384 of a message. -/
def sha384 (m : List Byte) : List Byte :=
  let fill := (239 - m.length % 128) % 128
  let text := m ++ 0x80 :: (List.replicate fill 0 ++ beBytes 16 (8 * m.length))
  ((shaBlocks (text.length / 128) shaStart text).take 6).flatMap fun w => beBytes 8 w.toNat

/-! ## The log -/

/-- s with the log changed. -/
def State.onCer (s : State) (f : Cer → Cer) : State := s.onChip fun c => { c with cer := f c.cer }

/-- What a record says beside its number and time (R220). -/
structure CerEvent where
  type : Nat
  cls : Nat := 12
  unit : Nat := 0
  addr : Nat := 0
  detail : Nat := 0
  job : Nat := 0
  ctx : Nat := 0x7FF
  launch : Nat := 0
  deriving DecidableEq, Repr

/-- The 64 bytes of a record, lowest first (R220). -/
def CerEvent.bytes (e : CerEvent) (seq time : Nat) : List Byte :=
  leBytes 8 seq ++ leBytes 8 time ++ leBytes 1 e.type ++ leBytes 1 e.cls ++ leBytes 2 e.unit ++ leBytes 4 0 ++ leBytes 8 e.addr ++
  leBytes 8 e.detail ++ leBytes 4 e.launch ++ leBytes 4 (e.ctx % 2 ^ 11 + 2 ^ 11 * (e.job % 64)) ++ leBytes 16 0

/-- Records the ring holds (R219, R220). -/
def Cer.capacity (c : Cer) : Nat := 64 * c.recBlocks
/-- The record ring has n acknowledged places (R222). -/
def Cer.hasRoom (c : Cer) (n : Nat) : Bool := decide (c.next + n ≤ c.ack + c.capacity)
/-- The place of the next checkpoint block. -/
def Cer.slot (c : Cer) : Nat := c.ckpNext % c.ckpBlocks
/-- The checkpoint ring has an acknowledged place (R222). -/
def Cer.hasBlock (c : Cer) : Bool :=
  decide (0 < c.ckpBlocks) && (match Tab.find c.ckpSeqs c.slot with | some q => decide (q < c.ack) | none => true)

/-- An event counted while nothing can be written (R222). -/
def Cer.miss (c : Cer) (e : CerEvent) : Cer := { c with gaps := Tab.set c.gaps e.type (Tab.get 0 c.gaps e.type + 1) }

/-- One record written at the end of the ring, numbered, timed and chained (R219 to R221). -/
def Cer.write (c : Cer) (time : Word) (e : CerEvent) : Cer :=
  let t := max c.lastTime.toNat time.toNat
  let bs := e.bytes c.next t
  let chain := sha384 (leBytes 48 c.chain.toNat ++ bs)
  { c with
    records := Tab.set c.records (c.next % c.capacity) (BitVec.ofNat 512 (leNat bs))
    chain := BitVec.ofNat 384 (leNat chain), next := c.next + 1, sinceCkp := c.sinceCkp + 1, lastTime := BitVec.ofNat 64 t }

/-- The record that closes a gap (R220, R222): the counts of TYPEs 2 to 5 and of 6 to 9, saturating at 16 bits, the lower TYPE lower. -/
def Cer.gapEvent (c : Cer) : CerEvent :=
  let four := fun (t : Nat) => (List.range 4).foldl (fun a i => a + min 0xFFFF (Tab.get 0 c.gaps (t + i)) * 2 ^ (16 * i)) 0
  { type := 0x0A, detail := four 2, addr := four 6 }

/-- Where space has returned, the gap's record is written first (R222). -/
def Cer.closeGap (c : Cer) (time : Word) : Cer :=
  if c.gaps.isEmpty || !c.hasRoom 1 || !c.hasBlock then c else { c.write time c.gapEvent with gaps := [] }

/-- The number under which an epoch's keys of a boot go (R221). -/
def epochKey (boot epoch : Nat) : Nat := (boot + 1) * 2 ^ 20 + epoch

/-- The checkpoint: a KEY EPOCH record where the signatures are spent, then the block and its CHECKPOINT record (R221). Without space,
nothing is written. -/
def Cer.checkpoint (c : Cer) (boot : Nat) (time : Word) : Cer :=
  let fresh := decide (0x100000 ≤ c.spent)
  if !c.hasRoom (if fresh then 2 else 1) || !c.hasBlock then c
  else
    let c := if fresh then { c.write time { type := 0x0C, detail := c.epoch + 1 } with epoch := c.epoch + 1, spent := 0 } else c
    let t := max c.lastTime.toNat time.toNat
    let signed := leBytes 48 c.chain.toNat ++ leBytes 8 c.next ++ leBytes 8 t ++ leBytes 4 c.epoch ++ leBytes 4 0
    let key := epochKey boot c.epoch
    let block := signed ++ leBytes 96 (Config.ecSig key signed).toNat ++ leBytes 1772 (Config.lmsSig key c.spent signed).toNat
    let k := c.slot
    let seq := c.next
    { c.write time { type := 0x0B, detail := 4096 * (c.recBlocks + k) } with
      sinceCkp := 0, wanted := false, spent := c.spent + 1, ckpNext := c.ckpNext + 1
      ckpSeqs := Tab.set c.ckpSeqs k seq, ckps := Tab.set c.ckps k block }

/-- A checkpoint is due: 4,095 records since the last, or one asked for (R221). -/
def Cer.due (c : Cer) : Bool := decide (4095 ≤ c.sinceCkp) || c.wanted

/-- An event recorded: a gap closed first, a checkpoint that falls due before it written first; counted where there is no space
(R221, R222). -/
def Cer.record (c : Cer) (boot : Nat) (time : Word) (e : CerEvent) : Cer :=
  let c := c.closeGap time
  let c := if 4095 ≤ c.sinceCkp then c.checkpoint boot time else c
  if c.gaps.isEmpty && decide (c.sinceCkp < 4095) && c.hasRoom 1 && c.hasBlock then c.write time e else c.miss e

/-- An event recorded in the corrected-error log (R219 to R222). -/
def State.cerRecord (s : State) (e : CerEvent) : State := s.onCer fun c => c.record s.chip.host.cells s.chip.fab.time e

/-- Job, context and launch of a context's event (R220 CTXI). -/
def CerEvent.ofCtx (e : CerEvent) (s : State) (g : Nat) : CerEvent :=
  { e with ctx := g, job := (s.ctx g).cr.job.toNat, launch := (s.ctx g).cr.launch.toNat }

/-- The unit of a physical or window address (R19, R126, R220): class, unit, address or offset. -/
def unitOf (pa : Nat) : Nat × Nat × Nat :=
  if pa / 2 ^ 40 = 0xFE then (1, pa / 2 ^ 32 % 256, pa % 2 ^ 32)
  else if pa < hbmSize then (0, channelOf pa, pa)
  else (11, 0, pa)

/-- The place of consumed poison: the one the record gives, else register state where it names no address, else that of INFO (R210, R220). -/
def TrapRec.place (r : TrapRec) : Nat × Nat × Nat :=
  match r.site with
  | some x => x
  | none => if r.addr = 0 ∧ r.info = 0 then (5, r.ctx.toNat, 0) else unitOf r.info.toNat

/-- Poison consumed by context g, by a fatal error or by a KV instruction that sets FLT (R216, R220). -/
def State.consumed (s : State) (g : Nat) (place : Nat × Nat × Nat) (flt : Bool) : State :=
  let (cls, unit, a) := place
  s.cerRecord (CerEvent.ofCtx { type := 5, cls, unit, addr := a, detail := if flt then 1 else 0 } s g)

/-- Poison consumed by an agent for a job (R216, R220). -/
def State.consumedBy (s : State) (job : Nat) (launch : Lane) (place : Nat × Nat × Nat) : State :=
  let (cls, unit, a) := place
  s.cerRecord { type := 5, cls, unit, addr := a, job, launch := launch.toNat }

/-- A job fault record to the foreman of job j; one by poison is consumption (R208, R216, R220). -/
def State.jobFault (s : State) (j : Nat) (code : BitVec 8) (agent : BitVec 11) (launch : Lane) (addr info : Word) : State :=
  let s := if code = 0x11 then s.consumedBy j launch (unitOf info.toNat) else s
  s.post (agentRecord code 4 agent j launch addr info)

/-- CER_CHECKPOINT: where one is due and there is space (R221). -/
def execCerCheckpoint (s : State) : Out :=
  .next (s.onCer fun c => if c.due then (c.closeGap s.chip.fab.time).checkpoint s.chip.host.cells s.chip.fab.time else c)

/-- The record with number n while it is written and its storage not reused (R236). -/
def Cer.recordAt (c : Cer) (n : Nat) : Option (BitVec 512) :=
  if n < c.next ∧ c.next ≤ n + c.capacity then Tab.find c.records (n % c.capacity) else none

/-- CERIDX: the record that CERDATA and CERSTAT then show (R236). -/
def execCeridx (v : Word) (s : State) : Out := .next (s.onCer fun c => { c with cerix := v })

/-- CKPIDX: the checkpoint block that the stream at CKPDATA then gives, from its start (R236). -/
def execCkpidx (v : Word) (s : State) : Out := .next (s.onCer fun c => { c with ckpix := v, ckpPos := 0 })

/-- The block of the CHECKPOINT record numbered n (R236). -/
def Cer.blockAt (c : Cer) (n : Nat) : Option (List Byte) :=
  match c.ckpSeqs.find? fun (x : Nat × Nat) => x.2 == n with
  | some (k, _) => Tab.find c.ckps k
  | none => none

/-- The next eight bytes of the stream at CKPDATA, zero where there is no block (R236). -/
def Cer.nextWord (c : Cer) : Word :=
  match c.blockAt c.ckpix.toNat with
  | some bs => BitVec.ofNat 64 (leNat ((bs.drop (8 * c.ckpPos)).take 8))
  | none => 0

/-- A read of CKPDATA: the next eight bytes of the block, and the stream moves on (R236). -/
def execCkpdataRead (s : State) : Out :=
  .next (s.onCer fun c => { c with ckpWord := c.nextWord, ckpPos := (c.ckpPos + 1) % 512 })

/-- CERACK: everything below the value is acknowledged, at most to the next SEQ; a value below the current one is ignored; a gap is closed
where space returns (R222, R236). -/
def execCerack (v : Word) (s : State) : Out :=
  .next (s.onCer fun c =>
    if v.toNat < c.cerack.toNat then c
    else { c with cerack := BitVec.ofNat 64 (min v.toNat c.next), ack := min v.toNat c.next }.closeGap s.chip.fab.time)

end Sys2Proof.Machine
end

