-- ==== Sys2Proof/Machine/Flags.lean ====
section
/-! DEFINITION. The FPSTAT flags of R113 and the integer edge cases of R112. -/

namespace Sys2Proof.Machine

/-- Invalid (R113). -/
def fIV : BitVec 8 := 0x01
/-- Division by zero (R113). -/
def fDZ : BitVec 8 := 0x02
/-- Overflow (R113). -/
def fOF : BitVec 8 := 0x04
/-- Underflow (R113). -/
def fUF : BitVec 8 := 0x08
/-- Inexact (R113). -/
def fNX : BitVec 8 := 0x10
/-- Subnormal flushed (R113). -/
def fDN : BitVec 8 := 0x20
/-- Saturated (R113). -/
def fSAT : BitVec 8 := 0x40
/-- ACRD of an overflowed lane (R113). -/
def fAO : BitVec 8 := 0x80

/-- f where c holds, else no flag. -/
def flagIf (c : Bool) (f : BitVec 8) : BitVec 8 := if c then f else 0

/-- The flags of a list combined by OR (R114). -/
def orAll (l : List (BitVec 8)) : BitVec 8 := l.foldl (· ||| ·) 0

/-- DIV and DIV.U (R290, R112). -/
def divide (u : Bool) (x y : Word) : Word :=
  if y = 0 then BitVec.allOnes 64
  else if u then x / y
  else wrap 64 (x.toInt.tdiv y.toInt)

/-- REM and REM.U (R290, R112): x − y times the quotient in the same signedness. -/
def remainder (u : Bool) (x y : Word) : Word :=
  if y = 0 then x
  else if u then x % y
  else wrap 64 (x.toInt - y.toInt * x.toInt.tdiv y.toInt)

/-- Bits [127:64] of the exact product (R112). -/
def mulHigh (u : Bool) (x y : Word) : Word :=
  if u then BitVec.ofNat 64 (x.toNat * y.toNat / 2 ^ 64) else wrap 64 (x.toInt * y.toInt / 2 ^ 64)

/-- The number of zero bits above the highest one bit of the w low bits (R290). -/
def leadingZeros (w x : Nat) : Nat := if x = 0 then w else w - 1 - Nat.log2 x

/-- The number of zero bits below the lowest one bit among w bits (R290). -/
def trailingZeros (x : Nat) : Nat → Nat
  | 0 => 0
  | w + 1 => if x % 2 = 1 then 0 else 1 + trailingZeros (x / 2) w

/-- The number of one bits among w bits (R290). -/
def onesCount (x : Nat) : Nat → Nat
  | 0 => 0
  | w + 1 => x % 2 + onesCount (x / 2) w

/-- The lesser (R290, R368). -/
def minOf {w : Nat} (u : Bool) (x y : BitVec w) : BitVec w :=
  if u then (if x.toNat ≤ y.toNat then x else y) else (if x.toInt ≤ y.toInt then x else y)
/-- The greater (R290, R368). -/
def maxOf {w : Nat} (u : Bool) (x y : BitVec w) : BitVec w :=
  if u then (if x.toNat ≤ y.toNat then y else x) else (if x.toInt ≤ y.toInt then y else x)

/-- An integer condition of R278 on two words; UN is never true. -/
def intCond {w : Nat} (c : Cond) (x y : BitVec w) : Bool :=
  match c with
  | .eq => x == y
  | .ne => x != y
  | .lt => decide (x.toInt < y.toInt)
  | .le => decide (x.toInt ≤ y.toInt)
  | .gt => decide (x.toInt > y.toInt)
  | .ge => decide (x.toInt ≥ y.toInt)
  | .ltu => decide (x.toNat < y.toNat)
  | .leu => decide (x.toNat ≤ y.toNat)
  | .gtu => decide (x.toNat > y.toNat)
  | .geu => decide (x.toNat ≥ y.toNat)
  | .un => false

/-- A two-operand logic operation (R288, R376). -/
def logic {w : Nat} (op : LogOp) (x y : BitVec w) : BitVec w :=
  match op with
  | .and => x &&& y
  | .or => x ||| y
  | .xor => x ^^^ y
  | .andn => x &&& ~~~y

end Sys2Proof.Machine
end

