-- ==== Sys2Proof/Machine/Numbers.lean ====
section
/-! DEFINITION. Number formats, rounding, quantisation, the exact accumulator and the exponential (R93 to R111): exact values as signed
fractions times powers of two, rounded once. -/

namespace Sys2Proof.Machine

/-- An exact value: a NaN (signalling or not), an infinity, or (−1)^neg · n/d · 2^e with d > 0; n = 0 is a signed zero. -/
inductive Val
  | nan (sig : Bool)
  | inf (neg : Bool)
  | fin (neg : Bool) (n d : Nat) (e : Int)
  deriving DecidableEq, Repr

/-- Plus zero. -/
def Val.zero : Val := .fin false 0 1 0
/-- NaN or infinite. -/
def Val.special : Val → Bool
  | .fin _ _ _ _ => false
  | _ => true
/-- A signalling NaN (R98). -/
def Val.signalling : Val → Bool
  | .nan g => g
  | _ => false
/-- A zero of either sign. -/
def Val.isZero : Val → Bool
  | .fin _ n _ _ => n == 0
  | _ => false
/-- The sign. -/
def Val.neg? : Val → Bool
  | .nan _ => false
  | .inf n => n
  | .fin n _ _ _ => n
/-- An integer as a value. -/
def Val.ofInt (z : Int) : Val := .fin (decide (z < 0)) z.natAbs 1 0

/-- A floating format: total bits, fraction bits, bias (R98). -/
structure FloatFmt where
  frac : Nat
  expBits : Nat
  bias : Nat

/-- FP32 (R98). -/
def fp32F : FloatFmt := ⟨23, 8, 127⟩
/-- BF16 (R98). -/
def bf16F : FloatFmt := ⟨7, 8, 127⟩
/-- FP16 (R98). -/
def fp16F : FloatFmt := ⟨10, 5, 15⟩

/-- emin of R99. -/
def FloatFmt.emin (f : FloatFmt) : Int := 1 - f.bias
/-- The largest exponent field. -/
def FloatFmt.expMax (f : FloatFmt) : Nat := 2 ^ f.expBits - 1
/-- The canonical NaN (R98). -/
def FloatFmt.nan (f : FloatFmt) : Nat := f.expMax * 2 ^ f.frac + 2 ^ (f.frac - 1)
/-- The infinity of a sign. -/
def FloatFmt.inf (f : FloatFmt) (neg : Bool) : Nat := (if neg then 2 ^ (f.frac + f.expBits) else 0) + f.expMax * 2 ^ f.frac
/-- The zero of a sign. -/
def FloatFmt.zero (f : FloatFmt) (neg : Bool) : Nat := if neg then 2 ^ (f.frac + f.expBits) else 0

/-- The value of an encoding and the flag of its input flush (R98, R102). -/
def FloatFmt.read (f : FloatFmt) (exposed : Bool) (x : Nat) : Val × BitVec 8 :=
  let neg := x / 2 ^ (f.frac + f.expBits) % 2 == 1
  let ex := x / 2 ^ f.frac % 2 ^ f.expBits
  let fr := x % 2 ^ f.frac
  if ex = f.expMax then
    if fr = 0 then (.inf neg, 0) else (.nan (decide (fr < 2 ^ (f.frac - 1))), 0)
  else if ex = 0 then
    if fr ≠ 0 ∧ exposed then (.fin neg 0 1 0, fDN) else (.fin neg fr 1 (f.emin - f.frac), 0)
  else (.fin neg (2 ^ f.frac + fr) 1 (ex - f.bias - f.frac), 0)

/-- floor(log2 (n/d · 2^e)) for n > 0 (R97, R99). -/
def ilog2 (n d : Nat) (e : Int) : Int :=
  let a : Int := Nat.log2 n
  let b : Int := Nat.log2 d
  let l := a - b
  let small := if 0 ≤ l then decide (n < d * 2 ^ l.toNat) else decide (n * 2 ^ (-l).toNat < d)
  (if small then l - 1 else l) + e

/-- The numerator and denominator of (n/d · 2^e) / 2^q. -/
def scaleTo (n d : Nat) (e q : Int) : Nat × Nat :=
  if q ≤ e then (n * 2 ^ (e - q).toNat, d) else (n, d * 2 ^ (q - e).toNat)

/-- A signed fraction rounded to an integer: RNE, or SR with the random lane u (R99). -/
def roundInt (rm : Round) (u : BitVec 16) (neg : Bool) (n d : Nat) : Int :=
  match rm with
  | .rne =>
    let fl := n / d
    let r := n % d
    let k := if 2 * r < d then fl else if 2 * r > d then fl + 1 else if fl % 2 = 0 then fl else fl + 1
    if neg then -(k : Int) else k
  | .sr =>
    let z : Int := if neg then -(n : Int) else n
    (z * 65536 + u.toNat * d) / (d * 65536)

/-- The encoding of k · 2^q, k of at most frac + 1 bits or a power of two above them. -/
def FloatFmt.encode (f : FloatFmt) (neg : Bool) (k : Nat) (q : Int) : Nat :=
  let (k, q) := if k = 2 ^ (f.frac + 1) then (2 ^ f.frac, q + 1) else (k, q)
  let body := if k < 2 ^ f.frac then k else (q + f.frac + f.bias).toNat * 2 ^ f.frac + (k - 2 ^ f.frac)
  f.zero neg + body

/-- An exact value rounded once to a floating format, with its flags (R99, R102). -/
def FloatFmt.round (f : FloatFmt) (rm : Round) (u : BitVec 16) (exposed : Bool) (x : Val) : Nat × BitVec 8 :=
  match x with
  | .nan _ => (f.nan, 0)
  | .inf neg => (f.inf neg, 0)
  | .fin neg n d e =>
    if n = 0 then (f.zero neg, 0)
    else
      let q := max (ilog2 n d e) f.emin - f.frac
      let (a, b) := scaleTo n d e q
      let k := (roundInt rm u neg a b).natAbs
      let inexact := k * b != a
      let emax : Int := f.expMax - 1 - f.bias
      if ilog2 (max k 1) 1 q > emax then (f.inf neg, fOF ||| fNX)
      else if k < 2 ^ f.frac then
        if exposed then (f.zero neg, fDN ||| fUF ||| fNX)
        else (f.encode neg k q, flagIf inexact (fUF ||| fNX))
      else (f.encode neg k q, flagIf inexact fNX)

/-- An exact value rounded to an integer of w bits and saturated (R99, R103). -/
def roundToInt (w : Nat) (rm : Round) (u : BitVec 16) (x : Val) : BitVec w × BitVec 8 :=
  let lo : Int := -(2 ^ (w - 1) : Nat)
  let hi : Int := (2 ^ (w - 1) : Nat) - 1
  match x with
  | .nan _ => (0, fIV)
  | .inf neg => (wrap w (if neg then lo else hi), fIV)
  | .fin neg n d e =>
    let (a, b) := scaleTo n d e 0
    let k := roundInt rm u neg a b
    if k < lo then (wrap w lo, fSAT ||| fNX)
    else if k > hi then (wrap w hi, fSAT ||| fNX)
    else (wrap w k, flagIf (k.natAbs * b != a) fNX)

/-! ## Exact operations -/

/-- The signed numerator of a finite value. -/
def sgn (neg : Bool) (n : Nat) : Int := if neg then -(n : Int) else n

/-- A signed numerator over d times 2^e; the sign of a zero is z. -/
def Val.ofSigned (z : Bool) (m : Int) (d : Nat) (e : Int) : Val :=
  if m = 0 then .fin z 0 1 0 else .fin (decide (m < 0)) m.natAbs d e

/-- Exact sum with IEEE special cases (R108); the flag is that of ∞ − ∞. An exact zero sum of opposite signs is +0. -/
def Val.add : Val → Val → Val × BitVec 8
  | .nan a, .nan b => (.nan (a || b), 0)
  | .nan a, _ => (.nan a, 0)
  | _, .nan b => (.nan b, 0)
  | .inf a, .inf b => if a = b then (.inf a, 0) else (.nan false, fIV)
  | .inf a, _ => (.inf a, 0)
  | _, .inf b => (.inf b, 0)
  | .fin a n d e, .fin b m c f =>
    let g := min e f
    let s := sgn a (n * c * 2 ^ (e - g).toNat) + sgn b (m * d * 2 ^ (f - g).toNat)
    (Val.ofSigned (a && b) s (d * c) g, 0)

/-- The opposite value. -/
def Val.opp : Val → Val
  | .nan a => .nan a
  | .inf a => .inf !a
  | .fin a n d e => .fin (!a) n d e

/-- Exact product with IEEE special cases; the flag is that of 0 × ∞ (R108). -/
def Val.mul : Val → Val → Val × BitVec 8
  | .nan a, .nan b => (.nan (a || b), 0)
  | .nan a, _ => (.nan a, 0)
  | _, .nan b => (.nan b, 0)
  | .inf a, .inf b => (.inf (a != b), 0)
  | .inf a, .fin b m _ _ => if m = 0 then (.nan false, fIV) else (.inf (a != b), 0)
  | .fin a n _ _, .inf b => if n = 0 then (.nan false, fIV) else (.inf (a != b), 0)
  | .fin a n d e, .fin b m c f => (.fin (a != b) (n * m) (d * c) (e + f), 0)

/-- Exact quotient with IEEE special cases (R108). -/
def Val.div : Val → Val → Val × BitVec 8
  | .nan a, .nan b => (.nan (a || b), 0)
  | .nan a, _ => (.nan a, 0)
  | _, .nan b => (.nan b, 0)
  | .inf _, .inf _ => (.nan false, fIV)
  | .inf a, .fin b _ _ _ => (.inf (a != b), 0)
  | .fin a _ _ _, .inf b => (.fin (a != b) 0 1 0, 0)
  | .fin a n d e, .fin b m c f =>
    if m = 0 then (if n = 0 then (.nan false, fIV) else (.inf (a != b), fDZ))
    else (.fin (a != b) (n * c) (d * m) (e - f), 0)

/-- floor of the square root, by bits from 2^k down. -/
def isqrtFrom (x : Nat) : Nat → Nat → Nat
  | 0, r => r
  | k + 1, r => let t := r + 2 ^ k; isqrtFrom x k (if t * t ≤ x then t else r)
/-- floor of the square root. -/
def isqrt (x : Nat) : Nat := isqrtFrom x (Nat.log2 x / 2 + 1) 0

/-- The square root (R108): exact where it is, else a value strictly between the same two neighbours of at least 40 bits, so that every
rounding to FP32 gives what the exact root gives. -/
def Val.sqrt : Val → Val × BitVec 8
  | .nan a => (.nan a, 0)
  | .inf a => if a then (.nan false, fIV) else (.inf false, 0)
  | .fin a n _ e =>
    if n = 0 then (.fin a 0 1 0, 0)
    else if a then (.nan false, fIV)
    else
      let e' := e - 100 - (e - 100) % 2
      let x := n * 2 ^ (e - e').toNat
      let r := isqrt x
      (if r * r = x then .fin false r 1 (e' / 2) else .fin false (2 * r + 1) 2 (e' / 2), 0)

/-- Whether x is below y, both neither NaN; −0 ranks below +0 (R108). -/
def Val.below : Val → Val → Bool
  | .inf a, .inf b => a && !b
  | .inf a, _ => a
  | _, .inf b => !b
  | .fin a n d e, .fin b m c f =>
    if n = 0 ∧ m = 0 then a && !b
    else
      let g := min e f
      decide (sgn a (n * c * 2 ^ (e - g).toNat) < sgn b (m * d * 2 ^ (f - g).toNat))
  | _, _ => false

/-- Whether x and y are numbers and equal, zeros of either sign being equal (R367). -/
def Val.same : Val → Val → Bool
  | .nan _, _ => false
  | _, .nan _ => false
  | .fin _ 0 _ _, .fin _ 0 _ _ => true
  | x, y => !x.below y && !y.below x

/-- floor(x / 2^q) of a finite value, exactly (R105). -/
def floorDiv (neg : Bool) (n d : Nat) (e q : Int) : Int :=
  let (a, b) := scaleTo n d e q
  sgn neg a / (b : Int)

/-! ## FP32 lanes (R108) -/

/-- Both operands read and flushed, the exact result rounded RNE and flushed, flags gathered (R102, R108). -/
def fp32Op2 (exposed : Bool) (op : Val → Val → Val × BitVec 8) (x y : Lane) : Lane × BitVec 8 :=
  let (a, fa) := fp32F.read exposed x.toNat
  let (b, fb) := fp32F.read exposed y.toNat
  let (r, fr) := op a b
  let (z, fz) := fp32F.round .rne 0 exposed r
  (BitVec.ofNat 32 z, fa ||| fb ||| flagIf (a.signalling || b.signalling) fIV ||| fr ||| fz)

/-- One FP32 operand. -/
def fp32Op1 (exposed : Bool) (op : Val → Val × BitVec 8) (x : Lane) : Lane × BitVec 8 :=
  let (a, fa) := fp32F.read exposed x.toNat
  let (r, fr) := op a
  let (z, fz) := fp32F.round .rne 0 exposed r
  (BitVec.ofNat 32 z, fa ||| flagIf a.signalling fIV ||| fr ||| fz)

/-- x × y + z rounded once (R108). For 0 × ∞ with a quiet NaN addend two rows of R108's table meet, of which one raises IV: the model's choice is
to raise it (log entry 58). -/
def fp32Fma (exposed : Bool) (x y z : Lane) : Lane × BitVec 8 :=
  let (a, fa) := fp32F.read exposed x.toNat
  let (b, fb) := fp32F.read exposed y.toNat
  let (c, fc) := fp32F.read exposed z.toNat
  let (p, fp) := a.mul b
  let (r, fr) := p.add c
  let (w, fw) := fp32F.round .rne 0 exposed r
  (BitVec.ofNat 32 w, fa ||| fb ||| fc ||| flagIf (a.signalling || b.signalling || c.signalling) fIV ||| fp ||| fr ||| fw)

/-- The greater or lesser of two values, −0 below +0, NaN winning (R108). -/
def Val.pick (max : Bool) (a b : Val) : Val × BitVec 8 :=
  match a, b with
  | .nan x, .nan y => (.nan (x || y), 0)
  | .nan x, _ => (.nan x, 0)
  | _, .nan y => (.nan y, 0)
  | a, b => (if a.below b then (if max then b else a) else (if max then a else b), 0)

/-- VEXP2 of a value already flushed (R109); an exponent below −1000 gives what −1000 gives. -/
def exp2Val (exposed : Bool) (x : Val) : Lane × BitVec 8 :=
  match x with
  | .nan g => (0x7FC00000, flagIf g fIV)
  | .inf neg => if neg then (0, 0) else (0x7F800000, 0)
  | .fin neg n d e =>
    let fl := floorDiv neg n d e 0
    if 128 ≤ fl then (0x7F800000, fOF ||| fNX)
    else
      let f := ((Val.fin neg n d e).add (Val.ofInt (-fl))).1
      let r32 := fun (v : Val) => (fp32F.read false (fp32F.round .rne 0 false v).1).1
      let step := fun (c a : Val) => r32 ((c.mul f).1.add a).1
      let p := step (step (step (.fin false 5 1 (-6)) (.fin false 29 1 (-7))) (.fin false 89 1 (-7))) (.fin false 1 1 0)
      match p with
      | .fin pn pm pd pe =>
        let (z, fz) := fp32F.round .rne 0 exposed (.fin pn pm pd (pe + max fl (-1000)))
        (BitVec.ofNat 32 z, fz)
      | _ => (0x7FC00000, 0)

/-! ## Elements of tiles (R94 to R98, R348, R379) -/

/-- A run-time format code: 14 and 15 are read as FP32 and set IV (R94). -/
def fmtRun (c : BitVec 4) : Fmt × BitVec 8 :=
  match Fmt.ofCode c with
  | some f => (f, 0)
  | none => (.fp32, fIV)

/-- The mantissa width m of an NBF format (R94). -/
def nbfM (f : Fmt) : Nat := f.code.toNat + 2

/-- Element j of an NBF row (R95, R96): the m-bit mantissa of its block, as an integer. -/
def nbfMant (m : Nat) (row : RowBits) (j : Nat) : Int :=
  (row.extractLsb' (4 * m * 8 * (j / 32) + m * (j % 32)) m).toInt

/-- The exact value of an NBF element (R95). -/
def nbfVal (m : Nat) (r : TileRow) (j : Nat) : Val :=
  let e := if j < 32 then r.e0 else r.e1
  if e = 0 then .zero
  else if e = 511 then .nan false
  else
    let k := nbfMant m r.data j
    Val.ofSigned false k 1 ((e.toNat : Int) - 256 - m + 1)

/-- Raw element j of a 16-bit row. -/
def half16 (row : RowBits) (j : Nat) : BitVec 16 := row.extractLsb' (16 * j) 16
/-- Raw element j of an 8-bit row. -/
def byte8 (row : RowBits) (j : Nat) : BitVec 8 := row.extractLsb' (8 * j) 8
/-- Raw element j of a 32-bit row. -/
def word32 (row : RowBits) (j : Nat) : BitVec 32 := row.extractLsb' (32 * j) 32

/-- An operand read: its value, with IV where it is a signalling NaN (R98, R102). -/
def FloatFmt.take (f : FloatFmt) (exposed : Bool) (x : Nat) : Val × BitVec 8 :=
  let (v, fl) := f.read exposed x
  (v, fl ||| flagIf v.signalling fIV)

/-- Element j of a row read as an exact value under a tag, flushed in exposed mode (R379, R102, R103); RCW reads as zero. -/
def elemVal (f : Fmt) (exposed : Bool) (r : TileRow) (j : Nat) : Val × BitVec 8 :=
  match f with
  | .bf16 => bf16F.take exposed (half16 r.data j).toNat
  | .fp16 => fp16F.take exposed (half16 r.data j).toNat
  | .fp32 => if j < 32 then fp32F.take exposed (word32 r.data j).toNat else (.zero, 0)
  | .i8 => (Val.ofInt (byte8 r.data j).toInt, 0)
  | .i16 => (Val.ofInt (half16 r.data j).toInt, 0)
  | .i32 => (if j < 32 then Val.ofInt (word32 r.data j).toInt else .zero, 0)
  | .rcw => (.zero, 0)
  | _ => (nbfVal (nbfM f) r j, 0)

/-- Numbers packed from the lowest place up, each w bits wide. -/
def packNat (w : Nat) : List Nat → Nat
  | [] => 0
  | x :: r => x % 2 ^ w + 2 ^ w * packNat w r

/-- 32 exact values quantised as one NBF block of width m (R97): exponent, mantissas, flags. -/
def quantise (m : Nat) (rm : Round) (us : List (BitVec 16)) (xs : List Val) : BitVec 9 × List Int × BitVec 8 :=
  if xs.any Val.special then
    (511, xs.map fun _ => 0, flagIf (xs.any fun x => match x with | .nan _ => true | _ => false) fIV)
  else if xs.all Val.isZero then (0, xs.map fun _ => 0, 0)
  else
    let logs := xs.filterMap fun x => match x with
      | .fin _ n d e => if n = 0 then none else some (ilog2 n d e)
      | _ => none
    let top : Int := match logs with
      | [] => 0
      | l :: r => r.foldl max l
    let raw : Int := top + 257
    let e := max 1 (min 510 raw)
    let q := e - 256 - m + 1
    let lo : Int := -(2 ^ (m - 1) : Nat)
    let hi : Int := (2 ^ (m - 1) : Nat) - 1
    let one := fun (x : Val) (u : BitVec 16) => match x with
      | .fin neg n d ex =>
        let (a, b) := scaleTo n d ex q
        let k := roundInt rm u neg a b
        if k < lo then (lo, fSAT ||| fNX)
        else if k > hi then (hi, fSAT ||| fNX)
        else (k, flagIf (k * b != sgn neg a) fNX)
      | _ => (0, 0)
    let rs := (xs.zip us).map fun (x, u) => one x u
    let ms := rs.map Prod.fst
    let fl := orAll (rs.map Prod.snd) ||| flagIf (e != raw) fSAT
    if ms.all (· == 0) then (0, ms, fl) else (BitVec.ofInt 9 e, ms, fl)

/-- 64 exact values as a row of an NBF, BF16, FP16, I8, I16 or FP32 format (lanes 0 to 31 for a 32-bit one), keeping the RCW and the poison of
old clear (R97, R99, R103, R373, R388). -/
def rowOfVals (f : Fmt) (rm : Round) (us : List (BitVec 16)) (exposed : Bool) (xs : List Val) : TileRow × BitVec 8 :=
  let z := xs.zip us
  let flt := fun (ff : FloatFmt) (w n : Nat) =>
    let rs := (z.take n).map fun (x, u) => ff.round rm u exposed x
    ({ data := BitVec.ofNat 1024 (packNat w (rs.map Prod.fst)) : TileRow }, orAll (rs.map Prod.snd))
  let int := fun (w n : Nat) =>
    let rs := (z.take n).map fun (x, u) => roundToInt w rm u x
    ({ data := BitVec.ofNat 1024 (packNat w (rs.map fun r => r.1.toNat)) : TileRow }, orAll (rs.map Prod.snd))
  match f with
  | .bf16 => flt bf16F 16 64
  | .fp16 => flt fp16F 16 64
  | .fp32 => flt fp32F 32 32
  | .i8 => int 8 64
  | .i16 => int 16 64
  | .i32 => int 32 32
  | .rcw => ({}, fIV)
  | _ =>
    let m := nbfM f
    let (e0, m0, f0) := quantise m rm (us.take 32) (xs.take 32)
    let (e1, m1, f1) := quantise m rm (us.drop 32) (xs.drop 32)
    ({ data := BitVec.ofNat 1024 (packNat m ((m0 ++ m1).map fun k => (BitVec.ofInt m k).toNat)), e0, e1 }, f0 ||| f1)

/-! ## The random rows (R100) -/

/-- Lane i of the random row with counter c. -/
def randomLane (key0 key1 c : Word) (i : Nat) : BitVec 16 :=
  let key := key0 + key1 * 0x9E3779B97F4A7C15
  let z := key ^^^ (c * 64 + BitVec.ofNat 64 i)
  let z := (z ^^^ (z >>> 30)) * 0xBF58476D1CE4E5B9
  let z := (z ^^^ (z >>> 27)) * 0x94D049BB133111EB
  let z := z ^^^ (z >>> 31)
  z.setWidth 16

/-- The 64 lanes of a random row. -/
def randomRow (key0 key1 c : Word) : List (BitVec 16) := (List.range 64).map (randomLane key0 key1 c)

/-- The lanes a rounding under RNE ignores. -/
def noRow : List (BitVec 16) := List.replicate 64 0

/-! ## The exact accumulator (R104 to R107) -/

/-- A finite product's contribution (R105). -/
def AccLane.add (l : AccLane) (alpha : Int) (p : Option Val) : AccLane :=
  let l := match p with
    | some (.fin neg n d e) =>
      let c := floorDiv neg n d e alpha
      { l with
        ovf := l.ovf || decide (2 ^ 110 ≤ c.natAbs) || l.cnt == 65536
        n := l.n + wrap 128 c }
    | _ => { l with nan := true }
  { l with cnt := if l.cnt.toNat < 65536 then l.cnt + 1 else 65536 }

/-- The product of two elements as a contribution: none where either is NaN or infinite (R105). -/
def contribution (x y : Val) : Option Val := if x.special || y.special then none else some (x.mul y).1

/-- Rescaling by an FP32 factor, never flushed (R107). -/
def AccLane.rescale (l : AccLane) (c : Val) : AccLane :=
  match c with
  | .fin neg n d e =>
    let y := floorDiv (neg != decide (l.n.toInt < 0)) (l.n.toInt.natAbs * n) d e 0
    { l with ovf := l.ovf || decide (2 ^ 127 ≤ y.natAbs), n := wrap 128 y }
  | _ => { l with nan := true }

/-- A lane's value v = N × 2^α read out, with AO where OVF alone is set (R106). -/
def AccLane.value (l : AccLane) (alpha : Int) : Val × BitVec 8 :=
  if l.nan then (.nan false, 0)
  else if l.ovf then (.nan false, fAO)
  else (Val.ofSigned false l.n.toInt 1 alpha, 0)

end Sys2Proof.Machine
end

