-- ==== Sys2Proof/Machine/Translate.lean ====
section
/-! DEFINITION. Virtual addresses: the translation store, the checks of an entry, the failures an access can meet, and the bytes of an access
once it has translated (R115 to R124, R138, R141, R143, R212, R216). -/

namespace Sys2Proof.Machine

/-- Kinds of access, in the numbering of ACC (R122, R208). -/
inductive Access | read | write | atomic | exec
  deriving DecidableEq, Repr

/-- ACC (R208). -/
def Access.acc : Access → BitVec 3
  | .read => 0 | .write => 1 | .atomic => 2 | .exec => 3

/-- Why an access or operation fails: its code, the access kind, ADDR, INFO, for code 0x08 the two records, and where consumed poison lay if
ADDR and INFO do not say it (R203, R210, R220). -/
structure Bad where
  code : BitVec 8
  acc : BitVec 3 := 7
  addr : Word := 0
  info : Word := 0
  exp : BitVec 256 := 0
  act : BitVec 256 := 0
  site : Option (Nat × Nat × Nat) := none
  deriving DecidableEq, Repr

/-- A stop code stops the context, a fatal code kills it (R203). -/
def Bad.stops (b : Bad) : Bool := decide (b.code.toNat < 0x10)

/-- The failure taken by the instruction being executed (R204, R206). -/
def State.raise (s : State) (b : Bad) : Out :=
  let r := { s.recordHere b.code (if b.stops then 0 else 1) b.acc b.addr b.info with exp := b.exp, act := b.act, site := b.site }
  if b.stops then .next (s.stopWith r false)
  else .next (s.mapMe fun c => { c with doom := some (c.doom.getD r) })

/-- A stop of context g on a bundle already issued, precise at the slot of an instruction that held it (R392, R412); one that is stopped
already keeps its first record. -/
def State.stopOf (s : State) (g : Nat) (sl : Slot) (b : Bad) : State :=
  let r := { s.recordOf g b.code 0 b.addr b.info with acc := b.acc, tslot := Slot.tslot sl, exp := b.exp, act := b.act }
  let s := s.mapCtx g fun c =>
    if c.held.isSome then c
    else match c.status with
      | .running => { c with status := .stopped, blocked := none, held := some ⟨r, none, none⟩ }
      | .saved => { c with held := some ⟨r, none, none⟩ }
      | _ => c
  s.post r

/-- The outcome of a lookup (R122). -/
inductive Look
  | hit (e : Word) (pa : Nat) (way : Nat)
  | miss
  | poison (pa : Nat)
  deriving DecidableEq, Repr

/-- Set number of a page (R122). -/
def setOf (k asid vpn sz : Nat) : Nat := (vpn ^^^ vpn / 2 ^ k ^^^ asid ^^^ sz * 2 ^ (k - 1)) % 2 ^ k

/-- Bytes of a page: 64 KiB or 4 MiB (R115). -/
def pageLen (sz : Nat) : Nat := if sz = 0 then 0x10000 else 0x400000

/-- Every byte of a page is populated: it lies in HBM or in installed second tier, in no mapped-out pseudo-channel, outside the CER window
(R117, R219). -/
def pagePopulated (s : State) (base len : Nat) : Bool :=
  (List.range (len / 0x10000)).all (fun i => populated s (base + 0x10000 * i) && populated s (base + 0x10000 * i + 0xFFFF)) &&
  !(decide (base < s.chip.cer.base + 4096 * (s.chip.cer.recBlocks + s.chip.cer.ckpBlocks)) && decide (s.chip.cer.base < base + len)
    && decide (0 < s.chip.cer.recBlocks + s.chip.cer.ckpBlocks))

/-- The ways of one set from address a on, first match winning; a read way in a poisoned sector is consumption (R122, R216). For a 4 MiB
way whose PPN has a nonzero bit below bit 6, against R121, no rule says which page must be populated: the model's choice is the aligned one (log
entry 59). -/
def lookWays (s : State) (asid vpn sz off : Nat) : Nat → Nat → Look
  | _, 0 => .miss
  | a, n + 1 =>
    match firstPoison s a 16 with
    | some p => .poison p
    | none =>
      let t := s.peek a 8
      let e : Word := BitVec.ofNat 64 (s.peek (a + 8) 8)
      let ppn := bits e 35 0 * 0x10000
      if t / 2 ^ 63 = 1 ∧ t / 2 ^ 62 % 2 = sz ∧ t / 2 ^ 40 % 2 ^ 13 = asid ∧ t % 2 ^ 40 = vpn ∧
          ¬(e.getLsbD 62 = true ∧ e.getLsbD 61 = true) ∧ pagePopulated s (ppn / pageLen sz * pageLen sz) (pageLen sz) = true then
        .hit e (ppn + off) a
      else lookWays s asid vpn sz off (a + 16) n

/-- The lookup of R122: 64 KiB pages first, then 4 MiB. -/
def lookup (s : State) (asid : Nat) (va : Word) : Look :=
  if bits va 63 56 ≠ 0 then .miss
  else
    let k := s.chip.sup.tscfg.toNat
    let base := bits s.chip.sup.tsbase 51 7 * 128
    let one := fun (sz : Nat) =>
      let vpn := va.toNat / pageLen sz
      lookWays s asid vpn sz (va.toNat % pageLen sz) (base + 128 * setOf k asid vpn sz) 8
    match one 0 with
    | .miss => one 1
    | r => r

/-- A page the scanner holds, submitted or accepted, overlaps a physical address (R212). -/
def CodePage.holds (p : CodePage) (pa : Nat) : Bool :=
  decide (p.base ≤ pa) && decide (pa < p.base + pageLen (if p.big then 1 else 0))

/-- The page is blocked for writing (R212). -/
def codeBlocked (s : State) (pa : Nat) : Bool :=
  s.chip.code.any (fun p => p.holds pa) || (match s.chip.scan with | some p => p.holds pa | none => false)

/-- The scanner has accepted the page (R121, R212). -/
def codeAccepted (s : State) (pa : Nat) : Option PageKind :=
  (s.chip.code.find? fun p => p.accepted && p.holds pa).map CodePage.kind

/-- The checks on an entry found, for an access kind (R122, R141, R212): none passes; some code fails. -/
def entryFails (s : State) (k : Access) (e : Word) (pa : Nat) : Option (BitVec 8) :=
  let rd := e.getLsbD 60
  let w := e.getLsbD 61
  let mig := e.getLsbD 57
  match k with
  | .read => if rd then none else some 0x10
  | .write => if w && !mig && !codeBlocked s pa then none else some 0x10
  | .exec => if e.getLsbD 62 && (codeAccepted s pa).isSome then none else some 0x10
  | .atomic =>
    if rd && w && !mig && !codeBlocked s pa then (if e.getLsbD 63 then none else some 0x05) else some 0x10

/-- One address translated for an access: its physical address and entry, or the failure of R122, R124, R143 and R216. -/
def translate (s : State) (asid : Nat) (va : Word) (k : Access) : Except Bad (Nat × Word) :=
  match lookup s asid va with
  | .miss => .error { code := 0x10, acc := k.acc, addr := va }
  | .poison p => .error { code := 0x11, acc := k.acc, addr := va, info := BitVec.ofNat 64 p }
  | .hit e pa _ =>
    match entryFails s k e pa with
    | some c => .error { code := c, acc := k.acc, addr := va }
    | none =>
      if e.getLsbD 59 then .error { code := 0x11, acc := k.acc, addr := va, info := BitVec.ofNat 64 (sectorBase (sectorOf pa)) }
      else .ok (pa, e)

/-- The pieces of an access of n bytes at va, cut at 64 KiB boundaries: address and length. -/
def pieces (va n : Nat) : List (Nat × Nat) :=
  if n = 0 then []
  else
    let room := 0x10000 - va % 0x10000
    if n ≤ room then [(va, n)]
    else (va, room) :: (List.range ((n - room + 0xFFFF) / 0x10000)).map fun i =>
      (va + room + 0x10000 * i, min 0x10000 (n - room - 0x10000 * i))

/-- The pieces translated, all before any is performed (R305): physical address, length and virtual address of each. -/
def translateAll (s : State) (asid : Nat) (k : Access) : List (Nat × Nat) → Except Bad (List (Nat × Nat × Nat))
  | [] => .ok []
  | (va, n) :: r =>
    if 2 ^ 64 ≤ va then .error { code := 0x10, acc := k.acc, addr := BitVec.ofNat 64 va }
    else match translate s asid (BitVec.ofNat 64 va) k with
      | .error b => .error b
      | .ok (pa, _) =>
        match translateAll s asid k r with
        | .error b => .error b
        | .ok l => .ok ((pa, n, va) :: l)

/-- The bytes of pieces already translated, or the poison the first poisoned piece consumes (R216). -/
def readPieces (s : State) : List (Nat × Nat × Nat) → Except Bad (List Byte)
  | [] => .ok []
  | (pa, n, va) :: r =>
    match firstPoison s pa n with
    | some p => .error { code := 0x11, acc := 0, addr := BitVec.ofNat 64 va, info := BitVec.ofNat 64 p }
    | none =>
      match readPieces s r with
      | .error b => .error b
      | .ok l => .ok (Cells.bytes s.mem pa n ++ l)

/-- Bytes stored to pieces already translated. -/
def writePieces (s : State) : List (Nat × Nat × Nat) → List Byte → State
  | [], _ => s
  | (pa, n, _) :: r, bs => writePieces (s.poke pa (bs.take n)) r (bs.drop n)

/-- n bytes read at a virtual address, unchecked by the region checker. -/
def readVa (s : State) (asid : Nat) (va : Word) (n : Nat) : Except Bad (List Byte) :=
  match translateAll s asid .read (pieces va.toNat n) with
  | .error b => .error b
  | .ok l => readPieces s l

/-- Bytes written at a virtual address, unchecked by the region checker. -/
def writeVa (s : State) (asid : Nat) (va : Word) (bs : List Byte) : Except Bad State :=
  match translateAll s asid .write (pieces va.toNat bs.length) with
  | .error b => .error b
  | .ok l => .ok (writePieces s l bs)

/-- n bytes at a virtual address as a number. -/
def readVaNum (s : State) (asid : Nat) (va : Word) (n : Nat) : Except Bad Nat := (readVa s asid va n).map leNat

end Sys2Proof.Machine
end

