-- ==== Sys2Proof/Machine/Regions.lean ====
section
/-! DEFINITION. Determinism modes, the region checker, and checked accesses to virtual memory (R153 to R160, R169, R179). -/

namespace Sys2Proof.Machine

/-- Determinism mode of a context: 0 FREE, 1 STRICT, 2 RECORD, 3 REPLAY; a foreman takes its job's foreman mode (R169). -/
def modeOf (s : State) (g : Nat) : Nat :=
  if isForeman g then (s.job (s.ctx g).cr.job.toNat).fmode else (s.ctx g).cr.mode.toNat % 4

/-- Primary ASID of a context (R116). -/
def asidOf (s : State) (g : Nat) : Nat := (s.job (s.ctx g).cr.job.toNat).asid

/-- KIND of a region: 0 phaser, 1 token, 2 flag (R153). -/
def Region.kind (r : Region) : Nat := bits r.ctl 5 4
/-- WPAR of a phaser region (R153). -/
def Region.wpar (r : Region) : Nat := bits r.ctl 3 3
/-- The byte lies in the region. -/
def Region.holds (r : Region) (va : Nat) : Bool := decide (r.base ≤ va) && decide (va < r.base + r.len)

/-- Phaser n. -/
def State.phaser (s : State) (n : Nat) : Phaser := Tab.get {} s.chip.phasers n
/-- Token n. -/
def State.token (s : State) (n : Nat) : Token := Tab.get {} s.chip.tokens n
/-- The membership of context g in a phaser. -/
def Phaser.member (p : Phaser) (g : Nat) : Option Member := p.members.find? fun m => m.ctx == g

/-- The write window of a member is open (R157). -/
def Member.writing (m : Member) (wpar : Nat) : Bool := m.sig && m.sp == m.wp && decide (m.sp.toNat % 2 = wpar)
/-- The read window of a member is open (R157). -/
def Member.reading (m : Member) (wpar : Nat) : Bool := m.sig && m.waited && m.sp == m.wp && decide (m.sp.toNat % 2 ≠ wpar)

/-- The rights of context g in a bound region on the bytes from va to va + n − 1 (R156, R157). -/
def Region.allows (s : State) (r : Region) (g va n : Nat) (w : Bool) : Bool :=
  match r.kind with
  | 1 => (s.token r.obj).state == .held g
  | 2 => if r.prod == g then !w || !r.published else !w && r.seen.contains g
  | _ =>
    match (s.phaser r.obj).member g with
    | none => false
    | some m =>
      let own := decide (m.ix < r.nslice) && decide (r.base + m.ix * r.slen ≤ va) && decide (va + n ≤ r.base + (m.ix + 1) * r.slen)
      (m.writing r.wpar && own) || (m.reading r.wpar && !w)

/-- A virtual page listed in PRIV of a launch: base and whether it is 4 MiB (R39). -/
def Launch.isPrivate (l : Launch) (va : Nat) : Bool := l.priv.any fun (base, sz) => decide (base ≤ va) && decide (va < base + pageLen sz)

/-- The class of one sector's worth of an access decides it: none allows, some INFO refuses; a refusal by poison of the lookup comes out as
itself (R155, R156, R158). -/
def classify (s : State) (asid g va n : Nat) (w : Bool) : Except Bad (Option Nat) :=
  let c := s.ctx g
  let j := s.job c.cr.job.toNat
  match j.regions.find? fun (_, r) => r.holds va with
  | some (ix, r) => .ok (if r.allows s g va n w then none else some ix)
  | none =>
    match Tab.find s.chip.launches c.cr.launch.toNat with
    | some l =>
      if l.isPrivate va then
        let me := c.cr.iterno.toNat
        let (wr, rds) := Tab.get (none, []) l.grants (sectorOf va)
        let clash := match wr with
          | some o => o != me
          | none => w && rds.any (· != me)
        .ok (if clash then some 0xFFFE else none)
      else openSector s asid va w
    | none => openSector s asid va w
where
  /-- A byte of no bound region and no private page: readable where its translation allows a read and has W = 0, else unbound. -/
  openSector (s : State) (asid va : Nat) (w : Bool) : Except Bad (Option Nat) :=
    match lookup s asid (BitVec.ofNat 64 va) with
    | .poison p => .error { code := 0x11, acc := if w then 1 else 0, addr := BitVec.ofNat 64 va, info := BitVec.ofNat 64 p }
    | .miss => .ok (some 0xFFFF)
    | .hit e pa _ => .ok (if w || e.getLsbD 61 || (entryFails s .read e pa).isSome then some 0xFFFF else none)

/-- The sector grant an access to a launch-private page takes (R158). The handler runs of a launch share one ITERNO, and the rule does not say
whether two of them are one iteration: the model's choice is that they are (log entry 60). -/
def grantSector (s : State) (g va : Nat) (w : Bool) : State :=
  let c := s.ctx g
  let lid := c.cr.launch.toNat
  let j := s.job c.cr.job.toNat
  if (j.regions.any fun (_, r) => r.holds va) then s
  else match Tab.find s.chip.launches lid with
    | some l =>
      if l.isPrivate va then
        let me := c.cr.iterno.toNat
        let (wr, rds) := Tab.get (none, []) l.grants (sectorOf va)
        let x := if w then (some me, rds) else (wr, insertNat me rds)
        s.onChip fun ch => { ch with launches := Tab.set ch.launches lid { l with grants := Tab.set l.grants (sectorOf va) x } }
      else s
    | none => s

/-- A write that touches the flag word of a bound flag region: refused of every plain store in RECORD and REPLAY, and of any context but
the producer in STRICT (R156, R179). -/
def flagWordOf (s : State) (g va n : Nat) (mode : Nat) : Option Nat :=
  let j := s.job (s.ctx g).cr.job.toNat
  (j.regions.find? fun (_, r) => r.kind == 2 && decide (r.obj < va + n) && decide (va < r.obj + 8) && (mode != 1 || r.prod != g)).map
    Prod.fst

/-- The parts of an access inside each sector it touches: address and length (R130). -/
def sectorParts (va n : Nat) : List (Nat × Nat) :=
  (sectorsOf va n).map fun k =>
    let lo := max va (sectorBase k)
    (lo, min (va + n) (sectorBase k + sectorLen k) - lo)

/-- The parts checked in ascending order, the first refusal deciding (R155, R160). -/
def checkParts (s : State) (asid g : Nat) (w : Bool) : List (Nat × Nat) → Except Bad Unit
  | [] => .ok ()
  | (va, n) :: r =>
    match classify s asid g va n w with
    | .error b => .error b
    | .ok (some x) => .error { code := 0x04, acc := if w then 1 else 0, addr := BitVec.ofNat 64 va, info := BitVec.ofNat 64 x }
    | .ok none => checkParts s asid g w r

/-- The region check of a plain access by context g to n bytes at va of an address space: nothing in FREE (R155 to R160). -/
def regionCheckIn (s : State) (asid g : Nat) (va : Word) (n : Nat) (w : Bool) : Except Bad State :=
  let mode := modeOf s g
  if mode = 0 then .ok s
  else
    match (if w then flagWordOf s g va.toNat n mode else none) with
    | some ix => .error { code := 0x04, acc := 1, addr := va, info := BitVec.ofNat 64 ix }
    | none =>
      match checkParts s asid g w (sectorParts va.toNat n) with
      | .error b => .error b
      | .ok () => .ok ((sectorParts va.toNat n).foldl (fun s (a, _) => grantSector s g a w) s)

/-- The region check under the job's primary address space. -/
def regionCheck (s : State) (g : Nat) (va : Word) (n : Nat) (w : Bool) : Except Bad State := regionCheckIn s (asidOf s g) g va n w

/-- A checked plain read by context g. -/
def plainRead (s : State) (g : Nat) (va : Word) (n : Nat) : Except Bad (State × List Byte) :=
  match regionCheck s g va n false with
  | .error b => .error b
  | .ok s =>
    match readVa s (asidOf s g) va n with
    | .error b => .error b
    | .ok bs => .ok (s, bs)

/-- A checked plain write by context g. -/
def plainWrite (s : State) (g : Nat) (va : Word) (bs : List Byte) : Except Bad State :=
  match regionCheck s g va bs.length true with
  | .error b => .error b
  | .ok s => writeVa s (asidOf s g) va bs

/-- What an acquire on flag word va that observed v lets context g read: flag regions of that word with v ≥ PV (R156). -/
def observeFlag (s : State) (g : Nat) (va v : Nat) : State :=
  s.mapJob (s.ctx g).cr.job.toNat fun j => { j with regions := j.regions.map fun (k, r) =>
    (k, if r.kind == 2 && r.obj == va && decide (r.pv.toNat ≤ v) then { r with seen := insertNat g r.seen } else r) }

/-- Publication: a release on flag word va by context g (0xFFFF an ordered reduction's completion) that writes v ≥ PV (R156). -/
def publishFlag (s : State) (job g : Nat) (va v : Nat) : State :=
  s.mapJob job fun j => { j with regions := j.regions.map fun (k, r) =>
    (k, if r.kind == 2 && r.obj == va && r.prod == g && decide (r.pv.toNat ≤ v) then { r with published := true } else r) }

end Sys2Proof.Machine
end

