-- ==== Sys2Proof/Machine/OrderLog.lean ====
section
/-! DEFINITION. The order log: rings, records, order counts, recording and replay of one operation (R173 to R182, R186). -/

namespace Sys2Proof.Machine

/-- Record types (R177). -/
def recDisp : Nat := 1
/-- PHASE. -/
def recPhase : Nat := 2
/-- TOKEN. -/
def recToken : Nat := 3
/-- AMO. -/
def recAmo : Nat := 4
/-- MSG. -/
def recMsg : Nat := 5
/-- SHAFT. -/
def recShaft : Nat := 6
/-- TICK. -/
def recTick : Nat := 7
/-- ADMIT. -/
def recAdmit : Nat := 8
/-- RETIRE. -/
def recRetire : Nat := 9
/-- EVICT. -/
def recEvict : Nat := 10
/-- FLAG. -/
def recFlag : Nat := 11
/-- MARK. -/
def recMark : Nat := 12

/-- Keys of the order counts: kind times 2^64 plus number (R178). -/
def countKey (kind n : Nat) : Nat := kind * 2 ^ 64 + n
/-- The key of a memory-side word, by its physical address: every virtual address that maps the word shares its count (R178). A page that
migrates starts new counts at its new address, which is the model's choice (R140; log entry 61). -/
def wordKey (pa : Nat) : Nat := countKey 16 pa

/-- A logged operation of a context: its launch and ordinal are informative (R176). -/
def Logged.of (s : State) (g type flags : Nat) (obj val : Word) (key : Nat) : Logged :=
  let c := s.ctx g
  { type, flags, obj, val, ctx := g, key, lid := if isForeman g then 0 else c.cr.launch
    ord := if isForeman g || c.handlerRun then 0xFFFFFFFF else c.cr.iterno }

/-- The 32 bytes of a record (R176). -/
def Logged.image (o : Logged) (seq : Lane) : BitVec 256 :=
  o.ord ++ o.lid ++ o.val ++ o.obj ++ seq ++ (0 : BitVec 5) ++ BitVec.ofNat 11 o.ctx ++ BitVec.ofNat 8 o.flags ++ BitVec.ofNat 8 o.type

/-- LOGBASE and LG of the ring of context g; a foreman's are FMLOGBASE and FMLOGSIZE of its job (R173). -/
def ringOf (s : State) (g : Nat) : Word × Nat :=
  let c := s.ctx g
  if isForeman g then
    let j := s.job c.cr.job.toNat
    (j.reg 0x104, (j.reg 0x105).toNat)
  else (c.cr.logbase, c.cr.logsize.toNat)

/-- Records a ring holds (R174). -/
def ringRecords (lg : Nat) : Nat := (2 ^ lg - 64) / 32

/-- The most sectors that the device transfers for one record: the header's words, the record, and their walks (R24, R174; log entry 33). -/
def logSectors : Nat := 5 + 4 * walkSectors

/-- Records of the ring of context g that earlier slots of the bundle being issued take, while its slots are asked whether they may issue
(R35). -/
def State.ahead (s : State) (g : Nat) : Nat := if s.cur.ctx = g then s.cur.ahead else 0

/-- What the log says of an operation. -/
inductive LogStep
  | go (s : State)
  | wait (c : Cause)
  | bad (b : Bad)

/-- ACC of a divergence (R182). -/
def Logged.acc (o : Logged) : BitVec 3 :=
  if o.type = recAmo then 2 else if o.type = recFlag then (if o.flags = 0 then 0 else 1) else 7

/-- The order count of an object of a job. -/
def Job.count (j : Job) (key : Nat) : Lane := Tab.get 0 j.counts key

/-- The order count advanced. -/
def bumpCount (s : State) (job key : Nat) : State := s.mapJob job fun j => { j with counts := Tab.set j.counts key (j.count key + 1) }

/-- The device's copies of the ring's indexes. -/
def setLogWr (s : State) (g : Nat) (wr : Word) : State :=
  s.mapCtx g fun c => if c.cr.logwr = wr then c else { c with cr := { c.cr with logwr := wr } }.noting [⟨6, 0x02A⟩]
/-- LOGRD. -/
def setLogRd (s : State) (g : Nat) (rd : Word) : State :=
  s.mapCtx g fun c => if c.cr.logrd = rd then c else { c with cr := { c.cr with logrd := rd } }.noting [⟨6, 0x02B⟩]

/-- Address of record i of a ring. -/
def recordAt (base : Word) (lg : Nat) (i : Nat) : Word := base + BitVec.ofNat 64 (64 + 32 * (i % ringRecords lg))

/-- RECORD: room for n records in the ring of context g, RD read again from the header (R175, R412). -/
def logRoom (s : State) (g n : Nat) : LogStep :=
  let (base, lg) := ringOf s g
  match readVaNum s (asidOf s g) base 8 with
  | .error b => .bad b
  | .ok rd =>
    let s := setLogRd s g (BitVec.ofNat 64 rd)
    if (s.ctx g).cr.logwr.toNat + n ≤ rd + ringRecords lg then .go s else .wait .logFull

/-- RECORD: the record written, then WR; VER is written at the first append to an empty ring, RD being read again (R174, R175, R186). -/
def append (s : State) (g : Nat) (o : Logged) : Except Bad State :=
  let (base, lg) := ringOf s g
  let asid := asidOf s g
  let job := (s.ctx g).cr.job.toNat
  let wr := (s.ctx g).cr.logwr
  match readVaNum s asid base 8 with
  | .error b => .error b
  | .ok rd =>
    let s := setLogRd s g (BitVec.ofNat 64 rd)
    let ver := if wr.toNat = rd then writeVa s asid (base + 16) (leBytes 8 1) else .ok s
    match ver with
    | .error b => .error b
    | .ok s =>
      match writeVa s asid (recordAt base lg wr.toNat) (leBytes 32 (o.image ((s.job job).count o.key)).toNat) with
      | .error b => .error b
      | .ok s =>
        match writeVa s asid (base + 8) (leBytes 8 (wr + 1).toNat) with
        | .error b => .error b
        | .ok s => .ok ((bumpCount (setLogWr s g (wr + 1)) job o.key).chargeWrite job logSectors)

/-- REPLAY: the header read again, and the record n places beyond RD: none where the log ends before it (R180, R186). -/
inductive Peek
  | wait
  | ended
  | record (r : BitVec 256) (versionOk : Bool)
  | bad (b : Bad)

/-- The record n places beyond RD in the ring of context g. -/
def peekRecord (s : State) (g n : Nat) : Peek :=
  let (base, lg) := ringOf s g
  let asid := asidOf s g
  match readVa s asid base 32 with
  | .error b => .bad b
  | .ok h =>
    let rd := leNat (h.take 8)
    let wr := leNat ((h.drop 8).take 8)
    let ver := leNat ((h.drop 16).take 1)
    let fin := leNat (h.drop 24)
    if wr ≤ rd + n then (if fin = 0 then .wait else .ended)
    else match readVaNum s asid (recordAt base lg (rd + n)) 32 with
      | .error b => .bad b
      | .ok r => .record (BitVec.ofNat 256 r) (ver == 1)

/-- SEQ of a record (R176). -/
def recSeq (r : BitVec 256) : Lane := r.extractLsb' 32 32
/-- VAL of a record (R176). -/
def recVal (r : BitVec 256) : Word := r.extractLsb' 128 64
/-- TYPE, FLAGS, OBJ of a record, and its reserved bits clear (R176, R186). -/
def recMatches (r : BitVec 256) (o : Logged) : Bool :=
  r.extractLsb' 0 8 == BitVec.ofNat 8 o.type && r.extractLsb' 8 8 == BitVec.ofNat 8 o.flags && r.extractLsb' 64 64 == o.obj &&
  r.extractLsb' 27 5 == 0

/-- A record that no operation of ring version 1 writes: a reserved TYPE, or a reserved bit of word 0 set (R186). -/
def recReserved (r : BitVec 256) : Bool := bits r 7 0 == 0 || decide (12 < bits r 7 0) || r.extractLsb' 27 5 != 0

/-- The divergence of an operation (R182). -/
def Logged.diverges (s : State) (job : Nat) (o : Logged) (exp : BitVec 256) : Bad :=
  { code := 0x08, acc := o.acc, exp, act := o.image ((s.job job).count o.key) }

/-- A record written by one of the agents that share the foreman's ring (R173, R176). -/
def recOfAgent (r : BitVec 256) : Bool := decide (0x7F0 ≤ bits r 26 16) && decide (bits r 26 16 ≤ 0x7F2)

/-- REPLAY: n records consumed, RD written to the header, and the device's copies of both indexes taken (R173, R174, R180). -/
def consume (s : State) (g n : Nat) : Except Bad State :=
  let (base, _) := ringOf s g
  match readVa s (asidOf s g) base 16 with
  | .error b => .error b
  | .ok h =>
    let rd := leNat (h.take 8) + n
    match writeVa s (asidOf s g) base (leBytes 8 rd) with
    | .error b => .error b
    | .ok s =>
      let s := setLogWr (setLogRd s g (BitVec.ofNat 64 rd)) g (BitVec.ofNat 64 (leNat (h.drop 8)))
      .ok (s.chargeWrite (s.ctx g).cr.job.toNat logSectors)

/-- The memberships of a context, by phaser ascending. -/
def memberships (s : State) (g : Nat) : List (Nat × Member) :=
  s.chip.phasers.filterMap fun (n, p) => (p.member g).map fun m => (n, m)

/-- A record of an operation of context g that takes effect after its instruction and is still to take it: a shaft transfer not yet sent, an
ordered reduction not yet complete, a drop of an iteration that has issued its ENDI and was not killed (R177, R179, R303, R412). -/
def recLater (s : State) (g : Nat) (r : BitVec 256) : Bool :=
  let kind := r.extractLsb' 0 16
  let c := s.ctx g
  ((kind == 0x0006 || kind == 0x0206) && s.chip.shaft.queue.any fun t => t.ctx == g) ||
  (kind == 0x020B && !c.oreds.isEmpty) ||
  (kind == 0x0102 && c.endi && !c.killed && (memberships s g).any fun (n, _) => r.extractLsb' 64 64 == BitVec.ofNat 64 n)

/-- REPLAY: the record n places beyond RD where it is one operation's own and due, nothing consumed; else why not (R180, R412). An operation
waits behind the record of one of its context that is still to take effect, and a foreman's behind that of an agent that shares its ring; no
operation waits behind a record that is reserved (R186). -/
def replayFind (s : State) (g n : Nat) (job : Nat) (o : Logged) : Except LogStep (BitVec 256) :=
  match peekRecord s g n with
  | .bad b => .error (.bad b)
  | .wait => .error (.wait .replay)
  | .ended => .error (.bad (o.diverges s job 0))
  | .record r ok =>
    if ok && !recReserved r && !recMatches r o && (recLater s g r || isForeman g && recOfAgent r) then .error (.wait .replay)
    else if !ok || !recMatches r o then .error (.bad (o.diverges s job r))
    else if (s.job job).count o.key ≠ recSeq r then .error (.wait .replay)
    else .ok r

/-- REPLAY: one operation held to the record n places beyond RD, due and equal, nothing consumed (R180). -/
def replayCheck (s : State) (g n : Nat) (job : Nat) (o : Logged) : LogStep :=
  match replayFind s g n job o with
  | .error x => x
  | .ok r => if recVal r ≠ o.val then .bad (o.diverges s job r) else .go s

/-- Whether an operation of context g may go on, before any effect: nothing to log in FREE and STRICT, room in RECORD, its record due and
equal in REPLAY, beside the records of the slots before it (R35, R175, R180). -/
def logReady (s : State) (g : Nat) (o : Logged) : LogStep :=
  match modeOf s g with
  | 2 => logRoom s g (s.ahead g + 1)
  | 3 => replayCheck s g (s.ahead g) (s.ctx g).cr.job.toNat o
  | _ => .go s

/-- The log's part of an operation that is performed: the record appended or consumed and the order count advanced (R175, R178, R180). -/
def logDone (s : State) (g : Nat) (o : Logged) : Except Bad State :=
  match modeOf s g with
  | 2 => append s g o
  | 3 =>
    match consume s g 1 with
    | .error b => .error b
    | .ok s => .ok (bumpCount s (s.ctx g).cr.job.toNat o.key)
  | _ => .ok s

/-- What REPLAY makes of a record that is not the one it looks for: it lies between, or it is waited behind, or the operation diverges. -/
inductive Beside | skip | wait | differs
  deriving DecidableEq, Repr

/-- REPLAY: the records of one operation found in the ring from place n on and compared, others treated as told; k bounds how many are looked
at (R180, R412). -/
def findRecords (s : State) (g : Nat) (same : BitVec 256 → Logged → Bool) (other : BitVec 256 → Beside) :
    Nat → Nat → List Logged → Except LogStep (List (BitVec 256))
  | _, _, [] => .ok []
  | 0, _, _ :: _ => .error (.wait .replay)
  | k + 1, n, o :: r =>
    let job := (s.ctx g).cr.job.toNat
    match peekRecord s g n with
    | .bad b => .error (.bad b)
    | .wait => .error (.wait .replay)
    | .ended => .error (.bad (o.diverges s job 0))
    | .record x ok =>
      if ok && same x o then (findRecords s g same other k (n + 1) r).map (x :: ·)
      else if !ok || recReserved x then .error (.bad (o.diverges s job x))
      else match other x with
        | .skip => findRecords s g same other k (n + 1) (o :: r)
        | .wait => .error (.wait .replay)
        | .differs => .error (.bad (o.diverges s job x))

/-- Every record found is due, the counts of their objects having reached their SEQ (R412). -/
def allDue (s : State) (g : Nat) (os : List Logged) (rs : List (BitVec 256)) : Bool :=
  (os.zip rs).all fun (o, r) => (s.job (s.ctx g).cr.job.toNat).count o.key == recSeq r

/-- A record in all that is compared: TYPE, FLAGS, OBJ and VAL (R412). -/
def recEquals (r : BitVec 256) (o : Logged) : Bool := recMatches r o && recVal r == o.val

/-- An operation waits behind the records of its context that are still to take effect; any other is a divergence. -/
def behindLater (s : State) (g : Nat) (r : BitVec 256) : Beside := if recLater s g r then .wait else .differs

/-- REPLAY: all the records of one operation found and due (R412). -/
def recordsDue (s : State) (g : Nat) (same : BitVec 256 → Logged → Bool) (other : BitVec 256 → Beside) (k n : Nat) (os : List Logged) : LogStep :=
  match findRecords s g same other k n os with
  | .error x => x
  | .ok rs => if allDue s g os rs then .go s else .wait .replay

/-- Whether an operation of several records may go on, room being asked for the most it can write (R35, R412). -/
def logManyReady (s : State) (g most : Nat) (os : List Logged) : LogStep :=
  match modeOf s g with
  | 2 => if most = 0 then .go s else logRoom s g (s.ahead g + most)
  | 3 => recordsDue s g recEquals (behindLater s g) os.length (s.ahead g) os
  | _ => .go s

/-- The records of one operation appended or consumed in order (R412). -/
def logManyDone (s : State) (g : Nat) : List Logged → Except Bad State
  | [] => .ok s
  | o :: r =>
    match logDone s g o with
    | .error b => .error b
    | .ok s => logManyDone s g r

/-- What the foreman's ring says of an agent's decision: it is made, it is held, or it diverges (R173, R175, R180, R182). -/
inductive AgentLog
  | go (s : State)
  | hold (s : State)
  | diverge (s : State)

/-- A ring access of an agent that fails holds its decision, and the foreman hears of it once, with the launch concerned (R173). -/
def ringFaulted (s : State) (j : Nat) (o : Logged) (b : Bad) (lid : Nat := 0) : State :=
  if (s.job j).ringFault then s
  else (s.mapJob j fun x => { x with ringFault := true }).jobFault j b.code (BitVec.ofNat 11 o.ctx) (BitVec.ofNat 32 lid) b.addr b.info

/-- The divergence of an agent ends the job's replay; a job fault carries both records and the launch concerned (R182). -/
def agentDiverges (s : State) (j : Nat) (o : Logged) (exp : BitVec 256) (lid : Nat := 0) : State :=
  let b := o.diverges s j exp
  let r := { agentRecord 0x08 4 (BitVec.ofNat 11 o.ctx) j (BitVec.ofNat 32 lid) 0 0 with exp := b.exp, act := b.act }
  (s.mapJob j fun x => { x with diverged := true }).post r

/-- A walker's record of another launch of the job that the launch can still come to: it is not launched yet, or not dispatched, or it is
active and the record is no dispatch (R177, R180). -/
def dispComes (s : State) (j : Nat) (r : BitVec 256) : Bool :=
  let q := bits r 127 64
  decide ((s.job j).seqNext ≤ q) ||
  s.chip.launches.any fun (_, l) => l.job == j && l.seq == q && (!l.active || bits r 15 8 != 0)

/-- What a next record that is not the decision's says to the agent that would take it: another party's, or another decision that this agent
can still come to, is waited behind; else the agent diverges (R180, R182, R186). Handler starts fall between the assignments of a launch. -/
def agentWaits (s : State) (j : Nat) (o : Logged) (r : BitVec 256) : Bool :=
  !recReserved r &&
  (if bits r 26 16 ≠ o.ctx then true
   else if bits r 7 0 ≠ o.type ∨ o.type ≠ recDisp ∨ 3 < bits r 15 8 then false
   else if r.extractLsb' 64 64 ≠ o.obj then dispComes s j r
   else (bits r 15 8 == 3 && o.flags != 0) || (o.flags == 3 && bits r 15 8 != 0))

/-- An agent's decision for job j, of a launch where it concerns one, held to the log of the foreman mode, the record written or consumed
where it goes ahead. -/
def agentOp (s : State) (j : Nat) (o : Logged) (lid : Nat := 0) : AgentLog :=
  let g := (s.job j).owner j
  let done := fun (s : State) =>
    match logDone s g o with
    | .error b => AgentLog.hold (ringFaulted s j o b lid)
    | .ok s => .go (s.mapJob j fun x => { x with ringFault := false })
  match (s.job j).fmode with
  | 2 =>
    match logRoom s g 1 with
    | .go s => done s
    | .wait _ => .hold s
    | .bad b => .hold (ringFaulted s j o b lid)
  | 3 =>
    if (s.job j).diverged then .hold s
    else match peekRecord s g 0 with
      | .bad b => .hold (ringFaulted s j o b lid)
      | .wait => .hold s
      | .ended => .diverge (agentDiverges s j o 0 lid)
      | .record r ok =>
        if !ok then .diverge (agentDiverges s j o r lid)
        else if !recMatches r o then (if agentWaits s j o r then .hold s else .diverge (agentDiverges s j o r lid))
        else if (s.job j).count o.key ≠ recSeq r then .hold s
        else if recVal r ≠ o.val then .diverge (agentDiverges s j o r lid)
        else done s
  | _ => .go s

/-- VAL of the next record where a replayed operation takes its outcome from the log: none outside REPLAY, while the record is awaited and
where it is another operation's (R181). -/
def loggedVal (s : State) (g type flags : Nat) (obj : Word) : Option Word :=
  if modeOf s g = 3 then
    match peekRecord s g (s.ahead g) with
    | .record r true => if recMatches r { type, flags, obj, ctx := g, key := 0 } then some (recVal r) else none
    | _ => none
  else none

/-- The PHASE record of a drop of subkind 1, or of a registration of subkind 0 (R177). -/
def phaseRecord (s : State) (g n flags : Nat) (m : Member) : Logged :=
  .of s g recPhase flags (BitVec.ofNat 64 n) ((s.phaser n).k ++ (0 : BitVec 15) ++ BitVec.ofBool m.sig ++ BitVec.ofNat 16 m.ix) (countKey 1 n)

/-- The records of the drops that an iteration end makes (R413). -/
def endRecords (s : State) (g : Nat) : List Logged := (memberships s g).map fun (n, m) => phaseRecord s g n 1 m

/-- REPLAY: the next record of context g's own from place n on, an agent's that shares its ring left aside; k bounds how many are looked at
(R173, R180). -/
def ownNext (s : State) (g : Nat) : Nat → Nat → Peek
  | 0, _ => .wait
  | k + 1, n =>
    match peekRecord s g n with
    | .record r ok => if isForeman g && recOfAgent r then ownNext s g k (n + 1) else .record r ok
    | x => x

/-- REPLAY: whether an instruction whose outcome the log may name must still wait to be told: its context's next record is awaited, or one that
is still to take effect, or the one it looks for behind an agent's (R180, R181). -/
def logAwaited (s : State) (g : Nat) (mine : BitVec 256 → Bool) : Bool :=
  modeOf s g == 3 &&
  (match ownNext s g (ringRecords (ringOf s g).2 + 1) (s.ahead g) with
   | .wait => true
   | .record r ok => ok && !recReserved r && (recLater s g r || mine r)
   | _ => false)

/-- Whether a blocking or failing instruction may run: it runs, its bundle blocks, or it fails. -/
inductive Ready
  | go
  | wait (c : Cause)
  | bad (b : Bad)
  deriving DecidableEq, Repr

/-- The log's answer as a readiness. -/
def LogStep.ready : LogStep → Ready
  | .go _ => .go
  | .wait c => .wait c
  | .bad b => .bad b

/-- An operation whose object makes it wait on cause c: in REPLAY its record comes first, and it diverges where that is another operation's
(R180). -/
def awaitObject (s : State) (g : Nat) (o : Logged) (c : Cause) : Ready :=
  if modeOf s g = 3 then
    match replayFind s g (s.ahead g) (s.ctx g).cr.job.toNat o with
    | .error x => x.ready
    | .ok _ => .wait c
  else .wait c

/-- An instruction carried out where it is ready; else its block or its failure. -/
def State.when (s : State) (r : Ready) (f : State → Out) : Out :=
  match r with
  | .go => f s
  | .wait c => s.block c
  | .bad b => s.raise b

/-- A result that can fail, carried on. -/
def State.try {α : Type} (s : State) (r : Except Bad α) (f : α → Out) : Out :=
  match r with
  | .error b => s.raise b
  | .ok x => f x

end Sys2Proof.Machine
end

