-- ==== Sys2Proof/Machine/Operands.lean ====
section
/-! DEFINITION. The operand forms of the slot instructions: immediates, shift amounts, bit-field operands, compare operands, branch targets,
memory addresses and access sizes (R245, R246, R285, R290 to R298, R304). -/

namespace Sys2Proof.Machine

/-- A sign-extended immediate as a word (R246). -/
def immWord {w : Nat} (x : BitVec w) : Word := x.signExtend 64

/-- A shift amount taken from a scalar: S[b] mod 64 (R290). -/
def shiftOf (y : Word) : Nat := y.toNat % 64

/-- Rotation left (R290). -/
def rotl64 (x : Word) (n : Nat) : Word := (x <<< n) ||| (x >>> (64 - n))

/-- The mask of a field of w bits at pos, bits above 63 dropped (R292). -/
def fieldMask (pos w : Nat) : Word := BitVec.ofNat 64 ((2 ^ w - 1) * 2 ^ pos)

/-- The field of BFX, bits above 63 reading zero, sign-extended for .S (R292). -/
def extractField (signed : Bool) (x : Word) (pos w : Nat) : Word :=
  let f := (x >>> pos) &&& BitVec.ofNat 64 (2 ^ w - 1)
  if signed && decide (w < 64) && f.getLsbD (w - 1) then f ||| ~~~(BitVec.ofNat 64 (2 ^ w - 1)) else f

/-- The word of BFI (R292). -/
def insertField (old x : Word) (pos w : Nat) : Word :=
  let m := fieldMask pos w
  (old &&& ~~~m) ||| ((x <<< pos) &&& m)

/-- sext(x, n) of a word (R11, R291). -/
def sextWord (x : Word) (n : Nat) : Word := extractField true x 0 n

/-- Target of BR and CALL: PC + 32 × sext(off26, 26) (R298). -/
def branchTarget (pc : Word) (off : BitVec 26) : Word := pc + immWord off * 32

/-- Target of BRI, CALLI and RET: S[a] + sext(imm23, 23), bits [4:0] taken as zero (R298). -/
def indirectTarget (x : Word) (imm : BitVec 23) : Word := (x + immWord imm) &&& ~~~31

/-- Address of a memory operand: S[a] plus a sign-extended offset (R245, R304). R8 lets no intermediate overflow and R115 forms a virtual address
from a 64-bit value, but no rule says what a sum outside 0 to 2^64 − 1 gives: the model's choice is the sum modulo 2^64 (log entry 57). -/
def State.adr {w : Nat} (s : State) (a : SReg) (off : BitVec w) : Word := s.rS a + immWord off

/-- Bytes of a load size (R285). -/
def ldWidth : LdSize → Nat
  | .b | .bu => 1
  | .h | .hu => 2
  | .w | .wu => 4
  | .d => 8

/-- Bytes of a store size (R285). -/
def stWidth : StSize → Nat
  | .b => 1 | .h => 2 | .w => 4 | .d => 8

/-- A loaded value extended as its size states (R285). -/
def extendLoad (z : LdSize) (v : Nat) : Word :=
  match z with
  | .b => (BitVec.ofNat 8 v).signExtend 64
  | .h => (BitVec.ofNat 16 v).signExtend 64
  | .w => (BitVec.ofNat 32 v).signExtend 64
  | _ => BitVec.ofNat 64 v

/-- Width of an atomic operand: .D 8 bytes, .W 4 (R286). -/
def atomicWidth (dbl : Bool) : Nat := if dbl then 8 else 4

/-- The bit number of TBIT (R295). -/
def State.bitOf (s : State) : BitSrc → Nat
  | .imm n => n.toNat
  | .reg b => shiftOf (s.rS b)

/-- Four scalars from d on as 256 bits (R310). -/
def State.rS4 (s : State) (d : SReg) : BitVec 256 := s.rS (d + 3) ++ s.rS (d + 2) ++ s.rS (d + 1) ++ s.rS d

/-- Eight scalars from d on as 512 bits (R310). -/
def State.rS8 (s : State) (d : SReg) : BitVec 512 := s.rS4 (d + 4) ++ s.rS4 d

/-- The writes of n scalars from d on, lowest first (R310). -/
def State.wSRun (s : State) (d : SReg) : Nat → Nat → List RegWrite
  | _, 0 => []
  | v, n + 1 => s.wS d (BitVec.ofNat 64 v) ++ State.wSRun s (d + 1) (v / 2 ^ 64) n

/-- Name and kind of a phaser or token number operand: its number, or the precise 0x04 of R308. -/
def syncNumber (s : State) (g : Nat) (x : Word) (token : Bool) : Except Bad Nat :=
  let r := (s.job (s.ctx g).cr.job.toNat).reg 0x117
  let base := if token then bits r 38 25 else bits r 11 0
  let cnt := if token then bits r 53 39 else bits r 24 12
  let lim := if token then 2 ^ 14 else 2 ^ 12
  if x.toNat < lim ∧ base ≤ x.toNat ∧ x.toNat < base + cnt then .ok x.toNat
  else .error { code := 0x04, addr := x, info := 0xFFFF }

end Sys2Proof.Machine
end

