-- ==== Sys2Proof/Machine/Control.lean ====
section
/-! DEFINITION. Branches, calls, returns, hardware loops and ENDI (R298 to R303), and the loop-back decision (R251, R252, R301, R302). -/

namespace Sys2Proof.Machine

/-- The target lies in an entry's body (R299). -/
def LoopEntry.contains (e : LoopEntry) (t : Word) : Bool := decide (e.start.toNat ≤ t.toNat) && decide (t.toNat ≤ e.stop.toNat)

/-- The bundle is the loop-back point of the top entry (R252). -/
def Frame.atLoopEnd (f : Frame) (loops : List LoopEntry) : Bool :=
  f.le && (match loops with | e :: _ => e.stop == f.pc | [] => false)

/-- lc, ec and the stage predicates entered in the operand log as written (R214, R249). -/
def Ctx.noteLoop (c : Ctx) (preds : Bool) : Ctx :=
  c.noting ([⟨7, 0⟩, ⟨7, 1⟩] ++ if preds then (List.range 8).map fun j => ⟨1, 8 + j⟩ else [])

/-- The next bundle's PC is the target of a taken branch (R243). -/
def State.jump (s : State) (t : Word) : State := s.onCur fun f => { f with target := some t, taken := true }

/-- A taken BR, BRI or RET: entries whose body does not contain the target are popped, except in a bundle whose LE matches the top (R299). -/
def State.branch (s : State) (t : Word) : State :=
  let s := if s.cur.atLoopEnd s.me.loops then s
    else s.mapMe fun c =>
      let kept := c.loops.dropWhile fun e => !e.contains t
      if kept = c.loops then c else { c with loops := kept }.noteLoop false
  s.jump t

/-- A taken CALL or CALLI: the link, and no change of the loop stack (R298, R299). -/
def State.callTo (s : State) (t : Word) : State := (s.jump t).result 1 (s.wS 63 (s.cur.pc + 32))

/-- BR (R298). -/
def execBr (off : BitVec 26) (s : State) : Out := .next (s.branch (branchTarget s.cur.pc off))
/-- BRI (R298). -/
def execBri (a : SReg) (imm : BitVec 23) (s : State) : Out := .next (s.branch (indirectTarget (s.rS a) imm))
/-- CALL (R298). -/
def execCall (off : BitVec 26) (s : State) : Out := .next (s.callTo (branchTarget s.cur.pc off))
/-- CALLI reads the old link at issue (R298). -/
def execCalli (a : SReg) (imm : BitVec 23) (s : State) : Out := .next (s.callTo (indirectTarget (s.rS a) imm))
/-- RET (R298). -/
def execRet (a : SReg) (imm : BitVec 23) (s : State) : Out := .next (s.branch (indirectTarget (s.rS a) imm))

/-- ceil(n / 2^sh) (R40, R300). -/
def ceilShift (n sh : Nat) : Nat := (n + 2 ^ sh - 1) / 2 ^ sh

/-- A loop instruction of n trips: nothing pushed where n is zero, else a new top entry, the bottom one of four discarded; LOOPP resets the
ages and the stage predicates (R251, R252, R300). -/
def State.pushLoop (s : State) (kind : LoopKind) (pm : PipeMode) (n : Lane) (st : BitVec 4) (endOff : BitVec 12) : State :=
  let stop := s.cur.pc + 32 * endOff.setWidth 64
  if n = 0 then s.onCur fun f => { f with target := some (stop + 32) }
  else
    let pipelined := kind == .loopp
    let e : LoopEntry := { kind, start := s.cur.pc + 32, stop, pmode := pm, lc := n - 1
                           ec := if pipelined then st.setWidth 32 else 0, n, st, pass := 0 }
    let s := s.mapMe fun c => { c with loops := e :: c.loops.take 3 }.noteLoop pipelined
    if pipelined then s.mapMe fun c => { c with ages := 0, agev := 0, p := (c.p &&& 0x00FF) ||| 0x0100 } else s

/-- LOOP (R300). -/
def execLoop (pm : PipeMode) (a : SReg) (endOff : BitVec 12) (s : State) : Out :=
  .next (s.pushLoop .loop pm ((s.rS a).setWidth 32) 0 endOff)
/-- LOOPR, n = ceil(lr / 2^sh) (R300). -/
def execLoopr (pm : PipeMode) (sh : BitVec 5) (endOff : BitVec 12) (s : State) : Out :=
  .next (s.pushLoop .loopr pm (BitVec.ofNat 32 (ceilShift s.operands.lr.toNat sh.toNat)) 0 endOff)
/-- LOOPP (R300). -/
def execLoopp (pm : PipeMode) (a : SReg) (stm1 : BitVec 3) (endOff : BitVec 12) (s : State) : Out :=
  .next (s.pushLoop .loopp pm ((s.rS a).setWidth 32) (stm1.setWidth 4 + 1) endOff)

/-- The stage predicates of a pass: p(8 + j) is one where j < st and j ≤ pass ≤ j + n − 1 (R301). -/
def stagePreds (n st pass : Nat) : BitVec 16 :=
  BitVec.ofNat 16 (((List.range 8).map fun j => if j < st ∧ j ≤ pass ∧ pass ≤ j + n - 1 then 2 ^ (8 + j) else 0).foldl (· + ·) 0)

/-- The loop-back decision for the top entry: the new start PC where the loop goes back, none where it exits (R301). -/
def Ctx.loopBack (c : Ctx) : Ctx × Option Word :=
  match c.loops with
  | [] => (c, none)
  | e :: r =>
    match e.kind with
    | .loopp =>
      let n := e.n.toNat
      let st := e.st.toNat
      if e.pass.toNat + 1 < n + st - 1 then
        let pass := e.pass.toNat + 1
        let e' := { e with
          pass := BitVec.ofNat 33 pass, lc := BitVec.ofNat 32 (n - 1 - pass), ec := BitVec.ofNat 32 (st - (pass + 1 - n)) }
        ({ c with loops := e' :: r, ages := c.ages - 1, agev := c.agev - 1, p := (c.p &&& 0x00FF) ||| stagePreds n st pass }.noteLoop true,
          some e.start)
      else ({ c with loops := r }.noteLoop false, none)
    | _ =>
      if e.lc ≠ 0 then ({ c with loops := { e with lc := e.lc - 1 } :: r }.noteLoop false, some e.start)
      else ({ c with loops := r }.noteLoop false, none)

/-- The outcome of a slot's qualifying test (R244). -/
def Frame.qualify (f : Frame) (x : SlotInstr) : Bool := (x.qp == 0 || f.preds.getLsbD x.qp.toNat) != x.sn

/-- REPLAY: what a record before those of an ENDI's drops says to it. Records of the context that are still to be taken, of its own bundle's X
slot and of what it issued before, may come first; any other is a divergence (R303, R412). -/
def besideEndi (s : State) (g : Nat) (r : BitVec 256) : Beside :=
  let kind := r.extractLsb' 0 16
  let mine := fun (x : SlotInstr) => s.cur.qualify x && (match x.instr with
    | .kvapp _ _ _ _ _ | .kvg _ _ _ _ _ _ _ | .kvscan _ _ _ _ _ | .kvexs _ _ => kind == 0x0109
    | .exnote _ => kind == 0x0206
    | _ => false)
  if recLater s g r || s.cur.rest.any mine then .skip else .differs

/-- Whether ENDI may issue: the records of the drops that its iteration end makes fit, or are all found and due; they are written or consumed
when the drops take place (R303, R412, R413). -/
def endiReady (s : State) (g : Nat) : Ready :=
  let os := endRecords s g
  if os.isEmpty then .go
  else match modeOf s g with
    | 2 => (logRoom s g (s.ahead g + os.length)).ready
    | 3 => (recordsDue s g recEquals (besideEndi s g) (ringRecords (ringOf s g).2 + 1) (s.ahead g) os).ready
    | _ => .go

/-- ENDI: the bundle's other slots still take effect, and the context issues nothing further (R303). -/
def execEndi (s : State) : Out := s.when (endiReady s s.cur.ctx) fun s => .next (s.onCur fun f => { f with ended := true })

end Sys2Proof.Machine
end

