-- ==== Sys2Proof/Machine/Scratch.lean ====
section
/-! DEFINITION. Scratchpads and scratch regions: shares, map entries, sector states, touches, fills, write-backs, and what a release or an
acquire on a sync object does to them (R60, R129 to R133, R340, R354 to R357). -/

namespace Sys2Proof.Machine

/-- A fold that stops at the first failure. -/
def foldE {σ α : Type} (f : σ → α → Except Bad σ) : σ → List α → Except Bad σ
  | s, [] => .ok s
  | s, x :: r =>
    match f s x with
    | .error b => .error b
    | .ok s => foldE f s r

/-- A map entry's fields (R131). -/
structure MapEntry where
  va : Nat
  len : Nat
  soff : Nat
  asid : Nat
  deriving DecidableEq, Repr

/-- The valid entry held in 128 bits (R131). -/
def MapEntry.read (x : BitVec 128) : Option MapEntry :=
  if x.getLsbD 0 then some ⟨bits x 127 72, bits x 71 50, bits x 49 28, bits x 27 15⟩ else none

/-- The 128 bits of a valid entry (R131). -/
def MapEntry.image (e : MapEntry) : BitVec 128 :=
  BitVec.ofNat 56 e.va ++ BitVec.ofNat 22 e.len ++ BitVec.ofNat 22 e.soff ++ BitVec.ofNat 13 e.asid ++ (0 : BitVec 14) ++ (1 : BitVec 1)

/-- A core's valid entries in ascending index. -/
def Core.entries (c : Core) : List (Nat × MapEntry) := c.map.filterMap fun (i, x) => (MapEntry.read x).map fun e => (i, e)

/-- Key of sector j of entry i (R132). -/
def sectKey (i j : Nat) : Nat := i * 2 ^ 20 + j
/-- Virtual base of sector j of an entry (R130). -/
def MapEntry.sectVa (e : MapEntry) (j : Nat) : Nat := sectorBase (sectorOf e.va + j)
/-- Length of sector j of an entry. -/
def MapEntry.sectLen (e : MapEntry) (j : Nat) : Nat := sectorLen (sectorOf e.va + j)
/-- Scratch offset of sector j of an entry (R131). -/
def MapEntry.sectOff (e : MapEntry) (j : Nat) : Nat := e.soff + (e.sectVa j - e.va)
/-- The entry maps some of the n scratch bytes from off. -/
def MapEntry.overlaps (e : MapEntry) (off n : Nat) : Bool := decide (off < e.soff + e.len) && decide (e.soff < off + n)
/-- The entry maps some of the n virtual bytes from va. -/
def MapEntry.overlapsVa (e : MapEntry) (va n : Nat) : Bool := decide (va < e.va + e.len) && decide (e.va < va + n)

/-- The virtual range that an entry gives the part of n scratch bytes from off that it maps: address and length (R131). -/
def MapEntry.part (e : MapEntry) (off n : Nat) : Nat × Nat :=
  let lo := max off e.soff
  let hi := min (off + n) (e.soff + e.len)
  (e.va + (lo - e.soff), hi - lo)

/-- Sectors of an entry that overlap n virtual bytes from va. -/
def MapEntry.sectors (e : MapEntry) (va n : Nat) : List Nat :=
  let lo := max va e.va
  let hi := min (va + n) (e.va + e.len)
  if lo < hi then (sectorsOf lo (hi - lo)).map (· - sectorOf e.va) else []

/-- The sector of scratch that holds a byte: that of the entry that maps it, else the one on the sector boundaries of scratch addresses (R130,
R131): first offset and length. -/
def Core.scrSector (c : Core) (off : Nat) : Nat × Nat :=
  match c.entries.find? fun (_, e) => e.overlaps off 1 with
  | some (_, e) => let j := sectorOf (e.va + (off - e.soff)) - sectorOf e.va; (e.sectOff j, e.sectLen j)
  | none => let k := sectorOf off; (sectorBase k, sectorLen k)

/-- The state of a sector: none INVALID, mask zero CLEAN, else DIRTY (R132). -/
def Core.sector (c : Core) (i j : Nat) : Option (BitVec 48) := Tab.find c.sect (sectKey i j)
/-- A sector set to a mask. -/
def setSector (s : State) (core i j : Nat) (m : BitVec 48) : State :=
  s.mapCore core fun c => { c with sect := Tab.set c.sect (sectKey i j) m }
/-- A sector made INVALID. -/
def dropSector (s : State) (core i j : Nat) : State := s.mapCore core fun c => { c with sect := Tab.del c.sect (sectKey i j) }

/-- A fill of a sector from memory: a plain read whose poison travels, refused of a memory-side page (R132, R216). -/
def fillSector (s : State) (core i j : Nat) (e : MapEntry) : Except Bad State :=
  let va : Word := BitVec.ofNat 64 (e.sectVa j)
  match translate s e.asid va .read with
  | .error b => .error b
  | .ok (pa, w) =>
    if w.getLsbD 63 then .error { code := 0x10, acc := 0, addr := va }
    else
      let n := e.sectLen j
      let off := e.sectOff j
      let s' := s.scrPut core off (Cells.bytes s.mem pa n)
      let s' := if (firstPoison s pa n).isSome then s'.scrTaint core off n else s'
      .ok (setSector s' core i j 0)

/-- A touch of one sector: filled where INVALID (R132). -/
def touchSector (core i : Nat) (e : MapEntry) (s : State) (j : Nat) : Except Bad State :=
  match (s.core core).sector i j with
  | none => fillSector s core i j e
  | some _ => .ok s

/-- A touch of n scratch bytes from off: every mapped sector among them filled where INVALID (R132). -/
def touch (s : State) (core off n : Nat) : Except Bad State :=
  foldE (fun s (i, e) =>
    if e.overlaps off n then
      let (va, m) := e.part off n
      foldE (touchSector core i e) s (e.sectors va m)
    else .ok s) s (s.core core).entries

/-- The byte mask of n bytes from the place lo inside a sector. -/
def byteMask (lo n : Nat) : BitVec 48 := BitVec.ofNat 48 ((2 ^ n - 1) * 2 ^ lo)

/-- A write of n scratch bytes from off makes the mapped sectors among them DIRTY in those bytes (R132). -/
def dirty (s : State) (core off n : Nat) : State :=
  (s.core core).entries.foldl (fun s (i, e) =>
    if e.overlaps off n then
      let (va, m) := e.part off n
      (e.sectors va m).foldl (fun s j =>
        let lo := max va (e.sectVa j)
        let hi := min (va + m) (e.sectVa j + e.sectLen j)
        setSector s core i j ((((s.core core).sector i j).getD 0) ||| byteMask (lo - e.sectVa j) (hi - lo))) s
    else s) s

/-- The on-chip window address of a scratch byte (R126). -/
def windowOf (core off : Nat) : Nat := 0xFE * 2 ^ 40 + core * 2 ^ 32 + off

/-- ADDR of a scratch access that is refused: the window address of its offset, of which R126 has 30 bits (R210; log entry 46). -/
def windowAddr (core : Nat) (off : Word) : Word := BitVec.ofNat 64 (windowOf core (off.toNat % 2 ^ 30))

/-- The window error of a scratch access (R210, R340, R353). -/
def windowError (core : Nat) (off : Word) (w : Bool) : Bad := { code := 0x14, acc := if w then 1 else 0, addr := windowAddr core off }

/-- The virtual address of a scratch byte: that which a map entry gives it, else its window address (R126, R131). -/
def scrVa (s : State) (core off : Nat) : Nat :=
  match (s.core core).entries.find? fun (_, e) => e.overlaps off 1 with
  | some (_, e) => (e.part off 1).1
  | none => windowOf core off

/-- The consumption of poison in scratch: the virtual address of the access, and the poisoned sector in the window, which is where scratch has
physical addresses (R126, R131, R210, R216; log entry 46). -/
def scrConsumed (s : State) (core off n : Nat) : Bad :=
  let sect := (s.chip.scrPoison.find? fun x => decide (x.1 < scrKey core off + n) && decide (scrKey core off < x.1 + x.2)).map Prod.fst
  { code := 0x11, acc := 0, addr := BitVec.ofNat 64 (scrVa s core off)
    info := BitVec.ofNat 64 (windowOf core (sect.getD (scrKey core off) - scrKey core 0)) }

/-- Touched, then read: a poisoned byte is consumed (R132, R216). -/
def scrFetch (s : State) (core off n : Nat) : Except Bad (State × List Byte) :=
  match touch s core off n with
  | .error b => .error b
  | .ok s =>
    if scrPoisoned s core off n then .error (scrConsumed s core off n)
    else .ok (s, s.scrBytes core off n)

/-- Touched, then written, the mapped sectors becoming DIRTY (R132). -/
def scrStore (s : State) (core off : Nat) (bs : List Byte) : Except Bad State :=
  match touch s core off bs.length with
  | .error b => .error b
  | .ok s => .ok (dirty (s.scrPut core off bs) core off bs.length)

/-- The bytes lie in the job's scratchpad share (R60, R340). -/
def inShare (j : Job) (off n : Nat) : Bool := decide (j.scrBase ≤ off) && decide (off + n ≤ j.scrBase + j.scrLen)

/-- The mapped bytes among n scratch bytes of a core region-checked as an access by context g (R155, R159). -/
def checkMapped (s : State) (g core off n : Nat) (w : Bool) : Except Bad State :=
  foldE (fun s (_, e) =>
    if e.overlaps off n then
      let (va, m) := e.part off n
      regionCheck s g (BitVec.ofNat 64 va) m w
    else .ok s) s (s.core core).entries

/-- A scratch access of context g checked: within the share, and its mapped bytes region-checked (R340, R155). -/
def scrCheck (s : State) (g : Nat) (off : Word) (n : Nat) (w : Bool) : Except Bad State :=
  if n ≠ 0 && !inShare (s.job (s.ctx g).cr.job.toNat) off.toNat n then .error (windowError (coreOf g) off w)
  else checkMapped s g (coreOf g) off.toNat n w

/-- A scratch read of context g, checked and performed (R352, R353). -/
def scrRead (s : State) (g : Nat) (off : Word) (n : Nat) : Except Bad (State × List Byte) :=
  match scrCheck s g off n false with
  | .error b => .error b
  | .ok s => scrFetch s (coreOf g) off.toNat n

/-- A scratch write of context g, checked and performed (R352, R353). -/
def scrWrite (s : State) (g : Nat) (off : Word) (bs : List Byte) : Except Bad State :=
  match scrCheck s g off bs.length true with
  | .error b => .error b
  | .ok s => scrStore s (coreOf g) off.toNat bs

/-! ## Write-backs (R133) -/

/-- The DIRTY sectors of entry i, ascending: place and mask. -/
def Core.dirtySectors (c : Core) (i : Nat) : List (Nat × BitVec 48) :=
  c.sect.filterMap fun (k, m) => if k / 2 ^ 20 = i ∧ m ≠ 0 then some (k % 2 ^ 20, m) else none

/-- The masked bytes of a sector, over what memory holds. -/
def mergeBytes (old new : List Byte) (m : BitVec 48) : List Byte :=
  (List.range old.length).map fun i => if m.getLsbD i then new.getD i 0 else old.getD i 0

/-- One DIRTY sector stored and made CLEAN; its poison travels, and a write of the whole sector clears poison (R133, R216). Where a sector of a
write-back fails, none of those before it in the same instruction is written either: the model's choice (log entry 61). -/
def writeBackSector (core i : Nat) (e : MapEntry) (s : State) (x : Nat × BitVec 48) : Except Bad State :=
  let (j, m) := x
  let n := e.sectLen j
  match translate s e.asid (BitVec.ofNat 64 (e.sectVa j)) .write with
  | .error b => .error b
  | .ok (pa, _) =>
    let off := e.sectOff j
    let whole := (List.range n).all fun k => m.getLsbD k
    let bad := scrPoisoned s core off n || (poisoned s (sectorOf pa) && !whole)
    let s' := s.poke pa (mergeBytes (Cells.bytes s.mem pa n) (s.scrBytes core off n) m)
    let s' := if bad then s'.onChip fun c => { c with poison := insertNat (sectorOf pa) c.poison } else s'
    .ok (setSector s' core i j 0)

/-- The DIRTY sectors of an entry that overlap a virtual range written back (R133, R154). -/
def writeBackRange (core base len : Nat) (s : State) (x : Nat × MapEntry) : Except Bad State :=
  foldE (writeBackSector core x.1 x.2) s (((s.core core).dirtySectors x.1).filter fun y => (x.2.sectors base len).contains y.1)

/-- The DIRTY sectors of a core that hold bytes of a range of an address space written back (R133, R151, R154). -/
def writeBackCore (asid base len : Nat) (s : State) (core : Nat) : Except Bad State :=
  foldE (writeBackRange core base len) s ((s.core core).entries.filter fun (_, e) => e.asid == asid && e.overlapsVa base len)

/-- Every DIRTY sector of an entry written back (R133). -/
def writeBackEntry (core : Nat) (s : State) (x : Nat × MapEntry) : Except Bad State :=
  foldE (writeBackSector core x.1 x.2) s ((s.core core).dirtySectors x.1)

/-- The regions of a job bound to a sync object (R151, R153). -/
def Job.bound (j : Job) (kind obj : Nat) : List Region :=
  (j.regions.filter fun (_, r) => r.kind == kind && r.obj == obj).map Prod.snd

/-- The entries of a core of a job that overlap a region bound to the object (R133). -/
def boundEntries (s : State) (job core kind obj : Nat) : List (Nat × MapEntry) :=
  let rs := (s.job job).bound kind obj
  (s.core core).entries.filter fun (_, e) => e.asid == (s.job job).asid && rs.any fun r => e.overlapsVa r.base r.len

/-- A release on a sync object for a job writes back the DIRTY sectors of a core's entries overlapping its regions (R133, R151). -/
def releaseFor (s : State) (job core kind obj : Nat) : Except Bad State := foldE (writeBackEntry core) s (boundEntries s job core kind obj)

/-- A release by context g on a sync object (R133, R151). -/
def releaseOn (s : State) (g kind obj : Nat) : Except Bad State := releaseFor s (s.ctx g).cr.job.toNat (coreOf g) kind obj

/-- An acquire by context g on a sync object makes the CLEAN sectors of the entries overlapping its regions INVALID (R133, R151). -/
def acquireOn (s : State) (g kind obj : Nat) : State :=
  let es := (boundEntries s (s.ctx g).cr.job.toNat (coreOf g) kind obj).map Prod.fst
  s.mapCore (coreOf g) fun c => { c with sect := c.sect.filter fun (k, m) => !(es.contains (k / 2 ^ 20) && m == 0) }

end Sys2Proof.Machine
end

