-- ==== Sys2Proof/Machine/LoadStore.lean ====
section
/-! DEFINITION. Scalar loads and stores, LD.ACQ and ST.REL (R304 to R307). -/

namespace Sys2Proof.Machine

/-- LD of a size (R304, R305). -/
def execLd (sz : LdSize) (_h : Hint) (d a : SReg) (off : BitVec 18) (s : State) : Out :=
  s.try (plainRead s s.cur.ctx (s.adr a off) (ldWidth sz)) fun (s, bs) => .next (s.coming (.regs (s.wS d (extendLoad sz (leNat bs)))))

/-- ST of a size (R304, R305). -/
def execSt (sz : StSize) (_h : Hint) (d a : SReg) (off : BitVec 18) (s : State) : Out :=
  s.try (plainWrite s s.cur.ctx (s.adr a off) (leBytes (stWidth sz) (s.rS d).toNat)) fun s => .next s

/-- The nondeterministic-operation fault of an opcode (R170, R210). -/
def strictFault (op : Nat) : Bad := { code := 0x06, info := BitVec.ofNat 64 op }

/-- A flag word of context g: 8-byte aligned, translated for the access, in a memory-side page (R306, R307). -/
def flagWord (s : State) (g : Nat) (va : Word) (k : Access) : Except Bad Nat :=
  if va.toNat % 8 ≠ 0 then .error { code := 0x10, acc := k.acc, addr := va }
  else match translate s (asidOf s g) va k with
    | .error b => .error b
    | .ok (pa, e) => if e.getLsbD 63 then .ok pa else .error { code := 0x05, acc := k.acc, addr := va }

/-- The value of a word at a physical address, poison consumed (R216). -/
def wordAt (s : State) (va : Word) (pa n : Nat) (acc : BitVec 3) : Except Bad Word :=
  match firstPoison s pa n with
  | some p => .error { code := 0x11, acc, addr := va, info := BitVec.ofNat 64 p }
  | none => .ok (BitVec.ofNat 64 (s.peek pa n))

/-- What LD.ACQ would read, and its record (R306, R177). -/
def ldAcqPlan (s : State) (va : Word) : Except Bad (Word × Logged) :=
  if modeOf s s.cur.ctx = 1 then .error (strictFault 0x40)
  else match flagWord s s.cur.ctx va .read with
    | .error b => .error b
    | .ok pa =>
      match wordAt s va pa 8 0 with
      | .error b => .error b
      | .ok v => .ok (v, .of s s.cur.ctx recFlag 0 va v (wordKey pa))

/-- Whether a planned logged operation may run. -/
def planReady {α : Type} (s : State) (p : Except Bad (α × Logged)) : Ready :=
  match p with
  | .error b => .bad b
  | .ok (_, o) => (logReady s s.cur.ctx o).ready

/-- Whether LD.ACQ may run (R306). -/
def ldAcqReady (a : SReg) (off : BitVec 15) (s : State) : Ready := planReady s (ldAcqPlan s (s.adr a off))

/-- A planned logged operation carried out: its record, then its effect. -/
def State.logged {α : Type} (s : State) (p : Except Bad (α × Logged)) (f : α → State → Out) : Out :=
  s.when (planReady s p) fun s => s.try p fun (x, o) => s.try (logDone s s.cur.ctx o) fun s => f x s

/-- LD.ACQ (R306): the read, and the acquire on its flag. -/
def execLdAcq (_sc : Scope) (d a : SReg) (off : BitVec 15) (s : State) : Out :=
  let va := s.adr a off
  s.logged (ldAcqPlan s va) fun v s =>
    .next ((acquireOn (observeFlag s s.cur.ctx va.toNat v.toNat) s.cur.ctx 2 va.toNat).coming (.regs (s.wS d v)))

/-- The word ST.REL writes and its record; in checked modes a region's flag is written by its producer only (R307, R156). -/
def stRelPlan (s : State) (va v : Word) : Except Bad (Nat × Logged) :=
  let g := s.cur.ctx
  match flagWord s g va .write with
  | .error b => .error b
  | .ok pa =>
    match (if modeOf s g = 0 then none
           else (s.job s.me.cr.job.toNat).regions.find? fun (_, r) => r.kind == 2 && r.obj == va.toNat && r.prod != g) with
    | some (ix, _) => .error { code := 0x04, acc := 1, addr := va, info := BitVec.ofNat 64 ix }
    | none => .ok (pa, .of s g recFlag 1 va v (wordKey pa))

/-- Whether ST.REL may run (R307). -/
def stRelReady (d a : SReg) (off : BitVec 15) (s : State) : Ready := planReady s (stRelPlan s (s.adr a off) (s.rS d))

/-- ST.REL (R307): the release, then the word. -/
def execStRel (_sc : Scope) (d a : SReg) (off : BitVec 15) (s : State) : Out :=
  let va := s.adr a off
  let v := s.rS d
  s.when (stRelReady d a off s) fun s => s.try (releaseOn s s.cur.ctx 2 va.toNat) fun s => s.logged (stRelPlan s va v) fun pa s =>
    .next (publishFlag (s.pokeNum pa 8 v.toNat) s.me.cr.job.toNat s.cur.ctx va.toNat v.toNat)

end Sys2Proof.Machine
end

