-- ==== Sys2Proof/Machine/Atomic.lean ====
section
/-! DEFINITION. Atomics, reductions and the ordered reduction (R311 to R316, R254). -/

namespace Sys2Proof.Machine

/-- The new value of an AMO on operands of w bits (R311). -/
def amoNew {w : Nat} (op : AmoOp) (old y : BitVec w) : BitVec w :=
  match op with
  | .add => old + y
  | .smin => minOf false old y
  | .smax => maxOf false old y
  | .umin => minOf true old y
  | .umax => maxOf true old y
  | .and => old &&& y
  | .or => old ||| y
  | .xor => old ^^^ y
  | .swap => y

/-- An operation on words narrowed to an operand size (R311). -/
def atSize (dbl : Bool) (f : {w : Nat} → BitVec w → BitVec w → BitVec w) (old y : Word) : Word :=
  if dbl then f old y else (f (old.setWidth 32) (y.setWidth 32)).setWidth 64

/-- The word of an atomic of context g: aligned, translated as kind atomic, its poison consumed (R311): physical address and old value. -/
def atomicWord (s : State) (g : Nat) (va : Word) (n : Nat) : Except Bad (Nat × Word) :=
  if va.toNat % n ≠ 0 then .error { code := 0x10, acc := 2, addr := va }
  else match translate s (asidOf s g) va .atomic with
    | .error b => .error b
    | .ok (pa, _) =>
      match wordAt s va pa n 2 with
      | .error b => .error b
      | .ok v => .ok (pa, v)

/-- The AMO record (R177). -/
def amoRecord (s : State) (g : Nat) (dbl : Bool) (code : Nat) (va val : Word) (pa : Nat) : Logged :=
  .of s g recAmo ((if dbl then 16 else 0) + code) va val (wordKey pa)

/-- The plan of an atomic that returns the old value (R311, R312). -/
def atomicPlan (s : State) (va : Word) (dbl : Bool) (opcode code : Nat) : Except Bad ((Nat × Word) × Logged) :=
  if modeOf s s.cur.ctx = 1 then .error (strictFault opcode)
  else match atomicWord s s.cur.ctx va (atomicWidth dbl) with
    | .error b => .error b
    | .ok (pa, v) => .ok ((pa, v), amoRecord s s.cur.ctx dbl code va v pa)

/-- Whether AMO may run (R311). -/
def amoReady (op : AmoOp) (dbl : Bool) (a : SReg) (s : State) : Ready := planReady s (atomicPlan s (s.rS a) dbl 0x48 op.code.toNat)

/-- The old value put on its way to dq (R254). -/
def State.toDq (s : State) (v : Word) : State :=
  (s.coming (.dq v)).mapMe fun c => { c with dqComing := c.dqComing + 1 }

/-- AMO (R311). -/
def execAmo (op : AmoOp) (dbl : Bool) (a b : SReg) (s : State) : Out :=
  let y := s.rS b
  s.logged (atomicPlan s (s.rS a) dbl 0x48 op.code.toNat) fun (pa, old) s =>
    .next ((s.pokeNum pa (atomicWidth dbl) (atSize dbl (amoNew op) old y).toNat).toDq old)

/-- The new value of a compare and swap (R312). -/
def casNew {w : Nat} (new : BitVec w) (old expected : BitVec w) : BitVec w := if old = expected then new else old

/-- Whether ACAS may run (R312). -/
def acasReady (dbl : Bool) (a : SReg) (s : State) : Ready := planReady s (atomicPlan s (s.rS a) dbl 0x49 9)

/-- ACAS (R312). -/
def execAcas (dbl : Bool) (d a b : SReg) (s : State) : Out :=
  let y := s.rS b
  let x := s.rS d
  s.logged (atomicPlan s (s.rS a) dbl 0x49 9) fun (pa, old) s =>
    let z := if dbl then casNew x old y else (casNew (x.setWidth 32) (old.setWidth 32) (y.setWidth 32)).setWidth 64
    .next ((s.pokeNum pa (atomicWidth dbl) z.toNat).toDq old)

/-- The contexts waiting on a counter word, in arrival order (R313). -/
def State.apopQueue (s : State) (pa : Nat) : List Nat := Tab.get [] s.chip.apops pa
/-- The waiters of a counter word set; an empty list is not kept. -/
def State.setApops (s : State) (pa : Nat) (l : List Nat) : State :=
  s.onChip fun c => { c with apops := if l.isEmpty then Tab.del c.apops pa else Tab.set c.apops pa l }

/-- Whether APOP may run: a nonzero word, and its turn among the waiters outside REPLAY (R313). -/
def apopReady (dbl : Bool) (a : SReg) (s : State) : Ready :=
  let va := s.rS a
  match atomicPlan s va dbl 0x4A 10 with
  | .error b => .bad b
  | .ok ((pa, old), o) =>
    let mine := modeOf s s.cur.ctx == 3 || (match s.apopQueue pa with | [] => true | g :: _ => g == s.cur.ctx)
    if old = 0 || !mine then awaitObject s s.cur.ctx o (.apop va) else (logReady s s.cur.ctx o).ready

/-- APOP (R313). -/
def execApop (dbl : Bool) (d a : SReg) (s : State) : Out :=
  let va := s.rS a
  s.when (apopReady dbl a s) fun s => s.logged (atomicPlan s va dbl 0x4A 10) fun (pa, old) s =>
    let s := s.setApops pa ((s.apopQueue pa).filter (· != s.cur.ctx))
    .next ((s.pokeNum pa (atomicWidth dbl) (old - 1).toNat).coming (.regs (s.wS d old)))

/-- The new value of a RED and its flags, computed under a pipeline mode (R314, R108). -/
def redNew (op : RedOp) (exposed dbl : Bool) (old y : Word) : Word × BitVec 8 :=
  let int := fun (o : AmoOp) => (atSize dbl (amoNew o) old y, (0 : BitVec 8))
  let flt := fun (f : Val → Val → Val × BitVec 8) =>
    let (r, fl) := fp32Op2 exposed f (old.setWidth 32) (y.setWidth 32)
    (r.setWidth 64, fl)
  match op with
  | .add => int .add
  | .smin => int .smin
  | .smax => int .smax
  | .umin => int .umin
  | .umax => int .umax
  | .and => int .and
  | .or => int .or
  | .xor => int .xor
  | .fadd => flt Val.add
  | .fmin => flt (Val.pick false)
  | .fmax => flt (Val.pick true)

/-- The plan of a RED (R314). -/
def redPlan (op : RedOp) (dbl : Bool) (va : Word) (s : State) : Except Bad ((Nat × Word) × Logged) :=
  if modeOf s s.cur.ctx = 1 ∧ op.isFloat then .error (strictFault 0x4B)
  else match atomicWord s s.cur.ctx va (atomicWidth dbl) with
    | .error b => .error b
    | .ok (pa, v) => .ok ((pa, v), amoRecord s s.cur.ctx dbl 11 va 0 pa)

/-- Whether RED may run (R314). -/
def redReady (op : RedOp) (dbl : Bool) (a : SReg) (s : State) : Ready := planReady s (redPlan op dbl (s.rS a) s)

/-- The next program-order number of the context of the bundle being issued. -/
def State.nextSerial (s : State) : State := s.mapMe fun c => { c with serial := c.serial + 1 }

/-- RED (R314): queued at its MSU; in RECORD and REPLAY performed with its record, so that the word's order is the log's. -/
def execRed (op : RedOp) (dbl : Bool) (a b : SReg) (s : State) : Out :=
  let y := s.rS b
  let va := s.rS a
  s.logged (redPlan op dbl va s) fun (pa, old) s =>
    let g := s.cur.ctx
    if 2 ≤ modeOf s g then
      let (z, f) := redNew op s.cur.exposed dbl old y
      .next ((s.pokeNum pa (atomicWidth dbl) z.toNat).mapCtx g (·.orFlags f))
    else
      let r : Reduction := { instr := .red op dbl a b, job := s.me.cr.job.toNat, mode := modeOf s g, exposed := s.cur.exposed
                             serial := s.me.serial, va, pa, val := y }
      .next (s.nextSerial.mapCtx g fun c => { c with reds := c.reds ++ [r] })

/-! ## The ordered reduction (R315, R316) -/

/-- Physical pieces of n bytes at va, each translated as kind atomic; a failed translation names the block (R124, R316). -/
def atomicPieces (s : State) (asid : Nat) (va : Word) (n : Nat) (block : Word) : Except Bad (List (Nat × Nat)) :=
  match translateAll s asid .atomic (pieces va.toNat n) with
  | .error b => .error (if b.code = 0x10 then { b with addr := block } else b)
  | .ok l => .ok (l.map fun (pa, m, _) => (pa, m))

/-- Physical pieces of every source (R316). -/
def sourcePieces (s : State) (asid : Nat) (n : Nat) (block : Word) : List Nat → Except Bad (List (List (Nat × Nat)))
  | [] => .ok []
  | va :: r =>
    match atomicPieces s asid (BitVec.ofNat 64 va) n block with
    | .error b => .error b
    | .ok l =>
      match sourcePieces s asid n block r with
      | .error b => .error b
      | .ok ls => .ok (l :: ls)

/-- Numbers of n bytes each, from a byte list. -/
def numbers (n : Nat) : Nat → List Byte → List Nat
  | 0, _ => []
  | k + 1, bs => leNat (bs.take n) :: numbers n k (bs.drop n)

/-- The parameter block and source table of an ORED read and checked, every page translated (R315, R316). -/
def oredPlan (s : State) (block : Word) : Except Bad Reduction :=
  let g := s.cur.ctx
  let asid := asidOf s g
  let bad : Bad := { code := 0x10, acc := 2, addr := block }
  if block.toNat % 64 ≠ 0 then .error bad
  else match readVa s asid block 64 with
    | .error b => .error { b with addr := block }
    | .ok bs =>
      let f := fun (o n : Nat) => leNat ((bs.drop o).take n)
      let nsrc := f 0x20 2
      let op := f 0x22 1
      let count := f 0x24 4
      let esz := if op = 4 then 8 else 4
      let span := count * esz
      if op > 4 ∨ nsrc < 1 ∨ 64 < nsrc ∨ count < 1 ∨ 1048576 < count ∨ f 0x23 1 ≠ 0 ∨ f 0x28 24 ≠ 0 ∨ f 0x18 8 % 8 ≠ 0 then .error bad
      else match readVa s asid (BitVec.ofNat 64 (f 0x18 8)) (8 * nsrc) with
        | .error b => .error { b with addr := block }
        | .ok tb =>
          let srcs := numbers 8 nsrc tb
          let dst := f 0 8
          let flag := f 8 8
          if flag % 8 ≠ 0 ∨ dst % esz ≠ 0 ∨ srcs.any (· % esz != 0) ∨
              srcs.any (fun x => decide (dst < x + span) && decide (x < dst + span)) then .error bad
          else
            match sourcePieces s asid span block srcs with
            | .error b => .error b
            | .ok sp =>
              match atomicPieces s asid (BitVec.ofNat 64 dst) span block, atomicPieces s asid (BitVec.ofNat 64 flag) 8 block with
              | .error b, _ => .error b
              | _, .error b => .error b
              | .ok dp, .ok fp =>
                let fpa := (fp.headD (0, 0)).1
                let o := Logged.of s g recFlag 2 0 0 0
                let r : Reduction := { instr := .ored 0, job := s.me.cr.job.toNat, mode := modeOf s g, exposed := s.cur.exposed
                                       serial := s.me.serial, va := BitVec.ofNat 64 flag, dst := dp, srcs := sp, op, count, flag := fpa
                                       pv := BitVec.ofNat 64 (f 0x10 8), lid := o.lid, ord := o.ord }
                if modeOf s g = 0 then .ok r
                else
                  let hit := (s.job r.job).regions.find? fun (_, x) =>
                    decide (x.base ≤ dst) && decide (dst + span ≤ x.base + x.len)
                  match hit with
                  | none => .error { code := 0x04, acc := 1, addr := BitVec.ofNat 64 dst, info := 0xFFFF }
                  | some (ix, x) =>
                    if x.kind = 2 ∧ x.obj = flag ∧ x.prod = 0xFFFF ∧ s.peek fpa 8 < x.pv.toNat then .ok r
                    else .error { code := 0x04, acc := 1, addr := BitVec.ofNat 64 dst, info := BitVec.ofNat 64 ix }

/-- ORED: the hold's reads and checks, then the reduction is the MSUs' (R316). -/
def execOred (a : SReg) (s : State) : Out :=
  s.try (oredPlan s (s.rS a)) fun r =>
    .next (s.nextSerial.mapMe fun c => { c with oreds := c.oreds ++ [{ r with instr := .ored a }] })

/-- Two elements combined, with the flags (R316). -/
def oredOp (op : Nat) (exposed : Bool) (x y : Nat) : Nat × BitVec 8 :=
  let flt := fun (f : Val → Val → Val × BitVec 8) =>
    let (r, fl) := fp32Op2 exposed f (BitVec.ofNat 32 x) (BitVec.ofNat 32 y)
    (r.toNat, fl)
  match op with
  | 0 => flt Val.add
  | 1 => flt (Val.pick true)
  | 2 => flt (Val.pick false)
  | 3 => ((x + y) % 2 ^ 32, 0)
  | _ => ((x + y) % 2 ^ 64, 0)

/-- One level of the tree: (0,1), (2,3) … combined, an odd last value passing up unchanged (R316). -/
def treeLevel (f : Nat → Nat → Nat × BitVec 8) : List (Nat × BitVec 8) → List (Nat × BitVec 8)
  | x :: y :: r => let (z, g) := f x.1 y.1; (z, x.2 ||| y.2 ||| g) :: treeLevel f r
  | l => l

/-- The tree over at most 2^n values (R316). -/
def tree (f : Nat → Nat → Nat × BitVec 8) : Nat → List (Nat × BitVec 8) → Nat × BitVec 8
  | 0, l => l.headD (0, 0)
  | n + 1, l => tree f n (treeLevel f l)

/-- Address and room of the byte at place o of a buffer in pieces. -/
def pieceAt : List (Nat × Nat) → Nat → Nat
  | [], _ => 0
  | (pa, n) :: r, o => if o < n then pa + o else pieceAt r (o - n)

/-- One element of the reduction: the combined value stored, its flags gathered, a poisoned source sector poisoning the destination sector
(R216, R316). -/
def oredElement (r : Reduction) (esz : Nat) (x : State × BitVec 8 × List Nat) (j : Nat) : State × BitVec 8 × List Nat :=
  let (s, fl, bad) := x
  let at_ := fun (b : List (Nat × Nat)) => pieceAt b (j * esz)
  let vals := r.srcs.map fun b => (s.peek (at_ b) esz, (0 : BitVec 8))
  let (v, f) := tree (oredOp r.op r.exposed) 6 vals
  let p := r.srcs.any fun b => (firstPoison s (at_ b) esz).isSome
  (s.pokeNum (at_ r.dst) esz v, fl ||| f, if p then insertNat (sectorOf (at_ r.dst)) bad else bad)

/-- Sectors that a buffer covers whole lose their poison (R216). -/
def clearWhole (s : State) (l : List (Nat × Nat)) : State :=
  s.onChip fun c => { c with poison := c.poison.filter fun k =>
    !(l.any fun (pa, n) => decide (pa ≤ sectorBase k) && decide (sectorBase k + sectorLen k ≤ pa + n)) }

/-- The issuer of an ORED still runs what it ran when it issued it. -/
def issuerStands (s : State) (g : Nat) (r : Reduction) : Bool :=
  let c := s.ctx g
  (c.status == .running || c.status == .stopped || c.status == .saved) && !c.killed && c.cr.job.toNat == r.job &&
  (isForeman g || c.cr.launch == r.lid)

/-- The whole reduction: every element, then the flag word; its flags go to its issuer where that still stands (R316). -/
def performOred (s : State) (g : Nat) (r : Reduction) : State :=
  let esz := if r.op = 4 then 8 else 4
  let (s, fl, bad) := (List.range r.count).foldl (oredElement r esz) (s, 0, [])
  let s := clearWhole s r.dst
  let s := s.onChip fun c => { c with poison := bad.foldl (fun l k => insertNat k l) c.poison }
  let s := s.pokeNum r.flag 8 r.pv.toNat
  let s := publishFlag s r.job 0xFFFF r.va.toNat r.pv.toNat
  let s' := s.mapCtx g fun c => { c with oreds := c.oreds.drop 1 }
  if issuerStands s g r then s'.mapCtx g (·.orFlags fl) else s'

/-- No access of context g that was issued before program-order number n is outstanding. -/
def Ctx.settledBefore (c : Ctx) (n : Nat) : Bool := c.reds.all fun r => decide (n ≤ r.serial)

end Sys2Proof.Machine
end

