-- ==== Sys2Proof/Machine/Sync.lean ====
section
/-! DEFINITION. Phasers, tokens, barriers, fences, regions and flag waits (R150, R153 to R157, R162, R167, R171, R200, R317 to R323). -/

namespace Sys2Proof.Machine

/-- A phaser changed. -/
def State.mapPhaser (s : State) (n : Nat) (f : Phaser → Phaser) : State :=
  s.onChip fun c => { c with phasers := Tab.set c.phasers n (f (s.phaser n)) }
/-- A token changed. -/
def State.mapToken (s : State) (n : Nat) (f : Token → Token) : State :=
  s.onChip fun c => { c with tokens := Tab.set c.tokens n (f (s.token n)) }

/-- The precise fault of a sync object (R308). -/
def syncFault (x : Word) : Bad := { code := 0x04, addr := x, info := 0xFFFF }

/-! ## Phasers -/

/-- The current phase completes where a signal-capable member exists and every one has signalled it (R150, R318). -/
def Phaser.settle (p : Phaser) : Phaser :=
  let sigs := p.members.filter Member.sig
  if !sigs.isEmpty && sigs.all (fun m => m.sp != p.k) then { p with k := p.k + 1 } else p

/-- A member changed. -/
def Phaser.mapMember (p : Phaser) (g : Nat) (f : Member → Member) : Phaser :=
  { p with members := p.members.map fun m => if m.ctx == g then f m else m }

/-- The membership of a context removed; the phase it held up may complete (R150, R317). -/
def dropMember (s : State) (g n : Nat) : State :=
  s.mapPhaser n fun p => Phaser.settle { p with members := p.members.filter fun m => m.ctx != g }

/-- Every membership of a context dropped (R166). -/
def dropMembers (s : State) (g : Nat) : State := (memberships s g).foldl (fun s (n, _) => dropMember s g n) s

/-- The lowest free member index, none of 1,024 being free answers none (R157). -/
def Phaser.freeIndex (p : Phaser) : Option Nat := (List.range 1024).find? fun i => !p.members.any fun m => m.ix == i

/-- The index a PHREG takes: the operand's under .IX, else the lowest free (R317). -/
def Phaser.pick (p : Phaser) (ix : Option Nat) : Option Nat :=
  match ix with
  | some i => if i < 1024 ∧ !p.members.any (fun m => m.ix == i) then some i else none
  | none => p.freeIndex

/-- What a PHREG does: an index without registration, a registration with its member, or in REPLAY a wait for what the log says of it (R317,
R171, R180, R181). -/
inductive RegPlan
  | known (v : Word)
  | join (n : Nat) (m : Member)
  | await

/-- The plan of a PHREG and its record (R317, R171, R181). Where the log names an index that is held, the record is the one it would write
without the log, which diverges once its place is due (R180). -/
def phregPlan (s : State) (sig ix : Bool) (x y : Word) : Except Bad (RegPlan × Option Logged) :=
  let g := s.cur.ctx
  match syncNumber s g x false with
  | .error b => .error b
  | .ok n =>
    if modeOf s g = 1 ∧ !ix then .error (strictFault 0x50)
    else
      let p := s.phaser n
      match p.member g with
      | some m => .ok (.known (BitVec.ofNat 64 m.ix), none)
      | none =>
        let logged := loggedVal s g recPhase 0 (BitVec.ofNat 64 n)
        let want := match logged with
          | some v => some (bits v 15 0)
          | none => if ix then some (bits y 15 0) else none
        match p.pick want with
        | none =>
          if modeOf s g = 1 then .error (strictFault 0x50)
          else match logged with
            | some _ =>
              let m : Member := { ctx := g, ix := p.freeIndex.getD 0xFFFF, sig, sp := p.k, wp := p.k }
              .ok (.join n m, some (phaseRecord s g n 0 m))
            | none =>
              let mine := fun (r : BitVec 256) => recMatches r { type := recPhase, obj := BitVec.ofNat 64 n, ctx := g, key := 0 }
              .ok (if logAwaited s g mine then .await else .known (BitVec.allOnes 64), none)
        | some i =>
          let m : Member := { ctx := g, ix := i, sig, sp := p.k, wp := p.k }
          .ok (.join n m, some (phaseRecord s g n 0 m))

/-- Whether PHREG may run (R317, R175, R180). -/
def phregReady (sig ix : Bool) (a b : SReg) (s : State) : Ready :=
  match phregPlan s sig ix (s.rS a) (s.rS b) with
  | .error b => .bad b
  | .ok (_, some o) => (logReady s s.cur.ctx o).ready
  | .ok (.await, none) => .wait .replay
  | .ok (_, none) => .go

/-- PHREG (R317). -/
def execPhreg (sig ix : Bool) (d a b : SReg) (s : State) : Out :=
  let x := s.rS a
  let y := s.rS b
  s.when (phregReady sig ix a b s) fun s => s.try (phregPlan s sig ix x y) fun (p, o) =>
    match p, o with
    | .join n m, some o => s.try (logDone s s.cur.ctx o) fun s =>
        (s.mapPhaser n fun p => { p with members := p.members ++ [m] }).resS 1 d (BitVec.ofNat 64 m.ix)
    | .known v, _ => s.resS 1 d v
    | .join _ _, none | .await, _ => .next s

/-- The membership PHDROP removes and its record; none for a non-member (R317, R413). -/
def phdropPlan (s : State) (x : Word) : Except Bad (Option (Nat × Logged)) :=
  match syncNumber s s.cur.ctx x false with
  | .error b => .error b
  | .ok n => .ok (((s.phaser n).member s.cur.ctx).map fun m => (n, phaseRecord s s.cur.ctx n 1 m))

/-- Whether PHDROP may run. -/
def phdropReady (a : SReg) (s : State) : Ready :=
  match phdropPlan s (s.rS a) with
  | .error b => .bad b
  | .ok none => .go
  | .ok (some (_, o)) => (logReady s s.cur.ctx o).ready

/-- PHDROP (R317). -/
def execPhdrop (a : SReg) (s : State) : Out :=
  let x := s.rS a
  s.when (phdropReady a s) fun s => s.try (phdropPlan s x) fun p =>
    match p with
    | none => .next s
    | some (n, o) => s.try (logDone s s.cur.ctx o) fun s => .next (dropMember s s.cur.ctx n)

/-- The member that a phaser instruction acts on (R308, R318). -/
def memberOf (s : State) (x : Word) : Except Bad (Nat × Member) :=
  match syncNumber s s.cur.ctx x false with
  | .error b => .error b
  | .ok n =>
    match (s.phaser n).member s.cur.ctx with
    | none => .error (syncFault x)
    | some m => .ok (n, m)

/-- The phaser as a block's cause (R210). -/
def phaserCause (n : Nat) : Cause := .phaser (BitVec.ofNat 32 n)

/-- Whether the signal half may act: a signal-capable member, at most one phase ahead (R318). -/
def signalReady (s : State) (x : Word) : Ready :=
  match memberOf s x with
  | .error b => .bad b
  | .ok (n, m) =>
    if !m.sig then .bad (syncFault x)
    else if m.sp = (s.phaser n).k + 1 then .wait (phaserCause n) else .go

/-- The signal: a release, then the member's next phase to signal, and the phase may complete (R151, R318). -/
def signal (s : State) (x : Word) : Except Bad State :=
  match memberOf s x with
  | .error b => .error b
  | .ok (n, _) =>
    match releaseOn s s.cur.ctx 0 n with
    | .error b => .error b
    | .ok s => .ok (s.mapPhaser n fun p => (p.mapMember s.cur.ctx fun m => { m with sp := m.sp + 1 }).settle)

/-- Whether the wait half may complete (R318). -/
def waitReady (s : State) (x : Word) : Ready :=
  match memberOf s x with
  | .error b => .bad b
  | .ok (n, m) => if (s.phaser n).k = m.wp then .wait (phaserCause n) else .go

/-- The wait completed: an acquire (R151, R318). -/
def waitDone (s : State) (x : Word) : Except Bad State :=
  match memberOf s x with
  | .error b => .error b
  | .ok (n, _) =>
    .ok (acquireOn (s.mapPhaser n fun p => p.mapMember s.cur.ctx fun m => { m with wp := m.wp + 1, waited := true }) s.cur.ctx 0 n)

/-- PHSIG (R318). -/
def execPhsig (_sc : Scope) (a : SReg) (s : State) : Out :=
  s.when (signalReady s (s.rS a)) fun s => s.try (signal s (s.rS a)) fun s => .next s

/-- PHWAIT (R318). -/
def execPhwait (_sc : Scope) (a : SReg) (s : State) : Out :=
  s.when (waitReady s (s.rS a)) fun s => s.try (waitDone s (s.rS a)) fun s => .next s

/-- The signal half of PHSW, taken when its bundle first reaches issue (R318). -/
def phswArrive (a : SReg) (s : State) : State :=
  if s.me.signalled then s
  else match signalReady s (s.rS a) with
    | .go =>
      match signal s (s.rS a) with
      | .ok s => s.mapMe fun c => { c with signalled := true }
      | .error _ => s
    | _ => s

/-- Whether PHSW may run: its signal, unless it is done, then its wait (R318). -/
def phswReady (a : SReg) (s : State) : Ready := if s.me.signalled then waitReady s (s.rS a) else signalReady s (s.rS a)

/-- PHSW: the signal half, unless done when the bundle reached issue, then the wait half (R318). -/
def execPhsw (_sc : Scope) (a : SReg) (s : State) : Out :=
  s.when (phswReady a s) fun s =>
    s.try (if s.me.signalled then .ok s else signal s (s.rS a)) fun s =>
      let s := s.mapMe fun c => { c with signalled := true }
      s.when (waitReady s (s.rS a)) fun s => s.try (waitDone s (s.rS a)) fun s => .next (s.mapMe fun c => { c with signalled := false })

/-! ## Tokens -/

/-- The grant a TKACQ would take: token and whether it is ABANDONED, with its record (R319, R171, R167). -/
inductive Grant
  | bad (b : Bad)
  | wait (n : Nat) (o : Logged)
  | take (n : Nat) (abandoned : Bool) (o : Logged)

/-- What a TKACQ finds (R319). -/
def tkacqPlan (tk : Bool) (a b : SReg) (s : State) : Grant :=
  let g := s.cur.ctx
  let x := s.rS a
  match syncNumber s g x true with
  | .error e => .bad e
  | .ok n =>
    let t := s.token n
    let ticket : Lane := (s.rS b).setWidth 32
    let mode := modeOf s g
    if t.state = .held g then .bad (syncFault x)
    else if mode = 1 ∧ !tk then .bad (strictFault 0x55)
    else if mode = 1 ∧ ticket.toNat < t.turn.toNat then .bad (strictFault 0x55)
    else
      let free := match t.state with | .held _ => false | _ => true
      let turn := if mode = 1 then ticket == t.turn
        else if mode = 3 then true
        else match t.waiters with | [] => true | w :: _ => w == g
      let ab := t.state == .abandoned
      let o := Logged.of s g recToken 0 (BitVec.ofNat 64 n) (if ab then 1 else 0) (countKey 2 n)
      if free && turn then .take n ab o else .wait n o

/-- Whether TKACQ may run (R319). -/
def tkacqReady (tk : Bool) (a b : SReg) (s : State) : Ready :=
  match tkacqPlan tk a b s with
  | .bad e => .bad e
  | .wait n o => awaitObject s s.cur.ctx o (.token (BitVec.ofNat 32 n))
  | .take _ _ o => (logReady s s.cur.ctx o).ready

/-- TKACQ (R319). -/
def execTkacq (_sc : Scope) (tk : Bool) (d : PReg) (a b : SReg) (s : State) : Out :=
  s.when (tkacqReady tk a b s) fun s =>
    match tkacqPlan tk a b s with
    | .take n ab o => s.try (logDone s s.cur.ctx o) fun s =>
      let g := s.cur.ctx
      let strict := modeOf s g == 1
      let s := s.mapToken n fun t => { t with state := .held g, strict, waiters := t.waiters.filter (· != g) }
      .next ((acquireOn s g 1 n).result 1 (wP (pBit d true) (pBit d ab)))
    | _ => .next s

/-- A token released or abandoned; a STRICT grant's release advances the ticket turn (R166, R319). -/
def giveToken (s : State) (n : Nat) (st : TokenState) : State :=
  s.mapToken n fun t => { t with state := st, strict := false, turn := if t.strict then t.turn + 1 else t.turn }

/-- Tokens a context holds. -/
def heldTokens (s : State) (g : Nat) : List Nat := s.chip.tokens.filterMap fun (n, t) => if t.state = .held g then some n else none

/-- TKREL (R319). -/
def execTkrel (_sc : Scope) (a : SReg) (s : State) : Out :=
  let x := s.rS a
  s.try (syncNumber s s.cur.ctx x true) fun n =>
    if (s.token n).state = .held s.cur.ctx then s.try (releaseOn s s.cur.ctx 1 n) fun s => .next (giveToken s n .free)
    else s.raise (syncFault x)

/-- The context leaves every queue of waiters for tokens and counter words (R313, R319). -/
def leaveQueues (s : State) (g : Nat) : State :=
  s.onChip fun c => { c with
    tokens := c.tokens.map fun (n, t) => (n, { t with waiters := t.waiters.filter (· != g) })
    apops := c.apops.filterMap fun (n, l) => let l := l.filter (· != g); if l.isEmpty then none else some (n, l) }

/-- A context that waits for a token or a counter word joins its queue when its bundle first reaches issue (R313, R319). -/
def joinToken (tk : Bool) (a b : SReg) (s : State) : State :=
  match tkacqPlan tk a b s with
  | .wait n _ =>
    if modeOf s s.cur.ctx = 1 then s
    else s.mapToken n fun t => if t.waiters.contains s.cur.ctx then t else { t with waiters := t.waiters ++ [s.cur.ctx] }
  | _ => s

/-- The queue of a counter word (R313). -/
def joinApop (dbl : Bool) (a : SReg) (s : State) : State :=
  match atomicPlan s (s.rS a) dbl 0x4A 10 with
  | .ok ((pa, old), _) =>
    let q := s.apopQueue pa
    if (old = 0 ∨ !q.isEmpty) ∧ !q.contains s.cur.ctx then s.setApops pa (q ++ [s.cur.ctx]) else s
  | .error _ => s

/-! ## Barriers (R200, R320) -/

/-- Barrier tag n. -/
def State.barrier (s : State) (n : Nat) : Barrier := Tab.get {} s.chip.barriers n
/-- A barrier tag changed. -/
def State.mapBarrier (s : State) (n : Nat) (f : Barrier → Barrier) : State :=
  s.onChip fun c => { c with barriers := Tab.set c.barriers n (f (s.barrier n)) }

/-- The cores a tag names. -/
def Barrier.cores (b : Barrier) : List Nat := (List.range 256).filter fun c => b.mask.getLsbD c

/-- A core read as arrived without an arrival: mapped out, on a level asleep, or still stuck after a wake (R200, R201, R202). -/
def readsArrived (s : State) (tag core : Nat) : Bool :=
  (s.core core).mappedOut ||
  (let l := s.level (coreLevel core)
   l.mappedOut || l.power == .asleep || l.stuck.contains tag)

/-- The cycle of a generation's last arrival, none while it is incomplete or no arrival of it is real (R200). -/
def Barrier.lastArrival (s : State) (tag : Nat) (b : Barrier) : Option Nat :=
  let real := b.cores.filterMap fun c => (Tab.get [] b.arrivals c)[b.cnt - 1]?
  if b.set && !real.isEmpty &&
      b.cores.all (fun c => readsArrived s tag c || decide (b.cnt ≤ (Tab.get [] b.arrivals c).length)) then
    some (real.foldl max 0)
  else none

/-- The release set 40 cycles after a generation completes, no earlier than 40 cycles after cycle lo (R200, R201). -/
def armBarrier (s : State) (tag lo : Nat) : State :=
  let b := s.barrier tag
  if b.releaseAt.isSome then s
  else match b.lastArrival s tag with
    | some c => s.mapBarrier tag fun b => { b with releaseAt := some (max c lo + 40) }
    | none => s

/-- The arrival of a context of core c: it joins the current generation, or a later one where its core has arrived or the generation is
complete; the generation it joins is answered (R200, R320). -/
def arrive (s : State) (tag core : Nat) : State × Nat :=
  let b := s.barrier tag
  let l := Tab.get [] b.arrivals core
  let l := if b.releaseAt.isSome ∧ l.length < b.cnt then l ++ List.replicate (b.cnt - l.length) 0 else l
  let s' := s.mapBarrier tag fun b => { b with arrivals := Tab.set b.arrivals core (l ++ [s.cyc]) }
  (armBarrier s' tag 0, b.gen + l.length / b.cnt)

/-- A tag configured for the context's job with its core in the mask (R320). -/
def barConfigured (s : State) (tag : Nat) : Bool :=
  let b := s.barrier tag
  b.set && b.job == s.me.cr.job.toNat && b.mask.getLsbD s.cur.core && decide (s.cur.core < 256)

/-- BAR's arrival, when its bundle first reaches issue (R320). -/
def barArrive (tag : BitVec 3) (s : State) : State :=
  if s.me.arrived.isSome ∨ !barConfigured s tag.toNat then s
  else
    let (s, n) := arrive s tag.toNat s.cur.core
    s.mapMe fun c => { c with arrived := some n }

/-- Whether BAR may run: its generation has released (R320). -/
def barReady (tag : BitVec 3) (s : State) : Ready :=
  if !barConfigured s tag.toNat then .bad { code := 0x04, addr := tag.setWidth 64, info := 0xFFFF }
  else match s.me.arrived with
    | some n => if n < (s.barrier tag.toNat).gen then .go else .wait (.phaser (0x80000000 + tag.setWidth 32))
    | none => .wait (.phaser (0x80000000 + tag.setWidth 32))

/-- BAR (R320). -/
def execBar (tag : BitVec 3) (s : State) : Out :=
  let s := barArrive tag s
  s.when (barReady tag s) fun s => .next (s.mapMe fun c => { c with arrived := none })

/-- BARRIER_RELEASE: in the cycle a complete generation is due, it releases; the next one is armed where it is complete (R200, R201). -/
def execBarrierRelease (tag : BitVec 3) (s : State) : Out :=
  let n := tag.toNat
  match (s.barrier n).releaseAt with
  | none => .next s
  | some c =>
    if s.cyc < c then .next s
    else
      let s := s.mapBarrier n fun b => { b with
        gen := b.gen + 1, releaseAt := none
        arrivals := b.arrivals.filterMap fun (k, l) => let l := l.drop b.cnt; if l.isEmpty then none else some (k, l) }
      let s := (List.range 8).foldl (fun s l => s.mapLevel l fun x => { x with stuck := x.stuck.filter (· != n) }) s
      .next (armBarrier s n 0)

/-! ## Fences, regions, flag waits (R162, R321 to R323) -/

/-- FENCE: it issues at once; later memory accesses are held until it completes (R162, R321). -/
def execFence (sc : Scope) (s : State) : Out :=
  .next (s.mapMe fun c => { c with fencing := max c.fencing (if sc = .sys then 2 else 1) })

/-- Address of region entry i of a job (R153). -/
def regionAt (j : Job) (i : Nat) : Word := BitVec.ofNat 64 (bits (j.reg 0x10A) 55 16 * 0x10000 + 64 * i)

/-- A descriptor's region (R153, R322). -/
def regionOf (bs : List Byte) : Region :=
  let f := fun (o n : Nat) => leNat ((bs.drop o).take n)
  let ctl : BitVec 8 := BitVec.ofNat 8 (f 0x11 1)
  let kind := bits ctl 5 4
  { base := f 0 8, len := f 8 8, ctl
    nslice := if kind = 0 then f 0x18 2 else 0
    prod := if kind = 2 then f 0x1A 2 else 0
    slen := if kind = 0 then f 0x1C 4 else 0
    obj := if kind = 0 then f 0x20 8 % 2 ^ 12 else if kind = 1 then f 0x20 8 % 2 ^ 14 else f 0x20 8 % 2 ^ 56
    pv := if kind = 2 then BitVec.ofNat 64 (f 0x28 8) else 0
    published := false, seen := [] }

/-- The 64 bytes of a bound entry (R153). -/
def Region.image (r : Region) : List Byte :=
  leBytes 8 r.base ++ leBytes 8 r.len ++ [1, r.ctl &&& 0x3F] ++ leBytes 6 0 ++ leBytes 2 r.nslice ++ leBytes 2 r.prod ++ leBytes 4 r.slen ++
  leBytes 8 r.obj ++ leBytes 8 r.pv.toNat ++ leBytes 16 0

/-- Why a binding is refused: S[d] of R322, 0 where it is accepted (R154). -/
def bindStatus (s : State) (j : Job) (ix : Word) (r : Region) : Nat :=
  let sliced := decide (r.kind = 0) && (List.range (r.nslice + 1)).any (fun k => !sectorEdge (r.base + k * r.slen))
  let flagBad := r.kind == 2 && (!(decide (r.prod < 1088) || r.prod == 0xFFFF) ||
    (match flagWord s s.cur.ctx (BitVec.ofNat 64 r.obj) .read with | .ok _ => false | .error _ => true))
  if 4096 ≤ ix.toNat ∨ (Tab.find j.regions ix.toNat).isSome then 1
  else if !sectorEdge r.base || !sectorEdge (r.base + r.len) || sliced then 2
  else if j.regions.any (fun (_, x) => decide (x.base < r.base + r.len) && decide (r.base < x.base + x.len)) then 3
  else if r.kind = 3 ∨ bits r.ctl 2 0 < 1 ∨ 4 < bits r.ctl 2 0 ∨ r.len < 16 ∨ 2 ^ 36 < r.len ∨ 2 ^ 56 ≤ r.base ∨ flagBad ∨
      (r.kind = 0 ∧ (r.nslice < 1 ∨ 1024 < r.nslice ∨ r.slen = 0 ∨ r.len < r.nslice * r.slen)) then 4
  else 0

/-- An access to an entry of the region table: its failure names the entry (R414). -/
def atEntry {α : Type} (entry : Word) (x : Except Bad α) : Except Bad α :=
  match x with
  | .error b => .error { b with addr := entry }
  | .ok y => .ok y

/-- RBIND (R322, R154, R414): the descriptor, the release of the binder's writes to the range, the binding and its table entry. -/
def execRbind (d a b : SReg) (s : State) : Out :=
  let g := s.cur.ctx
  let asid := asidOf s g
  let va := s.rS a
  let ix := s.rS b
  let jn := s.me.cr.job.toNat
  if va.toNat % 64 ≠ 0 then s.raise { code := 0x10, acc := 0, addr := va }
  else s.try (readVa s asid va 64) fun bs =>
    let r := regionOf bs
    let st := bindStatus s (s.job jn) ix r
    if st ≠ 0 then s.resS 1 d (BitVec.ofNat 64 st)
    else
      let entry := regionAt (s.job jn) ix.toNat
      s.try (atEntry entry (readVa s asid entry 64)) fun _ =>
        s.try (writeBackCore asid r.base r.len s s.cur.core) fun s =>
          s.try (atEntry entry (writeVa s asid entry r.image)) fun s =>
            (s.mapJob jn fun j => { j with regions := Tab.set j.regions ix.toNat r }).resS 1 d 0

/-- RUNBIND: every core's scratch sectors that overlap the region are written back, and STATE is cleared (R322, R154, R414). -/
def execRunbind (d b : SReg) (s : State) : Out :=
  let asid := asidOf s s.cur.ctx
  let ix := s.rS b
  let jn := s.me.cr.job.toNat
  match (if ix.toNat < 4096 then Tab.find (s.job jn).regions ix.toNat else none) with
  | none => s.resS 1 d 1
  | some r =>
    let entry := regionAt (s.job jn) ix.toNat
    s.try (atEntry entry (readVa s asid entry 64)) fun _ =>
      s.try (foldE (writeBackCore asid r.base r.len) s (s.chip.cores.map Prod.fst)) fun s =>
        s.try (atEntry entry (writeVa s asid (entry + 16) [0])) fun s =>
          (s.mapJob jn fun j => { j with regions := Tab.del j.regions ix.toNat }).resS 1 d 0

/-- Whether FLWAIT may run: the flag word is at least S[b] (R323). -/
def flwaitReady (a b : SReg) (s : State) : Ready :=
  let va := s.rS a
  match flagWord s s.cur.ctx va .read with
  | .error e => .bad e
  | .ok pa =>
    match wordAt s va pa 8 0 with
    | .error e => .bad e
    | .ok v => if (s.rS b).toNat ≤ v.toNat then .go else .wait (.flag va)

/-- FLWAIT (R323). -/
def execFlwait (_sc : Scope) (a b : SReg) (s : State) : Out :=
  let va := s.rS a
  s.when (flwaitReady a b s) fun s =>
    s.try (flagWord s s.cur.ctx va .read) fun pa =>
      .next (acquireOn (observeFlag s s.cur.ctx va.toNat (s.peek pa 8)) s.cur.ctx 2 va.toNat)

end Sys2Proof.Machine
end

