-- ==== Sys2Proof/Machine/Message.lean ====
section
/-! DEFINITION. Messages between contexts, the undeliverable sink, and the shaft instructions (R179, R189 to R191, R197, R324 to R327). -/

namespace Sys2Proof.Machine

/-- The fabric-free network changed. -/
def State.onNet (s : State) (f : Net → Net) : State := s.onChip fun c => { c with net := f c.net }

/-- Reasons of a sunk flit (R197). -/
inductive SinkReason | noRoute | coreReset | asleep | circuit
  deriving DecidableEq, Repr

/-- REASON (R197). -/
def SinkReason.code : SinkReason → Nat
  | .noRoute => 0 | .coreReset => 1 | .asleep => 2 | .circuit => 3

/-- Target window address or identifier of a flit (R197). -/
def Flit.dest (f : Flit) : Word :=
  match f.cargo with
  | .put _ _ _ (.ring _) _ => BitVec.ofNat 64 f.target
  | .put off _ _ _ _ => BitVec.ofNat 64 (windowOf f.target off.toNat)
  | .getRequest off _ _ _ => BitVec.ofNat 64 (windowOf f.target off.toNat)
  | _ => BitVec.ofNat 64 f.target

/-- The flit's header as the sink records it: its fields packed as the model orders them (log entry 6). -/
def Flit.hdr (f : Flit) : Word :=
  BitVec.ofNat 64 (f.part.toNat + 2 ^ 6 * f.dlvl.toNat + 2 ^ 9 * f.dstop.toNat + 2 ^ 13 * (f.target % 2 ^ 11) + 2 ^ 24 * f.sstop.toNat +
    2 ^ 28 * (f.pseq % 2 ^ 32) + 2 ^ 60 * f.circuit.toNat)

/-- The 32 bytes of a sink record (R197). -/
def sinkRecord (f : Flit) (why : SinkReason) (cyc : Nat) : BitVec 256 :=
  BitVec.ofNat 64 cyc ++ f.hdr ++ (0 : BitVec 32) ++ f.sender.setWidth 16 ++ BitVec.ofNat 8 why.code ++ f.part.setWidth 8 ++ f.dest

/-- A delivery fault to the sender's foreman where the flit asked for delivery status (R197, R210). -/
def deliveryFault (s : State) (g : Nat) (addr : Word) : State := s.post (s.recordOf g 0x0A 2 addr 0)

/-- The GET of context g with a place in its program order is over, its local bytes unchanged (R406). -/
def endGet (s : State) (g serial : Nat) : State :=
  s.mapCore (coreOf g) fun c => { c with fly := c.fly.map fun x =>
    if x.ctx = g ∧ x.serial = serial then { x with cap := { x.cap with base := 3 } } else x }

/-- What the sinking of a flit ends: a GET whose request or reply it was (R406). -/
def sunkGet (s : State) (f : Flit) : State :=
  match f.cargo with
  | .getRequest _ _ _ n => endGet s f.sender.toNat n
  | .getReply _ _ _ n => endGet s f.target n
  | _ => s

/-- Where the next record of a level's sink ring stands: 1,024 records of 32 bytes for each level, one level after the other (R197; log
entry 45). -/
def sinkAt (s : State) (lvl : Nat) : Nat := s.chip.sup.sinkBase + 0x8000 * lvl + 32 * ((s.level lvl).sunk % 1024)

/-- A flit sunk on a level: its record in the level's ring, the telemetry count, and the delivery fault asked for (R197). -/
def sinkFlit (s : State) (lvl : Nat) (f : Flit) (why : SinkReason) : State :=
  let s := (s.pokeNum (sinkAt s lvl) 32 (sinkRecord f why s.cyc).toNat).mapLevel lvl fun l => { l with sunk := l.sunk + 1 }
  let s := sunkGet (s.onNet fun n => { n with sunk := n.sunk + 1 }) f
  if f.ds && f.ix == 0 then deliveryFault s f.sender.toNat f.dest else s

/-- The level's overflow store (R195). -/
def State.overflow (s : State) (lvl : Nat) : List Flit := Tab.get [] s.chip.net.overflow lvl

/-- Flits in a level's overflow store, a packet of a ring arrival counting all of its own (R192, R195). -/
def overflowFlits (s : State) (lvl : Nat) : Nat := ((s.overflow lvl).map Flit.len).sum

/-- The store has room for n flits more (R195). -/
def storeRoom (s : State) (lvl n : Nat) : Bool := decide (overflowFlits s lvl + n ≤ 256)

/-- The flit is a message. -/
def Flit.isMessage (f : Flit) : Bool := match f.cargo with | .message _ => true | _ => false

/-- Two flits for one context that keep their order: both for its receive queue, or both for its rings (R195, R324, R361). -/
def Flit.sameQueue (x y : Flit) : Bool := x.target == y.target && x.isMessage == y.isMessage

/-- The flit would go to the overflow store: its receiver is saved, or has flits of the same queue there before it, or the receive queue of a
message is full (R195, R324, R361, R362). -/
def diverts (s : State) (f : Flit) : Bool :=
  let c := s.ctx f.target
  let behind := c.status != .free && (s.overflow (levelOf f.target)).any f.sameQueue
  match f.cargo with
  | .message _ => c.status == .saved || behind || (c.status != .free && decide (16 ≤ c.recv.length))
  | .credit _ _ | .put _ _ _ (.ring _) _ => c.status == .saved || behind
  | _ => false

/-- A flit whose queue sends it on to a full overflow store is not taken (R195). -/
def queueTakes (s : State) (f : Flit) : Bool := !diverts s f || storeRoom s (levelOf f.target) f.len

/-- A flit put into a level's overflow store. -/
def toOverflow (s : State) (lvl : Nat) (f : Flit) : State :=
  s.onNet fun n => { n with overflow := Tab.set n.overflow lvl (s.overflow lvl ++ [f]) }

/-- A message put into its receiver's queue (R324). -/
def toQueue (s : State) (f : Flit) : State :=
  match f.cargo with
  | .message p => s.mapCtx f.target fun c => { c with recv := c.recv ++ [⟨f.sender, p⟩] }
  | _ => s

/-- Why nothing is delivered to a core now: it is reset or out of service, or its level is asleep (R197, R201, R218). -/
def undeliverable (s : State) (core : Nat) : Option SinkReason :=
  let k := s.core core
  let l := s.level (coreLevel core)
  if k.resetting || k.mappedOut || l.mappedOut then some .coreReset else if l.power = .asleep then some .asleep else none

/-- A message delivered by the state of its receiver: sunk, into its queue, or into the overflow store (R195, R197, R218, R324). -/
def deliverMessage (s : State) (f : Flit) : State :=
  let lvl := levelOf f.target
  match undeliverable s (f.target / 4) with
  | some why => sinkFlit s lvl f why
  | none =>
    if (s.ctx f.target).status = .free then sinkFlit s lvl f .noRoute
    else if diverts s f then toOverflow s lvl f else toQueue s f

/-- A flit of the context of the bundle being issued. -/
def State.flit (s : State) (part : BitVec 6) (target dcore ix len : Nat) (ds : Bool) (cargo : Cargo) : Flit :=
  let core := s.cur.core
  { part, dlvl := BitVec.ofNat 3 (coreLevel dcore), dstop := BitVec.ofNat 4 (coreStop dcore), target
    slvl := BitVec.ofNat 3 (coreLevel core), sstop := BitVec.ofNat 4 (coreStop core), sender := BitVec.ofNat 11 s.cur.ctx
    pseq := s.chip.net.pseq, ix, len, circuit := 0, ds, launch := s.me.cr.launch, cargo }

/-- Key of a stop: level × 12 + stop. -/
def stopKey (lvl stop : Nat) : Nat := lvl * 12 + stop

/-- The flits of one packet buffered at the stop of core c, under the next packet sequence (R193). -/
def inject (s : State) (core : Nat) (fs : List Flit) : State :=
  let k := stopKey (coreLevel core) (coreStop core)
  s.onNet fun n => { n with inject := Tab.set n.inject k ((Tab.get [] n.inject k) ++ fs), pseq := n.pseq + 1 }

/-- A kernel context on a core of a partition (R324, R359). -/
def kernelIn (p : BitVec 256) (x : Nat) : Bool := decide (x < 1024) && p.getLsbD (x / 4)

/-- The flit of an MSEND. -/
def msendFlit (ds : Bool) (d a : SReg) (s : State) : Flit :=
  let x := s.rS a
  s.flit s.me.cr.job x.toNat (x.toNat / 4) 0 1 ds (.message (s.rS4 d))

/-- MSEND holds: its stop cannot buffer the flit, of which an empty one takes one (log entry 28); a foreman's, which enters no viaduct, while
neither the receiver's queue nor the overflow store takes it (R195, R309, R324). -/
def msendHolds (ds : Bool) (d a : SReg) (s : State) : Bool :=
  let f := msendFlit ds d a s
  if !kernelIn (s.job s.me.cr.job.toNat).partition f.target then false
  else if isForeman s.cur.ctx then (undeliverable s (f.target / 4)).isNone && !queueTakes s f
  else
    let n := (Tab.get [] s.chip.net.inject (stopKey (coreLevel s.cur.core) (coreStop s.cur.core))).length
    n != 0 && !Config.stopTakes n

/-- MSEND (R324): one flit to a kernel context of the partition; one that names no such receiver is sunk with reason 0. A foreman's flit
enters no viaduct and is delivered at once. -/
def execMsend (ds : Bool) (d a : SReg) (s : State) : Out :=
  let f := msendFlit ds d a s
  if !kernelIn (s.job s.me.cr.job.toNat).partition f.target then
    .next (sinkFlit s (if isForeman s.cur.ctx then 0 else coreLevel s.cur.core) f .noRoute)
  else if isForeman s.cur.ctx then .next (deliverMessage s f)
  else .next (inject s s.cur.core [f])

/-- The receive an MRECV would make: the oldest flit, or in REPLAY the oldest from the logged sender; the flit, and its record (R325, R181). -/
def mrecvPlan (s : State) : Except Bad (Option (Message × Logged)) :=
  let g := s.cur.ctx
  if modeOf s g = 1 then .error (strictFault 0x61)
  else
    let q := s.me.recv
    let m : Option Message := match loggedVal s g recMsg 0 (BitVec.ofNat 64 g) with
      | some v => q.find? fun (m : Message) => m.sender == v.setWidth 11
      | none => q.head?
    .ok (m.map fun m => (m, .of s g recMsg 0 (BitVec.ofNat 64 g) (m.sender.setWidth 64) (countKey 3 g)))

/-- Whether MRECV may run (R325). -/
def mrecvReady (s : State) : Ready :=
  match mrecvPlan s with
  | .error b => .bad b
  | .ok none => awaitObject s s.cur.ctx (.of s s.cur.ctx recMsg 0 (BitVec.ofNat 64 s.cur.ctx) (s.fresh 64) (countKey 3 s.cur.ctx)) .message
  | .ok (some (_, o)) => (logReady s s.cur.ctx o).ready

/-- A list without its first element that satisfies p. -/
def eraseFirst {α : Type} (p : α → Bool) : List α → List α
  | [] => []
  | x :: r => if p x then r else x :: eraseFirst p r

/-- MRECV (R325). -/
def execMrecv (d b : SReg) (s : State) : Out :=
  s.when (mrecvReady s) fun s => s.try (mrecvPlan s) fun x =>
    match x with
    | none => .next s
    | some (m, o) => s.try (logDone s s.cur.ctx o) fun s =>
      let s := s.mapMe fun c => { c with recv := eraseFirst (fun y => y.sender == m.sender) c.recv }
      .next (s.coming (.regs (s.wSRun d m.payload.toNat 4 ++ s.wS b (m.sender.setWidth 64))))

/-- MPOLL's answer, in REPLAY the logged one, which a logged non-empty queue waits for (R325, R181). -/
def mpollPlan (s : State) : Except Bad (Option (Bool × Logged)) :=
  let g := s.cur.ctx
  if modeOf s g = 1 then .error (strictFault 0x62)
  else
    let full := !s.me.recv.isEmpty
    let rec_ := fun (v : Bool) => Logged.of s g recMsg 1 (BitVec.ofNat 64 g) (if v then 1 <<< 63 else 0) (countKey 3 g)
    match loggedVal s g recMsg 1 (BitVec.ofNat 64 g) with
    | some v => if v.getLsbD 63 && !full then .ok none else .ok (some (v.getLsbD 63, rec_ (v.getLsbD 63)))
    | none => .ok (some (full, rec_ full))

/-- Whether MPOLL may run. -/
def mpollReady (s : State) : Ready :=
  match mpollPlan s with
  | .error b => .bad b
  | .ok none => .wait .replay
  | .ok (some (_, o)) => (logReady s s.cur.ctx o).ready

/-- MPOLL (R325). -/
def execMpoll (d : SReg) (s : State) : Out :=
  s.when (mpollReady s) fun s => s.try (mpollPlan s) fun x =>
    match x with
    | none => .next s
    | some (v, o) => s.try (logDone s s.cur.ctx o) fun s => s.resS 1 d (if v then 1 else 0)

/-! ## The shaft -/

/-- Window base and count of a job (R191). -/
def Job.window' (j : Job) : Nat × Nat := (bits (j.reg 0x116) 13 0, bits (j.reg 0x116) 30 16)

/-- The absolute line of a window line below a bound, or the fatal window error, whose ADDR is the window line: the replica has no address in
the on-chip window (R126, R210, R326; log entry 46). -/
def shaftLine (s : State) (x : Word) (spare : Nat) (acc : BitVec 3) : Except Bad Nat :=
  let (base, cnt) := (s.job s.me.cr.job.toNat).window'
  if x.toNat < 2 ^ 14 ∧ x.toNat + spare < cnt then .ok (base + x.toNat) else .error { code := 0x14, acc, addr := x }

/-- The transfers of a context in its send queue (R189). -/
def queuedTransfers (s : State) (g : Nat) : List Transfer := s.chip.shaft.queue.filter fun t => t.ctx == g

/-- The transfers of a context not yet applied everywhere (R190, R327). -/
def transfersOpen (s : State) (g : Nat) : Bool :=
  s.chip.shaft.queue.any (fun t => t.ctx == g) || s.chip.shaft.flight.any fun (_, t) => t.ctx == g

/-- The SHAFT record of a transfer or read (R177). -/
def shaftRecord (s : State) (g flags line : Nat) : Logged :=
  .of s g recShaft flags 0 (BitVec.ofNat 64 (64 * line)) (countKey 4 0)

/-- REPLAY: the records of transfers found in the ring after those of the transfers already queued, in order, and compared (R412). -/
def findTransfers (s : State) (g : Nat) : Nat → Nat → Nat → List Logged → LogStep
  | _, _, _, [] => .go s
  | 0, _, _, _ :: _ => .wait .replay
  | n + 1, i, skip, o :: r =>
    match peekRecord s g i with
    | .bad b => .bad b
    | .wait => .wait .replay
    | .ended => .bad (o.diverges s (s.ctx g).cr.job.toNat 0)
    | .record x ok =>
      if !ok then .bad (o.diverges s (s.ctx g).cr.job.toNat x)
      else if x.extractLsb' 0 8 == 6 && x.extractLsb' 8 8 != 1 then
        if 0 < skip then findTransfers s g n (i + 1) (skip - 1) (o :: r)
        else if recMatches x o && recVal x == o.val then findTransfers s g n (i + 1) 0 r
        else .bad (o.diverges s (s.ctx g).cr.job.toNat x)
      else findTransfers s g n (i + 1) skip (o :: r)

/-- Whether transfers may enter the send queue under the log: room in RECORD for them and those queued, their records found in REPLAY, beside
what earlier slots of the bundle log and queue (R35, R175, R179, R412). -/
def transfersReady (s : State) (g : Nat) (os : List Logged) : Ready :=
  let q := (queuedTransfers s g).length + (if s.cur.ctx = g then s.cur.sends else 0)
  match modeOf s g with
  | 2 => (logRoom s g (s.ahead g + q + os.length)).ready
  | 3 => (findTransfers s g (ringRecords (ringOf s g).2 + 1) 0 q os).ready
  | _ => .go

/-- Whether SHPUT may run (R326). -/
def shputReady (a : SReg) (s : State) : Ready :=
  match shaftLine s (s.rS a) 64 1 with
  | .error b => .bad b
  | .ok l => transfersReady s s.cur.ctx [shaftRecord s s.cur.ctx 0 l]

/-- A transfer put in its context's entries of the send queue (R189). -/
def enqueueTransfer (s : State) (g line : Nat) (notice : Bool) (mask : Word) (payload : BitVec 512) : State :=
  let t : Transfer := { ctx := g, job := (s.ctx g).cr.job.toNat, notice, line, mask, payload, entered := s.cyc }
  s.onChip fun c => { c with shaft := { c.shaft with queue := c.shaft.queue ++ [t] } }

/-- SHPUT (R326). -/
def execShput (d a b : SReg) (s : State) : Out :=
  s.when (shputReady a s) fun s => s.try (shaftLine s (s.rS a) 64 1) fun l =>
    .next (enqueueTransfer s s.cur.ctx l false (s.rS b) (s.rS8 d))

/-- The bytes of a line as a context reads them: its level's replica, the master for a foreman; in RECORD and REPLAY with the job's transfers
sent in earlier cycles applied (R179, R190). -/
def readLine (s : State) (g line : Nat) : List Byte :=
  let lvl := if isForeman g then 8 else levelOf g
  let bs := Cells.bytes s.rep (repKey lvl line) 64
  if 2 ≤ modeOf s g then
    let ts := s.chip.shaft.flight.filter fun (c, t) => t.job == (s.ctx g).cr.job.toNat && t.line == line && decide (c < s.cyc)
    ts.foldl (fun b (_, t) => maskLine b (leBytes 64 t.payload.toNat) t.mask) bs
  else bs

/-- The line is poisoned in the replica that a context reads (R215). -/
def linePoisoned (s : State) (g line : Nat) : Bool := s.chip.repPoison.contains (repLine (if isForeman g then 8 else levelOf g) line)

/-- What an SHGET reads and its record (R326, R179); a poisoned line is consumed (R216). -/
def shgetPlan (s : State) (x : Word) : Except Bad (Nat × Logged) :=
  if modeOf s s.cur.ctx = 1 then .error (strictFault 0x65)
  else match shaftLine s x 0 0 with
    | .error b => .error b
    | .ok l => if linePoisoned s s.cur.ctx l then
        .error { code := 0x11, acc := 0, site := some (7, if isForeman s.cur.ctx then 8 else levelOf s.cur.ctx, 64 * l) } else .ok (l, shaftRecord s s.cur.ctx 1 l)

/-- Whether SHGET may run. -/
def shgetReady (a : SReg) (s : State) : Ready := planReady s (shgetPlan s (s.rS a))

/-- SHGET (R326). -/
def execShget (d a : SReg) (s : State) : Out :=
  s.logged (shgetPlan s (s.rS a)) fun l s =>
    .next (s.coming (.regs (s.wSRun d (leNat (readLine s s.cur.ctx l)) 8)))

/-- SHSYNC: its bundle is held until its conditions hold, and then it only orders (R327). -/
def execShsync (_sc : Scope) (s : State) : Out := .next s

end Sys2Proof.Machine
end

