-- ==== Sys2Proof/Machine/Launches.lean ====
section
/-! DEFINITION. Launches: their records, statuses, completion and dependents, the contexts they reserve, the walk from one iteration to the
next, the state in which an iteration or a handler run starts, and the ends of contexts: freed, killed, cancelled (R31, R39, R40, R45, R47 to
R49, R51 to R54, R58, R59, R166, R206, R413). -/

namespace Sys2Proof.Machine

/-! ## Launch records (R39, R40) -/

/-- A launch changed. -/
def State.mapLaunch (s : State) (lid : Nat) (f : Launch → Launch) : State :=
  match Tab.find s.chip.launches lid with
  | none => s
  | some l => s.onChip fun c => { c with launches := Tab.set c.launches lid (f l) }

/-- n bytes of a launch record at an offset (R39). -/
def recField (x : BitVec 2048) (off n : Nat) : Nat := bits x (8 * (off + n) - 1) (8 * off)
/-- DIM[d] (R40). -/
def recDim (x : BitVec 2048) (d : Nat) : Nat := recField x (0x28 + 8 * d) 8
/-- NDIM. -/
def recNdim (x : BitVec 2048) : Nat := recField x 0x12 1
/-- The dimension at nesting position p (R39). -/
def recNest (x : BitVec 2048) (p : Nat) : Nat := recField x 0x14 1 / 4 ^ p % 4
/-- Dimension d descends. -/
def recDown (x : BitVec 2048) (d : Nat) : Bool := recField x 0x15 1 / 2 ^ d % 2 == 1
/-- Handler count. -/
def recHandlers (x : BitVec 2048) : Nat := recField x 0x48 8 / 2 ^ 59
/-- CORESET masked to a partition (R21, R41). -/
def recCores (x : BitVec 2048) (part : BitVec 256) : BitVec 256 := x.extractLsb' (8 * 0x60) 256 &&& part
/-- Determinism mode. -/
def recMode (x : BitVec 2048) : Nat := recField x 0x10 1 % 4

/-- Cores that are not mapped out (R28). -/
def coresUp (s : State) : BitVec 256 :=
  s.chip.cores.foldl (fun m (c, k) => if k.mappedOut then m &&& ~~~((1 : BitVec 256) <<< c) else m) (BitVec.allOnes 256)

/-- The CORESET of a launch record of a job, masked to the partition and the cores in service (R21). -/
def maskedCores (s : State) (job : Nat) (image : BitVec 2048) : BitVec 256 := recCores image (s.job job).partition &&& coresUp s

/-- The masked CORESET of a launch. -/
def coresOf (s : State) (l : Launch) : BitVec 256 := maskedCores s l.job l.image

/-! ## Statuses and completion (R45, R52) -/

/-- The status a launch ends with (R52). -/
def Launch.status (l : Launch) : Nat :=
  if l.depfail then 4 else if l.overflow then 6 else if l.failed then 3 else if l.cancelled then 2 else 1

/-- The highest code of a list. -/
def worstOf (l : List Nat) : Nat := l.foldl max 1

/-- The status of a launch id in its job's window (R45). -/
def Job.statusOf (j : Job) (lid : Nat) : Option Nat := (j.window.find? fun x => x.1 == lid).map Prod.snd

/-- The pages and contexts that a launch gives back when it completes: its reserved contexts become free (R58). -/
def releaseHolds (s : State) (l : Launch) : State :=
  l.holds.foldl (fun s c => s.mapCtx (4 * c + 3) fun x => if x.status = .reserved then { x with status := .free } else x) s

/-- One launch leaves its job's queue with its status (R43, R51, R52). -/
def retireLaunch (s : State) (lid : Nat) (l : Launch) : State :=
  let st := l.status
  let s := s.mapJob l.job fun j => { j with
    window := j.window.map fun (i, x) => (i, if i == lid then st else x)
    worst := max j.worst st
    steps := if l.step = j.stepNo then Tab.set j.steps j.stepNo.toNat (max (Tab.get 0 j.steps j.stepNo.toNat) st) else j.steps }
  releaseHolds (s.onChip fun c => { c with launches := Tab.del c.launches lid }) l

/-- The dependents of launches that ended other than DONE complete DEPFAIL, chains in one cycle (R45); one that a CANCEL covers ends CANCELLED
(R54). n bounds the chain. -/
def failDependents : Nat → State → List Nat → State
  | 0, s, _ => s
  | n + 1, s, bad =>
    let hit := s.chip.launches.filter fun (i, l) => !l.active && !l.cancelled && !bad.contains i && l.preds.any fun p => bad.contains p
    if hit.isEmpty then s
    else failDependents n (hit.foldl (fun s (i, l) => retireLaunch s i { l with depfail := true }) s) (hit.map Prod.fst)

/-! ## The starting state of an iteration or handler run (R49, R59) -/

/-- MODE at the start of an iteration of a launch (R39, R49). -/
def startMode (image : BitVec 2048) : BitVec 3 := BitVec.ofNat 3 (recMode image + 4 * (recField image 0x11 1 % 2))

/-- A context in the starting state of R49: the log registers, the save count and what outlives an iteration are kept. -/
def Ctx.start (c : Ctx) (job : BitVec 6) (lid : Lane) (image : BitVec 2048) (wdog : Lane) : Ctx :=
  { status := c.status, pc := BitVec.ofNat 64 (recField image 0 8)
    s := Tab.set [] 1 (BitVec.ofNat 64 (recField image 8 8))
    a := [(0, {}), (1, {})]
    cr := { job, launch := lid, iterno := 0, mode := startMode image, wdog
            logbase := c.cr.logbase, logsize := c.cr.logsize, logwr := c.cr.logwr, logrd := c.cr.logrd }
    logStart := (c.cr.logwr, c.cr.logrd), sStart := Tab.set [] 1 (BitVec.ofNat 64 (recField image 8 8)), modeStart := startMode image
    wdogStart := wdog, saves := c.saves, oreds := c.oreds, serial := c.serial }

/-- A context reserved for the handlers of a launch, in the starting state of a handler run (R58, R59, R128). -/
def reserveCtx (s : State) (core lid : Nat) : State :=
  match Tab.find s.chip.launches lid with
  | none => s
  | some l =>
    let s := s.mapCtx (4 * core + 3) fun c =>
      { c.start (BitVec.ofNat 6 l.job) (BitVec.ofNat 32 lid) l.image (((s.job l.job).reg 0x10E).setWidth 32) with
        status := .reserved, cr := { (c.start (BitVec.ofNat 6 l.job) (BitVec.ofNat 32 lid) l.image
          (((s.job l.job).reg 0x10E).setWidth 32)).cr with iterno := 0xFFFFFFFF } }
    s.mapLaunch lid fun l => { l with holds := insertNat core l.holds }

/-- A decision of the walker or dispatcher for a launch: its DISP record (R177, R178). -/
def dispRecord (l : Launch) (flags : Nat) (val : Word) : Logged :=
  { type := recDisp, flags, obj := BitVec.ofNat 64 l.seq, val, ctx := 0x7F0, key := countKey 6 l.seq }

/-- A launch whose agent diverged ends FAILED (R182). -/
def failLaunch (s : State) (lid : Nat) : State := s.mapLaunch lid fun l => { l with failed := true, done := true, walk := none }

/-! ## The walk (R40, R47) -/

/-- The bound of a dimension that is not ragged (R40). -/
def fixedBound (j : Job) (v : Nat) : Nat :=
  if v / 2 ^ 62 = 1 then ceilShift j.live.toNat (v % 64) else v % 2 ^ 32

/-- The bounds at the start of a walk by nesting position; a ragged one is read when its parent takes an index (R47). -/
def firstBounds (j : Job) (x : BitVec 2048) : List Nat := (List.range (recNdim x)).map fun p => fixedBound j (recDim x (recNest x p))

/-- The index of a loop counter: descending dimensions run from their bound downward (R47). -/
def dimIndex (x : BitVec 2048) (d b i : Nat) : Nat := if recDown x d then b - 1 - i else i

/-- The ragged bounds that hang on the index just taken by a dimension are read in nesting order; the first failure stops (R47). -/
def readRagged (s : State) (asid : Nat) (x : BitVec 2048) (d j : Nat) : List Nat → List Nat → Except Bad (List Nat)
  | [], bs => .ok bs
  | p :: r, bs =>
    let v := recDim x (recNest x p)
    if v / 2 ^ 62 = 2 ∧ v / 2 ^ 60 % 4 = d then
      let va : Word := BitVec.ofNat 64 (v % 2 ^ 56 + 4 * j)
      match readVaNum s asid va 4 with
      | .error b => .error { b with addr := va }
      | .ok n => readRagged s asid x d j r (bs.set p n)
    else readRagged s asid x d j r bs

/-- How a walk goes on: an iteration is there to give, the walk moves, it has ended, or a bound could not be read. -/
inductive Walk
  | give
  | moved (idx bounds : List Nat)
  | ended
  | failed (b : Bad)

/-- A loop takes a counter value: its ragged children's bounds are read. -/
def takeIndex (s : State) (asid : Nat) (x : BitVec 2048) (idx bs : List Nat) (i : Nat) : Walk :=
  let p := recNdim x - 1 - idx.length
  let d := recNest x p
  match readRagged s asid x d (dimIndex x d (bs.getD p 0) i) (List.range p).reverse bs with
  | .error b => .failed b
  | .ok bs => .moved (idx ++ [i]) bs

/-- The innermost open loop advances, loops that are through closing (R47). -/
def bumpIndex (s : State) (asid : Nat) (x : BitVec 2048) (bs : List Nat) : List Nat → Walk
  | [] => .ended
  | i :: outer =>
    let p := recNdim x - 1 - outer.length
    if i + 1 < bs.getD p 0 then takeIndex s asid x outer.reverse bs (i + 1) else bumpIndex s asid x bs outer

/-- One move of a walk: the counters outermost first, one more than there are dimensions once the iteration they name is given. -/
def walkMove (s : State) (l : Launch) (idx bs : List Nat) : Walk :=
  let x := l.image
  let asid := (s.job l.job).asid
  let n := recNdim x
  if idx.length = n then .give
  else if n < idx.length then bumpIndex s asid x bs (idx.take n).reverse
  else if 0 < bs.getD (n - 1 - idx.length) 0 then takeIndex s asid x idx bs 0
  else bumpIndex s asid x bs idx.reverse

/-- The walk of a launch is over; an empty walk waits for the record of its end (R177). -/
def overWalk (s : State) (lid : Nat) (f : Launch → Launch) : State := s.mapLaunch lid fun l => { f l with walk := some ([], []) }

/-- A walk moved until an iteration is there to give or it is over, each move charged for the bound it can read (R24); n bounds the moves. -/
def walkOn (lid : Nat) : Nat → State → State
  | 0, s => s
  | n + 1, s =>
    match Tab.find s.chip.launches lid with
    | none => s
    | some l =>
      match l.walk with
      | none | some (_, []) => s
      | some (idx, bs) =>
        match walkMove s l idx bs with
        | .give => if l.ord < 2 ^ 32 then s else overWalk s lid fun l => { l with overflow := true }
        | .moved idx bs =>
          walkOn lid n ((s.mapLaunch lid fun l => { l with walk := some (idx, bs) }).chargeWrite l.job (3 * (1 + walkSectors)))
        | .ended => overWalk s lid id
        | .failed b => (overWalk s lid fun l => { l with failed := true }).jobFault l.job b.code 0x7F0 (BitVec.ofNat 32 lid) b.addr b.info

/-- More moves than any walk makes between two iterations: four dimensions of up to 2^32 places nest (R40). -/
def walkFuel : Nat := 2 ^ 200

/-- The end of an enumeration taken with its record (R47, R177). -/
def endWalk (s : State) (lid : Nat) : State :=
  match Tab.find s.chip.launches lid with
  | none => s
  | some l =>
    match l.walk with
    | some (_, []) =>
      match agentOp s l.job (dispRecord l 2 (BitVec.ofNat 64 l.ord)) lid with
      | .hold s => s
      | .diverge s => failLaunch s lid
      | .go s => s.mapLaunch lid fun l => { l with walk := none, done := true }
    | _ => s

/-- The walk of a launch brought to its next iteration or its end (R47, R48). -/
def bringWalk (s : State) (lid : Nat) : State := endWalk (walkOn lid walkFuel s) lid

/-! ## Handlers (R58, R59) -/

/-- A handler run starts on the reserved context of a core for the oldest arrival waiting there, once the log has taken its record (R59,
R177). An entry that cannot be read starts none, the arrival is dropped and the foreman told, and an entry that is no multiple of 32 is the PC
as it stands: the model's choices (log entry 61). -/
def startHandler (s : State) (lid core : Nat) : State :=
  match Tab.find s.chip.launches lid with
  | none => s
  | some l =>
    let g := 4 * core + 3
    if !l.holds.contains core || (s.ctx g).status != .reserved then s
    else match l.arrivals.find? fun a => a.core == core with
      | none => s
      | some a =>
        let va : Word := BitVec.ofNat 64 (recField l.image 0x48 8 % 2 ^ 56 + 8 * a.handler)
        let taken := fun (s : State) => s.mapLaunch lid fun l => { l with arrivals := eraseFirst (fun a => a.core == core) l.arrivals }
        match readVaNum s (s.job l.job).asid va 8 with
        | .error b => (taken s).jobFault l.job b.code 0x7F0 (BitVec.ofNat 32 lid) va b.info
        | .ok entry =>
          match agentOp s l.job (dispRecord l 3 (BitVec.ofNat 64 (g + 2 ^ 11 * a.handler))) lid with
          | .hold s => s
          | .diverge s => failLaunch s lid
          | .go s =>
            let s := ((taken s).mapLaunch lid fun l => { l with count := l.count + 1 }).chargeWrite l.job (1 + walkSectors)
            let given := fun (t : Tab Word) =>
              Tab.set (Tab.set (Tab.set t 1 (BitVec.ofNat 64 (recField l.image 8 8))) 2 a.off) 3 (a.sender.setWidth 64)
            s.mapCtx g fun c => { c with
              status := .running, handlerRun := true, pc := BitVec.ofNat 64 entry, s := given c.s, sStart := given c.sStart
              cr := { c.cr with iterno := 0xFFFFFFFF } }

/-- The launch that claims context 3 of a core: the one that holds it, else the earliest dispatched active launch with handlers whose CORESET
names the core (R58). -/
def claimant (s : State) (core : Nat) : Option Nat :=
  let ls := s.chip.launches.filter fun (_, l) => l.active && decide (0 < recHandlers l.image) && (coresOf s l).getLsbD core
  match ls.find? fun (_, l) => l.holds.contains core with
  | some (lid, _) => some lid
  | none => (ls.foldl (fun (best : Option (Nat × Launch)) x =>
      match best with
      | some b => if b.2.order ≤ x.2.order then some b else some x
      | none => some x) none).map Prod.fst

/-- A stop or fatal record of the context still waits for a trap queue (R207, R209). -/
def recordWaits (s : State) (g : Nat) : Bool := s.chip.jobs.any fun (_, j) => j.waiting.any fun w => w.own == some g

/-- Context 3 of a core is reserved where it is free, usable and claimed, on a core in service of a level awake, and an arrival that waited for
the reservation starts its handler (R58, R59, R201, R209, R218). -/
def tryReserve (s : State) (core : Nat) : State :=
  if (s.ctx (4 * core + 3)).status = .free && !(s.core core).resetting && !(s.core core).mappedOut &&
      (s.level (coreLevel core)).power == .awake && !recordWaits s (4 * core + 3) then
    match claimant s core with
    | some lid => startHandler (reserveCtx s core lid) lid core
    | none => s
  else s

/-- Every core's context 3 offered to its claimants (R58). -/
def tryReserveAll (s : State) (cores : BitVec 256) : State :=
  (List.range 256).foldl (fun s c => if cores.getLsbD c then tryReserve s c else s) s

/-- Handler starts that a reservation made late or the log has held, tried again (R58, R59, R175). -/
def startWaiting (s : State) : State :=
  s.chip.launches.foldl (fun s (lid, l) => if l.arrivals.isEmpty then s else l.holds.foldl (fun s core => startHandler s lid core) s) s

/-- LAUNCH_COMPLETE of one launch with its dependents and the reservations it frees (R45, R52, R58). -/
def completeLaunch (s : State) (lid : Nat) : State :=
  match Tab.find s.chip.launches lid with
  | none => s
  | some l =>
    let s := retireLaunch s lid l
    let s := if l.status ≠ 1 then failDependents 17 s [lid] else s
    tryReserveAll s (coresOf s l)

/-! ## Ends of contexts (R54, R166, R206, R303, R413) -/

/-- The foreman context that owns a job (R20). -/
def foremanOf (s : State) (j : Nat) : Nat := (s.job j).owner j

/-- A context becomes free, or reserved where a launch claims it (R32, R58). -/
def freeCtx (s : State) (g : Nat) : State :=
  let s := s.mapCtx g fun c =>
    { (c.start 0 0 0 0) with status := .free, pc := 0, s := [], a := c.a.map fun (n, _) => (n, {}) , cr := { ({} : CtxRegs) with
      logbase := c.cr.logbase, logsize := c.cr.logsize, logwr := c.cr.logwr, logrd := c.cr.logrd } }
  if g < 1024 ∧ g % 4 = 3 then tryReserve s (g / 4) else s

/-- The commands of a context removed from the engine queues, and from those in flight where all is set. -/
def dropCommands (s : State) (g : Nat) (all : Bool) : State :=
  s.mapCore (coreOf g) fun c =>
    let keep := fun (l : List Command) => l.filter fun x => x.ctx != g
    Core.fill { c with mq := keep c.mq, xq := keep c.xq, aq := keep c.aq, late := keep c.late
                       fly := if all then keep c.fly else c.fly, waitRows := keep c.waitRows }

/-- The queued reductions of a context have left the core and are performed (R166). -/
def performReds (s : State) (g : Nat) : State :=
  (s.ctx g).reds.foldl (fun s r =>
    match r.instr with
    | .red op dbl _ _ =>
      let n := atomicWidth dbl
      if (firstPoison s r.pa n).isSome then s
      else s.pokeNum r.pa n (redNew op r.exposed dbl (BitVec.ofNat 64 (s.peek r.pa n)) r.val).1.toNat
    | _ => s) (s.mapCtx g fun c => { c with reds := [] })

/-- A drop by a kill or by level sleep under the log: it is performed with its record, or waits for it, also where the ring cannot be accessed,
which the foreman hears of as of an agent's; in REPLAY it takes effect at once with a job fault where the log has another record (R173,
R413). -/
def forcedDrop (s : State) (g n : Nat) (m : Member) : State :=
  let o := phaseRecord s g n 1 m
  let job := (s.ctx g).cr.job.toNat
  let done := fun (s : State) => match logDone s g o with
    | .ok s => dropMember s g n
    | .error b => ringFaulted s job o b
  match modeOf s g with
  | 2 =>
    match logRoom s g 1 with
    | .go s => done s
    | .wait _ => s
    | .bad b => ringFaulted s job o b
  | 3 =>
    match replayCheck s g 0 job o with
    | .go s => done s
    | .wait _ => s
    | .bad b =>
      if b.code ≠ 0x08 then ringFaulted s job o b
      else
        let r := { agentRecord 0x08 4 (BitVec.ofNat 11 g) job (s.ctx g).cr.launch 0 0 with exp := b.exp, act := b.act }
        (dropMember s g n).post r
  | _ => dropMember s g n

/-- The memberships of a context dropped in order as the log allows, up to the first that must wait for it. -/
def forcedDropsFrom (s : State) (g : Nat) : List (Nat × Member) → State
  | [] => s
  | (n, m) :: r =>
    let t := forcedDrop s g n m
    if ((t.phaser n).member g).isSome then t else forcedDropsFrom t g r

/-- The memberships of a context dropped as the log allows; those that must wait for it stay. -/
def forcedDrops (s : State) (g : Nat) : State := forcedDropsFrom s g (memberships s g)

/-- A launch loses one iteration or handler run, with what it makes of the status (R52, R53). -/
def endRun (s : State) (lid : Nat) (f : Launch → Launch) : State :=
  s.mapLaunch lid fun l => f { l with count := l.count - 1 }

/-- A job's launches cancelled: enumeration stops, and those with nothing running complete (R54). -/
def cancelLaunches (s : State) (lids : List Nat) : State :=
  lids.foldl (fun s lid =>
    let s := s.mapLaunch lid fun l => { l with cancelled := true, done := true, arrivals := [] }
    match Tab.find s.chip.launches lid with
    | some l => if l.count = 0 then completeLaunch s lid else s
    | none => s) s

/-- Map entries of a cancelled job cleared on every core without a write-back (R133). -/
def clearMaps (s : State) (job : Nat) : State :=
  let j := s.job job
  (List.range 256).foldl (fun s core =>
    if j.partition.getLsbD core then
      let es := (s.core core).entries.filter fun (_, e) => inShare j e.soff e.len && decide (j.scrLen ≠ 0)
      es.foldl (fun s (i, _) => s.mapCore core fun c => { c with
        map := Tab.del c.map i, sect := c.sect.filter fun (k, _) => k / 2 ^ 20 != i }) s
    else s) s

/-- The contexts of a job that hold an iteration or a handler run of one of the launches. -/
def ctxsOf (s : State) (lids : List Nat) : List Nat :=
  (List.range 1024).filter fun g =>
    let c := s.ctx g
    (c.status == .running || c.status == .stopped || c.status == .saved) && lids.contains c.cr.launch.toNat && !c.endi

/-- A context ends as killed: tokens ABANDONED, memberships dropped, unissued commands and those in flight discarded, its launch counted
down; a reduction already with its MSU is performed (R166). -/
def finishKill (s : State) (g : Nat) (f : Launch → Launch) : State :=
  let lid := (s.ctx g).cr.launch.toNat
  let s := leaveQueues (performReds (dropCommands s g true) g) g
  let s := (heldTokens s g).foldl (fun s n => giveToken s n .abandoned) s
  let s := s.onChip fun c => { c with
    shaft := { c.shaft with queue := c.shaft.queue.filter fun t => t.ctx != g } }
  let s := endRun (forcedDrops (s.mapCtx g fun c => { c with killed := true }) g) lid f
  if (memberships s g).isEmpty then freeCtx s g
  else s.mapCtx g fun c => { c with status := .running, endi := true, killed := true, handlerRun := false, blocked := none, pend := [], coming := [] }

/-- A record of a stopped context that still waits for the trap queue goes with the context (R54). -/
def discardRecord (s : State) (g : Nat) : State :=
  s.mapJob (s.ctx g).cr.job.toNat fun j => { j with waiting := j.waiting.filter fun w => w.own != some g }

/-- A cancelled context is freed once its commands in flight have completed; a saved one at once with its save area; no record of it is posted
(R54). -/
def cancelCtx (s : State) (g : Nat) : State :=
  let c := s.ctx g
  let s := discardRecord s g
  let s := if c.status = .saved then s.onChip fun x => { x with areas := Tab.del x.areas g } else s
  let s := dropCommands s g false
  if (s.core (coreOf g)).fly.any (fun x => x.ctx == g) then s.mapCtx g fun c => { c with cancelling := true, blocked := none }
  else finishKill s g fun l => { l with cancelled := true }

/-- CANCEL of launches (R54): their contexts are freed as killed, and they end CANCELLED. -/
def cancelSet (s : State) (lids : List Nat) : State :=
  let gs := ctxsOf s lids
  let s := lids.foldl (fun s lid => s.mapLaunch lid fun l => { l with cancelled := true, done := true, arrivals := [] }) s
  let s := gs.foldl cancelCtx s
  cancelLaunches s lids

/-- The launches of a job. -/
def launchesOf (s : State) (job : Nat) : List Nat := s.chip.launches.filterMap fun (i, l) => if l.job = job then some i else none

/-- A job cancelled: all of its launches (R54), its map entries cleared (R133). -/
def cancelJob (s : State) (job : Nat) : State := clearMaps (cancelSet s (launchesOf s job)) job

/-- A killed foreman's context free. -/
def freeForeman (s : State) (g : Nat) : State := s.mapCtx g fun c => { c with status := .free, endi := false, killed := false }

/-- A killed context free once its memberships are dropped, which the log can hold up (R166, R413). -/
def freeKilled (s : State) (g : Nat) : State :=
  if !(memberships s g).isEmpty then s else if isForeman g then freeForeman s g else freeCtx s g

/-- A foreman context killed: what it held is given up, and it is free once its drops are logged (R166, R413). -/
def stopForeman (s : State) (g : Nat) : State :=
  let s := (performReds (dropCommands s g true) g).mapCtx g fun c =>
    { c with doom := none, held := none, kept := none, blocked := none, pend := [], coming := [], endi := true, killed := true }
  let s := (heldTokens s g).foldl (fun s n => giveToken s n .abandoned) (forcedDrops (leaveQueues s g) g)
  let s := s.onChip fun c => { c with shaft := { c.shaft with queue := c.shaft.queue.filter fun t => t.ctx != g } }
  freeKilled s g

/-- A foreman killed: its job is cancelled and ends (R206, R337). -/
def killForeman (s : State) (g : Nat) : State :=
  let j := (s.ctx g).cr.job.toNat
  cancelJob (stopForeman s g) j |>.mapJob j fun x => { x with ending := true }

/-- A fatal error kills a context, its record posted first so that the context is not taken again before it is written: a kernel context's
launch ends FAILED; a foreman loses its job; the supervisor stays dead until the module is reset (R53, R206, R209). -/
def killFatal (s : State) (g : Nat) (r : TrapRec) : State :=
  let s := (if r.code = 0x11 then s.consumed g r.place false else s).post r
  if isForeman g then killForeman s g
  else finishKill (s.mapCtx g fun c => { c with doom := none }) g fun l => { l with failed := true, done := true }

/-- A context with a fatal error found is killed at its bundle boundary (R206). -/
def settle (s : State) (g : Nat) : State :=
  match (s.ctx g).doom with
  | some r => killFatal s g r
  | none => s

/-- Every flit on its way. -/
def Net.flits (n : Net) : List Flit :=
  n.inject.flatMap Prod.snd ++ n.pos.map Prod.snd ++ n.parts.flatMap Prod.snd ++ n.asm.flatMap Prod.snd ++ n.ready.map Delivered.flit ++
  n.overflow.flatMap Prod.snd ++ n.winze.flatMap fun (_, l) => l.map fun (_, _, f) => f

/-- The core whose scratchpad a PUT packet is for; none of other flits. -/
def Flit.putCore (f : Flit) : Option Nat :=
  match f.cargo with
  | .put _ _ _ (.ring _) _ => some (f.target / 4)
  | .put _ _ _ _ _ => some f.target
  | _ => none

/-- A PUT packet of context g is still on its way. -/
def putsOut (n : Net) (g : Nat) : Bool := n.flits.any fun f => f.sender.toNat == g && f.putCore.isSome

/-- A PUT packet of context g for a core's scratchpad is still on its way (R148). -/
def putsTo (n : Net) (g core : Nat) : Bool := n.flits.any fun f => f.sender.toNat == g && f.putCore == some core

/-- Everything a context issued has completed: loads landed, reductions performed, no command queued or in flight, no rows awaited (R303). -/
def drained (s : State) (g : Nat) : Bool :=
  let c := s.ctx g
  let k := s.core (coreOf g)
  !putsOut s.chip.net g && c.coming.isEmpty && c.reds.isEmpty && c.oreds.isEmpty &&
  !k.commands.any fun x => x.ctx == g

/-- What the log says of the drops of an iteration end when they come to take place: in RECORD room for their records; in REPLAY those found when
ENDI issued stand next in the ring, behind what the context has still to take (R303, R412, R413). -/
def endLog (s : State) (g : Nat) : LogStep :=
  let os := endRecords s g
  if os.isEmpty then .go s
  else match modeOf s g with
    | 2 => logRoom s g os.length
    | 3 => recordsDue s g recMatches (fun r => if r.extractLsb' 0 16 == 0x0102 then .differs else behindLater s g r) os.length 0 os
    | _ => .go s

/-- An iteration or handler run whose release and drops have taken effect is over once its queued transfers of a logged mode have taken their
records: its launch counts one less, and the context is free, or reserved after a handler run (R58, R179, R303). -/
def leaveIteration (s : State) (g : Nat) : State :=
  let c := s.ctx g
  let lid := c.cr.launch.toNat
  if 2 ≤ modeOf s g && !(queuedTransfers s g).isEmpty then s
  else
    let s := endRun s lid id
    if c.handlerRun then
      match Tab.find s.chip.launches lid with
      | some l => if l.holds.contains (g / 4) then startHandler (reserveCtx s (g / 4) lid) lid (g / 4) else freeCtx s g
      | none => freeCtx s g
    else freeCtx s g

/-- A context that has issued ENDI, everything it issued being performed: its tokens are released as TKREL would, its memberships dropped with
their records, and its iteration is over; a write-back of the release or an access to the ring that fails kills it (R133, R166, R303, R413). -/
def endIteration (s : State) (g : Nat) : State :=
  let die := fun (s : State) (b : Bad) => killFatal s g { s.recordOf g b.code 1 b.addr b.info with acc := b.acc, site := b.site }
  match endLog s g with
  | .wait _ => s
  | .bad b => if b.code = 0x08 then forcedDrops s g else die s b
  | .go t =>
    match foldE (fun s n => releaseOn s g 1 n) t (heldTokens t g) with
    | .error b => die s b
    | .ok t =>
      let t := (heldTokens t g).foldl (fun s n => giveToken s n .free) t
      match logManyDone t g (endRecords t g) with
      | .error b => die s b
      | .ok t => leaveIteration (dropMembers t g) g

/-- The iteration of a context is at its end (R303). -/
def endsNow (s : State) (g : Nat) : Bool :=
  let c := s.ctx g
  c.status == .running && c.endi && !c.killed && !c.cancelling && c.doom.isNone && drained s g

/-- ITERATION_END: once everything the context issued is performed, its iteration ends; a cancelled context is freed once its commands have
completed, and a killed one once its drops are logged (R303, R54, R413). -/
def execIterationEnd (g : CtxId) (s : State) : Out :=
  let g := g.toNat
  let c := s.ctx g
  if c.killed then .next (freeKilled (forcedDrops s g) g)
  else if c.cancelling then
    .next (if (s.core (coreOf g)).fly.any (fun x => x.ctx == g) then s else finishKill s g fun l => { l with cancelled := true })
  else if c.doom.isSome then .next (settle s g)
  else .next (if endsNow s g then endIteration s g else s)

/-- The walk of an active launch with nothing running brought forward, which ends an enumeration that is exhausted (R47, R52). -/
def bringIdle (s : State) (lid : Nat) : State :=
  match Tab.find s.chip.launches lid with
  | some l => if l.active && !l.done && l.count == 0 then bringWalk s lid else s
  | none => s

/-- The completions of a job that are due, iterations, enumerations and then launches: in one cycle they come before a cancel (R55). -/
def completeDue (s : State) (job : Nat) : State :=
  let s := s.chip.ctxs.foldl (fun s (g, _) => if (s.ctx g).cr.job.toNat = job ∧ endsNow s g = true then endIteration s g else s) s
  let s := (launchesOf s job).foldl bringIdle s
  (launchesOf s job).foldl (fun s lid =>
    match Tab.find s.chip.launches lid with
    | some l => if l.active && l.done && l.count == 0 then completeLaunch s lid else s
    | none => s) s

/-- LAUNCH_COMPLETE: a launch whose enumeration has ended and whose count is zero takes its final status (R52). -/
def execLaunchComplete (lid : BitVec 32) (s : State) : Out :=
  match Tab.find s.chip.launches lid.toNat with
  | none => .next s
  | some l => .next (if l.active && l.done && l.count == 0 then completeLaunch s lid.toNat else s)

/-- RED_PERFORM: the oldest queued RED of context g is performed at its MSU; none queued, nothing happens (R314). -/
def execRedPerform (g : CtxId) (s : State) : Out :=
  let g := g.toNat
  match (s.ctx g).reds with
  | [] => .next s
  | r :: rest =>
    match r.instr with
    | .red op dbl _ _ =>
      let n := atomicWidth dbl
      let s := s.mapCtx g fun c => { c with reds := rest }
      match firstPoison s r.pa n with
      | some p =>
        let x := { s.recordOf g 0x11 1 r.va (BitVec.ofNat 64 p) with acc := 2 }
        .next (killFatal s g x)
      | none =>
        let (z, f) := redNew op r.exposed dbl (BitVec.ofNat 64 (s.peek r.pa n)) r.val
        .next (((s.pokeNum r.pa n z.toNat).mapCtx g (·.orFlags f)).chargeWrite r.job 2)
    | _ => .next s

/-- Context g under the job and mode in which it issued an ordered reduction: its ring and the counts of that job (R173, R177, R316). -/
def asIssuer (s : State) (g : Nat) (r : Reduction) : State :=
  s.mapCtx g fun c => { c with cr := { c.cr with job := BitVec.ofNat 6 r.job, mode := BitVec.ofNat 3 r.mode } }

/-- Context g back under the job and mode that it has. -/
def asItself (s : State) (g : Nat) (c : Ctx) : State := s.mapCtx g fun x => { x with cr := { x.cr with job := c.cr.job, mode := c.cr.mode } }

/-- The completion of an ordered reduction fails: it is not performed; its issuer stops or is killed where it stands, else the foreman hears of
it (R173, R182). -/
def oredFails (s : State) (g : Nat) (r : Reduction) (b : Bad) : State :=
  let t := s.mapCtx g fun c => { c with oreds := c.oreds.drop 1 }
  if !issuerStands s g r then t.post { agentRecord b.code 4 (BitVec.ofNat 11 g) r.job r.lid b.addr b.info with exp := b.exp, act := b.act }
  else if b.stops then t.stopOf g .s b
  else killFatal t g { t.recordOf g b.code 1 b.addr b.info with acc := b.acc, site := b.site }

/-- The release of an ordered reduction's completion by its issuer's core, then the reduction (R133, R151, R316). -/
def releaseOred (s : State) (g : Nat) (r : Reduction) : State :=
  match releaseFor s r.job (coreOf g) 2 r.va.toNat with
  | .error b => oredFails s g r b
  | .ok s => (performOred s g r).chargeWrite r.job (2 * (r.srcs.length + 1) * (sectorOf (r.count * 8) + 2))

/-- ORED_COMPLETION: once every earlier access of the issuer is performed, the oldest ordered reduction of context g is carried out, with its
FLAG record in the issuer's ring where it was issued in RECORD or REPLAY, though the issuer be killed since (R177, R182, R316). -/
def execOredCompletion (g : CtxId) (s : State) : Out :=
  let g := g.toNat
  match (s.ctx g).oreds with
  | [] => .next s
  | r :: _ =>
    let early := (s.core (coreOf g)).commands.any fun x => x.ctx == g && decide (x.serial < r.serial)
    if early || !(s.ctx g).settledBefore r.serial || putsOut s.chip.net g then .next s
    else if r.mode < 2 then .next (releaseOred s g r)
    else
      let o : Logged := { type := recFlag, flags := 2, obj := r.va, val := r.pv, ctx := g, lid := r.lid, ord := r.ord, key := wordKey r.flag }
      let c := s.ctx g
      match logReady (asIssuer s g r) g o with
      | .wait _ => .next s
      | .bad b => .next (oredFails s g r b)
      | .go t =>
        match logDone t g o with
        | .error b => .next (oredFails s g r b)
        | .ok t => .next (releaseOred (asItself t g c) g r)

end Sys2Proof.Machine
end

