-- ==== Sys2Proof/Machine/Supervisor.lean ====
section
/-! DEFINITION. The supervisor's device actions: budget commits, the start of a job, the slot table, the code scanner, level power, routing
swaps, barrier tags, containment (R24, R25, R188, R198, R200 to R202, R212, R213, R218, R232, R257). -/

namespace Sys2Proof.Machine

/-- s with the supervisor's registers changed. -/
def State.onSup (s : State) (f : Sup → Sup) : State := s.onChip fun c => { c with sup := f c.sup }
/-- The bundle being issued is the supervisor's. -/
def State.isSup (s : State) : Bool := s.cur.ctx == 1024
/-- The job that JOBSEL names (R257). -/
def State.selected (s : State) : Nat := s.chip.sup.jobsel.toNat
/-- A device action of the supervisor; the SETC of any other context is ignored (R255). -/
def State.supervised (s : State) (f : State → State) : Out := .next (if s.isSup then f s else s)

/-! ## Budgets (R24, R25, R257) -/

/-- Allowance of a class (R257 CLS). -/
def Allowance.ofClass (a : Allowance) (c : Nat) : Nat := bits a.cls (16 * c + 15) (16 * c)
/-- The core-issue allowance: the sum over the classes (R36). -/
def Allowance.issue (a : Allowance) : Nat := a.ofClass 0 + a.ofClass 1 + a.ofClass 2 + a.ofClass 3
/-- The staged allowances of a job. -/
def Job.staged (j : Job) : Allowance :=
  { cls := j.reg 0x110, hbm := (j.reg 0x111).setWidth 21, fab := (j.reg 0x112).setWidth 32, shf := (j.reg 0x113).setWidth 14 }

/-- Slots of a frame that the table gives to originators, those of mapped-out levels left out (R188, R29). -/
def ownedSlots (s : State) : Nat :=
  ((List.range 64).filter fun i =>
    let o := bits s.chip.shaft.table (4 * i + 3) (4 * i)
    decide (o = 8) || (decide (o < 8) && !(s.level o).mappedOut)).length

/-- Bytes that one port carries in a tick: 100 GB/s for T microseconds (R25, R184). -/
def portBytes (s : State) : Nat := 100000 * s.chip.fab.tickus
/-- Ports in service (R25, R28). -/
def portsUp (s : State) : Nat := ((List.range 32).filter fun i => s.chip.fab.ports.getLsbD i && !s.chip.sup.deadPorts.getLsbD i).length

/-- The sum of a number over every job but one. -/
def sumOthers (s : State) (j : Nat) (f : Job → Nat) : Nat :=
  s.chip.jobs.foldl (fun n x => if x.1 = j then n else n + f x.2) 0

/-- The allowances of job j keep every sum of R25. -/
def allowanceFits (s : State) (j : Nat) (a : Allowance) : Bool :=
  let part := (s.job j).partition
  decide (a.issue ≤ 8192) &&
  (List.range 256).all (fun c => !part.getLsbD c ||
    decide (a.issue + sumOthers s j (fun x => if x.partition.getLsbD c then x.alw.issue else 0) ≤ 8192)) &&
  decide (a.hbm.toNat + sumOthers s j (fun x => x.alw.hbm.toNat) ≤ 2560 * (512 - s.chip.sup.deadChannels.length)) &&
  decide (a.shf.toNat + sumOthers s j (fun x => x.alw.shf.toNat) ≤ 128 * ownedSlots s) &&
  decide (a.fab.toNat + sumOthers s j (fun x => x.alw.fab.toNat) ≤ portBytes s * portsUp s)

/-- The commit of job j carried out: in force, or refused in whole (R25). -/
def commitAllowance (s : State) (j : Nat) (a : Allowance) : State :=
  if allowanceFits s j a then s.mapJob j fun x => { x with alw := a, commit := none, commitRefused := false }
  else s.mapJob j fun x => { x with commit := none, commitRefused := true }

/-- The GO write of BUDCMT for job j: the values now staged are committed at the next period boundary (R257). -/
def stageCommit (s : State) (j : Nat) (v : Word) : State :=
  if v.getLsbD 0 then s.mapJob j fun x => { x with commit := some x.staged } else s

/-- BUDCMT. -/
def execBudcmt (a : SReg) (s : State) : Out := s.supervised fun s => stageCommit s s.selected (s.rS a)

/-! ## Starting a job (R232) -/

/-- Two ranges share a member. -/
def overlap (a la b lb : Nat) : Bool := decide (0 < la) && decide (0 < lb) && decide (a < b + lb) && decide (b < a + la)

/-- Fields of two registers as ranges. -/
def Job.asids (j : Job) : Nat × Nat := (j.asid, bits (j.reg 0x118) 20 13 + 1)
/-- Phasers allotted. -/
def Job.phasers (j : Job) : Nat × Nat := (bits (j.reg 0x117) 11 0, bits (j.reg 0x117) 24 12)
/-- Tokens allotted. -/
def Job.tokens (j : Job) : Nat × Nat := (bits (j.reg 0x117) 38 25, bits (j.reg 0x117) 53 39)
/-- Request indices allotted. -/
def Job.requests (j : Job) : Nat × Nat := (bits (j.reg 0x119) 15 0, bits (j.reg 0x119) 32 16)

/-- Two ranges given as pairs share a member. -/
def overlap2 (a b : Nat × Nat) : Bool := overlap a.1 a.2 b.1 b.2

/-- An allotment of one job overlaps the other's (R232). -/
def allotmentsClash (j k : Job) : Bool :=
  overlap2 j.asids k.asids || overlap2 j.phasers k.phasers || overlap2 j.tokens k.tokens || overlap2 j.requests k.requests ||
  overlap2 j.window' k.window' ||
  (j.partition &&& k.partition != 0 && overlap j.scrBase j.scrLen k.scrBase k.scrLen)

/-- FMENTRY lies in an accepted foreman page mapped executable for the job (R232). -/
def entryAccepted (s : State) (j : Job) : Bool :=
  match lookup s j.asid (j.reg 0x11A) with
  | .hit e pa _ => e.getLsbD 62 && codeAccepted s pa == some .foreman
  | _ => false

/-- Why JOBSTART refuses job j on foreman context 1,024 + n (R232, R20). -/
def startRefused (s : State) (j n : Nat) : Bool :=
  let x := s.job j
  let lg := bits (x.reg 0x108) 4 0
  s.chip.jobs.any (fun (k, y) => k != j && y.started && allotmentsClash x y) ||
  decide (lg < 13) || decide (24 < lg) || !entryAccepted s x || n == 0 || x.started ||
  s.chip.jobs.any (fun (k, y) => k != j && y.started && y.owner k == 1024 + n)

/-- The foreman of job j on context g in its starting state, the device's ring indexes at zero for the new job (R49, R232, log entry 8). -/
def foremanStart (s : State) (j g : Nat) : State :=
  let x := s.job j
  s.mapCtx g fun c =>
    let c0 := c.start (BitVec.ofNat 6 j) 0 0 ((x.reg 0x10E).setWidth 32)
    { c0 with
      status := .running, pc := x.reg 0x11A &&& ~~~31, s := Tab.set [] 1 (x.reg 0x11B), sStart := Tab.set [] 1 (x.reg 0x11B)
      modeStart := BitVec.ofNat 3 x.fmode, logStart := (0, 0)
      cr := { c0.cr with mode := BitVec.ofNat 3 x.fmode, logwr := 0, logrd := 0 } }

/-- The device action of JOBSTART: refused, or the job's key is made and its foreman starts (R232). -/
def startJob (s : State) (j : Nat) (v : Word) : State :=
  let n := bits v 5 0
  if !v.getLsbD 8 then s
  else if startRefused s j n then s.mapJob j fun x => { x with startRefused := true }
  else
    let serial := s.chip.host.keySerial + 1
    let s := s.onChip fun c => { c with host := { c.host with keySerial := serial } }
    let s := s.mapJob j fun x =>
      { x.setReg 0x120 (BitVec.ofNat 64 n) with started := true, key := true, keySerial := serial, startRefused := false }
    foremanStart s j (1024 + n)

/-- JOBSTART. -/
def execJobstart (a : SReg) (s : State) : Out := s.supervised fun s => startJob s s.selected (s.rS a)

/-! ## Slot table and translation invalidation (R123, R188) -/

/-- The staged table holds a reserved OWNER (R188). -/
def tableBad (t : BitVec 256) : Bool := (List.range 64).any fun i => let o := bits t (4 * i + 3) (4 * i); decide (9 ≤ o) && decide (o ≤ 14)

/-- The GO write of SHAFTGO: the staged table goes into force at the next frame boundary, or is refused (R188). -/
def commitTable (s : State) (v : Word) : State :=
  let t := s.chip.shaft.staged
  if !v.getLsbD 0 then s
  else if tableBad t then s.onChip fun c => { c with shaft := { c.shaft with refused := true } }
  else s.onChip fun c => { c with shaft := { c.shaft with refused := false, commit := some t } }

/-- SHAFTGO. -/
def execShaftgo (a : SReg) (s : State) : Out := s.supervised fun s => commitTable s (s.rS a)

/-- TSINV: every access of the model translates by the store itself, so the invalidation is complete at once (R123). -/
def execTsinv (_a : SReg) (s : State) : Out := .next s

/-! ## The code scanner (R212, R213) -/

/-- Submit: the page is blocked and its scan begins; ignored while a scan runs (R212, R257). -/
def codeSubmit (s : State) (v : Word) : State :=
  match s.chip.scan with
  | some _ => s
  | none =>
    let big := v.getLsbD 60
    let len := pageLen (if big then 1 else 0)
    let p : CodePage := { base := bits v 51 16 * 0x10000 / len * len, big, kind := if v.getLsbD 61 then .foreman else .kernel, accepted := false }
    (s.onChip fun c => { c with scan := some p }).onSup fun x => { x with codestat := 1 }

/-- Release: the acceptance is withdrawn and the page unblocked at once; a scan of it ends (R212, R213). -/
def codeRelease (s : State) (v : Word) : State :=
  let len := pageLen (if v.getLsbD 60 then 1 else 0)
  let base := bits v 51 16 * 0x10000 / len * len
  let s := s.onChip fun c => { c with code := c.code.filter fun p => !(p.base == base && p.big == v.getLsbD 60) }
  match s.chip.scan with
  | some p => if p.base = base ∧ p.big = v.getLsbD 60 then (s.onChip fun c => { c with scan := none }).onSup fun x => { x with codestat := 0 } else s
  | none => s

/-- A write of CODEMAP (R257). -/
def codemap (s : State) (v : Word) : State :=
  match bits v 63 62 with
  | 1 => codeSubmit s v
  | 2 => codeRelease s v
  | _ => s

/-- CODEMAP_SUBMIT. -/
def execCodemapSubmit (v : Word) (s : State) : Out := .next (codeSubmit s v)
/-- CODEMAP_RELEASE. -/
def execCodemapRelease (v : Word) (s : State) : Out := .next (codeRelease s v)

/-- The first bad bundle of n from a physical address on: its offset in the page and its reason (R212, R213). -/
def scanFrom (s : State) (k : PageKind) (base : Nat) : Nat → Nat → Option (Nat × Reject)
  | _, 0 => none
  | off, n + 1 =>
    match decodeBundle k (BitVec.ofNat 256 (s.peek (base + off) 32)) with
    | .error r => some (off, r)
    | .ok _ => scanFrom s k base (off + 32) n

/-- CODE_SCAN_COMPLETE: every bundle of the page was legal and the page is accepted, or it is refused and unblocked (R212, R213). -/
def execCodeScanComplete (s : State) : Out :=
  match s.chip.scan with
  | none => .next s
  | some p =>
    if !pagePopulated s p.base (pageLen (if p.big then 1 else 0)) then .fault (.noSuchAddress p.base)
    else
      let rest := s.chip.code.filter fun x => !(x.base == p.base && x.big == p.big)
      match scanFrom s p.kind p.base 0 (pageLen (if p.big then 1 else 0) / 32) with
      | none => .next ((s.onChip fun c => { c with scan := none, code := { p with accepted := true } :: rest }).onSup fun x => { x with codestat := 2 })
      | some (off, r) =>
        .next ((s.onChip fun c => { c with scan := none, code := rest }).onSup fun x => { x with
          codestat := BitVec.ofNat 64 (3 + 16 * r.reason + 2 ^ 24 * off) })

/-! ## Level power (R201, R202) -/

/-- A sleep or wake of the level has not completed. -/
def Level.busy (l : Level) : Bool := l.power == .draining || l.power == .freezing || l.power == .waking || l.power == .refilling

/-- The contexts of a level. -/
def levelCtxs (l : Nat) : List Nat := (List.range 128).map (128 * l + ·)

/-- REFUSED of LEVELPWR. -/
def setLevelRefused (s : State) (b : Bool) : State := s.onSup fun x => { x with levelRefused := b }

/-- A sleep request (R201). -/
def sleepRequest (s : State) (l : Nat) : State :=
  let busyCtx := (levelCtxs l).any fun g => let st := (s.ctx g).status; st == .running || st == .stopped || st == .reserved
  if busyCtx || (s.level l).mappedOut || (s.level l).power != .awake then setLevelRefused s true
  else setLevelRefused (s.mapLevel l fun x => { x with power := .draining, asked := s.cyc }) false

/-- A wake request (R202): the level's barrier inputs stay arrived until the current generation of each tag releases. -/
def wakeRequest (s : State) (l : Nat) : State :=
  if (s.level l).mappedOut || (s.level l).power != .asleep then setLevelRefused s true
  else setLevelRefused (s.mapLevel l fun x => { x with power := .waking, asked := s.cyc, stuck := List.range 8 }) false

/-- A write of LEVELPWR; OP 0 and 3 are ignored (R257). -/
def levelpwr (s : State) (v : Word) : State :=
  match bits v 5 4 with
  | 1 => sleepRequest s (bits v 2 0)
  | 2 => wakeRequest s (bits v 2 0)
  | _ => s

/-- LEVEL_SLEEP_REQUEST. -/
def execLevelSleepRequest (level : BitVec 3) (s : State) : Out := .next (sleepRequest s level.toNat)
/-- LEVEL_WAKE_REQUEST. -/
def execLevelWakeRequest (level : BitVec 3) (s : State) : Out := .next (wakeRequest s level.toNat)

/-- The first cycle of a frame (R187). -/
def atFrame (s : State) : Bool := s.cyc % 64 == 0

/-- A frame boundary after the cycle in which a level's sleep or wake was asked for (R201, R202). -/
def nextFrame (s : State) (l : Nat) : Bool := atFrame s && decide ((s.level l).asked < s.cyc)

/-- A transfer of a level's contexts still stands in its send queue or has been sent in this cycle (R189, R201). -/
def levelSends (s : State) (l : Nat) : Bool :=
  let mine := fun (t : Transfer) => decide (t.ctx < 1024) && levelOf t.ctx == l
  s.chip.shaft.queue.any mine || s.chip.shaft.flight.any fun (c, t) => c == s.cyc && mine t

/-- A transfer applied at one level's replica. -/
def applyAt (s : State) (level : Nat) (t : Transfer) : State := applyLine s level t.line t.mask (leBytes 64 t.payload.toNat)

/-- A level whose slots are idle drops the memberships of its contexts as the log allows; once none is left it is asleep, and its barrier
inputs read as arrived (R201, R413). -/
def enterSleep (s : State) (l : Nat) : State :=
  let s := (levelCtxs l).foldl forcedDrops s
  if (levelCtxs l).any fun g => !(memberships s g).isEmpty then s
  else (List.range 8).foldl (fun s n => armBarrier s n s.cyc) (s.mapLevel l fun x => { x with power := .asleep })

/-- LEVEL_SLEEP_FREEZE: at the next frame boundary with the send queues empty, the replica freezes holding every transfer of earlier frames,
and the level's slots are idle from then on, that cycle's among them; its memberships are then dropped and it sleeps (R201). -/
def execLevelSleepFreeze (level : BitVec 3) (s : State) : Out :=
  let l := level.toNat
  if (s.level l).power = .freezing then .next (enterSleep s l)
  else if (s.level l).power != .draining || !nextFrame s l || levelSends s l then .next s
  else
    let s := (s.chip.shaft.flight.filter fun (c, _) => decide (c < s.cyc)).foldl (fun s (_, t) => applyAt s l t) s
    .next (enterSleep (s.mapLevel l fun x => { x with power := .freezing }) l)

/-- The master copied into a level's replica (R202). -/
def copyMaster (rep : List Host.Cell) (l : Nat) : List Host.Cell :=
  (rep.filter fun x => decide (x.1 < l * 0x100000)) ++
  (rep.filter fun x => decide (8 * 0x100000 ≤ x.1) && decide (x.1 < 9 * 0x100000)).map (fun x => (x.1 - 8 * 0x100000 + l * 0x100000, x.2)) ++
  (rep.filter fun x => decide ((l + 1) * 0x100000 ≤ x.1))

/-- WAKE_REPLICA_COPY: at the next frame boundary the master is copied into the replica of a level that wakes; transfers applied from then on are
buffered for it (R202). -/
def execWakeReplicaCopy (level : BitVec 3) (s : State) : Out :=
  let l := level.toNat
  if (s.level l).power != .waking || !nextFrame s l then .next s
  else
    let bad := s.chip.repPoison.filter fun k => decide (k / 0x4000 ≠ l)
    let s : State := { s with
      rep := copyMaster s.rep l
      chip := { s.chip with repPoison := bad ++ (bad.filter fun k => k / 0x4000 == 8).map fun k => l * 0x4000 + k % 0x4000 } }
    .next (s.mapLevel l fun x => { x with power := .refilling, buffered := [] })

/-- WAKE_COMPLETE: the buffered transfers are applied in order, and the level is awake (R202). -/
def execWakeComplete (level : BitVec 3) (s : State) : Out :=
  let l := level.toNat
  if (s.level l).power != .refilling then .next s
  else
    let s := (s.level l).buffered.foldl (fun s t => applyAt s l t) s
    let s := s.mapLevel l fun x => { x with power := .awake, buffered := [] }
    .next (tryReserveAll s (BitVec.ofNat 256 ((2 ^ 32 - 1) * 2 ^ (32 * l))))

/-! ## Routing tables (R196, R198) -/

/-- A routing entry as reset leaves it: ACT 5 (R196). -/
def routeReset : Lane := 5
/-- The routing entry with a key. -/
def Net.route (n : Net) (k : Nat) : Lane := Tab.get routeReset n.routes k
/-- The shadow entry with a key; ROUTEDATA resets to 0 (R257). -/
def Net.shadowAt (n : Net) (k : Nat) : Lane := Tab.get 0 n.shadow k
/-- The level of a routing key. -/
def routeLevel (k : Nat) : Nat := k / 768

/-- A request for drain-and-swap (R198): refused while one is in progress and on a shadow table that holds a reserved ACT. -/
def swapRequest (s : State) (v : Word) : State :=
  let lv : BitVec 8 := v.setWidth 8
  let bad := s.chip.net.shadow.any fun (k, e) => lv.getLsbD (routeLevel k) && decide (6 ≤ bits e 2 0)
  if s.chip.net.swap.isSome || bad then s.onSup fun x => { x with routeRefused := true }
  else (s.onNet fun n => { n with swap := some lv }).onSup fun x => { x with routeRefused := false }

/-- ROUTESWAP. -/
def execRouteswap (a : SReg) (s : State) : Out := s.supervised fun s => swapRequest s (s.rS a)

/-- A stop has injected some of a packet's flits and not yet all: the flit at its head is not a packet's first (R193). -/
def begun (l : List Flit) : Bool := match l with | f :: _ => f.ix != 0 | [] => false

/-- No flit occupies the viaducts or the winze routers of the levels, and no stop of theirs is in the middle of a packet, which all goes the same
way (R193, R198): a winze queue belongs to the levels at both of its ends, a packet coming whole by a winze to the router it comes to. -/
def drainedLevels (n : Net) (lv : BitVec 8) : Bool :=
  n.pos.all (fun (k, _) => !lv.getLsbD (k / 24)) && n.asm.all (fun (k, _) => !lv.getLsbD (k % 8)) &&
  n.inject.all (fun (k, l) => !lv.getLsbD (k / 12) || !begun l) &&
  n.winze.all fun (k, q) => q.isEmpty || !(lv.getLsbD (k / 2) || lv.getLsbD (if k % 2 = 0 then k / 2 + 1 else k / 2 - 1))

/-- A table with the entries of the levels of a mask replaced. -/
def withLevels (lv : BitVec 8) (t : Tab Lane) (f : Nat → Lane) : Tab Lane :=
  (t.filter fun (k, _) => !lv.getLsbD (routeLevel k)) ++ ((List.range 6144).filter fun k => lv.getLsbD (routeLevel k)).map fun k => (k, f k)

/-- ROUTE_SWAP_COMPLETE: once the levels have drained, their tables and shadows change places in one cycle (R198). -/
def execRouteSwapComplete (s : State) : Out :=
  match s.chip.net.swap with
  | none => .next s
  | some lv =>
    if !drainedLevels s.chip.net lv then .next s
    else
      .next (s.onNet fun n => { n with swap := none, routes := withLevels lv n.routes n.shadowAt, shadow := withLevels lv n.shadow n.route })

/-! ## Barrier tags (R200) -/

/-- A write of BARCFG: the tag named is configured from the staged mask, or refused while it has arrivals pending (R200, R257). -/
def configureBarrier (s : State) (v : Word) : State :=
  let n := bits v 2 0
  let b := s.barrier n
  if !v.getLsbD 11 then s
  else if !b.arrivals.isEmpty || b.releaseAt.isSome then s.onSup fun x => { x with barRefused := true }
  else (s.mapBarrier n fun b => { b with set := true, job := bits v 8 3, mask := s.chip.sup.barmask, cnt := bits v 10 9 + 1 }).onSup fun x =>
    { x with barRefused := false }

/-- BARCFG. -/
def execBarcfg (a : SReg) (s : State) : Out := s.supervised fun s => configureBarrier s (s.rS a)

/-! ## Containment (R218) -/

/-- A context of a core that is reset: killed with 0x1A, a reserved one with its launch, a saved or free one left as it is (R166, R218). -/
def containCtx (core : Nat) (s : State) (g : Nat) : State :=
  let c := s.ctx g
  let r := s.recordOf g 0x1A 1 0 (BitVec.ofNat 64 core)
  match c.status with
  | .free | .saved => s
  | .reserved =>
    let s := s.mapLaunch c.cr.launch.toNat fun l => { l with failed := true, done := true, holds := l.holds.filter (· != core) }
    freeCtx (s.post r) g
  | _ => if c.killed then s else killFatal s g r

/-- A containment reset of a core, with its record in the error log (R218, R220). -/
def containCore (s : State) (core : Nat) (asked : Bool) : State :=
  if (s.core core).resetting then s
  else
    let s := s.mapCore core fun c => { c with resetting := true }
    let s := (coreCtxs core).foldl (containCtx core) s
    s.cerRecord { type := 0x06, cls := 10, unit := core, detail := if asked then 1 else 0 }

/-- CONTAIN. -/
def execContain (a : SReg) (s : State) : Out := s.supervised fun s => containCore s (bits (s.rS a) 7 0) true

/-- CORE_LOGIC_UNCORRECTABLE. -/
def execCoreLogicUncorrectable (core : BitVec 8) (s : State) : Out := .next (containCore s core.toNat false)

/-- CONTAINMENT_COMPLETE: once every killed context is free, the core is back and claims on its context 3 are met (R218, R58). -/
def execContainmentComplete (core : BitVec 8) (s : State) : Out :=
  let c := core.toNat
  if !(s.core c).resetting || (coreCtxs c).any (fun g => let st := (s.ctx g).status; st != .free && st != .saved) then .next s
  else .next (tryReserve (s.mapCore c fun x => { x with resetting := false }) c)

end Sys2Proof.Machine
end

