-- ==== Sys2Proof/Machine/System.lean ====
section
/-! DEFINITION. System instructions: TRAP, HALT, the control registers, PROBE, LOGMARK (R125, R254 to R258, R328 to R331). -/

namespace Sys2Proof.Machine

/-- TRAP (R328, R205): its own slot has executed. -/
def execTrap (imm : BitVec 29) (s : State) : Out :=
  let r := s.recordHere 0x01 0 7 0 (imm.setWidth 64)
  .next (s.stopWith { r with done := r.done ||| Slot.doneBit s.cur.slot } true)

/-- HALT: the context stops once its bundle has taken effect (R328). -/
def execHalt (s : State) : Out := .next (s.onCur fun f => { f with halted := true })

/-! ## Reading control registers (R256, R257) -/

/-- A context register of context g (R256, R173); dq is popped by DQ_POP alone. DQCNT counts the entries on their way too, in its four bits
(R254). -/
def ctxReg (s : State) (g n : Nat) : Word :=
  let c := s.ctx g
  match n with
  | 0x000 => BitVec.ofNat 64 g
  | 0x001 => c.cr.job.setWidth 64
  | 0x002 => if isForeman g then 0 else c.cr.launch.setWidth 64
  | 0x003 => c.cr.iterno.setWidth 64
  | 0x008 => BitVec.ofNat 64 (modeOf s g + 4 * bits c.cr.mode 2 2)
  | 0x010 => c.cr.fpstat.setWidth 64
  | 0x018 => c.cr.wdog.setWidth 64
  | 0x020 => c.cr.key0
  | 0x021 => c.cr.key1
  | 0x022 => c.cr.rngctr
  | 0x028 => (ringOf s g).1
  | 0x029 => BitVec.ofNat 64 (ringOf s g).2
  | 0x02A => c.cr.logwr
  | 0x02B => c.cr.logrd
  | 0x031 => BitVec.ofNat 64 ((c.dq.length + c.dqComing) % 16)
  | 0x040 => c.cr.blockno.setWidth 64
  | 0x048 => (match c.loops with | e :: _ => e.lc | [] => 0).setWidth 64
  | 0x049 => (match c.loops with | e :: _ => e.ec | [] => 0).setWidth 64
  | 0x04A => c.lr.setWidth 64
  | _ => 0

/-- The job whose registers the context of the bundle being issued reaches (R255). -/
def State.target (s : State) : Nat := if s.isSup then s.selected else s.me.cr.job.toNat

/-- A log register of the kernel context that CTXSEL of a job names (R257). -/
def selectedLog (s : State) (j : Nat) (size : Bool) : Word :=
  let g := bits ((s.job j).reg 0x101) 10 0
  if 1024 ≤ g then 0 else if size then (s.ctx g).cr.logsize.setWidth 64 else (s.ctx g).cr.logbase

/-- Job registers that a job's own foreman may read (R257). -/
def foremanReads (n : Nat) : Bool :=
  [0x100, 0x101, 0x102, 0x103, 0x104, 0x105, 0x108, 0x109, 0x10A, 0x10C, 0x10E, 0x10F].contains n || (decide (0x115 ≤ n) && decide (n ≤ 0x11F))

/-- A job register of job j as the supervisor reads it (R257, R258). -/
def jobReg (s : State) (j n : Nat) : Word :=
  let x := s.job j
  match n with
  | 0x102 => selectedLog s j false
  | 0x103 => selectedLog s j true
  | 0x114 => if x.commitRefused then 1 else 0
  | 0x120 => BitVec.ofNat 64 ((if x.startRefused then 2 else 0) + if x.started then 1 else 0)
  | _ => x.reg n

/-- The routing key that ROUTEIX selects; stops 12 to 15 do not exist (R196, R257). -/
def Sup.routeKey (x : Sup) : Option Nat :=
  let stop := bits x.routeix 6 3
  if stop < 12 then some (64 * stopKey (bits x.routeix 2 0) stop + bits x.routeix 12 7) else none

/-- Bits of the levels that satisfy p. -/
def levelBits (s : State) (p : Level → Bool) : Nat := (List.range 8).foldl (fun n l => n + if p (s.level l) then 2 ^ l else 0) 0

/-- A package register as the supervisor reads it (R257). -/
def pkgReg (s : State) (n : Nat) : Word :=
  let x := s.chip.sup
  match n with
  | 0x140 => x.tsbase
  | 0x141 => x.tscfg.setWidth 64
  | 0x148 | 0x149 | 0x14A | 0x14B => s.chip.shaft.staged.extractLsb' (64 * (n - 0x148)) 64
  | 0x14C => if s.chip.shaft.refused then 1 else 0
  | 0x151 => x.codestat
  | 0x158 => BitVec.ofNat 64 ((if x.levelRefused then 65536 else 0) + 256 * levelBits s Level.busy +
      levelBits s fun l => l.power == .awake && !l.mappedOut)
  | 0x160 => x.routeix.setWidth 64
  | 0x161 => match x.routeKey with | some k => (s.chip.net.shadowAt k).setWidth 64 | none => 0
  | 0x162 => BitVec.ofNat 64 ((if x.routeRefused then 2 else 0) + if s.chip.net.swap.isSome then 1 else 0)
  | 0x168 | 0x169 | 0x16A | 0x16B => x.barmask.extractLsb' (64 * (n - 0x168)) 64
  | 0x16C => if x.barRefused then 1 else 0
  | _ => 0

/-- The value GETC gives, FPSTAT and LR at the bundle's issue tick (R243, R255 to R257). -/
def controlRead (s : State) (n : Nat) : Word :=
  if n = 0x010 then s.operands.fpstat.setWidth 64
  else if n = 0x04A then s.operands.lr.setWidth 64
  else if n < 0x100 then ctxReg s s.cur.ctx n
  else if s.cur.ctx < 1024 then 0
  else if 0x140 ≤ n then (if s.isSup then pkgReg s n else 0)
  else if n = 0x100 then BitVec.ofNat 64 s.target
  else if s.isSup || foremanReads n then jobReg s s.target n
  else 0

/-- GETC (R329). -/
def execGetc (d : SReg) (num : BitVec 12) (s : State) : Out := s.resS 2 d (controlRead s num.toNat)

/-- GETC of DQ: the oldest value, popped; zero and no pop where there is none (R254). -/
def execDqPop (d : SReg) (s : State) : Out :=
  match s.me.dq with
  | [] => s.resS 2 d 0
  | v :: r => (s.mapMe fun c => { c with dq := r }).resS 2 d v

/-! ## Writing control registers (R255 to R258) -/

/-- The bits of a job register that are fields of it (R257). SHWIN's CNT has bit 30 too, or it could not hold the 16,384 of R191 (log
entry 48). -/
def jobMask (n : Nat) : Word :=
  match n with
  | 0x101 => 0x7FF
  | 0x104 | 0x11A => 0x00FFFFFFFFFFFFFF
  | 0x105 => 0x3F
  | 0x108 => 0x00FFFFFFFFFFF01F
  | 0x109 | 0x10A => 0x00FFFFFFFFFF0000
  | 0x10B => 0x000FFFFFFFFF0000
  | 0x10C => 0xFFFFFFFF00000FFF
  | 0x10D => 0x000FFFFFFFFFF01F
  | 0x10E | 0x112 => 0xFFFFFFFF
  | 0x10F => 0x37
  | 0x111 => 0x1FFFFF
  | 0x113 => 0x3FFF
  | 0x115 => 0x003FFFFF003FFFFF
  | 0x116 => 0x7FFF3FFF
  | 0x117 => 0x003FFFFFFFFFFFFF
  | 0x118 => 0x1FFFFF
  | 0x119 => 0x1FFFFFFFF
  | 0x110 | 0x11B | 0x11C | 0x11D | 0x11E | 0x11F => BitVec.allOnes 64
  | _ => 0

/-- A base and a count name units below a limit. -/
def below (base count limit : Nat) : Bool := decide (base + count ≤ limit)

/-- The ranges that R257 gives the fields of an allotment, and the units there are: SCRSHARE in steps of 64 KiB within 3 MiB, SHWIN none or 128
to 16,384 lines, phasers, tokens, at most 128 ASIDs and the request indices. R257 does not say that a value outside them is ignored: the model's
choice, after R255 (R15, R22, R60, R191; log entry 48). -/
def allotmentOk (n : Nat) (v : Word) : Bool :=
  match n with
  | 0x115 => bits v 53 32 % 0x10000 == 0 && bits v 21 0 % 0x10000 == 0 && below (bits v 21 0) (bits v 53 32) 0x300000
  | 0x116 => bits v 30 16 == 0 || (decide (128 ≤ bits v 30 16) && below (bits v 13 0) (bits v 30 16) 16384)
  | 0x117 => below (bits v 11 0) (bits v 24 12) 4096 && below (bits v 38 25) (bits v 53 39) 16384
  | 0x118 => decide (bits v 20 13 < 128) && below (bits v 12 0) (bits v 20 13 + 1) 8192
  | 0x119 => below (bits v 15 0) (bits v 32 16) 65536
  | _ => true

/-- The write of a job register is ignored: a value outside its range, or a condition that fails (R173, R232, R257; DEMPOOL as TRAPQ). -/
def jobWriteIgnored (x : Job) (n : Nat) (v : Word) : Bool :=
  let lg := bits v 4 0
  let ring := (x.reg 0x105).toNat
  match n with
  | 0x104 => decide (2 ≤ x.fmode)
  | 0x105 => decide (2 ≤ x.fmode) || (v.setWidth 6 != 0 && (decide (bits v 5 0 < 12) || decide (30 < bits v 5 0)))
  | 0x108 => lg != 0 && (decide (lg < 13) || decide (24 < lg))
  | 0x10C => bits v 11 0 == 0 || decide (2048 < bits v 11 0)
  | 0x10D => lg != 0 && (decide (lg < 12) || decide (24 < lg))
  | 0x10F => bits v 5 4 == 1 || (decide (2 ≤ bits v 5 4) && (decide (ring < 12) || decide (30 < ring)))
  | 0x115 | 0x116 | 0x117 | 0x118 | 0x119 => x.started || !allotmentOk n v
  | 0x11A | 0x11B | 0x11C | 0x11D | 0x11E | 0x11F => x.started
  | _ => false

/-- A phaser or token range, objects not in the old range put in the state of an allotment: phase 0, no member, FREE, turn 0, order counts 0
(R150, R171, R178). -/
def allotSync (s : State) (j : Nat) (old new : Word) : State :=
  let within := fun (v : Word) (hi lo chi clo n : Nat) => decide (bits v hi lo ≤ n) && decide (n < bits v hi lo + bits v chi clo)
  let freshP := fun n => within new 11 0 24 12 n && !within old 11 0 24 12 n
  let freshT := fun n => within new 38 25 53 39 n && !within old 38 25 53 39 n
  let s := s.onChip fun c => { c with
    phasers := c.phasers.filter fun (n, _) => !freshP n
    tokens := c.tokens.filter fun (n, _) => !freshT n }
  s.mapJob j fun x => { x with counts := x.counts.filter fun (k, _) =>
    !((k / 2 ^ 64 == 1 && freshP (k % 2 ^ 64)) || (k / 2 ^ 64 == 2 && freshT (k % 2 ^ 64))) }

/-- A SETC of the supervisor to a job register of job j (R257). -/
def setJobReg (s : State) (j n : Nat) (v : Word) : State :=
  let x := s.job j
  match n with
  | 0x114 => stageCommit s j v
  | 0x120 => startJob s j v
  | _ =>
    if jobWriteIgnored x n v || jobMask n == 0 then s
    else
      let s := if n = 0x117 then allotSync s j (x.reg 0x117) v else s
      s.mapJob j fun x => x.setReg n (v &&& jobMask n)

/-- One 64-bit part of a 256-bit register replaced. -/
def setQuarter (x : BitVec 256) (i : Nat) (v : Word) : BitVec 256 :=
  let sh := 64 * i
  (x &&& ~~~(((BitVec.allOnes 64).setWidth 256) <<< sh)) ||| ((v.setWidth 256) <<< sh)

/-- A SETC of the supervisor to a package register (R257). -/
def setPkgReg (s : State) (n : Nat) (v : Word) : State :=
  match n with
  | 0x140 => s.onSup fun x => { x with tsbase := v &&& 0x000FFFFFFFFFFF80 }
  | 0x141 => if 10 ≤ bits v 4 0 ∧ bits v 4 0 ≤ 20 then s.onSup fun x => { x with tscfg := v.setWidth 5 } else s
  | 0x148 | 0x149 | 0x14A | 0x14B => s.onChip fun c => { c with shaft := { c.shaft with staged := setQuarter c.shaft.staged (n - 0x148) v } }
  | 0x14C => commitTable s v
  | 0x150 => codemap s v
  | 0x158 => levelpwr s v
  | 0x160 => s.onSup fun x => { x with routeix := v.setWidth 13 }
  | 0x161 =>
    match s.chip.sup.routeKey with
    | some k => s.onNet fun t => { t with shadow := Tab.set t.shadow k (v.setWidth 32 &&& 0x803FFE07) }
    | none => s
  | 0x162 => swapRequest s v
  | 0x168 | 0x169 | 0x16A | 0x16B => s.onSup fun x => { x with barmask := setQuarter x.barmask (n - 0x168) v }
  | 0x16C => configureBarrier s v
  | 0x170 => containCore s (bits v 7 0) true
  | _ => s

/-- CTXLOGBASE or CTXLOGSIZE of the context that CTXSEL of job j selects: free, and on a core of the job's partition (R257). -/
def setSelectedLog (s : State) (j : Nat) (size : Bool) (v : Word) : State :=
  let x := s.job j
  let g := bits (x.reg 0x101) 10 0
  if 1024 ≤ g || !x.partition.getLsbD (g / 4) || (s.ctx g).status != .free then s
  else s.mapCtx g fun c => { c with cr :=
    (if size then { c.cr with logsize := v.setWidth 6 } else { c.cr with logbase := v &&& 0x00FFFFFFFFFFFFFF }) }

/-- A SETC of the supervisor as the host's SETREG makes it for job j (R231, R257). -/
def supervisorSet (s : State) (j n : Nat) (v : Word) : State :=
  if n < 0x100 then s
  else if 0x140 ≤ n then setPkgReg s n v
  else match n with
    | 0x100 => s.onSup fun x => { x with jobsel := v.setWidth 6 }
    | 0x102 => setSelectedLog s j false v
    | 0x103 => setSelectedLog s j true v
    | _ => setJobReg s j n v

/-- A context register's write lands a tick after issue; read-only ones ignore it (R255, R256, R258). -/
def State.ctlWrite (s : State) (n : BitVec 12) (v : Word) : State := s.result 1 [.ctl n v]

/-- SETC of a register with no row of its own (R329). -/
def execSetc (num : BitVec 12) (a : SReg) (s : State) : Out :=
  let n := num.toNat
  let v := s.rS a
  if n < 0x100 then .next (if n = 0x008 ∨ n = 0x018 ∨ n = 0x040 then s.ctlWrite num v else s)
  else if s.isSup then .next (supervisorSet s s.selected n v)
  else if isForeman s.cur.ctx && n == 0x101 then .next (setJobReg s s.me.cr.job.toNat n v)
  else .next s

/-- SETC of FPSTAT (R113, R258). -/
def execFpstatWrite (a : SReg) (s : State) : Out := .next (s.ctlWrite 0x010 (s.rS a))

/-- SETC of RNGKEY0, RNGKEY1 or RNGCTR, by number (R100, R101, R258). -/
def execRngControlWrite (r : BitVec 2) (a : SReg) (s : State) : Out := .next (s.ctlWrite (0x020 + r.setWidth 12) (s.rS a))

/-- SETC of CTXLOGBASE or CTXLOGSIZE (R257, R258). -/
def execCtxlogWrite (size : Bool) (a : SReg) (s : State) : Out :=
  .next (if isForeman s.cur.ctx then setSelectedLog s s.target size (s.rS a) else s)

/-! ## PROBE and LOGMARK -/

/-- The access kind a PROBE names (R285). -/
def probeAccess : ProbeKind → Access
  | .r => .read | .w => .write | .a => .atomic | .x => .exec

/-- The status of a lookup for a kind (R330), or the poison it consumes. -/
def probeStatus (s : State) (va : Word) (k : ProbeKind) : Except Bad Nat :=
  match lookup s (asidOf s s.cur.ctx) va with
  | .poison p => .error { code := 0x11, acc := (probeAccess k).acc, addr := va, info := BitVec.ofNat 64 p }
  | .miss => .ok 1
  | .hit e pa _ =>
    let wr := e.getLsbD 61 && !codeBlocked s pa
    let ok := match k with
      | .r => e.getLsbD 60
      | .w => wr
      | .a => e.getLsbD 60 && wr
      | .x => e.getLsbD 62 && (codeAccepted s pa).isSome
    if !ok then .ok 2
    else if e.getLsbD 57 && (k == .w || k == .a) then .ok 5
    else if k == .a && !e.getLsbD 63 then .ok 3
    else .ok (if e.getLsbD 59 then 4 else 0)

/-- PROBE (R330). -/
def execProbe (k : ProbeKind) (nf : Bool) (d a : SReg) (off : BitVec 18) (s : State) : Out :=
  let va := s.adr a off
  s.try (probeStatus s va k) fun st =>
    if nf then s.resS 1 d (BitVec.ofNat 64 st)
    else if st = 0 ∨ st = 4 then .next s
    else s.raise { code := if st = 3 then 0x05 else 0x07, acc := (probeAccess k).acc, addr := va }

/-- The MARK record of a context (R177, R178). -/
def markPlan (s : State) (a : SReg) : Logged := .of s s.cur.ctx recMark 0 0 (s.rS a) (countKey 5 s.cur.ctx)

/-- Whether LOGMARK may run (R331). -/
def logmarkReady (a : SReg) (s : State) : Ready := (logReady s s.cur.ctx (markPlan s a)).ready

/-- LOGMARK (R331). -/
def execLogmark (a : SReg) (s : State) : Out :=
  s.when (logmarkReady a s) fun s => s.try (logDone s s.cur.ctx (markPlan s a)) .next

end Sys2Proof.Machine
end

