-- ==== Sys2Proof/Machine/BatchFormer.lean ====
section
/-! DEFINITION. Requests, KV page tables, the batch former and the step tables, and the records its decisions take in the foreman's log
(R66 to R75, R88, R177, R181). -/

namespace Sys2Proof.Machine

/-! ## Records (R66 to R70) -/

/-- Request i. -/
def State.req (s : State) (i : Nat) : Req := Tab.get {} s.chip.reqs i
/-- s with request i changed. -/
def State.mapReq (s : State) (i : Nat) (f : Req → Req) : State := s.onChip fun c => { c with reqs := Tab.set c.reqs i (f (s.req i)) }
/-- The index lies in the job's range (R66). -/
def Job.hasReq (j : Job) (i : Nat) : Bool := decide (j.requests.1 ≤ i) && decide (i < j.requests.1 + j.requests.2) && decide (i < 65536)

/-- The 128 bytes of a record (R67). -/
def Req.bytes (q : Req) : List Byte :=
  leBytes 8 q.rid.toNat ++ [q.state, q.prio] ++ leBytes 2 0 ++ leBytes 2 q.flags.toNat ++ leBytes 2 q.slot.toNat ++ leBytes 4 q.pos.toNat ++
  leBytes 4 q.maxtok.toNat ++ leBytes 8 q.admseq.toNat ++ leBytes 8 q.kvpt.toNat ++ leBytes 8 q.xst.toNat ++ leBytes 8 q.stopset.toNat ++
  leBytes 8 q.seed.toNat ++ leBytes 2 q.asid.toNat ++ leBytes 2 0 ++ leBytes 4 q.fltcode.toNat ++ leBytes 4 q.lasttok.toNat ++ leBytes 4 0 ++
  leBytes 48 q.swarea.toNat

/-- STATE codes (R69). -/
def stQueued : BitVec 8 := 1
/-- ACTIVE. -/
def stActive : BitVec 8 := 2
/-- DEFERRED. -/
def stDeferred : BitVec 8 := 3
/-- EVICTED. -/
def stEvicted : BitVec 8 := 4
/-- FAULTED. -/
def stFaulted : BitVec 8 := 5
/-- DONE. -/
def stDone : BitVec 8 := 6
/-- SLOT of a request that holds none. -/
def noSlot : BitVec 16 := 0xFFFF
/-- A token-table entry without a token (R75). -/
def noToken : Nat := 0xFFFFFFFF

/-- The request's address space: the low 13 bits of its ASID field, which has three more than an address space's number (R67, R116; log entry
53). -/
def Req.space (q : Req) : Nat := q.asid.toNat % 8192

/-! ## KV page tables (R71, R72) -/

/-- NBLK, NHEAD and NPG of a header. -/
structure KvHeader where
  nblk : Nat
  nhead : Nat
  npg : Nat
  deriving DecidableEq, Repr

/-- The header's fields are in range (R71). -/
def KvHeader.ok (h : KvHeader) : Bool :=
  decide (1 ≤ h.nblk) && decide (h.nblk ≤ 256) && decide (1 ≤ h.nhead) && decide (h.nhead ≤ 64) && decide (1 ≤ h.npg) && decide (h.npg ≤ 65536)

/-- The header of a KV page table, as it stands. -/
def kvHeader (s : State) (asid : Nat) (kvpt : Word) : Except Bad KvHeader :=
  (readVa s asid kvpt 64).map fun bs => ⟨leNat (bs.take 2), leNat ((bs.drop 4).take 2), leNat ((bs.drop 8).take 4)⟩

/-- Address of the entry for block b, head h, kind k, page j (R71). -/
def kvEntryVa (kvpt : Word) (hd : KvHeader) (b h k j : Nat) : Word :=
  kvpt + BitVec.ofNat 64 (64 + 8 * (((b * hd.nhead + h) * 2 + k) * hd.npg + j))

/-- Virtual address of the page an entry names (R71). -/
def kvPageVa (e : Nat) : Word := BitVec.ofNat 64 (e / 65536 % 2 ^ 40 * 65536)

/-- KV demand in pages (R72); a request whose header cannot be read counts in none. -/
def demand (s : State) (q : Req) : Nat :=
  match kvHeader s q.space q.kvpt with
  | .ok h => 2 * h.nblk * h.nhead * ((q.pos.toNat + 448) / 448)
  | .error _ => 0

/-- A list of numbers from 0 to n − 1 on which p holds throughout. -/
def allBelow (n : Nat) (p : Nat → Bool) : Bool := (List.range n).all p

/-- The page that entry e names, valid or not, is poisoned: its translation has PSN, whatever rights it gives, or its lookup meets poison
(R73, R89, R121, R122, R143). -/
def pagePoisoned (s : State) (asid e : Nat) : Bool :=
  match lookup s asid (kvPageVa e) with
  | .poison _ => true
  | .hit x _ _ => x.getLsbD 59
  | .miss => false

/-- What the batch former samples of a request's pages for positions 0 to POS (R73). -/
inductive Pages | poisoned | resident | absent
  deriving DecidableEq, Repr

/-- The entry of a page, none where it cannot be read. -/
def kvEntry (s : State) (q : Req) (hd : KvHeader) (b h k j : Nat) : Option Nat :=
  match readVaNum s q.space (kvEntryVa q.kvpt hd b h k j) 8 with
  | .ok e => some e
  | .error _ => none

/-- Some page of positions 0 to POS satisfies p, p being asked of the entry. -/
def anyPage (s : State) (q : Req) (hd : KvHeader) (p : Option Nat → Bool) : Bool :=
  !allBelow hd.nblk fun b => allBelow hd.nhead fun h => allBelow 2 fun k => allBelow (min hd.npg ((q.pos.toNat + 448) / 448)) fun j =>
    !p (kvEntry s q hd b h k j)

/-- The sample of a request's pages; one whose entry cannot be read counts as absent (R73; log entry 54). -/
def samplePages (s : State) (q : Req) : Pages :=
  match kvHeader s q.space q.kvpt with
  | .error _ => .absent
  | .ok hd =>
    if anyPage s q hd (fun e => match e with | some e => pagePoisoned s q.space e | none => false) then .poisoned
    else if hd.npg < (q.pos.toNat + 448) / 448 || anyPage s q hd (fun e => match e with | some e => e % 4 != 1 | none => true) then .absent
    else .resident

/-! ## The batch former (R73) -/

/-- A list with x inserted before the first element that does not come before it. -/
def insertBy {α : Type} (before : α → α → Bool) (x : α) : List α → List α
  | [] => [x]
  | y :: r => if before y x then y :: insertBy before x r else x :: y :: r

/-- A list sorted by insertion, equals in the order they stand. -/
def sortBy {α : Type} (before : α → α → Bool) (l : List α) : List α := l.foldr (insertBy before) []

/-- How far a batch-former action has come. -/
inductive FormerStatus | ok | wait | bad (b : Bad)
  deriving DecidableEq, Repr

/-- A batch-former action: the request table as it stands, the records of its decisions and the trap records, newest first, the requests to
demote, newest first; in REPLAY how many of the records already taken it has passed, and the place in the ring. -/
structure Former where
  reqs : Tab Req
  recs : List Logged := []
  posts : List TrapRec := []
  dems : List Nat := []
  passed : Nat := 0
  place : Nat := 0
  status : FormerStatus := .ok

/-- Request i of the action. -/
def Former.req (f : Former) (i : Nat) : Req := Tab.get {} f.reqs i

/-- The indices of a job's requests in use. -/
def Former.mine (f : Former) (j : Job) : List Nat := (f.reqs.filter fun (i, q) => j.hasReq i && q.state != 0).map Prod.fst

/-- The request record of a decision (R177): SLOT, new STATE, step number. -/
def requestRecord (type flags i : Nat) (slot : BitVec 16) (st : BitVec 8) (step : Lane) (g : Nat) : Logged :=
  { type, flags, obj := BitVec.ofNat 64 i, val := step ++ (0 : BitVec 8) ++ st ++ slot, ctx := g, key := countKey 7 i }

/-- What the action works with: the state, the job, its foreman, the new step number, whether it replays, and the records it has taken. -/
structure FormerEnv where
  s : State
  j : Job
  g : Nat
  step : Lane
  replay : Bool
  past : List Logged := []

/-- The first record from place n on that is none of a tick's, which comes of itself, nor of an operation of the foreman still to take effect;
and whether it stands at place n (R177, R179, R181). -/
def peekFormer (s : State) (g : Nat) : Nat → Nat → Bool → Peek × Bool
  | 0, _, _ => (.wait, false)
  | m + 1, n, here =>
    match peekRecord s g n with
    | .record r ok =>
      if ok && !recReserved r && (bits r 26 16 == 0x7F2 || recLater s g r) then peekFormer s g m (n + 1) false
      else (.record r ok, here)
    | x => (x, here)

/-- The next record of the ring for the action. -/
def Former.peek (f : Former) (e : FormerEnv) : Peek × Bool := peekFormer e.s e.g (ringRecords (ringOf e.s e.g).2 + 1) f.place true

/-- One decision: the request changed and its record noted; in REPLAY it is one already taken, or the next record of the ring, behind which and
behind a tick's it waits, and a record that differs is a divergence (R180, R181). -/
def Former.change (f : Former) (e : FormerEnv) (type flags i : Nat) (slot : BitVec 16) (q : Req) : Former :=
  let o := requestRecord type flags i slot q.state e.step 0x7F1
  let made := { f with reqs := Tab.set f.reqs i q, recs := o :: f.recs }
  if f.status != .ok then f
  else if !e.replay then made
  else if f.passed < e.past.length then { made with passed := f.passed + 1 }
  else match f.peek e with
    | (.bad b, _) => { f with status := .bad b }
    | (.wait, _) => { f with status := .wait }
    | (.ended, _) => { f with status := .bad (o.diverges e.s (e.s.ctx e.g).cr.job.toNat 0) }
    | (.record r ok, here) =>
      if ok && recMatches r o && recVal r == o.val then (if here then { made with place := f.place + 1 } else { f with status := .wait })
      else { f with status := .bad (o.diverges e.s (e.s.ctx e.g).cr.job.toNat r) }

/-- A request-fault record of the batch former (R73, R210). -/
def formerFault (e : FormerEnv) (i : Nat) (code : BitVec 8) (addr : Word) : TrapRec :=
  { agentRecord code 3 0x7F1 (e.s.ctx e.g).cr.job.toNat 0 addr (BitVec.ofNat 64 (i + 2 ^ 16 * 5)) with acc := 0 }

/-- The token of a slot in the table read at the start. -/
def tokenAt (toks : List Byte) (slot : BitVec 16) : Nat := leNat ((toks.drop (4 * slot.toNat)).take 4)

/-- The stop-token set: its tokens, or why it cannot be used (R67, R73). -/
def stopTokens (s : State) (q : Req) : Except Bad (List Nat) :=
  match readVaNum s q.space q.stopset 4 with
  | .error b => .error b
  | .ok n =>
    if 255 < n then .error { code := 0x10 }
    else (readVa s q.space (q.stopset + 4) (4 * n)).map fun bs => numbers 4 n bs

/-- Why the Check phase faults a request: the code and the failing address (R73). -/
def checkFails (s : State) (toks : List Byte) (q : Req) : Option (BitVec 8 × Word) :=
  let code := fun (b : Bad) => if b.code = 0x11 then (0x11 : BitVec 8) else 0x10
  match kvHeader s q.space q.kvpt with
  | .error b => some (code b, q.kvpt)
  | .ok h =>
    if !h.ok then some (0x10, q.kvpt)
    else if q.state = stActive ∧ q.slot.toNat < 2048 ∧ tokenAt toks q.slot ≠ noToken then
      match stopTokens s q with
      | .error b => some (code b, q.stopset)
      | .ok _ => none
    else none

/-- A request made FAULTED, its slot released. -/
def faulted (q : Req) (code : BitVec 8) : Req := { q with state := stFaulted, fltcode := code.setWidth 32, slot := noSlot }

/-- Check, ADMSEQ ascending (R73). -/
def Former.check (f : Former) (e : FormerEnv) (toks : List Byte) : Former :=
  let qs := (f.mine e.j).filter fun i => let st := (f.req i).state; st == stQueued || st == stActive || st == stDeferred || st == stEvicted
  (sortBy (fun a b => decide ((f.req a).admseq.toNat < (f.req b).admseq.toNat)) qs).foldl (fun f i =>
    let q := f.req i
    match checkFails e.s toks q with
    | none => f
    | some (code, va) => { f.change e recRetire 0 i q.slot (faulted q code) with posts := formerFault e i code va :: f.posts }) f

/-- A slot's request after its token (R73 Retire). -/
def takeToken (s : State) (q : Req) (t : Nat) : Req :=
  if q.state = stActive ∧ t ≠ noToken then
    let pos := q.pos + 1
    let stop := match stopTokens s q with | .ok l => l.contains t | .error _ => false
    let flags := (if stop then q.flags ||| 1 else q.flags) ||| (if q.maxtok.toNat ≤ pos.toNat then 2 else 0)
    { q with lasttok := BitVec.ofNat 32 t, pos, flags }
  else q

/-- Retire, ascending slot (R73). -/
def Former.retire (f : Former) (e : FormerEnv) (toks : List Byte) : Former :=
  let bcap := bits (e.j.reg 0x10C) 11 0
  let held := (f.mine e.j).filter fun i => decide ((f.req i).slot.toNat < bcap)
  (sortBy (fun a b => decide ((f.req a).slot.toNat < (f.req b).slot.toNat)) held).foldl (fun f i =>
    let q := takeToken e.s (f.req i) (tokenAt toks (f.req i).slot)
    if q.state = stActive ∧ q.flags &&& 7 ≠ 0 then f.change e recRetire 0 i q.slot { q with state := stDone, slot := noSlot }
    else if q.state = stFaulted then f.change e recRetire 0 i q.slot { q with slot := noSlot }
    else { f with reqs := Tab.set f.reqs i q }) f

/-- The lowest free slot below BCAP (R73). -/
def Former.freeSlot (f : Former) (j : Job) : Option Nat :=
  let used := (f.mine j).map fun i => (f.req i).slot.toNat
  (List.range (bits (j.reg 0x10C) 11 0)).find? fun n => !used.contains n

/-- Held demand (R72). -/
def Former.held (f : Former) (e : FormerEnv) : Nat :=
  (f.mine e.j).foldl (fun n i => let q := f.req i; if q.state = stActive ∨ q.state = stDeferred then n + demand e.s q else n) 0

/-- KVBUD (R72, R257). -/
def Job.kvbud (j : Job) : Nat := bits (j.reg 0x10C) 63 32

/-- What the log says of the return of a request. -/
inductive LoggedReturn | yes (taken : Bool) | no | wait | bad (b : Bad)

/-- In REPLAY whether the next record is the return of request i in this step (R181). -/
def loggedReturn (e : FormerEnv) (f : Former) (i : Nat) : LoggedReturn :=
  let o := requestRecord recAdmit 1 i 0 0 0 0x7F1
  match e.past[f.passed]? with
  | some x => if x.type = o.type ∧ x.flags = o.flags ∧ x.obj = o.obj then .yes true else .no
  | none =>
    match f.peek e with
    | (.bad b, _) => .bad b
    | (.wait, _) => .wait
    | (.ended, _) => .no
    | (.record r ok, _) => if ok && recMatches r o && (recVal r).extractLsb' 32 32 == e.step then .yes false else .no

/-- Request i returned: a deferred one to its slot, an evicted one to the lowest free slot, if there is one and the budget holds it (R73). -/
def Former.readmit (e : FormerEnv) (f : Former) (i : Nat) : Former :=
  let q := f.req i
  if q.state = stDeferred then f.change e recAdmit 1 i q.slot { q with state := stActive }
  else match f.freeSlot e.j with
    | none => f
    | some n =>
      if f.held e + demand e.s q ≤ e.j.kvbud then
        f.change e recAdmit 1 i (BitVec.ofNat 16 n) { q with state := stActive, slot := BitVec.ofNat 16 n }
      else f

/-- One request of the Return phase; in REPLAY a logged return waits for its pages, and one that the log omits is withheld (R73, R181). -/
def Former.returnOne (e : FormerEnv) (f : Former) (i : Nat) : Former :=
  let q := f.req i
  let fault := f.change e recRetire 0 i q.slot (faulted q 0x11)
  if f.status != .ok then f
  else if !e.replay then
    match samplePages e.s q with
    | .poisoned => fault
    | .absent => f
    | .resident => f.readmit e i
  else match loggedReturn e f i, samplePages e.s q with
    | .yes true, _ => f.readmit e i
    | .bad b, _ => { f with status := .bad b }
    | _, .poisoned => fault
    | .wait, _ | .yes _, .absent => { f with status := .wait }
    | .yes _, .resident => f.readmit e i
    | .no, _ => f

/-- Return, ADMSEQ ascending (R73). -/
def Former.returns (f : Former) (e : FormerEnv) : Former :=
  let qs := (f.mine e.j).filter fun i => let st := (f.req i).state; st == stDeferred || st == stEvicted
  (sortBy (fun a b => decide ((f.req a).admseq.toNat < (f.req b).admseq.toNat)) qs).foldl (Former.returnOne e) f

/-- Admit, by rank, stopping at the first that cannot be admitted (R73). -/
def Former.admitList (e : FormerEnv) : Former → List Nat → Former
  | f, [] => f
  | f, i :: r =>
    let q := f.req i
    match f.freeSlot e.j with
    | none => f
    | some n =>
      if f.held e + demand e.s q ≤ e.j.kvbud then
        Former.admitList e (f.change e recAdmit 0 i (BitVec.ofNat 16 n) { q with state := stActive, slot := BitVec.ofNat 16 n }) r
      else f

/-- Admit (R73). -/
def Former.admits (f : Former) (e : FormerEnv) : Former :=
  let qs := (f.mine e.j).filter fun i => (f.req i).state == stQueued
  let before := fun (a b : Nat) =>
    let x := f.req a
    let y := f.req b
    decide (y.prio.toNat < x.prio.toNat) || (x.prio == y.prio && decide (x.admseq.toNat < y.admseq.toNat))
  Former.admitList e f (sortBy before qs)

/-- Evict, n bounding the number of requests (R73). -/
def Former.evicts (e : FormerEnv) : Nat → Former → Former
  | 0, f => f
  | n + 1, f =>
    if f.held e ≤ e.j.kvbud then f
    else
      let qs := (f.mine e.j).filter fun i => let q := f.req i; (q.state == stActive || q.state == stDeferred) && !q.flags.getLsbD 3
      let worse := fun (a b : Nat) =>
        let x := f.req a
        let y := f.req b
        decide (x.prio.toNat < y.prio.toNat) || (x.prio == y.prio && decide (y.admseq.toNat < x.admseq.toNat))
      match sortBy worse qs with
      | [] => f
      | i :: _ =>
        let q := f.req i
        let f := f.change e recEvict 0 i q.slot { q with state := stEvicted, slot := noSlot }
        Former.evicts e n { f with dems := i :: f.dems }

/-- The whole action on the request table (R73). -/
def runFormer (e : FormerEnv) (toks : List Byte) : Former :=
  let f : Former := { reqs := e.s.chip.reqs }
  let f := (((f.check e toks).retire e toks).returns e).admits e
  Former.evicts e (f.mine e.j).length f

/-! ## The step tables (R75) -/

/-- The request that holds a slot. -/
def Former.holder (f : Former) (j : Job) (slot : Nat) : Option (Nat × Req) :=
  ((f.mine j).find? fun i => (f.req i).slot.toNat == slot).map fun i => (i, f.req i)

/-- The request in a slot, ACTIVE or DEFERRED, as the tables show it. -/
def Former.shown (f : Former) (j : Job) (slot : Nat) : Option (Nat × Req) :=
  match f.holder j slot with
  | some (i, q) => if q.state = stActive ∨ q.state = stDeferred then some (i, q) else none
  | none => none

/-- Batch slots holding ACTIVE requests (R50). -/
def Former.live (f : Former) (j : Job) : Nat :=
  ((f.mine j).filter fun i => (f.req i).state == stActive && decide ((f.req i).slot.toNat < 2048)).length

/-- The bytes of the step tables (R75). -/
def stepTables (f : Former) (j : Job) (step : Lane) : List Byte :=
  let slots := List.range 2048
  let shown := slots.map fun n => f.shown j n
  let word := fun (g : Nat → Option (Nat × Req) → Nat) => ((List.zipWith g slots shown).map (leBytes 4)).flatten
  word (fun _ x => match x with | some (i, q) => (if q.state = stActive then 2 ^ 30 else 2 ^ 31) + i | none => 0) ++
  word (fun _ x => match x with | some (_, q) => if q.state = stActive then q.pos.toNat + 1 else 0 | none => 0) ++
  List.replicate 8192 0xFF ++
  word (fun n x => n * 2 ^ 16 + match x with
    | some (_, q) => (if q.state = stDeferred then 2 ^ 29 else 0) + if bits (j.reg 0x10C) 11 0 ≤ n then 2 ^ 27 else 0
    | none => 2 ^ 27) ++
  leBytes 4 (f.live j) ++ leBytes 4 step.toNat ++ List.replicate 56 0

/-- STEPBASE (R257). -/
def Job.stepbase (j : Job) : Word := BitVec.ofNat 64 (bits (j.reg 0x109) 55 16 * 0x10000)

/-- The token table, read before anything changes: a page that does not translate stops STEP with 0x07, a poisoned token sector is consumed
(R73). -/
def readTokens (s : State) (j : Job) : Except Bad (List Byte) :=
  let sb := j.stepbase
  let stop := fun (b : Bad) (va : Word) (acc : BitVec 3) => if b.code = 0x11 then b else { code := 0x07, acc, addr := va }
  match translate s j.asid sb .write with
  | .error b => .error (stop b sb 1)
  | .ok _ =>
    match readVa s j.asid (sb + 0x4000) 0x2000 with
    | .error b => .error (stop b (sb + 0x4000) 0)
    | .ok bs => .ok bs

/-- The demotions of a request's valid pages, in the order of its KV page table (R145). -/
def demotionOf (s : State) (job : Nat) (q : Req) : List Demotion :=
  match kvHeader s q.space q.kvpt with
  | .ok h => [{ job, asid := q.space, kvpt := q.kvpt, next := 0, total := 2 * h.nblk * h.nhead * h.npg }]
  | .error _ => []

/-- What STEP is to do: nothing yet; a failure; part of its records done, or its ring found at fault, and it waits for the rest; a divergence;
or the step opened. -/
inductive StepPlan
  | wait (c : Cause)
  | bad (b : Bad)
  | part (s : State)
  | diverge (s : State) (b : Bad)
  | go (s : State) (r : StepRun)

/-- Some launch of the job's current step has not completed (R50, R334). -/
def stepOpen (s : State) (j : Nat) : Bool := s.chip.launches.any fun (_, l) => l.job == j && l.step == (s.job j).stepNo

/-- What an action leads to. -/
def Former.run (f : Former) : StepRun := { reqs := f.reqs, recs := f.recs.reverse, posts := f.posts, dems := f.dems }

/-- Records of a STEP carried out in order as far as the ring lets them: the state, those left, and a failure of the ring (R175, R180). -/
def passRecords (s : State) (g : Nat) : List Logged → State × List Logged × Option Bad
  | [] => (s, [], none)
  | o :: r =>
    match logReady s g o with
    | .wait _ => (s, o :: r, none)
    | .bad b => (s, o :: r, some b)
    | .go t =>
      match logDone t g o with
      | .error b => (s, o :: r, some b)
      | .ok t => passRecords t g r

/-- A ring that fails a STEP holds it, and the foreman hears of it once (R173). -/
def stepRingFails (s : State) (j : Nat) (moved : Bool) (b : Bad) : StepPlan :=
  if (s.job j).ringFault && !moved then .wait .step else .part (ringFaulted s j (requestRecord recAdmit 0 0 0 0 0 0x7F1) b)

/-- STEP in RECORD: the action is decided when it begins; it opens the step once its records are written (R73, R175). -/
def recordStep (s : State) (g j : Nat) (run : StepRun) : StepPlan :=
  let (t, rest, err) := passRecords s g run.recs
  let moved := rest.length < run.recs.length
  let t := if moved then t.mapJob j fun x => { x with stepping := some { run with recs := rest } } else t
  match err, rest with
  | some b, _ => stepRingFails t j moved b
  | none, [] => .go t run
  | none, _ :: _ => if moved then .part t else .wait .step

/-- STEP in REPLAY: the decisions are made in phase order against the log, each taken when its record is due (R180 to R182). -/
def replayStep (s : State) (g j : Nat) (past : List Logged) (f : Former) : StepPlan :=
  let fresh := f.recs.reverse.drop past.length
  let (t, rest, err) := passRecords s g fresh
  let moved := rest.length < fresh.length
  let t := if moved then t.mapJob j fun x => { x with stepping := some { recs := past ++ fresh.take (fresh.length - rest.length) } } else t
  match err, rest, f.status with
  | some b, _, _ => stepRingFails t j moved b
  | none, [], .ok => .go t f.run
  | none, [], .bad b => if b.code = 0x08 then .diverge t b else stepRingFails t j moved b
  | none, _, _ => if moved then .part t else .wait .step

/-- The plan of STEP for job j, whose foreman is the context of the bundle being issued (R50, R73, R175, R181, R182). -/
def planStep (s : State) (j : Nat) : StepPlan :=
  let x := s.job j
  let g := s.cur.ctx
  if stepOpen s j || x.diverged then .wait .step
  else match readTokens s x with
    | .error b => .bad b
    | .ok toks =>
      let e : FormerEnv := { s, j := x, g, step := x.stepNo + 1, replay := false }
      match x.fmode with
      | 2 => recordStep s g j (x.stepping.getD (runFormer e toks).run)
      | 3 =>
        let past := match x.stepping with | some r => r.recs | none => []
        replayStep s g j past (runFormer { e with replay := true, past } toks)
      | _ => .go s (runFormer e toks).run

/-- The step opened once its records are written: request table, step tables, demotions, the new step with its snapshots, and the trap records
(R50, R73, R75, R88). -/
def openStep (s : State) (j : Nat) (r : StepRun) : State :=
  let x := s.job j
  let f : Former := { reqs := r.reqs }
  let step := x.stepNo + 1
  let s := s.onChip fun c => { c with reqs := r.reqs, dems := c.dems ++ r.dems.reverse.flatMap fun i => demotionOf s j (f.req i) }
  let s := match writeVa s x.asid x.stepbase (stepTables f x step) with | .ok s => s | .error _ => s
  let s := s.mapJob j fun x => { x with
    stepNo := step, live := BitVec.ofNat 32 (f.live x), steps := [], snapMem := s.mem, snapPoison := s.chip.poison
    snapReq := f.reqs.filter fun (i, _) => x.hasReq i, stepping := none, ringFault := false }
  r.posts.reverse.foldl State.post s

/-- A divergence of the batch former ends the job's replay: STEP stays blocked, and it is reported once (R182). -/
def formerDiverges (s : State) (j : Nat) (b : Bad) : State :=
  if (s.job j).diverged then s
  else
    let r := { agentRecord 0x08 4 0x7F1 j 0 0 0 with exp := b.exp, act := b.act }
    (s.mapJob j fun x => { x with diverged := true }).post r

/-- Whether STEP may run (R333). -/
def stepReady (s : State) : Ready :=
  match planStep s s.me.cr.job.toNat with
  | .wait c => .wait c
  | .bad b => .bad b
  | .part _ | .diverge _ _ | .go _ _ => .go

/-- STEP (R50, R333). -/
def execStep (s : State) : Out :=
  let j := s.me.cr.job.toNat
  match planStep s j with
  | .wait c => s.block c
  | .bad b => s.raise b
  | .part s => s.block .step
  | .diverge s b => (formerDiverges s j b).block .step
  | .go s r => .next (openStep s j r)

/-! ## Requests by instruction (R335, R339) -/

/-- ADMIT (R69, R335). -/
def execAdmit (d a : SReg) (s : State) : Out :=
  let i := (s.rS a).toNat
  let jn := s.me.cr.job.toNat
  let j := s.job jn
  if !j.hasReq i || (s.req i).state != 0 then s.resS 1 d 1
  else
    let s := s.mapReq i fun q => { q with state := stQueued, admseq := j.admseq, slot := noSlot, flags := q.flags &&& ~~~3, fltcode := 0 }
    let s := s.mapJob jn fun x => { x with admseq := x.admseq + 1, counts := Tab.del x.counts (countKey 7 i) }
    s.resS 1 d 0

/-- RQRD: the record stored as the foreman's store (R335). -/
def execRqrd (d a b : SReg) (s : State) : Out :=
  let i := (s.rS a).toNat
  if !(s.job s.me.cr.job.toNat).hasReq i then s.resS 1 d 1
  else s.try (plainWrite s s.cur.ctx (s.rS b) (s.req i).bytes) fun s => s.resS 1 d 0

/-- A field selected from an image by its bit of the mask. -/
def pickField {w : Nat} (mask : BitVec 12) (bit : Nat) (img : List Byte) (off n : Nat) (old : BitVec w) : BitVec w :=
  if mask.getLsbD bit then BitVec.ofNat w (leNat ((img.drop off).take n)) else old

/-- The write of selected fields breaks R70. -/
def rqwrRefused (q : Req) (mask : BitVec 12) (img : List Byte) : Bool :=
  (mask.getLsbD 3 && q.state != 0) ||
  (mask.getLsbD 11 && (img.getD 8 0 != 0 || !(q.state == stQueued || q.state == stDone || q.state == stFaulted || q.state == stEvicted) ||
    (q.state == stFaulted && q.slot != noSlot)))

/-- The record after a write of selected fields (R67, R68, R335). -/
def rqwrFields (q : Req) (mask : BitVec 12) (img : List Byte) : Req :=
  { q with
    rid := pickField mask 0 img 0x00 8 q.rid
    prio := pickField mask 1 img 0x09 1 q.prio
    flags := if mask.getLsbD 2 then (q.flags &&& 3) ||| (BitVec.ofNat 16 (leNat ((img.drop 0x0C).take 2)) &&& 0xC) else q.flags
    pos := pickField mask 3 img 0x10 4 q.pos
    maxtok := pickField mask 4 img 0x14 4 q.maxtok
    kvpt := pickField mask 5 img 0x20 8 q.kvpt
    xst := pickField mask 6 img 0x28 8 q.xst
    stopset := pickField mask 7 img 0x30 8 q.stopset
    seed := pickField mask 8 img 0x38 8 q.seed
    asid := pickField mask 9 img 0x40 2 q.asid
    swarea := pickField mask 10 img 0x50 48 q.swarea
    state := if mask.getLsbD 11 then 0 else q.state
    fltcode := if mask.getLsbD 11 then 0 else q.fltcode }

/-- RQWR (R70, R335); an unreadable image is refused. -/
def execRqwr (mask : BitVec 12) (d a b : SReg) (s : State) : Out :=
  let i := (s.rS a).toNat
  let j := s.job s.me.cr.job.toNat
  if !j.hasReq i then s.resS 1 d 1
  else match readVa s j.asid (s.rS b) 128 with
    | .error _ => s.resS 1 d 1
    | .ok img =>
      if rqwrRefused (s.req i) mask img then s.resS 1 d 1
      else (s.mapReq i fun q => rqwrFields q mask img).resS 1 d 0

/-- Whether EVICT is accepted, and its record (R339). -/
def evictPlan (s : State) (i : Nat) : Option Logged :=
  let jn := s.me.cr.job.toNat
  let q := s.req i
  if stepOpen s jn || !(s.job jn).hasReq i || !(q.state == stActive || q.state == stDeferred) then none
  else some { requestRecord recEvict 0 i q.slot stEvicted (s.job jn).stepNo 0 with ctx := s.cur.ctx }

/-- Whether EVICT may run under the log. -/
def evictReady (a : SReg) (s : State) : Ready :=
  match evictPlan s (s.rS a).toNat with
  | none => .go
  | some o => (logReady s s.cur.ctx o).ready

/-- The request with its software fields as the last STEP read them (R67). -/
def readAtStep (s : State) (jn i : Nat) : Req := (Tab.find (s.job jn).snapReq i).getD (s.req i)

/-- EVICT (R339): what the Evict phase does to one request. -/
def execEvict (d a : SReg) (s : State) : Out :=
  let i := (s.rS a).toNat
  match evictPlan s i with
  | none => s.resS 1 d 1
  | some o => s.when (evictReady a s) fun s => s.try (logDone s s.cur.ctx o) fun s =>
      let s := s.onChip fun c => { c with dems := c.dems ++ demotionOf s s.me.cr.job.toNat (readAtStep s s.me.cr.job.toNat i) }
      (s.mapReq i fun q => { q with state := stEvicted, slot := noSlot }).resS 1 d 0

end Sys2Proof.Machine
end

