-- ==== Sys2Proof/Machine/Work.lean ====
section
/-! DEFINITION. The foreman's work instructions: launching, cancelling, waiting, pre-emption, resuming, migrating (R41 to R45, R52, R54, R55,
R61, R140, R205, R332 to R338). -/

namespace Sys2Proof.Machine

/-! ## LAUNCH and GLAUNCH (R41 to R45, R332) -/

/-- The value that reports a refusal of record i (R332). -/
def refusal (why i : Nat) : Word := 0xFFFFFFFF00000000 + BitVec.ofNat 64 (why + 256 * i)

/-- A live dimension of a record has a kind (R40). -/
def dimKind (x : BitVec 2048) (d : Nat) : Nat := recDim x d / 2 ^ 62

/-- The nesting position of a dimension. -/
def nestOf (x : BitVec 2048) (d : Nat) : Nat := ((List.range 4).find? fun p => recNest x p == d).getD 4

/-- Launch id n is not yet assigned (R45). -/
def notAssigned (s : State) (n : Nat) : Bool :=
  let last := s.chip.lastLid
  if !s.chip.wrapped then decide (last < n)
  else decide (1 ≤ n) && decide (n ≤ 0x7FFFFFFF) && decide ((n + 0x7FFFFFFF - last - 1) % 0x7FFFFFFF < 2 ^ 30)

/-- A predecessor reference of record i of a graph of n records: refused, none, an earlier record of the graph, or a launch (R45). -/
inductive Dep
  | refused
  | clear
  | earlier (k : Nat)
  | launch (lid : Nat)

/-- One DEPS reference read (R45). -/
def readDep (s : State) (j : Job) (i : Nat) (graph : Bool) (v : Nat) : Dep :=
  if v = 0 then .clear
  else if 2 ^ 31 ≤ v then (if graph ∧ v % 16 < i then .earlier (v % 16) else .refused)
  else if (j.statusOf v).isSome then .launch v
  else if notAssigned s v then .refused
  else .clear

/-- The references of a record. -/
def recDeps (s : State) (j : Job) (i : Nat) (graph : Bool) (x : BitVec 2048) : List Dep :=
  (List.range 4).map fun k => readDep s j i graph (recField x (0x18 + 4 * k) 4)

/-- A page mapped executable for the job, the scanner having accepted it (R41, R121). -/
def executable (s : State) (asid : Nat) (va : Word) : Bool :=
  match lookup s asid va with
  | .hit e pa _ => (entryFails s .exec e pa).isNone
  | _ => false

/-- A context of a masked CORESET has no log ring (R173, R332). -/
def ringMissing (s : State) (cores : BitVec 256) : Bool :=
  (List.range 1024).any fun g => cores.getLsbD (g / 4) &&
    (let lg := (s.ctx g).cr.logsize.toNat; decide (lg < 12) || decide (30 < lg))

/-- The first of the reasons 1 to 11 that refuses a record, 0 where none does (R41, R332). -/
def refuseReason (s : State) (jn i : Nat) (graph : Bool) (x : BitVec 2048) : Nat :=
  let j := s.job jn
  let entry : Word := BitVec.ofNat 64 (recField x 0 8)
  let nd := recNdim x
  let dims := List.range nd
  let cores := maskedCores s jn x
  if entry.toNat % 32 ≠ 0 || !executable s j.asid entry then 1
  else if nd < 1 ∨ 4 < nd then 2
  else if !dims.all (fun d => decide (((List.range nd).filter fun p => recNest x p == d).length = 1)) then 3
  else if (List.range 4).any (fun p => decide (nd ≤ p) && (recNest x p != 0 || recDown x p)) then 4
  else if dims.any (fun d => dimKind x d == 3 || (dimKind x d == 1 && decide (16 < recDim x d % 64))) then 5
  else if dims.any (fun d => dimKind x d == 2 &&
      (let p := recDim x d / 2 ^ 60 % 4; decide (nd ≤ p) || decide (nestOf x p ≤ nestOf x d))) then 6
  else if dims.all (fun d => dimKind x d == 0) && decide (2 ^ 32 ≤ dims.foldl (fun n d => n * (recDim x d % 2 ^ 32)) 1) then 7
  else if 3 < recField x 0x13 1 ∨ 16 < recHandlers x ∨ 4096 < recField x 0x58 4 then 8
  else if cores = 0 then 9
  else if (recDeps s j i graph x).any (fun d => match d with | .refused => true | _ => false) then 10
  else if 2 ≤ recMode x ∧ ringMissing s cores then 11
  else 0

/-- The launch-private pages of a record: base and size (R39). -/
def readPriv (s : State) (asid : Nat) (x : BitVec 2048) : Except Bad (List (Nat × Nat)) :=
  let n := recField x 0x58 4
  (readVa s asid (BitVec.ofNat 64 (recField x 0x50 8)) (8 * n)).map fun bs =>
    (numbers 8 n bs).map fun v => (v / 2 ^ 16 * 2 ^ 16, v % 2)

/-- A record read and checked: its image and private pages, or its refusal value (R41, R44, R332). -/
def readRecord (s : State) (jn i : Nat) (graph : Bool) (va : Word) : Except Word (BitVec 2048 × List (Nat × Nat)) :=
  let asid := (s.job jn).asid
  match (if va.toNat % 32 = 0 then readVaNum s asid va 256 else .error { code := 0x10 }) with
  | .error _ => .error (refusal 12 i)
  | .ok v =>
    let x := BitVec.ofNat 2048 v
    let why := refuseReason s jn i graph x
    if why ≠ 0 then .error (refusal why i)
    else match readPriv s asid x with
      | .error _ => .error (refusal 12 i)
      | .ok p => .ok (x, p)

/-- n records from an address on, the first refusal deciding (R44). -/
def readRecords (s : State) (jn : Nat) (graph : Bool) (va : Word) : Nat → Nat → Except Word (List (BitVec 2048 × List (Nat × Nat)))
  | _, 0 => .ok []
  | i, n + 1 =>
    match readRecord s jn i graph va with
    | .error v => .error v
    | .ok x =>
      match readRecords s jn graph (va + 256) (i + 1) n with
      | .error v => .error v
      | .ok l => .ok (x :: l)

/-- The launch id after n (R42). -/
def lidAfter (n : Nat) : Nat := if n = 0x7FFFFFFF then 1 else n + 1
/-- The id k places after n. -/
def lidPlus (n : Nat) : Nat → Nat
  | 0 => n
  | k + 1 => lidPlus (lidAfter n) k

/-- One accepted launch, record i of a graph whose first id is given (R42 to R45). -/
def acceptOne (jn first n : Nat) (s : State) (x : Nat × BitVec 2048 × List (Nat × Nat)) : State :=
  let (i, img, priv) := x
  let j := s.job jn
  let lid := lidPlus first i
  let deps := recDeps s j i (decide (1 < n)) img
  let preds := deps.filterMap fun d => match d with
    | .earlier k => some (lidPlus first k)
    | .launch p => some p
    | _ => none
  let l : Launch := {
    job := jn, seq := j.seqNext, step := j.stepNo, graph := first, image := img, preds, active := false, order := 0, cursor := 255
    walk := none, done := false, ord := 0, count := 0, cancelled := false, failed := false, overflow := false, depfail := false
    priv, grants := [], holds := [], arrivals := [] }
  let s := s.onChip fun c => { c with
    launches := Tab.set c.launches lid l, nextLid := lidAfter lid, lastLid := lid, wrapped := c.wrapped || decide (lid < c.lastLid) }
  let window := ((lid, 0) :: j.window).take 256
  s.mapJob jn fun j => { j with
    seqNext := j.seqNext + 1, window
    graphs := Tab.set (j.graphs.filter fun (k, _) => window.any fun w => w.1 == k) lid ((List.range n).map (lidPlus first)) }

/-- Launches accepted whose predecessor has already ended other than DONE complete DEPFAIL at once (R45). -/
def failAccepted (s : State) (jn : Nat) (ids : List Nat) : State :=
  let j := s.job jn
  ids.foldl (fun s lid =>
    match Tab.find s.chip.launches lid with
    | none => s
    | some l =>
      if l.preds.any fun p => match j.statusOf p with | some st => decide (2 ≤ st) | none => false then
        failDependents 17 (retireLaunch s lid { l with depfail := true }) [lid]
      else s) s

/-- Records accepted as one graph; the first id (R42 to R45). -/
def acceptAll (s : State) (jn : Nat) (l : List (BitVec 2048 × List (Nat × Nat))) : State × Nat :=
  let first := s.chip.nextLid
  let s := (l.zipIdx.map fun (x, i) => (i, x)).foldl (acceptOne jn first l.length) s
  (failAccepted s jn ((List.range l.length).map (lidPlus first)), first)

/-- Entries of the job's launch queue in use (R43). -/
def queueUsed (s : State) (jn : Nat) : Nat := (s.chip.launches.filter fun (_, l) => l.job == jn).length

/-- Whether LAUNCH may run (R43). -/
def launchReady (s : State) : Ready := if queueUsed s s.me.cr.job.toNat < 16 then .go else .wait .launchRoom

/-- LAUNCH (R332). -/
def execLaunch (d a : SReg) (s : State) : Out :=
  s.when (launchReady s) fun s =>
    match readRecords s s.me.cr.job.toNat false (s.rS a) 0 1 with
    | .error v => s.resS 1 d v
    | .ok l => let (s, lid) := acceptAll s s.me.cr.job.toNat l; s.resS 1 d (BitVec.ofNat 64 lid)

/-- Whether GLAUNCH may run: a count outside 1 to 16 is refused without waiting (R43, R332). -/
def glaunchReady (b : SReg) (s : State) : Ready :=
  let n := (s.rS b).toNat
  if 1 ≤ n ∧ n ≤ 16 ∧ 16 < queueUsed s s.me.cr.job.toNat + n then .wait .launchRoom else .go

/-- GLAUNCH (R44, R332). -/
def execGlaunch (d a b : SReg) (s : State) : Out :=
  let n := (s.rS b).toNat
  s.when (glaunchReady b s) fun s =>
    if n < 1 ∨ 16 < n then s.resS 1 d (refusal 13 0)
    else match readRecords s s.me.cr.job.toNat true (s.rS a) 0 n with
      | .error v => s.resS 1 d v
      | .ok l => let (s, lid) := acceptAll s s.me.cr.job.toNat l; s.resS 1 d (BitVec.ofNat 64 lid)

/-! ## CANCEL and WAITC (R52, R54, R55, R334) -/

/-- The launch ids of the graph that a launch id belongs to, those of the window (R45, R54). -/
def graphOf (j : Job) (lid : Nat) : List Nat := if (j.statusOf lid).isSome then Tab.get [lid] j.graphs lid else []

/-- The launches of a unit that have not completed. -/
def pendingOf (s : State) (jn : Nat) (l : List Nat) : List Nat :=
  l.filter fun i => match Tab.find s.chip.launches i with | some x => x.job == jn | none => false

/-- The launches a unit covers (R54). -/
def unitLaunches (s : State) (jn : Nat) (u : WorkUnit) (x : Nat) : List Nat :=
  let j := s.job jn
  match u with
  | .iter => []
  | .lnch => if (j.statusOf x).isSome then pendingOf s jn [x] else []
  | .graph => pendingOf s jn (graphOf j x)
  | .step => s.chip.launches.filterMap fun (i, l) => if l.job = jn ∧ l.step = j.stepNo then some i else none
  | .job => launchesOf s jn

/-- A context that runs an iteration of the job, not yet ended (R54). -/
def cancellable (s : State) (jn g : Nat) : Bool :=
  let c := s.ctx g
  decide (g < 1024) && c.cr.job.toNat == jn && !c.endi && !c.cancelling && (c.status == .running || c.status == .stopped || c.status == .saved)

/-- CANCEL, after the completions of its cycle (R54, R55, R334). -/
def execCancel (u : WorkUnit) (d a : SReg) (s : State) : Out :=
  let jn := s.me.cr.job.toNat
  let s := completeDue s jn
  let x := (s.rS a).toNat
  match u with
  | .iter => if cancellable s jn x then (cancelCtx s x).resS 1 d 0 else s.resS 1 d 1
  | .job => if (launchesOf s jn).isEmpty then s.resS 1 d 1 else (cancelJob s jn).resS 1 d 0
  | _ =>
    let ls := unitLaunches s jn u x
    if ls.isEmpty then s.resS 1 d 1 else (cancelSet s ls).resS 1 d 0

/-- The status WAITC gives once the unit is complete; none while it is not (R52, R334). -/
def unitStatus (s : State) (jn : Nat) (u : WorkUnit) (x : Nat) : Option Nat :=
  let j := s.job jn
  match u with
  | .iter => some 1
  | .lnch =>
    match j.statusOf x with
    | some 0 => none
    | some st => some st
    | none => some (if notAssigned s x then 5 else 1)
  | .graph =>
    match j.statusOf x with
    | none => some (if notAssigned s x then 5 else 1)
    | some _ =>
      let sts := (graphOf j x).map fun i => (j.statusOf i).getD 1
      if sts.contains 0 then none else some (worstOf sts)
  | .step => if stepOpen s jn then none else some (Tab.get 1 j.steps j.stepNo.toNat)
  | .job => if (launchesOf s jn).isEmpty then some (max 1 j.worst) else none

/-- Whether WAITC may run. -/
def waitcReady (u : WorkUnit) (a : SReg) (s : State) : Ready :=
  if (unitStatus s s.me.cr.job.toNat u (s.rS a).toNat).isSome then .go else .wait .waitc

/-- WAITC (R334). -/
def execWaitc (u : WorkUnit) (d a : SReg) (s : State) : Out :=
  s.when (waitcReady u a s) fun s => s.resS 1 d (BitVec.ofNat 64 ((unitStatus s s.me.cr.job.toNat u (s.rS a).toNat).getD 1))

/-! ## Pre-emption and resumption (R61, R64, R205, R336, R337) -/

/-- The 256-bit core mask at S[b], and whether the issuer may name the job. That the mask is read without a region check in a checked mode is
the model's choice (R155, R336; log entry 61). -/
def preemptOperands (s : State) (a b : SReg) : Option (Nat × BitVec 256) :=
  let jn := bits (s.rS a) 5 0
  if !s.isSup && jn != s.me.cr.job.toNat then none
  else match readVaNum s (asidOf s s.cur.ctx) (s.rS b) 32 with
    | .error _ => none
    | .ok m => some (jn, BitVec.ofNat 256 m)

/-- PREEMPT (R61, R336): contexts of the job on the cores stop issuing at their next bundle boundary and are saved. -/
def execPreempt (d a b : SReg) (s : State) : Out :=
  match preemptOperands s a b with
  | none => s.resS 1 d 1
  | some (jn, m) =>
    let s := s.mapJob jn fun j => { j with preempted := j.preempted ||| m }
    let s := (List.range 1024).foldl (fun s g =>
      let c := s.ctx g
      if m.getLsbD (g / 4) && c.cr.job.toNat == jn && (c.status == .running || c.status == .stopped) && !c.endi then
        s.mapCtx g fun c => { c with preempting := true }
      else s) s
    s.resS 1 d 0

/-- PREEMPT.REL (R336): the mark is cleared, and restoration follows R64. -/
def execPreemptRel (d a b : SReg) (s : State) : Out :=
  match preemptOperands s a b with
  | none => s.resS 1 d 1
  | some (jn, m) => (s.mapJob jn fun j => { j with preempted := j.preempted &&& ~~~m }).resS 1 d 0

/-- The issuer may name context g: one of its own job's, or for the supervisor any job's foreman (R337). -/
def mayName (s : State) (g : Nat) : Bool :=
  let c := s.ctx g
  c.status != .free &&
  (if g < 1024 then c.cr.job == s.me.cr.job else s.isSup && decide (1024 < g) && decide (g < 1088))

/-- The resumption of a stopped context from its held record: the slots it goes on with (R205, R211). -/
def resumeCtx (s : State) (g : Nat) (skip : Bool) : State :=
  s.mapCtx g fun c =>
    match c.held with
    | none => c
    | some h =>
      let left := fun (f : Frame) =>
        if skip ∧ h.record.code ≠ 0x01 then f.rest.filter fun x => Slot.tslot x.slot != h.record.tslot else f.rest
      let kept := match h.frame with
        | some f => some { f with rest := left f }
        | none => c.kept
      { c with status := .running, held := none, kept, wdCount := 0, blocked := none, stallPosted := false }

/-- A stopped context whose held record carries the SEQ named; skip is not permitted for 0x08 (R205). -/
def resumable (c : Ctx) (seq : Word) (skip : Bool) : Bool :=
  c.status == .stopped && (match c.held with
    | some h => h.seq == some seq && !(skip && h.record.code == 0x08)
    | none => false)

/-- The action of a CTXRES on context g: 0 retry, 1 skip, 2 kill; whether it took effect or was recorded (R205, R337). -/
def resumeAction (s : State) (g : Nat) (act : BitVec 2) (seq : Word) : Option State :=
  let c := s.ctx g
  if c.status = .saved then some (s.mapCtx g fun c => { c with atRestore := some (act, seq) })
  else if !resumable c seq (act == 1) then none
  else if act = 2 then
    some (if isForeman g then killForeman s g else finishKill s g fun l => { l with cancelled := true })
  else some (resumeCtx s g (act == 1))

/-- A CTXRES of the context of the bundle being issued. -/
def ctxresBy (s : State) (d a b : SReg) (act : BitVec 2) : Out :=
  let g := (s.rS a).toNat
  if !mayName s g then s.resS 1 d 1
  else match resumeAction s g act (s.rS b) with
    | none => s.resS 1 d 1
    | some s => s.resS 1 d 0

/-- CTXRES and CTXRES.SKIP (R337). -/
def execCtxres (pt : Resume) (d a b : SReg) (s : State) : Out := ctxresBy s d a b (if pt = .skip then 1 else 0)

/-- CTXRES.KILL (R337). -/
def execCtxresKill (d a b : SReg) (s : State) : Out := ctxresBy s d a b 2

/-! ## PMIG (R140, R338) -/

/-- The translation of a page found with its way, none where it does not exist or cannot be looked up. -/
def pageWay (s : State) (asid : Nat) (va : Word) : Option (Word × Nat × Nat × Bool) :=
  match lookup s asid va with
  | .hit e pa way =>
    let big := s.peek way 8 / 2 ^ 62 % 2 == 1
    let len := pageLen (if big then 1 else 0)
    some (e, pa / len * len, way, big)
  | _ => none

/-- The destination is aligned, populated and in the other tier than the source page (R140). -/
def destinationFits (s : State) (src dst : Nat) (big : Bool) : Bool :=
  let len := pageLen (if big then 1 else 0)
  dst % len == 0 && pagePopulated s dst len && inTier2 src != inTier2 dst

/-- The start of a migration: MIG set in the source translation (R140); none where a check refuses it. -/
def startMigration (s : State) (job asid : Nat) (va : Word) (dst : Nat) (kve : Word) (pool : Option Nat) : Option State :=
  match pageWay s asid va with
  | none => none
  | some (e, src, way, big) =>
    if e.getLsbD 57 || !destinationFits s src dst big then none
    else
      let s := s.pokeNum (way + 8) 8 (e ||| (1 <<< 57)).toNat
      some (s.onChip fun c => { c with migs := c.migs ++ [{ job, asid, va, src, dst, big, way, kve, pool }] })

/-- PMIG (R338). That its descriptor is read without a region check in a checked mode is the model's choice (R155; log entry 61). -/
def execPmig (d a : SReg) (s : State) : Out :=
  match readVa s (asidOf s s.cur.ctx) (s.rS a) 32 with
  | .error _ => s.resS 1 d 1
  | .ok bs =>
    let f := fun (o n : Nat) => leNat ((bs.drop o).take n)
    match startMigration s s.me.cr.job.toNat (f 0x18 2 % 8192) (BitVec.ofNat 64 (f 0 8)) (f 8 8) (BitVec.ofNat 64 (f 0x10 8)) none with
    | none => s.resS 1 d 1
    | some s => s.resS 1 d 0

end Sys2Proof.Machine
end

