-- ==== Sys2Proof/Machine/Address.lean ====
section
/-! DEFINITION. Address arithmetic, stream registers and the row walk (R341 to R348). -/

namespace Sys2Proof.Machine

/-- AADD (R341). -/
def execAadd (d a : SReg) (imm : BitVec 23) (s : State) : Out := s.resS 1 d (s.rS a + immWord imm)

/-- AADDR (R341). -/
def execAaddr (d a b : SReg) (sh : BitVec 3) (s : State) : Out := s.resS 1 d (s.rS a + (s.rS b <<< sh.toNat))

/-! ## Fields of a stream register (R342) -/

/-- A stream register with w bits from lo replaced. -/
def setField (g : StreamBits) (lo w : Nat) (v : Nat) : StreamBits :=
  let m : StreamBits := BitVec.ofNat 256 ((2 ^ w - 1) * 2 ^ lo)
  (g &&& ~~~m) ||| (BitVec.ofNat 256 (v % 2 ^ w * 2 ^ lo))

/-- A signed 24-bit field. -/
def strideAt (g : StreamBits) (lo : Nat) : Int := (g.extractLsb' lo 24).toInt
/-- Counts of the three dimensions. -/
def streamCounts (g : StreamBits) : Nat × Nat × Nat := (bits g 195 184 + 1, bits g 207 196 + 1, bits g 219 208 + 1)
/-- The length T of the walk (R344). -/
def walkLength (g : StreamBits) : Nat := let (c0, c1, c2) := streamCounts g; c0 * c1 * c2
/-- The linear position of walk step j (R344). -/
def walkIndex (g : StreamBits) (j : Nat) : Nat :=
  let (c0, c1, _) := streamCounts g
  (bits g 231 220 + c0 * (bits g 243 232 + c1 * bits g 255 244) + j) % walkLength g
/-- The positions p0, p1, p2 of walk step j (R344). -/
def walkPos (g : StreamBits) (j : Nat) : Nat × Nat × Nat :=
  let (c0, c1, _) := streamCounts g
  let k := walkIndex g j
  (k % c0, k / c0 % c1, k / (c0 * c1))
/-- The stream with the positions of walk step j (R347, R349). -/
def streamAt (g : StreamBits) (j : Nat) : StreamBits :=
  let (p0, p1, p2) := walkPos g j
  setField (setField (setField g 220 12 p0) 232 12 p1) 244 12 p2
/-- IND (R342). -/
def indirect (g : StreamBits) : Bool := g.getLsbD 66
/-- Width of an index entry (R342). -/
def indexWidth (g : StreamBits) : Nat := if g.getLsbD 67 then 4 else 2
/-- Scratch offset of the index entry of walk step j (R344). -/
def indexOffset (g : StreamBits) (j : Nat) : Nat := 4 * bits g 87 68 + (walkPos g j).2.2 * indexWidth g
/-- The stream's format, 14 and 15 used as FP32 with IV (R94, R343). -/
def streamFmt (g : StreamBits) : Fmt × BitVec 8 := fmtRun (g.extractLsb' 56 4)

/-- NBF formats. -/
def isNbf (f : Fmt) : Bool := decide (f.code.toNat ≤ 6)

/-- Data bytes of a row (R348). -/
def rowBytes (f : Fmt) : Nat := if isNbf f then 8 * nbfM f else if f = .i8 then 64 else 128

/-- One step of a walk (R344): the row's address, its exponent pair's where the format has one, and the bank rotation. -/
structure WalkStep where
  row : Int
  exp : Option Int
  rot : Nat
  deriving DecidableEq, Repr

/-- Walk step j under a format, global or scratch, x2 being the index entry read for it where the stream is indirect (R344). -/
def walkStep (g : StreamBits) (f : Fmt) (scr : Bool) (x2 : Nat) (j : Nat) : WalkStep :=
  let (p0, p1, p2) := walkPos g j
  let x := if indirect g then x2 else p2
  let base : Int := if scr then bits g 21 0 else bits g 55 0
  let row := base + p0 * strideAt g 112 + p1 * strideAt g 136 + x * strideAt g 160
  { row
    exp := if !isNbf f then none
      else if bits g 65 64 = 1 then some (base + strideAt g 88 + 4 * walkIndex g j)
      else some (row + 8 * nbfM f)
    rot := if scr then p0 * bits g 62 60 % 16 * 64 else 0 }

/-- The index entries of walk steps 0 to n − 1, read from scratch at issue (R344). -/
def readIndexes (s : State) (gid : Nat) (g : StreamBits) : Nat → Except Bad (State × List Nat)
  | 0 => .ok (s, [])
  | n + 1 =>
    match readIndexes s gid g n with
    | .error b => .error b
    | .ok (s, l) =>
      match scrRead s gid (BitVec.ofNat 64 (indexOffset g n)) (indexWidth g) with
      | .error b => .error b
      | .ok (s, bs) => .ok (s, l ++ [leNat bs])

/-- The index entries a command captures: none where its stream is not indirect (R340, R344). -/
def captureIndexes (s : State) (gid : Nat) (g : StreamBits) (n : Nat) : Except Bad (State × List Nat) :=
  if indirect g then readIndexes s gid g n else .ok (s, [])

/-- The steps of a captured stream (R344). -/
def walkSteps (g : StreamBits) (f : Fmt) (scr : Bool) (idx : List Nat) (n : Nat) : List WalkStep :=
  (List.range n).map fun j => walkStep g f scr (idx.getD j 0) j

/-! ## Stream instructions -/

/-- A stream register's write, landing a tick after issue (R345, R347). -/
def State.resG (s : State) (g : GReg) (v : StreamBits) : Out := .next (s.result 1 [.g g v])

/-- A field group written (R345). -/
def gsetField (f : GField) (g : StreamBits) (x : Word) : StreamBits :=
  let v := x.toNat
  match f with
  | .addr => setField g 0 56 v
  | .fmt => setField g 56 4 v
  | .blk => setField g 64 2 v
  | .brot => setField g 60 3 v
  | .sstr => setField g 88 24 v
  | .str0 => setField g 112 24 v
  | .str1 => setField g 136 24 v
  | .str2 => setField g 160 24 v
  | .n0 => setField g 184 12 v
  | .n1 => setField g 196 12 v
  | .n2 => setField g 208 12 v
  | .pos => setField (setField (setField g 220 12 v) 232 12 (v / 2 ^ 12)) 244 12 (v / 2 ^ 24)

/-- GSET (R345). -/
def execGset (f : GField) (g : GReg) (a : SReg) (s : State) : Out := s.resG g (gsetField f (s.rG g) (s.rS a))

/-- GLOAD (R346). -/
def execGload (scr : Bool) (g : GReg) (a : SReg) (s : State) : Out :=
  let va := s.rS a
  if va.toNat % 32 ≠ 0 then s.raise (if scr then windowError s.cur.core va false else { code := 0x10, acc := 0, addr := va })
  else
    let r := if scr then scrRead s s.cur.ctx va 32 else plainRead s s.cur.ctx va 32
    s.try r fun (s, bs) => .next (s.coming (.regs [.g g (BitVec.ofNat 256 (leNat bs))]))

/-- GADV (R347). -/
def execGadv (g : GReg) (a : SReg) (s : State) : Out :=
  let x := s.rG g
  s.resG g (streamAt x ((s.rS a).toNat % walkLength x))

/-- GIDX (R347). -/
def execGidx (g : GReg) (a : SReg) (s : State) : Out :=
  let v := s.rS a
  s.resG g (setField (setField (setField (s.rG g) 68 20 (bits v 21 2)) 67 1 (bits v 62 62)) 66 1 (bits v 63 63))

end Sys2Proof.Machine
end

