-- ==== Sys2Proof/Machine/TileMem.lean ====
section
/-! DEFINITION. Engine commands as issue queues them, and tile loads and stores: their footprint checks at issue and their rows at completion
(R34, R340, R344, R348 to R351, R411). -/

namespace Sys2Proof.Machine

/-! ## Commands -/

/-- The engine that runs an instruction's command, none where it queues none (R34, R378, R392). -/
def Slot.engine : Slot → Option Engine
  | .a => some .a | .m => some .m | .x => some .x | _ => none

/-- A tile as the bundle being issued finds it at its issue tick (R243, R378). -/
def State.issueTile (s : State) (n : Nat) : Tile := Tab.get {} s.operands.t n

/-- The format tags and live-row counts of the tiles that an instruction reads, at its bundle's issue tick (R378). -/
def State.tags (s : State) (i : Instr) : Tab (BitVec 4 × BitVec 7) :=
  i.reads.filterMap fun r => match r with
    | .t n => some (n, (s.issueTile n).fmt, (s.issueTile n).live)
    | _ => none

/-- Whether an earlier slot of the bundle being issued writes tile n: with a command still open, or a row on its way (R243). -/
def State.writesTile (s : State) (n : Nat) : Bool :=
  ((s.core s.cur.core).commands.any fun c => c.ctx == s.cur.ctx && decide (s.cur.first ≤ c.serial) && c.instr.writes.contains (.t n)) ||
  s.me.coming.any fun x => match x.res with | .row t _ _ _ _ => t.toNat == n | _ => false

/-- The tiles an instruction reads that its bundle writes or has written, whole as they stood at the issue tick (R243). -/
def State.oldTiles (s : State) (i : Instr) : Tab Tile :=
  i.reads.filterMap fun r => match r with
    | .t n => if s.cur.ops.isSome || s.writesTile n then some (n, s.issueTile n) else none
    | _ => none

/-- A tile that a command reads: as captured at issue where its own bundle writes it; else its rows now, with the format tag and live-row count
captured at issue (R243, R378). -/
def Command.tile (c : Command) (s : State) (n : Nat) : Tile :=
  let t := (s.ctx c.ctx).tile n
  match Tab.find c.cap.olds n, Tab.find c.cap.tags n with
  | some old, _ => old
  | none, some (fmt, live) => { t with fmt, live }
  | none, none => t

/-- Every command of a core changed. -/
def Core.mapCommands (k : Core) (f : Command → Command) : Core :=
  { k with mq := k.mq.map f, xq := k.xq.map f, aq := k.aq.map f, fly := k.fly.map f, waitRows := k.waitRows.map f, late := k.late.map f }

/-- Tile n of context g about to be written by a slot of a bundle: the open commands that read it, which are of that bundle, keep it as it is
(R243, R378, R392). -/
def State.keepTile (s : State) (g n : Nat) : State :=
  let old := (s.ctx g).tile n
  s.mapCore (coreOf g) fun k => k.mapCommands fun c =>
    if c.ctx = g ∧ c.instr.reads.contains (.t n) ∧ (Tab.find c.cap.olds n).isNone = true then
      { c with cap := { c.cap with olds := Tab.set c.cap.olds n old } }
    else c

/-- The instruction being executed put in its engine's queue with the operand values it captures (R34, R340, R378, R411). -/
def State.enqueue (s : State) (e : Engine) (i : Instr) (cap : Capture) : State :=
  let c : Command := { ctx := s.cur.ctx, instr := i, cap := { cap with exposed := s.cur.exposed, tags := s.tags i, olds := s.oldTiles i }, serial := s.me.serial
                       pc := s.cur.pc, launch := s.me.cr.launch }
  s.nextSerial.mapCore s.cur.core fun k => k.setQueue e (k.queue e ++ [c])

/-- A failure of a command found while it executes: its context is killed, not precisely (R206). -/
def killCmd (s : State) (c : Command) (b : Bad) : State :=
  killFatal s c.ctx { s.recordOf c.ctx b.code 1 b.addr b.info with acc := b.acc, pc := c.pc, site := b.site }

/-- Poisoned register state consumed by a command (R216): no place in memory is named. -/
def poisonedReg : Bad := { code := 0x11 }

/-! ## Bytes of a walk step (R344) -/

/-- n bytes from a cut at 64-byte boundaries, each piece moved by a bank rotation (R344). -/
def bankPieces (a n rot : Nat) : List (Nat × Nat) :=
  if n = 0 then []
  else
    let room := 64 - a % 64
    let l := if n ≤ room then [(a, n)]
      else (a, room) :: (List.range ((n - room + 63) / 64)).map fun i => (a + room + 64 * i, min 64 (n - room - 64 * i))
    l.map fun (x, m) => (x ^^^ rot, m)

/-- The scratch pieces of n bytes at an offset that may lie anywhere; outside the scratchpad is a window error (R340). -/
def scratchPieces (core : Nat) (a : Int) (n rot : Nat) (w : Bool) : Except Bad (List (Nat × Nat)) :=
  if a < 0 ∨ 0x400000 < a + n then .error (windowError core (wrap 64 a) w)
  else .ok (bankPieces a.toNat n rot)

/-- Scratch pieces read in order, each within the share, touched and its poison consumed (R132, R340). -/
def readSpans (s : State) (g : Nat) : List (Nat × Nat) → Except Bad (State × List Byte)
  | [] => .ok (s, [])
  | (o, n) :: r =>
    if !inShare (s.job (s.ctx g).cr.job.toNat) o n then .error (windowError (coreOf g) (BitVec.ofNat 64 o) false)
    else match scrFetch s (coreOf g) o n with
      | .error b => .error b
      | .ok (s, bs) =>
        match readSpans s g r with
        | .error b => .error b
        | .ok (s, l) => .ok (s, bs ++ l)

/-- Scratch pieces written in order (R132, R340). -/
def writeSpans (s : State) (g : Nat) : List (Nat × Nat) → List Byte → Except Bad State
  | [], _ => .ok s
  | (o, n) :: r, bs =>
    if !inShare (s.job (s.ctx g).cr.job.toNat) o n then .error (windowError (coreOf g) (BitVec.ofNat 64 o) true)
    else match scrStore s (coreOf g) o (bs.take n) with
      | .error b => .error b
      | .ok s => writeSpans s g r (bs.drop n)

/-- n bytes read at a walk address, global or scratch: the region check was made at issue (R351). -/
def walkRead (s : State) (g : Nat) (scr : Bool) (rot : Nat) (a : Int) (n : Nat) : Except Bad (State × List Byte) :=
  if scr then
    match scratchPieces (coreOf g) a n rot false with
    | .error b => .error b
    | .ok l => readSpans s g l
  else (readVa s (asidOf s g) (wrap 64 a) n).map fun bs => (s, bs)

/-- Bytes written at a walk address (R351). -/
def walkWrite (s : State) (g : Nat) (scr : Bool) (rot : Nat) (a : Int) (bs : List Byte) : Except Bad State :=
  if scr then
    match scratchPieces (coreOf g) a bs.length rot true with
    | .error b => .error b
    | .ok l => writeSpans s g l bs
  else writeVa s (asidOf s g) (wrap 64 a) bs

/-- The region check of the global bytes of a walk step in a checked mode: a byte outside 0 to 2^56 − 1 translates nowhere and is unbound
(R155, R344, R351). -/
def globalCheck (s : State) (g : Nat) (a : Int) (n : Nat) (w : Bool) : Except Bad State :=
  let unbound := fun (x : Int) => Except.error { code := 0x04, acc := if w then 1 else 0, addr := wrap 64 x, info := 0xFFFF : Bad }
  if a < 0 ∨ 2 ^ 56 ≤ a then unbound a
  else
    let m := min n (2 ^ 56 - a.toNat)
    match regionCheck s g (wrap 64 a) m w with
    | .error b => .error b
    | .ok s => if m < n then unbound (2 ^ 56) else .ok s

/-- The region check of n bytes of a walk step in a checked mode: of scratch, the mapped bytes within the scratchpad (R155, R351). -/
def walkCheck (s : State) (g : Nat) (scr : Bool) (rot : Nat) (a : Int) (n : Nat) (w : Bool) : Except Bad State :=
  if modeOf s g = 0 then .ok s
  else if scr then
    let lo := (max a 0).toNat
    foldE (fun s (o, m) => checkMapped s g (coreOf g) o m w) s (bankPieces lo ((min (a + n) 0x400000).toNat - lo) rot)
  else globalCheck s g a n w

/-- The whole footprint of a tile command checked, row bytes and exponents, in walk order (R155, R160, R351). -/
def footprint (s : State) (g : Nat) (scr : Bool) (n : Nat) (w : Bool) (l : List WalkStep) : Except Bad State :=
  if modeOf s g = 0 then .ok s
  else foldE (fun s x =>
    match walkCheck s g scr x.rot x.row n w with
    | .error b => .error b
    | .ok s =>
      match x.exp with
      | none => .ok s
      | some e => walkCheck s g scr x.rot e 4 w) s l

/-! ## TLD and TST -/

/-- Rows a tile command names: all where a is s0, else at most S[a] (R349, R350). -/
def rowCount (s : State) (a : SReg) (whole : Nat) : Nat := if a = 0 then whole else min (s.rS a).toNat 64

/-- A tile command at issue: its index entries and footprint, then its place in the queue and its stream's advance (R349 to R351). -/
def tileIssue (i : Instr) (f : Fmt) (scr adv w : Bool) (g : GReg) (n : Nat) (s : State) : Out :=
  let me := s.cur.ctx
  let x := s.rG g
  s.try (captureIndexes s me x n) fun (s, idx) =>
    s.try (footprint s me scr (rowBytes f) w (walkSteps x f scr idx n)) fun s =>
      let s := s.enqueue .a i { g := x, idx, count := n }
      .next (if adv then s.result 1 [.g g (streamAt x n)] else s)

/-- TLD (R349). -/
def execTld (h : Hint) (scr adv : Bool) (t : TReg) (g : GReg) (a : SReg) (s : State) : Out :=
  tileIssue (.tld h scr adv t g a) (streamFmt (s.rG g)).1 scr adv false g (rowCount s a 64) s

/-- TST (R350): the tile's tag takes the place of FMT. -/
def execTst (h : Hint) (scr adv : Bool) (t : TReg) (g : GReg) (a : SReg) (s : State) : Out :=
  let tl := s.issueTile t.toNat
  tileIssue (.tst h scr adv t g a) (fmtRun tl.fmt).1 scr adv true g (rowCount s a tl.live.toNat) s

/-- The exponents in a pair of halfwords (R96, R349). -/
def pairExps (bs : List Byte) : BitVec 9 × BitVec 9 :=
  (BitVec.ofNat 9 (leNat (bs.take 2)), BitVec.ofNat 9 (leNat (bs.drop 2)))

/-- One row's bytes as a tile row, bytes beyond them zero; the RCW is the tile's own (R349). -/
def loadRow (s : State) (g : Nat) (scr : Bool) (f : Fmt) (x : WalkStep) (rcw : Lane) : Except Bad (State × TileRow) :=
  match walkRead s g scr x.rot x.row (rowBytes f) with
  | .error b => .error b
  | .ok (s, bs) =>
    match x.exp with
    | none => .ok (s, { data := BitVec.ofNat 1024 (leNat bs), rcw })
    | some e =>
      match walkRead s g scr x.rot e 4 with
      | .error b => .error b
      | .ok (s, ps) => .ok (s, { data := BitVec.ofNat 1024 (leNat bs), e0 := (pairExps ps).1, e1 := (pairExps ps).2, rcw })

/-- The rows loaded one by one until one fails (R349, R351). -/
def loadRows (g : Nat) (scr : Bool) (f : Fmt) : Nat → List WalkStep → State → Tile → State × Tile × Option Bad
  | _, [], s, t => (s, t, none)
  | j, x :: r, s, t =>
    match loadRow s g scr f x (t.row j).rcw with
    | .error b => (s, t, some b)
    | .ok (s, y) => loadRows g scr f (j + 1) r s (t.setRow j y)

/-- A tile whose rows from n on hold zero elements and exponents, RCWs kept (R349). -/
def Tile.clearFrom (t : Tile) (n : Nat) : Tile :=
  { t with rows := t.rows.map fun (j, r) => (j, if n ≤ j then { rcw := r.rcw : TileRow } else r) }

/-- TLD completes (R349). -/
def completeTld (scr : Bool) (t : TReg) (c : Command) (s : State) : State :=
  let (f, fl) := streamFmt c.cap.g
  match loadRows c.ctx scr f 0 (walkSteps c.cap.g f scr c.cap.idx c.cap.count) s ((s.ctx c.ctx).tile t.toNat) with
  | (s, _, some b) => killCmd s c b
  | (s, tl, none) =>
    let tl := { tl.clearFrom c.cap.count with fmt := f.code, live := BitVec.ofNat 7 c.cap.count }
    (s.setTile c.ctx t.toNat tl).mapCtx c.ctx (·.orFlags fl)

/-- One row of a tile stored: its row bytes, then its exponent pair (R350). -/
def storeRow (s : State) (g : Nat) (scr : Bool) (f : Fmt) (x : WalkStep) (r : TileRow) : Except Bad State :=
  if r.poison then .error poisonedReg
  else match walkWrite s g scr x.rot x.row (leBytes (rowBytes f) r.data.toNat) with
    | .error b => .error b
    | .ok s =>
      match x.exp with
      | none => .ok s
      | some e => walkWrite s g scr x.rot e (leBytes 2 r.e0.toNat ++ leBytes 2 r.e1.toNat)

/-- The rows stored in ascending order until one fails (R350, R351). -/
def storeRows (g : Nat) (scr : Bool) (f : Fmt) (t : Tile) : Nat → List WalkStep → State → State × Option Bad
  | _, [], s => (s, none)
  | j, x :: r, s =>
    match storeRow s g scr f x (t.row j) with
    | .error b => (s, some b)
    | .ok s => storeRows g scr f t (j + 1) r s

/-- TST completes (R350). -/
def completeTst (scr : Bool) (t : TReg) (c : Command) (s : State) : State :=
  let tl := c.tile s t.toNat
  let (f, fl) := fmtRun tl.fmt
  match storeRows c.ctx scr f tl 0 (walkSteps c.cap.g f scr c.cap.idx c.cap.count) s with
  | (s, some b) => killCmd s c b
  | (s, none) => s.mapCtx c.ctx (·.orFlags fl)

end Sys2Proof.Machine
end

