-- ==== Sys2Proof/Machine/ScratchAccess.lean ====
section
/-! DEFINITION. Scalar and vector scratch accesses, scratch regions, and rings (R352 to R362). -/

namespace Sys2Proof.Machine

/-! ## SLD, SST, VLDS, VSTS -/

/-- SLD (R352). -/
def execSld (sz : LdSize) (d a : SReg) (off : BitVec 18) (s : State) : Out :=
  s.try (scrRead s s.cur.ctx (s.adr a off) (ldWidth sz)) fun (s, bs) => .next (s.coming (.regs (s.wS d (extendLoad sz (leNat bs)))))

/-- SST (R352). -/
def execSst (sz : StSize) (d a : SReg) (off : BitVec 18) (s : State) : Out :=
  s.try (scrWrite s s.cur.ctx (s.adr a off) (leBytes (stWidth sz) (s.rS d).toNat)) fun s => .next s

/-- The window error of a vector scratch access that is not a multiple of 4 (R353). -/
def vecAligned (s : State) (off : Word) (w : Bool) : Except Bad Unit :=
  if off.toNat % 4 = 0 then .ok () else .error (windowError s.cur.core off w)

/-- VLDS (R353). -/
def execVlds (d : VReg) (a : SReg) (off : BitVec 18) (s : State) : Out :=
  let x := s.adr a off
  s.try (vecAligned s x false) fun _ =>
    s.try (scrRead s s.cur.ctx x 256) fun (s, bs) => .next (s.coming (.regs (s.wV d (BitVec.ofNat 2048 (leNat bs)))))

/-- VSTS (R353). -/
def execVsts (d : VReg) (a : SReg) (off : BitVec 18) (s : State) : Out :=
  let x := s.adr a off
  s.try (vecAligned s x true) fun _ =>
    s.try (scrWrite s s.cur.ctx x (leBytes 256 (s.rV d).toNat)) fun s => .next s

/-! ## Regions (R131 to R133, R354 to R357) -/

/-- The lowest invalid entry of a core, none where all 64 are valid (R131, R354). -/
def Core.freeEntry (c : Core) : Option Nat := (List.range 64).find? fun i => !c.entries.any fun (k, _) => k == i

/-- The status of an RMAP (R131, R354). -/
def rmapStatus (s : State) (x y : Word) : Nat :=
  let j := s.job s.me.cr.job.toNat
  let k := s.core s.cur.core
  let va := x.toNat
  let soff := bits y 21 0
  let len := bits y 43 22
  if k.freeEntry.isNone then 1
  else if len ≠ 0 ∧ k.entries.any (fun (_, e) => e.overlaps soff len) then 2
  else if 2 ^ 56 ≤ va ∨ bits y 63 44 ≠ 0 ∨ len < 16 ∨ 3145728 < len ∨ !sectorEdge va ∨ !sectorEdge (va + len) ∨ soff % 16 ≠ 0 ∨
      !inShare j soff len then 3
  else 0

/-- A core's map entry i cleared with its sectors (R131). -/
def clearEntry (s : State) (core i : Nat) : State :=
  s.mapCore core fun c => { c with map := Tab.del c.map i, sect := c.sect.filter fun (k, _) => k / 2 ^ 20 != i }

/-- RMAP (R354): the entry written with every sector INVALID. -/
def execRmap (d a b : SReg) (s : State) : Out :=
  let x := s.rS a
  let y := s.rS b
  let st := rmapStatus s x y
  match (s.core s.cur.core).freeEntry with
  | some i =>
    if st ≠ 0 then s.resS 1 d (BitVec.ofNat 64 st)
    else
      let e : MapEntry := ⟨x.toNat, bits y 43 22, bits y 21 0, asidOf s s.cur.ctx⟩
      let s := (clearEntry s s.cur.core i).mapCore s.cur.core fun c => { c with map := Tab.set c.map i e.image }
      s.resS 1 d (BitVec.ofNat 64 (256 * i))
  | none => s.resS 1 d (BitVec.ofNat 64 st)

/-- The valid entries of a core that belong to the context's job, ascending (R354). -/
def State.myEntries (s : State) : List (Nat × MapEntry) :=
  let j := s.job s.me.cr.job.toNat
  (s.core s.cur.core).entries.filter fun (_, e) => inShare j e.soff 1

/-- The sectors a range names: entry index, entry, sector (R356). -/
def State.named (s : State) (va n : Word) : List (Nat × MapEntry × Nat) :=
  s.myEntries.flatMap fun (i, e) =>
    (if n = 0 then e.sectors e.va e.len else e.sectors va.toNat n.toNat).map fun j => (i, e, j)

/-- Each sector's virtual bytes region-checked (R155, R356). -/
def checkSectors (s : State) (w : Bool) (l : List (Nat × MapEntry × Nat)) : Except Bad State :=
  foldE (fun s (_, e, j) => regionCheck s s.cur.ctx (BitVec.ofNat 64 (e.sectVa j)) (e.sectLen j) w) s l

/-- RUNMAP: its DIRTY sectors, an explicit write-back, are checked and written back, and the entry is cleared (R155, R355). -/
def execRunmap (d a : SReg) (s : State) : Out :=
  let x := s.rS a
  match (if x.toNat < 64 then s.myEntries.find? fun (i, _) => i == x.toNat else none) with
  | none => s.resS 1 d 1
  | some (i, e) =>
    s.try (checkSectors s true (((s.core s.cur.core).dirtySectors i).map fun y => (i, e, y.1))) fun s =>
      s.try (writeBackEntry s.cur.core s (i, e)) fun s => (clearEntry s s.cur.core i).resS 1 d 0

/-- RWB (R356). -/
def execRwb (d a b : SReg) (s : State) : Out :=
  let k := s.core s.cur.core
  let l := (s.named (s.rS a) (s.rS b)).filter fun (i, _, j) => match k.sector i j with | some m => m != 0 | none => false
  s.try (checkSectors s true l) fun s =>
    s.try (foldE (fun s (i, e, j) => writeBackSector s.cur.core i e s (j, ((s.core s.cur.core).sector i j).getD 0)) s l) fun s =>
      s.resS 1 d (BitVec.ofNat 64 l.length)

/-- RINV (R356). -/
def execRinv (d a b : SReg) (s : State) : Out :=
  let k := s.core s.cur.core
  let l := (s.named (s.rS a) (s.rS b)).filter fun (i, _, j) => (k.sector i j).isSome
  (l.foldl (fun s (i, _, j) => dropSector s s.cur.core i j) s).resS 1 d (BitVec.ofNat 64 l.length)

/-- RFILL (R356). -/
def execRfill (d a b : SReg) (s : State) : Out :=
  let k := s.core s.cur.core
  let l := (s.named (s.rS a) (s.rS b)).filter fun (i, _, j) => (k.sector i j).isNone
  s.try (checkSectors s false l) fun s =>
    s.try (foldE (fun s (i, e, j) => fillSector s s.cur.core i j e) s l) fun s => s.resS 1 d (BitVec.ofNat 64 l.length)

/-! ## Rings (R358 to R362) -/

/-- BASE of a handle as a scratch offset (R358). -/
def ringBase (q : RingBits) : Nat := 16 * bits q 36 19
/-- PEER (R358). -/
def ringPeer (q : RingBits) : Nat := bits q 71 61
/-- PRING (R358). -/
def ringPring (q : RingBits) : BitVec 3 := q.extractLsb' 72 3
/-- Scratch offset of slot i (R358). -/
def ringSlot (q : RingBits) (i : Nat) : Nat := ringBase q + ringSsz q * (i % ringCap q)

/-- A configured handle (R359). -/
def ringOfConfig (x y : Word) : RingBits :=
  (0 : BitVec 53) ++ y.extractLsb' 11 3 ++ y.extractLsb' 0 11 ++ x.extractLsb' 22 12 ++ x.extractLsb' 34 12 ++ x.extractLsb' 4 18 ++
  (0 : BitVec 19)

/-- The status of a QCFG (R359). -/
def qcfgStatus (s : State) (x y : Word) : Nat :=
  let j := s.job s.me.cr.job.toNat
  let base := bits x 21 0
  let size := (bits x 33 22 + 1) * (16 * (bits x 45 34 + 1))
  if base % 16 ≠ 0 ∨ !inShare j base size ∨ bits x 63 46 ≠ 0 ∨ bits y 63 14 ≠ 0 then 1
  else if bits y 10 0 ≠ 0x7FF ∧ !kernelIn j.partition (bits y 10 0) then 2
  else 0

/-- QCFG (R359). -/
def execQcfg (q : QReg) (d a b : SReg) (s : State) : Out :=
  let x := s.rS a
  let y := s.rS b
  let st := qcfgStatus s x y
  let w := s.wS d (BitVec.ofNat 64 st)
  .next (s.result 1 (if st = 0 then .q q (ringOfConfig x y) :: w else w))

/-- INFO of a ring count too great (R210). -/
def ringInfo (q : QReg) (empty : Bool) (cap n : Nat) : Word :=
  BitVec.ofNat 64 (q.toNat + (if empty then 8 else 0) + 2 ^ 8 * cap + 2 ^ 32 * n)

/-- Whether a ring wait may run: FILLED, or the room left, is at least n (R360, R211). -/
def ringReady (s : State) (q : QReg) (empty : Bool) (x : Word) : Ready :=
  let h := s.me.rQ q
  let n := bits x 31 0
  let cap := ringCap h
  if cap < n then .bad { code := 0x03, info := ringInfo q empty cap n }
  else if n ≤ (if empty then cap - ringFilled h else ringFilled h) then .go
  else .wait (.ring (q.setWidth 32))

/-- QWAITF (R360). -/
def execQwaitf (q : QReg) (a : SReg) (s : State) : Out := s.when (ringReady s q false (s.rS a)) fun s => .next s

/-- QWAITE (R360). -/
def execQwaite (q : QReg) (a : SReg) (s : State) : Out := s.when (ringReady s q true (s.rS a)) fun s => .next s

/-- QADV.H (R361): the credit leaves for the peer with the counter's advance. -/
def execQadvH (q : QReg) (a : SReg) (s : State) : Out :=
  let h := s.rQ q
  let c := min (bits (s.rS a) 31 0) (ringFilled h)
  let s := s.result 1 [.qadv q (BitVec.ofNat 20 c) 0]
  let p := ringPeer h
  if p = 0x7FF then .next s
  else .next (inject s s.cur.core [s.flit s.me.cr.job p (p / 4) 0 1 false (.credit (ringPring h) (BitVec.ofNat 20 c))])

/-- QADV.T (R361). -/
def execQadvT (q : QReg) (a : SReg) (s : State) : Out :=
  let h := s.rQ q
  .next (s.result 1 [.qadv q 0 (BitVec.ofNat 20 (min (bits (s.rS a) 31 0) (ringCap h - ringFilled h)))])

/-- A credit applied to a handle (R361). -/
def applyCredit (s : State) (g : Nat) (ring : BitVec 3) (c : BitVec 20) : State :=
  s.mapCtx g fun x =>
    let h := x.rQ ring
    { x with q := Tab.set x.q ring.toNat (ringSet h (ringTail h) (ringHead h + c)) }.noting [⟨5, ring.toNat⟩]

/-- A credit reaches its target: it waits for a saved context and behind what waits for it, and is sunk for a free one or one of another job
(R195, R361). -/
def deliverCredit (s : State) (f : Flit) : State :=
  match f.cargo with
  | .credit ring c =>
    let x := s.ctx f.target
    let lvl := levelOf f.target
    if x.status = .free ∨ x.cr.job ≠ f.part then sinkFlit s lvl f .noRoute
    else if diverts s f then toOverflow s lvl f
    else applyCredit s f.target ring c
  | _ => s

/-- An arrival in a ring: its payload in slot TAIL mod CAP and TAIL advanced, or none where the ring is full; the mapped bytes of the slot are
checked as an access by the sender, where one is given (R155, R159, R362). -/
def ringArrival (s : State) (sender : Option Nat) (g : Nat) (ring : QReg) (bs : List Byte) : Except Bad (Option State) :=
  let h := (s.ctx g).rQ ring
  let off := ringSlot h (ringTail h).toNat
  if ringFilled h ≥ ringCap h then .ok none
  else match (match sender with | some x => checkMapped s x (coreOf g) off bs.length true | none => .ok s) with
    | .error b => .error b
    | .ok s =>
      match scrStore s (coreOf g) off bs with
      | .error b => .error b
      | .ok s => .ok (some (s.mapCtx g fun x =>
          let h := x.rQ ring
          { x with q := Tab.set x.q ring.toNat (ringSet h (ringTail h + 1) (ringHead h)) }.noting [⟨5, ring.toNat⟩]))

end Sys2Proof.Machine
end

