-- ==== Sys2Proof/Machine/Vector.lean ====
section
/-! DEFINITION. The V slot: lane arithmetic, compares, lane moves, conversions, tile rows, reductions, masks and random rows
(R363 to R377). -/

namespace Sys2Proof.Machine

/-! ## Lanes -/

/-- Lane i of a vector (R249). -/
def laneOf (v : Vec) (i : Nat) : Lane := v.extractLsb' (32 * i) 32
/-- The vector of 64 lanes. -/
def ofLanes (l : List Lane) : Vec := BitVec.ofNat 2048 (packNat 32 (l.map BitVec.toNat))

/-- Every selected lane computed with its flags, the others merged from the destination at issue (R364); an instruction that can set a flag
has FPSTAT pending with its result (R114). -/
def lanewise (lat : Nat) (d : VReg) (k : KReg) (f : Nat → Lane × BitVec 8) (s : State) (flagged : Bool := true) : Out :=
  let m := s.rK k
  let old := s.rV d
  let rs := (List.range 64).map fun i => if m.getLsbD i then f i else (laneOf old i, 0)
  .next (s.result lat (s.wV d (ofLanes (rs.map Prod.fst))) (orAll (rs.map Prod.snd)) (flagged := flagged))

/-! ## FP32 (R366) -/

/-- Two FP32 operands. -/
def fpLanes2 (lat : Nat) (op : Val → Val → Val × BitVec 8) (d a b : VReg) (k : KReg) (s : State) : Out :=
  let x := s.rV a
  let y := s.rV b
  lanewise lat d k (fun i => fp32Op2 s.cur.exposed op (laneOf x i) (laneOf y i)) s

/-- One FP32 operand. -/
def fpLanes1 (lat : Nat) (op : Val → Val × BitVec 8) (d a : VReg) (k : KReg) (s : State) : Out :=
  let x := s.rV a
  lanewise lat d k (fun i => fp32Op1 s.cur.exposed op (laneOf x i)) s

/-- The magnitude of a value. -/
def Val.abs : Val → Val
  | .inf _ => .inf false
  | .fin _ n d e => .fin false n d e
  | x => x

/-- x · 2^n; beyond ±1000 the result overflows or vanishes as at ±1000. -/
def Val.scale (x : Val) (n : Int) : Val :=
  match x with
  | .fin neg m d e => .fin neg m d (e + max (-1000) (min 1000 n))
  | x => x

/-- VADD (R366). -/
def execVadd (d a b : VReg) (k : KReg) (s : State) : Out := fpLanes2 4 Val.add d a b k s
/-- VSUB (R366). -/
def execVsub (d a b : VReg) (k : KReg) (s : State) : Out := fpLanes2 4 (fun x y => x.add y.opp) d a b k s
/-- VMUL (R366). -/
def execVmul (d a b : VReg) (k : KReg) (s : State) : Out := fpLanes2 4 Val.mul d a b k s
/-- VFMA reads its destination as addend (R366). -/
def execVfma (d a b : VReg) (k : KReg) (s : State) : Out :=
  let x := s.rV a
  let y := s.rV b
  let z := s.rV d
  lanewise 4 d k (fun i => fp32Fma s.cur.exposed (laneOf x i) (laneOf y i) (laneOf z i)) s
/-- VMAX (R366). -/
def execVmax (d a b : VReg) (k : KReg) (s : State) : Out := fpLanes2 4 (Val.pick true) d a b k s
/-- VMIN (R366). -/
def execVmin (d a b : VReg) (k : KReg) (s : State) : Out := fpLanes2 4 (Val.pick false) d a b k s
/-- VABS (R366). -/
def execVabs (d a : VReg) (k : KReg) (s : State) : Out := fpLanes1 1 (fun x => (x.abs, 0)) d a k s
/-- VNEG (R366). -/
def execVneg (d a : VReg) (k : KReg) (s : State) : Out := fpLanes1 1 (fun x => (x.opp, 0)) d a k s
/-- VDIV (R366). -/
def execVdiv (d a b : VReg) (k : KReg) (s : State) : Out := fpLanes2 14 Val.div d a b k s
/-- VSQRT (R366). -/
def execVsqrt (d a : VReg) (k : KReg) (s : State) : Out := fpLanes1 14 Val.sqrt d a k s
/-- VEXP2 (R109, R366). -/
def execVexp2 (d a : VReg) (k : KReg) (s : State) : Out :=
  let x := s.rV a
  lanewise 6 d k (fun i =>
    let (v, f) := fp32F.read s.cur.exposed (laneOf x i).toNat
    let (z, g) := exp2Val s.cur.exposed v
    (z, f ||| g)) s
/-- VSCALE (R366). -/
def execVscale (d a b : VReg) (k : KReg) (s : State) : Out :=
  let x := s.rV a
  let y := s.rV b
  lanewise 2 d k (fun i => fp32Op1 s.cur.exposed (fun v => (v.scale (laneOf y i).toInt, 0)) (laneOf x i)) s

/-! ## Compares (R367) -/

/-- A mask of the selected lanes for which a condition holds (R367). -/
def maskOf (m : Word) (f : Nat → Bool) : Word :=
  BitVec.ofNat 64 (packNat 1 ((List.range 64).map fun i => if m.getLsbD i && f i then 1 else 0))

/-- An FP32 condition on flushed values, and IV of a quiet NaN under an ordering (R278, R367). -/
def fpCond (c : Cond) (x y : Val) : Bool × BitVec 8 :=
  let nan := fun (v : Val) => match v with | .nan _ => true | _ => false
  let un := nan x || nan y
  let lt := fun (u v : Val) => !un && !u.same v && u.below v
  match c with
  | .eq => (x.same y, 0)
  | .ne => (!x.same y, 0)
  | .lt => (lt x y, flagIf un fIV)
  | .le => (lt x y || x.same y, flagIf un fIV)
  | .gt => (lt y x, flagIf un fIV)
  | .ge => (lt y x || x.same y, flagIf un fIV)
  | .un => (un, 0)
  | _ => (false, 0)

/-- VCMP (R367). -/
def execVcmp (c : Cond) (d : KReg) (a b : VReg) (k : KReg) (s : State) : Out :=
  let m := s.rK k
  let x := s.rV a
  let y := s.rV b
  let rs := (List.range 64).map fun i =>
    let (u, f) := fp32F.take s.cur.exposed (laneOf x i).toNat
    let (v, g) := fp32F.take s.cur.exposed (laneOf y i).toNat
    let (r, h) := fpCond c u v
    (r, if m.getLsbD i then f ||| g ||| h else 0)
  .next (s.result 2 (wK d (maskOf m fun i => (rs.getD i (false, 0)).1)) (orAll (rs.map Prod.snd)) (flagged := true))

/-- VICMP (R367). -/
def execVicmp (c : Cond) (d : KReg) (a b : VReg) (k : KReg) (s : State) : Out :=
  let x := s.rV a
  let y := s.rV b
  .next (s.result 2 (wK d (maskOf (s.rK k) fun i => intCond c (laneOf x i) (laneOf y i))))

/-! ## Integer lanes (R368) -/

/-- Two integer operands, no flag. -/
def intLanes (lat : Nat) (op : Lane → Lane → Lane) (d a b : VReg) (k : KReg) (s : State) : Out :=
  let x := s.rV a
  let y := s.rV b
  lanewise lat d k (fun i => (op (laneOf x i) (laneOf y i), 0)) s false

/-- VIADD (R368). -/
def execViadd (d a b : VReg) (k : KReg) (s : State) : Out := intLanes 2 (· + ·) d a b k s
/-- VISUB (R368). -/
def execVisub (d a b : VReg) (k : KReg) (s : State) : Out := intLanes 2 (· - ·) d a b k s
/-- VIMUL (R368). -/
def execVimul (d a b : VReg) (k : KReg) (s : State) : Out := intLanes 3 (· * ·) d a b k s
/-- VIMIN, VIMIN.U (R368). -/
def execVimin (u : Bool) (d a b : VReg) (k : KReg) (s : State) : Out := intLanes 2 (minOf u) d a b k s
/-- VIMAX, VIMAX.U (R368). -/
def execVimax (u : Bool) (d a b : VReg) (k : KReg) (s : State) : Out := intLanes 2 (maxOf u) d a b k s
/-- VAND (R368). -/
def execVand (d a b : VReg) (k : KReg) (s : State) : Out := intLanes 2 (· &&& ·) d a b k s
/-- VOR (R368). -/
def execVor (d a b : VReg) (k : KReg) (s : State) : Out := intLanes 2 (· ||| ·) d a b k s
/-- VXOR (R368). -/
def execVxor (d a b : VReg) (k : KReg) (s : State) : Out := intLanes 2 (· ^^^ ·) d a b k s
/-- VSHL (R368). -/
def execVshl (d a b : VReg) (k : KReg) (s : State) : Out := intLanes 2 (fun x y => x <<< (y.toNat % 32)) d a b k s
/-- VSHR, VSHR.U (R368). -/
def execVshr (u : Bool) (d a b : VReg) (k : KReg) (s : State) : Out :=
  intLanes 2 (fun x y => if u then x >>> (y.toNat % 32) else x.sshiftRight (y.toNat % 32)) d a b k s

/-! ## Lane moves (R369) -/

/-- VSEL writes every lane (R369). -/
def execVsel (d a b : VReg) (k : KReg) (s : State) : Out :=
  let m := s.rK k
  let x := s.rV a
  let y := s.rV b
  .next (s.result 1 (s.wV d (ofLanes ((List.range 64).map fun i => if m.getLsbD i then laneOf x i else laneOf y i))))
/-- VBCST (R369). -/
def execVbcst (d : VReg) (a : SReg) (k : KReg) (s : State) : Out := lanewise 1 d k (fun _ => ((s.rS a).setWidth 32, 0)) s false
/-- VGETL (R369). -/
def execVgetl (lane : BitVec 6) (d : SReg) (a : VReg) (s : State) : Out := s.resS 2 d ((laneOf (s.rV a) lane.toNat).setWidth 64)
/-- VPUTL (R369). -/
def execVputl (lane : BitVec 6) (d : VReg) (a : SReg) (k : KReg) (s : State) : Out :=
  let old := s.rV d
  lanewise 2 d k (fun i => (if i = lane.toNat then (s.rS a).setWidth 32 else laneOf old i, 0)) s false
/-- VPERM (R369). -/
def execVperm (d a b : VReg) (k : KReg) (s : State) : Out :=
  let x := s.rV a
  let y := s.rV b
  lanewise 3 d k (fun i => (laneOf x ((laneOf y i).toNat % 64), 0)) s false
/-- VIOTA (R369). -/
def execViota (d : VReg) (a : SReg) (k : KReg) (s : State) : Out :=
  lanewise 1 d k (fun i => ((s.rS a).setWidth 32 + BitVec.ofNat 32 i, 0)) s false

/-! ## Random rows (R101, R365) -/

/-- The head random row of the context of the bundle being issued. -/
def State.headRow (s : State) : List (BitVec 16) := randomRow s.me.cr.key0 s.me.cr.key1 s.me.cr.rngctr
/-- RNGCTR advanced. -/
def State.advanceRng (s : State) (n : Nat) : State :=
  s.mapMe fun c => { c with cr := { c.cr with rngctr := c.cr.rngctr + BitVec.ofNat 64 n } }.noting [⟨6, 0x022⟩]

/-- The random lanes a rounding uses, and the state after they are taken (R365). -/
def State.takeRow (s : State) (rm : Round) : List (BitVec 16) × State :=
  match rm with
  | .rne => (noRow, s)
  | .sr => (s.headRow, s.advanceRng 1)

/-- VRNG (R377). -/
def execVrng (d : VReg) (k : KReg) (s : State) : Out :=
  let u := s.headRow
  lanewise 1 d k (fun i => ((u.getD i 0).setWidth 32, 0)) (s.advanceRng 1) false

/-! ## Conversions (R370) -/

/-- A lane read under a format (R370). -/
def laneVal (f : Fmt) (exposed : Bool) (x : Lane) : Val × BitVec 8 :=
  match f with
  | .fp32 => fp32F.take exposed x.toNat
  | .bf16 => bf16F.take exposed (x.toNat % 65536)
  | .fp16 => fp16F.take exposed (x.toNat % 65536)
  | .i8 => (Val.ofInt (x.extractLsb' 0 8).toInt, 0)
  | .i16 => (Val.ofInt (x.extractLsb' 0 16).toInt, 0)
  | _ => (Val.ofInt x.toInt, 0)

/-- A value rounded into a lane of a format (R370, R103). -/
def toLane (f : Fmt) (rm : Round) (u : BitVec 16) (exposed : Bool) (v : Val) : Lane × BitVec 8 :=
  let flt := fun (g : FloatFmt) => let (z, fl) := g.round rm u exposed v; (BitVec.ofNat 32 z, fl)
  let int := fun (w : Nat) => let (z, fl) := roundToInt w rm u v; (z.signExtend 32, fl)
  match f with
  | .fp32 => flt fp32F
  | .bf16 => flt bf16F
  | .fp16 => flt fp16F
  | .i8 => int 8
  | .i16 => int 16
  | _ => int 32

/-- One lane converted; RCW to and from RCW and I32 is a bit copy (R103, R370). -/
def convertLane (src dst : Fmt) (rm : Round) (u : BitVec 16) (exposed : Bool) (x : Lane) : Lane × BitVec 8 :=
  if src = .rcw ∨ dst = .rcw then (x, 0)
  else
    let (v, f) := laneVal src exposed x
    let (z, g) := toLane dst rm u exposed v
    (z, f ||| g)

/-- VCVT (R370). -/
def execVcvt (src dst : Fmt) (rm : Round) (d a : VReg) (k : KReg) (s : State) : Out :=
  let x := s.rV a
  let (u, s) := s.takeRow rm
  lanewise 3 d k (fun i => convertLane src dst rm (u.getD i 0) s.cur.exposed (laneOf x i)) s

/-! ## Tile rows (R371 to R373) -/

/-- The lanes VTR makes of a row under a format (R372). -/
def rowLanes (f : Fmt) (rm : Round) (u : List (BitVec 16)) (exposed : Bool) (r : TileRow) : List (Lane × BitVec 8) :=
  (List.range 64).map fun i =>
    match f with
    | .fp32 | .i32 | .rcw => (if i < 32 then word32 r.data i else 0, 0)
    | .i8 => ((byte8 r.data i).signExtend 32, 0)
    | .i16 => ((half16 r.data i).signExtend 32, 0)
    | _ =>
      let (v, fl) := elemVal f exposed r i
      let (z, g) := toLane .fp32 rm (u.getD i 0) exposed v
      (z, fl ||| g)

/-- VTR (R372). -/
def execVtr (rm : Round) (rc : Bool) (d : VReg) (a : TReg) (b : SReg) (s : State) : Out :=
  let t := s.me.tile a.toNat
  let r := t.row ((s.rS b).toNat % 64)
  let (f, iv) := fmtRun t.fmt
  let (u, s) := s.takeRow rm
  if (if rc then t.rows.any (fun (_, x) => x.poison) else r.poison) then s.raise poisonedReg
  else if rc then .next (s.coming (.regs (s.wV d (ofLanes ((List.range 64).map fun i => (t.row i).rcw)))) iv)
  else
    let rs := rowLanes f rm u s.cur.exposed r
    .next (s.coming (.regs (s.wV d (ofLanes (rs.map Prod.fst)))) (iv ||| orAll (rs.map Prod.snd)))

/-- The row VTW makes of a vector under a format (R373). -/
def vectorRow (f : Fmt) (rm : Round) (u : List (BitVec 16)) (exposed : Bool) (v : Vec) : TileRow × BitVec 8 :=
  let vals := fun (g : Fmt) => (List.range 64).map fun i => laneVal g exposed (laneOf v i)
  let as := fun (g : Fmt) =>
    let xs := vals g
    let (r, fl) := rowOfVals f rm u exposed (xs.map Prod.fst)
    (r, fl ||| orAll (xs.map Prod.snd))
  match f with
  | .fp32 | .i32 | .rcw => ({ data := v.extractLsb' 0 1024 }, 0)
  | .i8 | .i16 => as .i32
  | _ => as .fp32

/-- VTW (R373). -/
def execVtw (rm : Round) (rc : Bool) (d : TReg) (a : VReg) (b : SReg) (s : State) : Out :=
  let t := s.me.tile d.toNat
  let r : BitVec 6 := (s.rS b).setWidth 6
  let v := s.rV a
  let (f, iv) := fmtRun t.fmt
  let (u, s) := s.takeRow rm
  if rc then .next (s.coming (.row d r true {} ((List.range 64).map fun i => laneOf v i &&& 0x3FFFFFFF)) iv)
  else
    let (row, fl) := vectorRow f rm u s.cur.exposed v
    .next (s.coming (.row d r false row []) (iv ||| fl))

/-! ## Reductions (R110, R374) -/

/-- Adjacent values combined, one level of the tree (R110). -/
def pairUp (f : Lane → Lane → Lane × BitVec 8) : List (Lane × BitVec 8) → List (Lane × BitVec 8)
  | x :: y :: r => let (z, g) := f x.1 y.1; (z, x.2 ||| y.2 ||| g) :: pairUp f r
  | l => l

/-- The fixed tree of six levels over 64 lanes (R110). -/
def reduceTree (f : Lane → Lane → Lane × BitVec 8) (l : List Lane) : Lane × BitVec 8 :=
  (times (pairUp f) 6 (l.map fun x => (x, (0 : BitVec 8)))).headD (0, 0)

/-- The FP32 encoding of a value that is one. -/
def fp32Of (v : Val) : Lane := BitVec.ofNat 32 (fp32F.round .rne 0 false v).1

/-- x comes before y in the order of ARGMAX: the greater value, a NaN before every number, −0 below +0 (R110). -/
def argAbove (x y : Val) : Bool :=
  match x, y with
  | .nan _, .nan _ => false
  | .nan _, _ => true
  | _, .nan _ => false
  | x, y => y.below x

/-- ARGMAX over the selected lanes in ascending order: the first that none beats (R110). -/
def argMax (l : List (Nat × Val)) : Option (Nat × Val) :=
  l.foldl (fun (best : Option (Nat × Val)) x =>
    match best with
    | none => some x
    | some b => if argAbove x.2 b.2 then some x else some b) none

/-- VRED (R374). -/
def execVred (op : VRedOp) (d a : VReg) (k : KReg) (s : State) : Out :=
  let m := s.rK k
  let v := s.rV a
  let ex := s.cur.exposed
  let lanes := fun (unit : Lane) => (List.range 64).map fun i => if m.getLsbD i then laneOf v i else unit
  let out := fun (l : List Lane) (f : BitVec 8) => Host.Outcome.next (s.result 7 (s.wV d (ofLanes l)) f (flagged := true))
  match op with
  | .sum => let (z, f) := reduceTree (fp32Op2 ex Val.add) (lanes 0x80000000); out [z] f
  | .max => let (z, f) := reduceTree (fp32Op2 ex (Val.pick true)) (lanes 0xFF800000); out [z] f
  | .min => let (z, f) := reduceTree (fp32Op2 ex (Val.pick false)) (lanes 0x7F800000); out [z] f
  | .argmax =>
    let sel := ((List.range 64).filter fun i => m.getLsbD i).map fun i => (i, fp32F.take ex (laneOf v i).toNat)
    let f := orAll (sel.map fun x => x.2.2)
    match argMax (sel.map fun x => (x.1, x.2.1)) with
    | none => out [0xFF800000, 0xFFFFFFFF] f
    | some (i, z) => out [fp32Of z, BitVec.ofNat 32 i] f

/-- A candidate of VTOPK: value, logical index, lane (R375). -/
structure Candidate where
  val : Val
  ix : Lane
  lane : Nat
  deriving DecidableEq, Repr

/-- x is taken before y: the greater value, NaN first and zeros equal, then the lower index, then the lower lane (R111, R375). -/
def Candidate.before (x y : Candidate) : Bool :=
  let tie := decide (x.ix.toNat < y.ix.toNat) || (x.ix == y.ix && decide (x.lane < y.lane))
  match x.val, y.val with
  | .nan _, .nan _ => tie
  | .nan _, _ => true
  | _, .nan _ => false
  | u, v => if u.same v then tie else v.below u

/-- VTOPK (R375): both registers land together and count as two writes. -/
def execVtopk (nm1 : BitVec 6) (d a b : VReg) (k : KReg) (s : State) : Out :=
  let m := s.rK k
  let x := s.rV a
  let y := s.rV b
  let n := nm1.toNat + 1
  let sel := ((List.range 64).filter fun i => m.getLsbD i).map fun i => (i, fp32F.take s.cur.exposed (laneOf x i).toNat)
  let cs := (sortBy Candidate.before (sel.map fun z => ⟨z.2.1, laneOf y z.1, z.1⟩)).take n
  let fill := n - cs.length
  let vs := cs.map (fun c => fp32Of c.val) ++ List.replicate fill 0xFF800000
  let is := cs.map Candidate.ix ++ List.replicate fill 0xFFFFFFFF
  .next (s.result 12 (s.wV d (ofLanes vs) ++ s.wV b (ofLanes is)) (orAll (sel.map fun z => z.2.2)) 2 true)

/-! ## Masks (R376) -/

/-- KLOG (R376). -/
def execKlog (op : LogOp) (d a b : KReg) (s : State) : Out := .next (s.result 1 (wK d (logic op (s.rK a) (s.rK b))))
/-- KPOPC (R376). -/
def execKpopc (d : SReg) (a : KReg) (s : State) : Out := s.resS 2 d (BitVec.ofNat 64 (onesCount (s.rK a).toNat 64))
/-- KMOV (R376). -/
def execKmov (d a : KReg) (s : State) : Out := .next (s.result 1 (wK d (s.rK a)))
/-- KMOV.S2K (R376). -/
def execKmovS2k (d : KReg) (a : SReg) (s : State) : Out := .next (s.result 1 (wK d (s.rS a)))
/-- KMOV.K2S (R376). -/
def execKmovK2s (d : SReg) (a : KReg) (s : State) : Out := s.resS 1 d (s.rK a)

end Sys2Proof.Machine
end

