-- ==== Sys2Proof/Machine/Matrix.lean ====
section
/-! DEFINITION. The M slot: what each matrix command captures at issue and what it does at completion (R82, R104 to R107, R378 to R390). -/

namespace Sys2Proof.Machine

/-! ## Issue (R378, R383) -/

/-- Rows of the row groups processed for a live count (R82). -/
def groupRows (c : Nat) : Nat := 8 * ((c + 7) / 8)

/-- A stream operand of n walk steps at issue: its copy and index entries, its footprint checked (R383). -/
def streamOperand (s : State) (x : MatSrc) (n : Nat) : Except Bad (State × StreamBits × List Nat) :=
  match x with
  | .tile _ => .ok (s, 0, [])
  | .stream g =>
    let me := s.cur.ctx
    let v := s.rG g
    match captureIndexes s me v n with
    | .error b => .error b
    | .ok (s, idx) =>
      let f := (streamFmt v).1
      match footprint s me true (rowBytes f) false (walkSteps v f true idx n) with
      | .error b => .error b
      | .ok s => .ok (s, v, idx)

/-- A matrix command with two operands that may be streams, its live count captured (R378, R383). -/
def matrixIssue (i : Instr) (x : MatSrc) (nx : Nat) (y : MatSrc) (ny count : Nat) (s : State) : Out :=
  s.try (streamOperand s x nx) fun (s, gx, ix) =>
    s.try (streamOperand s y ny) fun (s, gy, iy) =>
      .next (s.enqueue .m i { g := gx, g2 := gy, idx := ix, idx2 := iy, count })

/-- A matrix command with scalar, count and rounding operands (R378): RNGCTR is captured and advanced by 64 where it rounds under SR. -/
def plainIssue (i : Instr) (sa : Word) (count : Nat) (rm : Round) (s : State) : Out :=
  let cr := s.me.cr
  let s := s.enqueue .m i { sa, count, rngctr := cr.rngctr, key0 := cr.key0, key1 := cr.key1 }
  .next (match rm with | .rne => s | .sr => s.advanceRng 64)

/-- Live count of a matrix operand: a stream's is 64 (R383). -/
def State.liveOf (s : State) : MatSrc → Nat
  | .tile t => (s.issueTile t.toNat).live.toNat
  | .stream _ => 64

/-- MMA (R382). -/
def execMma (a : AReg) (l r : MatSrc) (s : State) : Out := matrixIssue (.mma a l r) l 64 r 64 (s.liveOf l) s
/-- MMAS (R385). -/
def execMmas (a : AReg) (l r : MatSrc) (m : TReg) (s : State) : Out := matrixIssue (.mmas a l r m) l 64 r 64 (s.liveOf l) s
/-- MATT (R386): a stream of keys takes 128 walk steps. -/
def execMatt (a : AReg) (q : TReg) (k v : MatSrc) (s : State) : Out :=
  matrixIssue (.matt a q k v) k 128 v 64 (s.issueTile q.toNat).live.toNat s
/-- MATTF (R387). -/
def execMattf (f : Fmt) (rm : Round) (t : TReg) (a : AReg) (s : State) : Out := plainIssue (.mattf f rm t a) 0 0 rm s
/-- ACLR (R381). -/
def execAclr (a : AReg) (x : SReg) (s : State) : Out := plainIssue (.aclr a x) (s.rS x) 0 .rne s
/-- ACRD (R388). -/
def execAcrd (f : Fmt) (rm : Round) (hi : Bool) (t : TReg) (a : AReg) (s : State) : Out := plainIssue (.acrd f rm hi t a) 0 0 rm s
/-- ACLD (R381). -/
def execAcld (a : AReg) (t : TReg) (x : SReg) (s : State) : Out := plainIssue (.acld a t x) (s.rS x) 0 .rne s
/-- CMPR (R384). -/
def execCmpr (t t2 m : TReg) (s : State) : Out := plainIssue (.cmpr t t2 m) 0 0 .rne s
/-- MTRN (R389). -/
def execMtrn (t t2 : TReg) (s : State) : Out := plainIssue (.mtrn t t2) 0 0 .rne s
/-- MZERO (R389). -/
def execMzero (t : TReg) (s : State) : Out := plainIssue (.mzero t) 0 0 .rne s
/-- MCVT (R389). -/
def execMcvt (f : Fmt) (rm : Round) (t t2 : TReg) (s : State) : Out := plainIssue (.mcvt f rm t t2) 0 0 rm s

/-! ## Operands at completion (R379) -/

/-- A format the engine multiplies, none for an invalid tag (R379). -/
def engineTag (c : BitVec 4) : Option Fmt :=
  match Fmt.ofCode c with
  | some .fp32 | some .i32 | some .rcw | none => none
  | some f => some f

/-- A matrix operand: a tile, or the tile its stream's rows make (R383); the flags of its format code, and what failed. -/
def operand (s : State) (c : Command) (x : MatSrc) (v : StreamBits) (idx : List Nat) (n : Nat) : State × Tile × Option Bad :=
  match x with
  | .tile t => (s, c.tile s t.toNat, none)
  | .stream _ =>
    let f := (streamFmt v).1
    let (s, t, b) := loadRows c.ctx true f 0 (walkSteps v f true idx n) s { fmt := f.code, live := 64 }
    (s, t, b)

/-- The elements of a row as values with the flags of reading them (R379). -/
def rowVals (f : Fmt) (exposed : Bool) (r : TileRow) : List (Val × BitVec 8) := (List.range 64).map (elemVal f exposed r)

/-- The first poisoned row among those read is consumed (R390). -/
def anyPoison (t : Tile) (n : Nat) : Bool := t.rows.any fun (j, r) => decide (j < n) && r.poison
/-- A poisoned lane among the rows processed (R390). -/
def Acc.anyPoison (a : Acc) (n : Nat) : Bool := a.lanes.any fun (i, l) => decide (i < 64 * n) && l.poison

/-- Values apart from their flags, and all the flags. -/
def splitVals (rs : List (List (Val × BitVec 8))) : List (List Val) × BitVec 8 :=
  (rs.map fun l => l.map Prod.fst, orAll (rs.flatMap fun l => l.map Prod.snd))

/-- Rows 0 to n − 1 read as values with flags. -/
def tileRead (t : Tile) (f : Fmt) (exposed : Bool) (n : Nat) : List (List (Val × BitVec 8)) :=
  (List.range n).map fun r => rowVals f exposed (t.row r)

/-- Rows 0 to n − 1 read as values, with all their flags. -/
def tileVals (t : Tile) (f : Fmt) (exposed : Bool) (n : Nat) : List (List Val) × BitVec 8 := splitVals (tileRead t f exposed n)

/-- The columns of 64 columns of rows. -/
def columns (rows : List (List Val)) : List (List Val) := (List.range 64).map fun c => rows.map fun r => r.getD c .zero

/-- A lane of an accumulator. -/
def Acc.lane (a : Acc) (r c : Nat) : AccLane := Tab.get {} a.lanes (64 * r + c)

/-- The lanes of rows 0 to n − 1 replaced, the others kept (R82). -/
def Acc.mapRows (a : Acc) (n : Nat) (f : Nat → Nat → AccLane → AccLane) : Acc :=
  { a with lanes := (List.range (64 * n)).map (fun i => (i, f (i / 64) (i % 64) (Tab.get {} a.lanes i))) ++
      a.lanes.filter fun x => decide (64 * n ≤ x.1) }

/-- NAN set in every lane processed (R379). -/
def Acc.spoil (a : Acc) (n : Nat) : Acc := a.mapRows n fun _ _ l => { l with nan := true }

/-- RC raised to a live count (R380). -/
def Acc.raise (a : Acc) (c : Nat) : Acc := { a with rc := BitVec.ofNat 7 (max a.rc.toNat c) }

/-- The products of two rows of values applied to a lane in order (R105). -/
def AccLane.dot (l : AccLane) (alpha : Int) (xs ys : List Val) : AccLane :=
  (xs.zip ys).foldl (fun l (x, y) => l.add alpha (contribution x y)) l

/-- A A + L × R over the processed rows (R382). -/
def Acc.multiply (a : Acc) (n : Nat) (ls rs : List (List Val)) : Acc :=
  let cs := columns rs
  a.mapRows n fun r c l => l.dot a.alpha.toInt (ls.getD r []) (cs.getD c [])

/-! ## Sparse operands (R384, R385) -/

/-- Width of an element of a format in bits, 32-bit formats apart. -/
def elemBits (f : Fmt) : Nat := if isNbf f then nbfM f else if f = .i8 then 8 else 16

/-- The kept indices of group q of a metadata row (R384). -/
def keptPair (m : TileRow) (q : Nat) : Nat × Nat := (bits m.data (4 * q + 1) (4 * q), bits m.data (4 * q + 3) (4 * q + 2))

/-- Place in a compressed row of the first element of group q (R384). -/
def packedPlace (q : Nat) : Nat := 32 * (q / 8) + 2 * (q % 8)

/-- A compressed row expanded, its values with their flags: where both indices agree the second value stands; what the expansion does not
take raises no flag (R385). -/
def expandRow (m : TileRow) (xs : List (Val × BitVec 8)) : List (Val × BitVec 8) :=
  (List.range 64).map fun j =>
    let q := j / 4
    let (i0, i1) := keptPair m q
    if j % 4 = i1 then xs.getD (packedPlace q + 1) (.zero, 0)
    else if j % 4 = i0 then xs.getD (packedPlace q) (.zero, 0)
    else (.zero, 0)

/-- One product command: both operands read, the right one's values shaped, and the products applied (R379, R382, R385, R390). -/
def completeProduct (a : AReg) (l r : MatSrc) (md : Option TReg) (c : Command) (s : State) : State :=
  match operand s c l c.cap.g c.cap.idx 64 with
  | (s, _, some b) => killCmd s c b
  | (s, lt, none) =>
    match operand s c r c.cap.g2 c.cap.idx2 64 with
    | (s, _, some b) => killCmd s c b
    | (s, rt, none) =>
      let acc := (s.ctx c.ctx).acc a.toNat
      let n := groupRows c.cap.count
      let mt := match md with | some m => c.tile s m.toNat | none => {}
      if n ≠ 0 ∧ (anyPoison lt n ∨ anyPoison rt 64 ∨ anyPoison mt 64 ∨ acc.anyPoison n) then killCmd s c poisonedReg
      else match engineTag lt.fmt, engineTag rt.fmt with
        | some lf, some rf =>
          let (ls, f0) := tileVals lt lf c.cap.exposed n
          let rr := if n = 0 then [] else tileRead rt rf c.cap.exposed 64
          let (rs, f1) := splitVals (match md with
            | some _ => rr.zipIdx.map fun (x, k) => expandRow (mt.row k) x
            | none => rr)
          (s.setAcc c.ctx a.toNat ((acc.multiply n ls rs).raise c.cap.count)).mapCtx c.ctx (·.orFlags (f0 ||| f1))
        | _, _ => (s.setAcc c.ctx a.toNat ((acc.spoil n).raise c.cap.count)).mapCtx c.ctx (·.orFlags fIV)

/-- The magnitude order of CMPR: NaN greatest, then by |x|, zeros equal (R384). -/
def magAbove (x y : Val) : Bool :=
  match x, y with
  | .nan _, .nan _ => false
  | .nan _, _ => true
  | _, .nan _ => false
  | x, y => y.abs.below x.abs

/-- The two kept indices of four values, the lower first (R384). -/
def keepTwo (xs : List Val) : Nat × Nat :=
  let l := sortBy (fun (x y : Val × Nat) => magAbove x.1 y.1 || (!magAbove y.1 x.1 && decide (x.2 < y.2))) xs.zipIdx
  let i := (l.getD 0 (.zero, 0)).2
  let j := (l.getD 1 (.zero, 1)).2
  (min i j, max i j)

/-- One row compressed: its kept elements, its map, the flags (R384). -/
def compressRow (f : Fmt) (exposed : Bool) (r : TileRow) : RowBits × Nat × BitVec 8 :=
  let vs := rowVals f exposed r
  let ks := (List.range 16).map fun q => keepTwo (((vs.drop (4 * q)).take 4).map Prod.fst)
  let w := elemBits f
  let elem := fun (j : Nat) => bits r.data (w * j + w - 1) (w * j)
  let data := ks.zipIdx.foldl (fun n ((i0, i1), q) =>
    n + elem (4 * q + i0) * 2 ^ (w * packedPlace q) + elem (4 * q + i1) * 2 ^ (w * (packedPlace q + 1))) 0
  let map := ks.zipIdx.foldl (fun n ((i0, i1), q) => n + (i0 + 4 * i1) * 2 ^ (4 * q)) 0
  (BitVec.ofNat 1024 data, map, orAll (vs.map Prod.snd))

/-- CMPR completes (R384). -/
def completeCmpr (t t2 m : TReg) (c : Command) (s : State) : State :=
  let src := c.tile s t2.toNat
  if anyPoison src 64 then killCmd s c poisonedReg
  else match engineTag src.fmt with
    | none =>
      let s := s.setTile c.ctx t.toNat { rows := [], fmt := src.fmt, live := src.live }
      (s.setTile c.ctx m.toNat { rows := [], fmt := 10, live := src.live }).mapCtx c.ctx (·.orFlags fIV)
    | some f =>
      let rs := (List.range 64).map fun r => (src.row r, compressRow f c.cap.exposed (src.row r))
      let data : Tile := { fmt := src.fmt, live := src.live
                           rows := rs.zipIdx.map fun ((x, y), r) => (r, { x with data := y.1 }) }
      let map : Tile := { fmt := 10, live := src.live
                          rows := rs.zipIdx.map fun ((_, y), r) => (r, { data := BitVec.ofNat 1024 y.2.1 : TileRow }) }
      ((s.setTile c.ctx t.toNat data).setTile c.ctx m.toNat map).mapCtx c.ctx (·.orFlags (orAll (rs.map fun x => x.2.2.2)))

/-! ## Clearing and loading (R381) -/

/-- The accumulator after ACLR (R381). -/
def Acc.cleared (x : Word) : Acc := { alpha := x.setWidth 12 }

/-- ACLR completes (R381). -/
def completeAclr (a : AReg) (c : Command) (s : State) : State := s.setAcc c.ctx a.toNat (Acc.cleared c.cap.sa)

/-- A lane as ACLD loads it (R381). -/
def loadedLane (alpha : Int) (v : Val) : AccLane :=
  match v with
  | .fin neg n d e =>
    let y := floorDiv neg n d e alpha
    { n := wrap 128 y, ovf := decide (2 ^ 127 ≤ y.natAbs) }
  | _ => { nan := true }

/-- ACLD completes (R381). -/
def completeAcld (a : AReg) (t : TReg) (c : Command) (s : State) : State :=
  let src := c.tile s t.toNat
  let old := (s.ctx c.ctx).acc a.toNat
  let n := groupRows src.live.toNat
  if anyPoison src n then killCmd s c poisonedReg
  else
    let (f, iv) := fmtRun src.fmt
    let (vs, fl) := tileVals src f c.cap.exposed n
    let base : Acc := { (Acc.cleared c.cap.sa) with rc := src.live, lanes := old.lanes.map fun (i, l) => (i, { l with cnt := 0 }) }
    let acc := base.mapRows n fun r col _ => loadedLane base.alpha.toInt ((vs.getD r []).getD col .zero)
    (s.setAcc c.ctx a.toNat acc).mapCtx c.ctx (·.orFlags (iv ||| fl ||| (if f = .rcw ∧ n ≠ 0 then fIV else 0)))

/-! ## Attention (R386) -/

/-- The exact sum of products of two rows of elements (R386). -/
def exactDot (xs ys : List Val) : Val := (xs.zip ys).foldl (fun t (x, y) => (t.add (x.mul y).1).1) .zero

/-- An FP32 operation on a lane and a running set of flags. -/
def flagged (r : Lane × BitVec 8) (f : BitVec 8) : Lane × BitVec 8 := (r.1, r.2 ||| f)

/-- VEXP2 of a lane (R109). -/
def exp2Lane (exposed : Bool) (x : Lane) : Lane × BitVec 8 :=
  let (v, f) := fp32F.read exposed x.toNat
  flagged (exp2Val exposed v) f

/-- x − y on lanes (R108). -/
def subLane (exposed : Bool) (x y : Lane) : Lane × BitVec 8 := fp32Op2 exposed (fun u v => u.add v.opp) x y

/-- One row's online soft-maximum state: MU, SUM, the rescaling factor and the weights, none where the row is unchanged; and flags
(R386). ks are the keys that take part, with their places. -/
def attendRow (exposed : Bool) (mu sum : Lane) (q : List Val) (ks : List (Nat × List Val)) :
    Option (Lane × Lane × Lane × List (Nat × Lane)) × BitVec 8 :=
  let xs := ks.map fun (j, k) =>
    let (z, f) := fp32F.round .rne 0 exposed (exactDot q k)
    (j, (BitVec.ofNat 32 z : Lane), f)
  let f0 := orAll (xs.map fun x => x.2.2)
  match xs with
  | [] => (none, 0)
  | (_, x0, _) :: rest =>
    let (m, f1) := rest.foldl (fun (m, f) (_, x, _) => flagged (fp32Op2 exposed (Val.pick true) m x) f) (x0, f0)
    if m = 0xFF800000 then (none, f1)
    else
      let (d, f2) := subLane exposed mu m
      let (cf, f3) := exp2Lane exposed d
      let (sm, f4) := fp32Op2 exposed Val.mul sum cf
      let ws := xs.map fun (j, x, _) =>
        let (e, g0) := subLane exposed x m
        let (e, g1) := exp2Lane exposed e
        let (v, g2) := fp32F.read exposed e.toNat
        let (b, g3) := bf16F.round .rne 0 exposed v
        (j, (BitVec.ofNat 32 (b * 65536) : Lane), g0 ||| g1 ||| g2 ||| g3)
      let lanes := (List.range 64).map fun j => match ws.find? (fun x => x.1 == j) with | some x => x.2.1 | none => 0x80000000
      let (t, f5) := reduceTree (fp32Op2 exposed Val.add) lanes
      let (sm, f6) := fp32Op2 exposed Val.add sm t
      (some (m, sm, cf, ws.map fun x => (x.1, x.2.1)), f1 ||| f2 ||| f3 ||| f4 ||| f5 ||| f6 ||| orAll (ws.map fun x => x.2.2))

/-- One row of MATT applied to an accumulator (R386). -/
def attendStep (exposed : Bool) (count : Nat) (ks : List (Nat × List Val)) (vrows : List (Nat × List Val)) (x : Acc × BitVec 8)
    (rq : Nat × List Val) : Acc × BitVec 8 :=
  let (a, fl) := x
  let (r, q) := rq
  match attendRow exposed (Tab.get 0xFF800000 a.mu r) (Tab.get 0 a.sum r) q ks with
  | (none, f) => (a, fl ||| f)
  | (some (m, sm, cf, ws), f) =>
    let wv := ws.map fun (j, w) => (j, (fp32F.read false w.toNat).1)
    let col := fun (c : Nat) => wv.map fun (j, w) => (w, ((vrows.find? fun y => y.1 == j).map (fun y => y.2.getD c .zero)).getD .zero)
    let c := (fp32F.read false cf.toNat).1
    let new := (List.range 64).map fun i =>
      (64 * r + i, (col i).foldl (fun (l : AccLane) (w, v) => l.add a.alpha.toInt (contribution w v)) ((a.lane r i).rescale c))
    let b : Acc := { a with
      lanes := (a.lanes.filter fun x => decide (x.1 < 64 * r)) ++ new ++ (a.lanes.filter fun x => decide (64 * (r + 1) ≤ x.1))
      mu := Tab.set a.mu r m, sum := Tab.set a.sum r sm }
    (b.raise count, fl ||| f)

/-- The DEAD bit of an RCW (R76). -/
def rcwDead (w : Lane) : Bool := w.getLsbD 27

/-- MATT completes; where no row takes on weights no product with V is formed, and its elements raise no flag (R386). -/
def completeMatt (a : AReg) (q : TReg) (k v : MatSrc) (c : Command) (s : State) : State :=
  match operand s c k c.cap.g c.cap.idx 128 with
  | (s, _, some b) => killCmd s c b
  | (s, kt, none) =>
    match operand s c v c.cap.g2 c.cap.idx2 64 with
    | (s, _, some b) => killCmd s c b
    | (s, vt, none) =>
      let acc := (s.ctx c.ctx).acc a.toNat
      let q0 := c.tile s q.toNat
      let q1 := c.tile s (q.toNat + 1)
      let n := groupRows c.cap.count
      let (k1, js) := match k with
        | .tile t => (c.tile s (t.toNat + 1), (List.range 64).filter fun j => decide (j < kt.live.toNat) && !rcwDead (kt.row j).rcw)
        | .stream _ => (kt, List.range 64)
      let halves := fun (j : Nat) => match k with
        | .tile _ => (kt.row j, k1.row j)
        | .stream _ => (kt.row (2 * j), kt.row (2 * j + 1))
      let live := n ≠ 0 && !js.isEmpty
      let bad := js.any fun j => (halves j).1.poison || (halves j).2.poison || (vt.row j).poison
      if live && (anyPoison q0 n || anyPoison q1 n || bad || acc.anyPoison n) then killCmd s c poisonedReg
      else match engineTag q0.fmt, engineTag q1.fmt, engineTag kt.fmt, engineTag k1.fmt, engineTag vt.fmt with
        | some f0, some f1, some fk0, some fk1, some fv =>
          if !live then s
          else
            let ex := c.cap.exposed
            let (qa, g0) := tileVals q0 f0 ex n
            let (qb, g1) := tileVals q1 f1 ex n
            let keys := js.map fun j =>
              let u := rowVals fk0 ex (halves j).1
              let w := rowVals fk1 ex (halves j).2
              (j, u.map Prod.fst ++ w.map Prod.fst, orAll ((u ++ w).map Prod.snd))
            let vals := js.map fun j =>
              let u := rowVals fv ex (vt.row j)
              (j, u.map Prod.fst, orAll (u.map Prod.snd))
            let rows := (List.range n).map fun r => (r, qa.getD r [] ++ qb.getD r [])
            let ks := keys.map fun (j, l, _) => (j, l)
            let used := rows.any fun (r, q) => (attendRow ex (Tab.get 0xFF800000 acc.mu r) (Tab.get 0 acc.sum r) q ks).1.isSome
            let fl := g0 ||| g1 ||| orAll (keys.map fun y => y.2.2) ||| (if used then orAll (vals.map fun y => y.2.2) else 0)
            let (acc, fl) := rows.foldl (attendStep ex c.cap.count ks (vals.map fun (j, l, _) => (j, l))) (acc, fl)
            (s.setAcc c.ctx a.toNat acc).mapCtx c.ctx (·.orFlags fl)
        | _, _, _, _, _ =>
          let s := if live then s.setAcc c.ctx a.toNat ((acc.spoil n).raise c.cap.count) else s
          s.mapCtx c.ctx (·.orFlags fIV)

/-! ## Reading out (R387, R388) -/

/-- The random lanes of output row r of a command that rounds under a mode (R101, R378). -/
def Capture.lanes (x : Capture) (rm : Round) (r : Nat) : List (BitVec 16) :=
  match rm with
  | .rne => noRow
  | .sr => randomRow x.key0 x.key1 (x.rngctr + BitVec.ofNat 64 r)

/-- The value MATTF rounds for a lane under its row's SUM, with AO (R387). -/
def attnValue (l : AccLane) (alpha : Int) (sum : Val) : Val × BitVec 8 :=
  match sum with
  | .nan _ => (.nan false, 0)
  | _ =>
    if l.nan then (.nan false, 0)
    else if l.ovf then (.nan false, fAO)
    else match sum with
      | .inf _ => (.zero, 0)
      | v => if v.isZero then (.zero, 0) else (((l.value alpha).1.div v).1, 0)

/-- The processed rows of an accumulator read out into a tile, each lane's value given (R106, R387, R388): other rows and the RCW column are
unchanged. Every lane is read, also of the half that an FP32 read-out leaves out. A NaN a lane holds is no invalid operation. That a rounding of
element i of an FP32 read-out's high half draws as accumulator lane 32 + i does is the model's choice (R378; log entry 61). -/
def readout (f : Fmt) (rm : Round) (hi : Bool) (t : TReg) (a : AReg) (val : Acc → Nat → Nat → Val × BitVec 8) (c : Command)
    (s : State) : State :=
  let acc := (s.ctx c.ctx).acc a.toNat
  let old := (s.ctx c.ctx).tile t.toNat
  let n := groupRows acc.rc.toNat
  if acc.anyPoison n then killCmd s c poisonedReg
  else
    let from_ := if hi then 32 else 0
    let rs := (List.range n).map fun r =>
      let vs := (List.range 64).map fun i => val acc r i
      let shown := if f = .fp32 then (vs.drop from_).take 32 else vs
      let (row, fl) := rowOfVals f rm ((c.cap.lanes rm r).drop from_) c.cap.exposed (shown.map Prod.fst)
      (r, { row with rcw := (old.row r).rcw }, (fl &&& ~~~fIV) ||| orAll (vs.map Prod.snd))
    let rows := (rs.map fun x => (x.1, x.2.1)) ++ old.rows.filter fun x => decide (n ≤ x.1)
    (s.setTile c.ctx t.toNat { rows, fmt := f.code, live := acc.rc }).mapCtx c.ctx (·.orFlags (orAll (rs.map fun x => x.2.2)))

/-- ACRD completes (R388). -/
def completeAcrd (f : Fmt) (rm : Round) (hi : Bool) (t : TReg) (a : AReg) (c : Command) (s : State) : State :=
  readout f rm hi t a (fun acc r i => (acc.lane r i).value acc.alpha.toInt) c s

/-- MATTF completes (R387). -/
def completeMattf (f : Fmt) (rm : Round) (t : TReg) (a : AReg) (c : Command) (s : State) : State :=
  readout f rm false t a
    (fun acc r i => attnValue (acc.lane r i) acc.alpha.toInt (fp32F.read false (Tab.get 0 acc.sum r).toNat).1) c s

/-! ## Tile transformations (R389) -/

/-- MTRN completes (R389). -/
def completeMtrn (t t2 : TReg) (c : Command) (s : State) : State :=
  let src := c.tile s t2.toNat
  let old := (s.ctx c.ctx).tile t.toNat
  let n := groupRows src.live.toNat
  if anyPoison src n then killCmd s c poisonedReg
  else
    let out := fun (f : Nat → TileRow) (fl : BitVec 8) =>
      (s.setTile c.ctx t.toNat { fmt := src.fmt, live := 64
                                 rows := (List.range 64).map fun r => (r, { f r with rcw := (old.row r).rcw }) }).mapCtx c.ctx (·.orFlags fl)
    match engineTag src.fmt with
    | none => out (fun _ => {}) fIV
    | some f =>
      if isNbf f then
        let (vs, _) := tileVals src f false n
        let cs := columns (vs ++ List.replicate (64 - n) [])
        let rs := cs.map fun col => rowOfVals f .rne noRow false col
        out (fun r => (rs.getD r ({}, 0)).1) (orAll (rs.map Prod.snd))
      else
        let w := elemBits f
        out (fun r => { data := BitVec.ofNat 1024 (packNat w ((List.range n).map fun k => bits (src.row k).data (w * r + w - 1) (w * r))) }) 0

/-- MZERO completes (R389). -/
def completeMzero (t : TReg) (c : Command) (s : State) : State :=
  s.setTile c.ctx t.toNat { rows := [], fmt := ((s.ctx c.ctx).tile t.toNat).fmt, live := 0 }

/-- MCVT completes (R389). -/
def completeMcvt (f : Fmt) (rm : Round) (t t2 : TReg) (c : Command) (s : State) : State :=
  let src := c.tile s t2.toNat
  let old := (s.ctx c.ctx).tile t.toNat
  let n := groupRows src.live.toNat
  if anyPoison src 64 then killCmd s c poisonedReg
  else
    let (sf, iv) := fmtRun src.fmt
    let rs := (List.range 64).map fun r =>
      if n ≤ r then (r, { old.row r with rcw := (src.row r).rcw }, (0 : BitVec 8))
      else if sf = .rcw then (r, { rcw := (src.row r).rcw : TileRow }, fIV)
      else
        let xs := rowVals sf c.cap.exposed (src.row r)
        let (row, fl) := rowOfVals f rm (c.cap.lanes rm r) c.cap.exposed (xs.map Prod.fst)
        (r, { row with rcw := (src.row r).rcw }, fl ||| orAll (xs.map Prod.snd))
    (s.setTile c.ctx t.toNat { rows := rs.map fun x => (x.1, x.2.1), fmt := f.code, live := src.live }).mapCtx c.ctx
      (·.orFlags (iv ||| orAll (rs.map fun x => x.2.2)))

/-- The effect of a matrix command at its completion (R378). -/
def finishMatrix (c : Command) (s : State) : State :=
  match c.instr with
  | .mma a l r => completeProduct a l r none c s
  | .mmas a l r m => completeProduct a l r (some m) c s
  | .matt a q k v => completeMatt a q k v c s
  | .mattf f rm t a => completeMattf f rm t a c s
  | .aclr a _ => completeAclr a c s
  | .acrd f rm hi t a => completeAcrd f rm hi t a c s
  | .acld a t _ => completeAcld a t c s
  | .cmpr t t2 m => completeCmpr t t2 m c s
  | .mtrn t t2 => completeMtrn t t2 c s
  | .mzero t => completeMzero t c s
  | .mcvt f rm t t2 => completeMcvt f rm t t2 c s
  | _ => s

end Sys2Proof.Machine
end

