-- ==== Sys2Proof/Machine/Rows.lean ====
section
/-! DEFINITION. Row control: the RCW column, the row advance, compaction and restore, exit notices; and the KV instructions
(R76 to R82, R84 to R91, R392 to R404). -/

namespace Sys2Proof.Machine

/-! ## Row control words (R76 to R78) -/

/-- ACT (R76). -/
def rcwAct (w : Lane) : Nat := bits w 1 0
/-- RCNT as every rule uses it, 0 acting as 1 (R77). -/
def rcwCount (w : Lane) : Nat := if bits w 7 2 = 0 then 1 else bits w 7 2
/-- SLOT (R76). -/
def rcwSlot (w : Lane) : Nat := bits w 26 16
/-- DEF = FLT = DEAD = 0 (R78). -/
def rcwClear (w : Lane) : Bool := w &&& 0x38000000 == 0
/-- Live for an ordinary block, or for the shared block (R77). -/
def rcwLive (sh : Bool) (w : Lane) : Bool := rcwClear w && rcwAct w == (if sh then 3 else 0)
/-- An RCW with XDEPTH, RCNT and ACT given. -/
def rcwSet (w : Lane) (x : BitVec 8) (n : Nat) (act : Nat) : Lane :=
  (0 : BitVec 2) ++ w.extractLsb' 16 14 ++ x ++ BitVec.ofNat 6 n ++ BitVec.ofNat 2 act
/-- XDEPTH (R76). -/
def rcwDepth (w : Lane) : BitVec 8 := w.extractLsb' 8 8
/-- RCNT counted down, CONT with RCNT 0 at the end (R78). -/
def rcwDown (w : Lane) (x : BitVec 8) : Lane :=
  if rcwCount w = 1 then rcwSet w x 0 0 else rcwSet w x (rcwCount w - 1) (rcwAct w)
/-- The RCW of a padding row (R79). -/
def rcwPad : Lane := 0x08000000

/-- The row advance of R78 for one row: kind of block, .NL, block, transition, its count, mask lane (R395). -/
def advanceRcw (sh nl : Bool) (b : BitVec 8) (pol n : Nat) (set : Bool) (w : Lane) : Lane :=
  if !rcwClear w || (nl && rcwLive sh w) then w
  else if sh then (if rcwAct w = 3 then rcwDown w b else w)
  else match rcwAct w with
    | 0 =>
      if set && pol != 0 then rcwSet w b (if pol = 2 then bits w 7 2 else n) pol
      else rcwSet w b (bits w 7 2) 0
    | 1 => rcwDown w (rcwDepth w)
    | _ => w

/-! ## Commands of the X queue -/

/-- A command put in the X queue with the operands it captures, BLOCKNO among them (R392). -/
def State.toX (s : State) (i : Instr) (cap : Capture) : State := s.enqueue .x i { cap with blockno := s.me.cr.blockno }

/-! ## CWLD and CWST (R394) -/

/-- CWLD and CWST at issue: alignment, then the footprint of 256 bytes (R392, R394). -/
def columnIssue (i : Instr) (scr w : Bool) (a : SReg) (s : State) : Out :=
  let va := s.rS a
  if !scr && va.toNat % 4 ≠ 0 then s.raise { code := 0x10, acc := if w then 1 else 0, addr := va }
  else s.try (walkCheck s s.cur.ctx scr 0 va.toNat 256 w) fun s => .next (s.toX i { sa := va })

/-- CWLD (R394). -/
def execCwld (scr : Bool) (t : TReg) (a : SReg) (s : State) : Out := columnIssue (.cwld scr t a) scr false a s
/-- CWST (R394). -/
def execCwst (scr : Bool) (t : TReg) (a : SReg) (s : State) : Out := columnIssue (.cwst scr t a) scr true a s

/-- A tile with the RCW of every row replaced. -/
def Tile.mapRcw (t : Tile) (f : Nat → Lane → Lane) : Tile :=
  { t with rows := (List.range 64).map fun r => (r, { t.row r with rcw := f r (t.row r).rcw }) }

/-- CWLD completes (R394). -/
def completeCwld (scr : Bool) (t : TReg) (c : Command) (s : State) : State :=
  match walkRead s c.ctx scr 0 c.cap.sa.toNat 256 with
  | .error b => killCmd s c b
  | .ok (s, bs) =>
    s.setTile c.ctx t.toNat (((s.ctx c.ctx).tile t.toNat).mapRcw fun r _ => BitVec.ofNat 32 (leNat ((bs.drop (4 * r)).take 4) % 2 ^ 30))

/-- CWST completes (R394, R410). -/
def completeCwst (scr : Bool) (t : TReg) (c : Command) (s : State) : State :=
  let tl := c.tile s t.toNat
  if anyPoison tl 64 then killCmd s c poisonedReg
  else match walkWrite s c.ctx scr 0 c.cap.sa.toNat ((List.range 64).flatMap fun r => leBytes 4 (tl.row r).rcw.toNat) with
    | .error b => killCmd s c b
    | .ok s => s

/-! ## CWUPD and CWCNT (R395, R396) -/

/-- CWUPD (R395). -/
def execCwupd (sh nl : Bool) (t : TReg) (a : SReg) (k : KReg) (s : State) : Out :=
  .next (s.toX (.cwupd sh nl t a k) { sa := s.rS a, mask := s.rK k })

/-- CWUPD completes (R216, R395). -/
def completeCwupd (sh nl : Bool) (t : TReg) (c : Command) (s : State) : State :=
  let n := if bits c.cap.sa 7 2 = 0 then 1 else bits c.cap.sa 7 2
  let tl := c.tile s t.toNat
  if anyPoison tl 64 then killCmd s c poisonedReg
  else s.setTile c.ctx t.toNat (((s.ctx c.ctx).tile t.toNat).mapRcw fun r _ =>
    advanceRcw sh nl c.cap.blockno (bits c.cap.sa 1 0) n (c.cap.mask.getLsbD r) (tl.row r).rcw)

/-- CWCNT (R396). -/
def execCwcnt (sh : Bool) (d : SReg) (t : TReg) (s : State) : Out :=
  .next (s.toX (.cwcnt sh d t) { pd := physS s.cur.ages d })

/-- A scalar result of a command: S[d] by its physical number, a write of s0 discarded (R8, R392). -/
def Ctx.putS (c : Ctx) (d : SReg) (pd : BitVec 6) (v : Word) : Ctx := if d = 0 then c else c.landWrite (.s pd v)

/-- lr as a command writes it (R214, R249, R392). -/
def Ctx.putLr (c : Ctx) (n : Nat) : Ctx := { c with lr := BitVec.ofNat 16 n }.noting [⟨8, 0⟩]

/-- CWCNT completes (R216, R396). -/
def completeCwcnt (sh : Bool) (d : SReg) (t : TReg) (c : Command) (s : State) : State :=
  let tl := c.tile s t.toNat
  let n := ((List.range 64).filter fun r => rcwLive sh (tl.row r).rcw).length
  if anyPoison tl 64 then killCmd s c poisonedReg
  else s.mapCtx c.ctx fun x => (x.putS d c.cap.pd (BitVec.ofNat 64 n)).putLr n

/-! ## Compaction (R79 to R81, R397, R398) -/

/-- COMPACT (R397). -/
def execCompact (sh : Bool) (km1 : BitVec 3) (d a : TReg) (s : State) : Out := .next (s.toX (.compact sh km1 d a) {})
/-- RESTORE (R398). -/
def execRestore (km1 : BitVec 3) (d a : TReg) (s : State) : Out := .next (s.toX (.restore km1 d a) {})

/-- An entry of the permutation memory (R80). -/
def permEntry (src row : Nat) : BitVec 16 := BitVec.ofNat 16 (0x8000 + 64 * src + row)

/-- The live rows of k tiles in ascending order, by source and row (R79). -/
def liveRows (sh : Bool) (ts : List Tile) : List (Nat × Nat × TileRow) :=
  ts.zipIdx.flatMap fun (t, i) => (List.range 64).filterMap fun r => if rcwLive sh (t.row r).rcw then some (i, r, t.row r) else none

/-- Destination tile t of a compaction: its packed rows, padding beyond them (R79). -/
def packedTile (fmt : BitVec 4) (l : List (Nat × Nat × TileRow)) (t : Nat) : Tile :=
  let mine := (l.drop (64 * t)).take 64
  { fmt, live := BitVec.ofNat 7 mine.length
    rows := (List.range 64).map fun r => (r, match mine[r]? with | some (_, _, x) => x | none => { rcw := rcwPad }) }

/-- COMPACT completes (R79, R80, R216, R397): every source is read before any destination is written. -/
def completeCompact (sh : Bool) (km1 : BitVec 3) (d a : TReg) (c : Command) (s : State) : State :=
  let k := km1.toNat + 1
  let ts := (List.range k).map fun i => c.tile s (a.toNat + i)
  let fmt := (c.tile s a.toNat).fmt
  let l := liveRows sh ts
  if ts.any fun t => anyPoison t 64 then killCmd s c poisonedReg
  else
  let s := (List.range k).foldl (fun s t => s.setTile c.ctx (d.toNat + t) (packedTile fmt l t)) s
  s.mapCtx c.ctx fun x =>
    { (x.orFlags (flagIf (ts.any fun t => t.fmt != fmt) fIV)).putLr l.length with
      perm := l.zipIdx.map fun ((i, r, _), n) => (n, permEntry i r) }

/-- An entry of the permutation memory that a restore of k tiles takes up (R81, R398). -/
def restores (k : Nat) (e : Nat × BitVec 16) : Bool := e.2.getLsbD 15 && decide (bits e.2 8 6 < k) && decide (e.1 / 64 < k)

/-- One entry of a restore: the packed row written to its target, and whether the tags differ (R81, R398). -/
def restoreOne (g k d : Nat) (packed : List Tile) (x : State × Bool) (e : Nat × BitVec 16) : State × Bool :=
  let (s, iv) := x
  let (i, w) := e
  let src := bits w 8 6
  if !restores k e then x
  else
    let p := packed.getD (i / 64) {}
    let t := (s.ctx g).tile (d + src)
    (s.setTile g (d + src) (t.setRow (bits w 5 0) (p.row (i % 64))), iv || p.fmt != t.fmt)

/-- RESTORE completes (R81, R216, R398). -/
def completeRestore (km1 : BitVec 3) (d a : TReg) (c : Command) (s : State) : State :=
  let k := km1.toNat + 1
  let packed := (List.range k).map fun i => c.tile s (a.toNat + i)
  let perm := (s.ctx c.ctx).perm
  if perm.any fun e => restores k e && ((packed.getD (e.1 / 64) {}).row (e.1 % 64)).poison then killCmd s c poisonedReg
  else
  let (s, iv) := perm.foldl (restoreOne c.ctx k d.toNat packed) (s, false)
  s.mapCtx c.ctx (·.orFlags (flagIf iv fIV))

/-! ## Exit notices (R91, R399) -/

/-- A row that has exited at block b (R399, R404). -/
def rcwExitAt (b : BitVec 8) (w : Lane) : Bool := rcwClear w && rcwAct w == 2 && rcwDepth w == b

/-- The 64 bytes of a notice (R91). -/
def noticeBytes (job : Nat) (b : BitVec 8) (step : Lane) (slots : List Nat) : List Byte :=
  leBytes 2 job ++ leBytes 2 b.toNat ++ leBytes 4 step.toNat ++ leBytes 2 slots.length ++ (slots.flatMap fun x => leBytes 2 x) ++
  List.replicate (54 - 2 * slots.length) 0xFF

/-- A list in groups of 27, at most three of them (R399). -/
def groups27 (l : List Nat) : List (List Nat) :=
  ([l.take 27, (l.drop 27).take 27, l.drop 54]).filter fun x => !x.isEmpty

/-- The notices of an EXNOTE (R399). -/
def notices (s : State) (t : TReg) : List (List Byte) :=
  let tl := s.issueTile t.toNat
  let b := s.me.cr.blockno
  let slots := ((List.range 64).filter fun r => rcwExitAt b (tl.row r).rcw).map fun r => rcwSlot (tl.row r).rcw
  let jn := s.me.cr.job.toNat
  (groups27 slots).map (noticeBytes jn b (s.job jn).stepNo)

/-- The line of a job's notice ring that its n-th notice takes (R191). -/
def noticeLine (j : Job) (n : Nat) : Nat := j.window'.1 + j.window'.2 - 64 + n % 64

/-- The SHAFT records of n notices (R177, R399). -/
def noticeRecords (s : State) (n : Nat) : List Logged :=
  let j := s.job s.me.cr.job.toNat
  (List.range n).map fun i => shaftRecord s s.cur.ctx 2 (noticeLine j (j.notices + i))

/-- Whether EXNOTE may run: no poisoned row, and its notices may be logged together (R399, R410, R412). -/
def exnoteReady (t : TReg) (s : State) : Ready :=
  if anyPoison (s.issueTile t.toNat) 64 then .bad poisonedReg
  else if (notices s t).isEmpty then .go
  else transfersReady s s.cur.ctx (noticeRecords s (notices s t).length)

/-- EXNOTE (R399): its notices enter the send queue together. -/
def execExnote (t : TReg) (s : State) : Out :=
  s.when (exnoteReady t s) fun s =>
    let ns := notices s t
    let jn := s.me.cr.job.toNat
    let s := ns.foldl (fun s bs =>
      let j := s.job jn
      (enqueueTransfer s s.cur.ctx (noticeLine j j.notices) true (BitVec.allOnes 64) (BitVec.ofNat 512 (leNat bs))).mapJob jn
        fun j => { j with notices := j.notices + 1 }) s
    .next (s.toX (.exnote t) {})

/-! ## The requests of a step's slots (R392, R400) -/

/-- The request of a slot: its index, its length, its record now and as the step opened. -/
structure KvSlot where
  slot : Nat
  ix : Nat
  len : Nat
  now : Req
  snap : Req

/-- The request that the step's tables give a slot, none where it has none (R75, R392). -/
def kvSlot (s : State) (slot : Nat) : Option KvSlot :=
  let j := s.job s.me.cr.job.toNat
  let at_ := fun (off : Nat) => readVaNum s j.asid (j.stepbase + BitVec.ofNat 64 (off + 4 * slot)) 4
  match at_ 0, at_ 0x2000 with
  | .ok m, .ok l =>
    let ix := m % 65536
    if m / 2 ^ 30 = 0 ∨ l = 0 ∨ !j.hasReq ix then none
    else some ⟨slot, ix, l, s.req ix, (Tab.find j.snapReq ix).getD (s.req ix)⟩
  | _, _ => none

/-- The slot's request where it is ACTIVE (R400). -/
def kvActive (s : State) (slot : Nat) : Option KvSlot := (kvSlot s slot).filter fun k => k.now.state == stActive

/-- The space of the request's virtual addresses (R116). -/
def KvSlot.space (k : KvSlot) : Nat := k.snap.space

/-- Memory and its poison as the job's step found them when it opened, for reading the KV page tables (R88). -/
def kvOpened (s : State) : State :=
  let j := s.job s.me.cr.job.toNat
  { s with mem := j.snapMem, chip := { s.chip with poison := j.snapPoison } }

/-- What a position resolves to: a page, a deferral, or a fault with its code and, for poison, the poisoned place; and the page's address
(R89). -/
inductive KvFind
  | page (va : Word) (pa : Nat)
  | deferred (va : Word)
  | fault (code : BitVec 8) (va : Word) (site : Nat)
  deriving DecidableEq, Repr

/-- FLTCODE of a failure (R89). -/
def kvCode (b : Bad) : BitVec 8 := if b.code = 0x11 then 0x11 else 0x10

/-- What a KV instruction reads of an entry: nothing, its META, or all of an entry that is present (R401 to R403). -/
inductive KvReads | none | presence | whole
  deriving DecidableEq, Repr

/-- The poison that reading the entry at a physical address meets: a poisoned META, or a poisoned byte of an entry that is gathered
(R84, R89, R403). -/
def entryPoison (s : State) (a : Nat) (r : KvReads) : Option Nat :=
  let found := firstPoison s (a + 0x88) 8
  match r with
  | .none => Option.none
  | .presence => found
  | .whole => if found.isNone && s.peek (a + 0x88) 1 % 2 = 1 then firstPoison s a 144 else found

/-- The page that a table entry names: poison first, then an invalid entry and the failures of a translation, of which a write to a page under
migration or blocked for writing is the writer's own, then the tier (R89, R122, R141, R212). -/
def kvPage (s : State) (k : KvSlot) (e pos : Nat) (w : Bool) (reads : KvReads) (forced : Bool) : Except Bad KvFind :=
  let va := kvPageVa e
  match lookup s k.space va with
  | .miss => .ok (.fault 0x10 (if e % 2 = 0 then 0 else va) 0)
  | .poison p => .ok (.fault 0x11 va p)
  | .hit x pa _ =>
    let bad := entryPoison s (pa + 144 * (pos % 448)) reads
    if x.getLsbD 59 || bad.isSome then .ok (.fault 0x11 va (bad.getD pa))
    else if e % 2 = 0 then .ok (.fault 0x10 0 0)
    else if !(if w then x.getLsbD 61 else x.getLsbD 60) then .ok (.fault 0x10 va 0)
    else if w && (x.getLsbD 57 || codeBlocked s pa) then .error { code := 0x10, acc := 1, addr := va }
    else if e / 2 % 2 = 1 || forced then .ok (.deferred va)
    else .ok (.page va pa)

/-- A position resolved for block c, head h and kind, by the table as the step opened (R71, R88, R89, R400). -/
def kvFind (s : State) (k : KvSlot) (c h kind pos : Nat) (w : Bool) (reads : KvReads) (forced : Bool) : Except Bad KvFind :=
  let o := kvOpened s
  match kvHeader o k.space k.snap.kvpt with
  | .error b => .ok (.fault (kvCode b) 0 b.info.toNat)
  | .ok hd =>
    if hd.nblk ≤ c ∨ hd.nhead ≤ h ∨ hd.npg ≤ pos / 448 then .ok (.fault 0x10 0 0)
    else match readVaNum o k.space (kvEntryVa k.snap.kvpt hd c h kind (pos / 448)) 8 with
      | .error b => .ok (.fault (kvCode b) 0 b.info.toNat)
      | .ok e => kvPage s k e pos w reads forced

/-- What a KV instruction has resolved: the state with the grants taken, its rows in order, by request the code, page and poisoned place of its
deferral or fault, the most requests it can end, the tiles and gaps it takes, and what REPLAY still makes it wait for (R90, R181, R400, R412). -/
structure KvPlan where
  s : State
  rows : List KvRow := []
  ends : Tab (BitVec 8 × Word × Nat) := []
  most : Nat := 0
  tiles : List Tile := []
  gaps : List Nat := []
  hold : Ready := .go

/-- A request's deferral or fault noted: a fault replaces a deferral, else the first stands (R90). -/
def KvPlan.mark (p : KvPlan) (ix : Nat) (code : BitVec 8) (va : Word) (site : Nat) : KvPlan :=
  match Tab.find p.ends ix with
  | none => { p with ends := Tab.set p.ends ix (code, va, site) }
  | some (0x0B, _) => if code = 0x0B then p else { p with ends := Tab.set p.ends ix (code, va, site) }
  | some _ => p

/-- REPLAY: the requests, of those that a KV instruction acts on, whose deferral the log names from place n on, one RETIRE record after the
other. It waits for a record still to come, and where such a record stands behind one that its context has still to take. The log does not say
which of two instructions a record belongs to: the model's choice is the first that acts on its request (R181, R412; log entry 61). left is how
many records it can have, and k bounds how many are looked at. -/
def kvForced (s : State) (g : Nat) (acts : List Nat) : Nat → Nat → Nat → Bool → Except Ready (List Nat)
  | 0, _, _, _ | _, 0, _, _ => .ok []
  | k + 1, left + 1, n, behind =>
    match peekRecord s g n with
    | .bad b => .error (.bad b)
    | .wait => .error (.wait .replay)
    | .ended => .ok []
    | .record r ok =>
      if !ok || recReserved r then .ok []
      else if r.extractLsb' 0 16 == 0x0109 then
        if !acts.contains (bits r 127 64) then .ok []
        else if bits (recVal r) 23 16 ≠ 3 then kvForced s g acts k left (n + 1) behind
        else if behind then .error (.wait .replay)
        else (kvForced s g acts k left (n + 1) behind).map (bits r 127 64 :: ·)
      else if recLater s g r || isForeman g && recOfAgent r then kvForced s g acts k (left + 1) (n + 1) true
      else .ok []

/-- The deferrals forced on a KV instruction of the bundle being issued, which acts on some requests, or why it must wait to be told. -/
def State.kvForcedHere (s : State) (acts : List Nat) : Except Ready (List Nat) :=
  let g := s.cur.ctx
  if modeOf s g = 3 then kvForced s g acts (ringRecords (ringOf s g).2 + 1) acts.length (s.ahead g) false else .ok []

/-- Region checks of bytes of a page: offset in the page and length of each (R155, R392). -/
def kvChecks (s : State) (k : KvSlot) (va : Word) (w : Bool) (l : List (Nat × Nat)) : Except Bad State :=
  foldE (fun s (off, n) => regionCheckIn s k.space s.cur.ctx (va + BitVec.ofNat 64 off) n w) s l

/-- One position resolved, region-checked and noted (R89, R392, R400). -/
def KvPlan.resolve (p : KvPlan) (k : KvSlot) (row c h kind pos : Nat) (w : Bool) (reads : KvReads) (chk : List (Nat × Nat))
    (forced : List Nat) : Except Bad KvPlan :=
  match kvFind p.s k c h kind pos w reads (forced.contains k.ix) with
  | .error b => .error b
  | .ok (.deferred va) => .ok { p.mark k.ix 0x0B va 0 with rows := p.rows ++ [⟨row, pos, k.slot, .deferred, 0, 0, 0⟩] }
  | .ok (.fault code va site) => .ok { p.mark k.ix code va site with rows := p.rows ++ [⟨row, pos, k.slot, .faulted, 0, 0, 0⟩] }
  | .ok (.page va pa) =>
    match kvChecks p.s k va w chk with
    | .error b => .error b
    | .ok s => .ok { p with s, rows := p.rows ++ [⟨row, pos, k.slot, .page pa, 0, 0, 0⟩] }

/-- The RETIRE records of a KV instruction, ascending request (R177, R400). -/
def KvPlan.records (p : KvPlan) : List Logged :=
  let g := p.s.cur.ctx
  p.ends.map fun (ix, code, _) =>
    { requestRecord recRetire 1 ix (p.s.req ix).slot (if code = 0x0B then stDeferred else stFaulted) (p.s.job p.s.me.cr.job.toNat).stepNo g with
      lid := p.s.me.cr.launch, ord := p.s.me.cr.iterno }

/-- One request's change of state and its record to the foreman; a fault by poison is consumption (R89, R90, R210, R216, R220). -/
def kvEnd (s : State) (x : Nat × BitVec 8 × Word × Nat) : State :=
  let (ix, code, va, site) := x
  let s := if code = 0x11 then s.consumed s.cur.ctx (unitOf site) true else s
  let q := s.req ix
  let q' : Req :=
    if code = 0x0B then (if q.state = stActive then { q with state := stDeferred } else q)
    else if q.state = stActive ∨ q.state = stDeferred then { q with state := stFaulted, fltcode := code.setWidth 32 } else q
  let info : Word := BitVec.ofNat 64 (ix + 2 ^ 16 * (if code = 0x0B then 3 else 5))
  (s.mapReq ix fun _ => q').post { s.recordHere code 3 0 va info with tslot := 7 }

/-- Whether a planned KV instruction may run under the log (R400, R412). -/
def kvReady (p : Except Bad KvPlan) : Ready :=
  match p with
  | .error b => .bad b
  | .ok p =>
    match p.hold with
    | .go => (logManyReady p.s p.s.cur.ctx p.most p.records).ready
    | h => h

/-- A planned KV instruction carried out: its records, its requests' changes, then its command (R400). -/
def kvIssue (s : State) (p : Except Bad KvPlan) (i : Instr) (cap : KvPlan → Capture) : Out :=
  s.when (kvReady p) fun s => s.try p fun p => s.try (logManyDone p.s s.cur.ctx p.records) fun s =>
    .next ((p.ends.foldl kvEnd s).toX i (cap p))

/-! ## KVAPP (R401) -/

/-- Two tiles carry a tag. -/
def pairTag (x y : Tile) (f : Fmt) : Bool := x.fmt == f.code && y.fmt == f.code

/-- The rows of a tile below its live-row count that satisfy p. -/
def Tile.rowsWhere (t : Tile) (p : Lane → Bool) : List (Nat × Lane) :=
  ((List.range (min t.live.toNat 64)).map fun r => (r, (t.row r).rcw)).filter fun x => p x.2

/-- Numbers without repeats. -/
def distinct (l : List Nat) : Nat := (l.foldl (fun m x => insertNat x m) []).length

/-- Bytes that KVAPP writes in a page for entry e: the entry, its bitmap byte, BLK to HEAD (R84, R85). -/
def kvappBytes (e : Nat) : List (Nat × Nat) := [(144 * e, 144), (0xFC00 + e / 8, 1), (0xFC38, 4)]

/-- The plan of KVAPP (R401). -/
def kvappPlan (v f : Bool) (h : BitVec 6) (t : TReg) (b : SReg) (s : State) : Except Bad KvPlan :=
  if !pairTag (s.issueTile t.toNat) (s.issueTile (t.toNat + 1)) .nbf8 then .ok { s }
  else
    let rows := (s.issueTile t.toNat).rowsWhere rcwClear
    let acts := rows.filterMap fun x => (kvActive s (rcwSlot x.2)).map KvSlot.ix
    let start : KvPlan := { s, most := distinct (rows.map fun x => rcwSlot x.2) }
    match s.kvForcedHere (acts.foldl (fun l x => insertNat x l) []) with
    | .error h => .ok { start with hold := h }
    | .ok forced => foldE (fun (p : KvPlan) (r, w) =>
      match kvActive p.s (rcwSlot w) with
      | none => .ok p
      | some k =>
        let pos : Except Bad (State × Nat) :=
          if f then (scrRead p.s p.s.cur.ctx (s.rS b + BitVec.ofNat 64 (4 * r)) 4).map fun (s, bs) => (s, leNat bs) else .ok (p.s, k.len - 1)
        match pos with
        | .error b => .error b
        | .ok (s, pos) =>
          { p with s }.resolve k r s.me.cr.blockno.toNat h.toNat (if v then 1 else 0) pos true (if f then .presence else .none) (kvappBytes (pos % 448)) forced)
      start rows

/-- Whether KVAPP may run. -/
def kvappReady (v f : Bool) (h : BitVec 6) (t : TReg) (b : SReg) (s : State) : Ready := kvReady (kvappPlan v f h t b s)

/-- KVAPP (R401). -/
def execKvapp (v f : Bool) (h : BitVec 6) (t : TReg) (b : SReg) (s : State) : Out :=
  kvIssue s (kvappPlan v f h t b s) (.kvapp v f h t b) fun p => { kv := p.rows }

/-- The bytes of an entry but META: mantissas of both tiles, then the four exponents (R84, R401). -/
def kvEntryBytes (x y : TileRow) : List Byte :=
  leBytes 64 x.data.toNat ++ leBytes 64 y.data.toNat ++ leBytes 2 x.e0.toNat ++ leBytes 2 x.e1.toNat ++ leBytes 2 y.e0.toNat ++
  leBytes 2 y.e1.toNat

/-- META (R84). -/
def kvMeta (pos : Nat) (b : BitVec 8) (fill : Bool) : Nat := pos % 2 ^ 32 * 2 ^ 16 + b.toNat * 2 ^ 8 + (if fill then 3 else 1)

/-- One entry written: its bytes, then META, then the trailer (R84, R85, R401); a fill leaves a present entry unchanged. -/
def kvappOne (c : Command) (v f : Bool) (h : BitVec 6) (t : TReg) (s : State) (r : KvRow) : State :=
  match r.page with
  | .page pa =>
    let e := r.pos % 448
    let a := pa + 144 * e
    if f && s.peek (a + 0x88) 1 % 2 = 1 then s
    else
      let s := s.poke a (kvEntryBytes ((c.tile s t.toNat).row r.row) ((c.tile s (t.toNat + 1)).row r.row) ++ leBytes 8 (kvMeta r.pos c.cap.blockno f))
      let m := pa + 0xFC00 + e / 8
      let s := s.poke m [BitVec.ofNat 8 (s.peek m 1) ||| (1 <<< (e % 8))]
      s.poke (pa + 0xFC38) ([c.cap.blockno, if v then 1 else 0] ++ leBytes 2 h.toNat)
  | _ => s

/-- KVAPP completes (R401, R410). -/
def completeKvapp (v f : Bool) (h : BitVec 6) (t : TReg) (c : Command) (s : State) : State :=
  if !pairTag (c.tile s t.toNat) (c.tile s (t.toNat + 1)) .nbf8 then s.mapCtx c.ctx (·.orFlags fIV)
  else
    if c.cap.kv.any fun r => (match r.page with | .page _ => true | _ => false) &&
        (((c.tile s t.toNat).row r.row).poison || ((c.tile s (t.toNat + 1)).row r.row).poison) then killCmd s c poisonedReg
    else c.cap.kv.foldl (kvappOne c v f h t) s

/-! ## KVG (R403) -/

/-- A gathered entry as two tile rows, none where it is not present (R84, R403). -/
def kvGathered (s : State) (pa e slot : Nat) : Option (TileRow × TileRow) :=
  let bs := Cells.bytes s.mem (pa + 144 * e) 144
  let meta_ := leNat (bs.drop 0x88)
  let ex := fun (i : Nat) => BitVec.ofNat 9 (leNat ((bs.drop (0x80 + 2 * i)).take 2))
  if meta_ % 2 = 0 then none
  else
    let rcw : Lane := BitVec.ofNat 32 (slot * 2 ^ 16 + meta_ / 2 ^ 8 % 2 ^ 8 * 2 ^ 8)
    some ({ data := BitVec.ofNat 1024 (leNat (bs.take 64)), e0 := ex 0, e1 := ex 1, rcw },
          { data := BitVec.ofNat 1024 (leNat ((bs.drop 64).take 64)), e0 := ex 2, e1 := ex 3, rcw })

/-- DEF or FLT as a code marks a row. -/
def kvFlag (code : BitVec 8) : Lane := if code = 0x0B then 0x20000000 else 0x10000000

/-- The rows of a hole: zero, with the slot and what marks it (R403). -/
def kvHole (slot : Nat) (mark : Lane) : TileRow := { rcw := rcwPad ||| BitVec.ofNat 32 (slot * 2 ^ 16) ||| mark }

/-- The request of the gathered slot in a state that a gather resolves: ACTIVE, or made DEFERRED or FAULTED by a gather of the step
(R69, R89, R90). -/
def kvGatherSlot (s : State) (slot : Nat) : Option KvSlot :=
  (kvSlot s slot).filter fun k => k.now.state == stActive || k.now.state == stDeferred || k.now.state == stFaulted

/-- The rows of key j. -/
def kvKey (slot c h kind : Nat) (k : Option KvSlot) (forced : List Nat) (x : KvPlan × List (TileRow × TileRow)) (pos : Int) :
    Except Bad (KvPlan × List (TileRow × TileRow)) :=
  let (p, l) := x
  let hole := fun (m : Lane) => (kvHole slot m, kvHole slot m)
  match k with
  | none => .ok (p, l ++ [hole 0])
  | some k =>
    if pos < 0 ∨ (k.len : Int) ≤ pos then .ok (p, l ++ [hole 0])
    else
      let n := pos.toNat
      match p.resolve k l.length c h kind n false .whole [(144 * (n % 448), 144)] forced with
      | .error b => .error b
      | .ok p =>
        match (p.rows.getLast?).map KvRow.page with
        | some (.page pa) => .ok (p, l ++ [(kvGathered p.s pa (n % 448) slot).getD (hole 0)])
        | some .deferred => .ok (p, l ++ [hole 0x20000000])
        | some .faulted => .ok (p, l ++ [hole 0x10000000])
        | _ => .ok (p, l ++ [hole 0])

/-- The two tiles of a gather (R403). -/
def kvTiles (l : List (TileRow × TileRow)) : List Tile :=
  let mk := fun (f : TileRow × TileRow → TileRow) => ({
    fmt := Fmt.nbf8.code, live := BitVec.ofNat 7 l.length
    rows := (List.range 64).map fun j => (j, match l[j]? with | some x => f x | none => { rcw := rcwPad }) } : Tile)
  [mk Prod.fst, mk Prod.snd]

/-- The plan of KVG (R403): positions from the walk, its index entries read, every key resolved and gathered. -/
def kvgPlan (v : Bool) (h : BitVec 6) (g : GReg) (a : SReg) (s : State) : Except Bad KvPlan :=
  let x := s.rG g
  let n := min (walkLength x) 64
  let slot := bits (s.rS a) 10 0
  match captureIndexes s s.cur.ctx x n with
  | .error b => .error b
  | .ok (s, idx) =>
    let ps := (walkSteps x .i8 false idx n).map WalkStep.row
    let k := kvGatherSlot s slot
    match s.kvForcedHere (k.toList.map KvSlot.ix) with
    | .error w => .ok { s, most := 1, hold := w }
    | .ok forced =>
      match foldE (kvKey slot s.me.cr.blockno.toNat h.toNat (if v then 1 else 0) k forced) ({ s, most := 1 }, []) ps with
      | .error b => .error b
      | .ok (p, l) => .ok { p with tiles := kvTiles l }

/-- Whether KVG may run. -/
def kvgReady (v : Bool) (h : BitVec 6) (g : GReg) (a : SReg) (s : State) : Ready := kvReady (kvgPlan v h g a s)

/-- KVG (R403). -/
def execKvg (hint : Hint) (v : Bool) (h : BitVec 6) (t : TReg) (g : GReg) (a : SReg) (mq : Option TReg) (s : State) : Out :=
  kvIssue s (kvgPlan v h g a s) (.kvg hint v h t g a mq) fun p =>
    { tiles := p.tiles, count := bits (s.rS a) 10 0, sd := (p.ends.foldl (fun m (_, code, _) => m ||| kvFlag code) (0 : Lane)).setWidth 64 }

/-- KVG completes (R403). -/
def completeKvg (t : TReg) (mq : Option TReg) (c : Command) (s : State) : State :=
  let s := s.setTile c.ctx t.toNat (c.cap.tiles.getD 0 {})
  let s := s.setTile c.ctx (t.toNat + 1) (c.cap.tiles.getD 1 {})
  match mq with
  | none => s
  | some q =>
    s.setTile c.ctx q.toNat (((s.ctx c.ctx).tile q.toNat).mapRcw fun r _ =>
      let w := ((c.tile s q.toNat).row r).rcw
      if rcwSlot w = c.cap.count then w ||| c.cap.sd.setWidth 32 else w)

/-! ## The exit store (R86, R402, R404) -/

/-- D and NPOS of a request's exit store, region-checked, or the code with which they cannot be read and the poisoned place (R86, R155). R86
states no outcome for a D outside 32 to 16,384 or not a multiple of 32: the model uses it as it stands (log entry 55). -/
def xstHeader (s : State) (k : KvSlot) : Except Bad (Except Bad (State × Nat × Nat)) :=
  match regionCheckIn s k.space s.cur.ctx k.snap.xst 8 false with
  | .error b => if b.code = 0x11 then .ok (.error b) else .error b
  | .ok s => .ok ((readVa s k.space k.snap.xst 8).map fun bs => (s, leNat (bs.take 4), leNat (bs.drop 4)))

/-- Address of the exit-store entry for position p (R86). -/
def xstEntry (xst : Word) (d p : Nat) : Word := xst + BitVec.ofNat 64 (64 + p * (64 + 2 * d))

/-- A gap: VALID with XDEPTH below c (R87); the entry's bytes are region-checked. -/
def xstGap (s : State) (k : KvSlot) (c p : Nat) : Except Bad (Except (BitVec 8 × Word × Nat) (State × Bool)) :=
  match xstHeader s k with
  | .error b => .error b
  | .ok (.error b) => .ok (.error (kvCode b, k.snap.xst, b.info.toNat))
  | .ok (.ok (s, d, npos)) =>
    let va := xstEntry k.snap.xst d p
    if npos ≤ p then .ok (.error (0x10, k.snap.xst, 0))
    else match regionCheckIn s k.space s.cur.ctx va 2 false with
      | .error b => if b.code = 0x11 then .ok (.error (0x11, va, b.info.toNat)) else .error b
      | .ok s =>
        match readVa s k.space va 2 with
        | .error b => .ok (.error (kvCode b, va, b.info.toNat))
        | .ok bs => .ok (.ok (s, decide ((bs.getD 0 0).toNat % 2 = 1) && decide ((bs.getD 1 0).toNat < c)))

/-- KVSCAN from position p over n positions: it stops at the first page that does not resolve (R402). -/
def kvscanFrom (k : KvSlot) (c h kind : Nat) (forced : List Nat) (p : KvPlan) (pos : Nat) : Nat → Except Bad KvPlan
  | 0 => .ok p
  | n + 1 =>
    let e := pos % 448
    match kvFind p.s k c h kind pos false .presence (forced.contains k.ix) with
    | .error b => .error b
    | .ok (.deferred va) => .ok (p.mark k.ix 0x0B va 0)
    | .ok (.fault code va site) => .ok (p.mark k.ix code va site)
    | .ok (.page va pa) =>
      match kvChecks p.s k va false [(144 * e + 0x88, 8)] with
      | .error b => .error b
      | .ok s =>
        if s.peek (pa + 144 * e + 0x88) 1 % 2 = 1 then kvscanFrom k c h kind forced { p with s } (pos + 1) n
        else match xstGap s k c pos with
          | .error b => .error b
          | .ok (.error (code, va, site)) => .ok ({ p with s }.mark k.ix code va site)
          | .ok (.ok (s, gap)) =>
            kvscanFrom k c h kind forced { p with s, gaps := if gap then p.gaps ++ [pos] else p.gaps } (pos + 1) n

/-- The plan of KVSCAN (R402). -/
def kvscanPlan (v : Bool) (h : BitVec 6) (a b : SReg) (s : State) : Except Bad KvPlan :=
  let out := s.rS b
  let from_ := bits (s.rS a) 63 32
  if out.toNat % 4 ≠ 0 then .error (windowError s.cur.core out true)
  else
    let r : Except Bad KvPlan := match kvActive s (bits (s.rS a) 10 0) with
      | none => .ok { s, most := 1 }
      | some k =>
        match s.kvForcedHere [k.ix] with
        | .error w => .ok { s, most := 1, hold := w }
        | .ok forced => kvscanFrom k s.me.cr.blockno.toNat h.toNat (if v then 1 else 0) forced { s, most := 1 } from_ (k.len - from_)
    match r with
    | .error b => .error b
    | .ok (p : KvPlan) =>
      match scrCheck p.s p.s.cur.ctx out (4 * min p.gaps.length 512) true with
      | .error b => .error b
      | .ok s => .ok { p with s }

/-- Whether KVSCAN may run. -/
def kvscanReady (v : Bool) (h : BitVec 6) (a b : SReg) (s : State) : Ready := kvReady (kvscanPlan v h a b s)

/-- KVSCAN (R402). -/
def execKvscan (v : Bool) (h : BitVec 6) (d a b : SReg) (s : State) : Out :=
  kvIssue s (kvscanPlan v h a b s) (.kvscan v h d a b) fun p =>
    { pd := physS s.cur.ages d, sb := s.rS b, idx := p.gaps.take 512, count := p.gaps.length }

/-- KVSCAN completes (R402). -/
def completeKvscan (d : SReg) (c : Command) (s : State) : State :=
  match scrStore s (coreOf c.ctx) c.cap.sb.toNat (c.cap.idx.flatMap fun p => leBytes 4 p) with
  | .error b => killCmd s c b
  | .ok s => s.mapCtx c.ctx fun x =>
    (x.putS d c.cap.pd (BitVec.ofNat 64 c.cap.count)).putLr (min c.cap.count 512)

/-- Elements of chunk c of a hidden width d (R404). -/
def chunkLen (d c : Nat) : Nat := min 64 (d - 64 * c)

/-- The bytes KVEXS writes of an entry: offset and length, H first, then XDEPTH, POSN and the zero fields (R86, R404). -/
def kvexsBytes (d ch : Nat) : List (Nat × Nat) :=
  [(64 + 128 * ch, 2 * chunkLen d ch), (1, 63)] ++ if ch + 1 = (d + 63) / 64 then [(0, 1)] else []

/-- One exit-store entry's bytes region-checked and then translated for writing, or the fault it makes (R89, R141, R155, R404). -/
def kvexsCheck (s : State) (k : KvSlot) (va : Word) (l : List (Nat × Nat)) : Except Bad (Except (BitVec 8 × Word × Nat) State) :=
  match kvChecks s k va true l with
  | .error b => if b.code = 0x11 then .ok (.error (0x11, va, b.info.toNat)) else .error b
  | .ok t =>
    match foldE (fun (_ : Unit) (off, n) =>
        (translateAll s k.space .write (pieces (va + BitVec.ofNat 64 off).toNat n)).map fun _ => ()) () l with
    | .ok () => .ok (.ok t)
    | .error b =>
      match lookup s k.space b.addr with
      | .hit x pa _ =>
        if b.code = 0x10 ∧ x.getLsbD 61 = true ∧ (x.getLsbD 57 = true ∨ codeBlocked s pa = true) then .error b
        else .ok (.error (kvCode b, va, b.info.toNat))
      | _ => .ok (.error (kvCode b, va, b.info.toNat))

/-- The plan of KVEXS (R404). -/
def kvexsPlan (t : TReg) (a : SReg) (s : State) : Except Bad KvPlan :=
  let tl := s.issueTile t.toNat
  let ch := bits (s.rS a) 7 0
  if tl.fmt ≠ Fmt.bf16.code then .ok { s }
  else
    let rows := tl.rowsWhere (rcwExitAt s.me.cr.blockno)
    foldE (fun (p : KvPlan) (r, w) =>
      match kvActive p.s (rcwSlot w) with
      | none => .ok p
      | some k =>
        match xstHeader p.s k with
        | .error b => .error b
        | .ok (.error b) => .ok (p.mark k.ix (kvCode b) k.snap.xst b.info.toNat)
        | .ok (.ok (s, d, npos)) =>
          if npos ≤ k.len - 1 then .ok (p.mark k.ix 0x10 k.snap.xst 0)
          else if d ≤ 64 * ch then .ok { p with s }
          else
            let va := xstEntry k.snap.xst d (k.len - 1)
            match kvexsCheck s k va (kvexsBytes d ch) with
            | .error b => .error b
            | .ok (.error (code, va, site)) => .ok (p.mark k.ix code va site)
            | .ok (.ok s) => .ok { p with s, rows := p.rows ++ [⟨r, k.len - 1, k.slot, .page 0, va.toNat, k.space, d⟩] })
      { s, most := distinct (rows.map fun x => rcwSlot x.2) } rows

/-- Whether KVEXS may run. -/
def kvexsReady (t : TReg) (a : SReg) (s : State) : Ready := kvReady (kvexsPlan t a s)

/-- KVEXS (R404). -/
def execKvexs (t : TReg) (a : SReg) (s : State) : Out :=
  kvIssue s (kvexsPlan t a s) (.kvexs t a) fun p => { kv := p.rows, count := bits (s.rS a) 7 0 }

/-- One chunk of one entry: H, then XDEPTH, POSN and zero in the fields that are zero, then VALID with the last (R86, R404). -/
def kvexsOne (c : Command) (t : TReg) (s : State) (r : KvRow) : Except Bad State :=
  let ch := c.cap.count
  let row := (c.tile s t.toNat).row r.row
  let put := fun (s : State) (off : Nat) (bs : List Byte) => writeVa s r.asid (BitVec.ofNat 64 (r.va + off)) bs
  match put s (64 + 128 * ch) (leBytes (2 * chunkLen r.dim ch) row.data.toNat) with
  | .error b => .error b
  | .ok s =>
    match put s 1 (c.cap.blockno :: (leBytes 2 0 ++ leBytes 4 r.pos ++ leBytes 56 0)) with
    | .error b => .error b
    | .ok s => if ch + 1 = (r.dim + 63) / 64 then put s 0 [1] else .ok s

/-- KVEXS completes (R404, R410). -/
def completeKvexs (t : TReg) (c : Command) (s : State) : State :=
  let tl := c.tile s t.toNat
  if tl.fmt ≠ Fmt.bf16.code then s.mapCtx c.ctx (·.orFlags fIV)
  else if c.cap.kv.any fun r => (tl.row r.row).poison then killCmd s c poisonedReg
  else match foldE (kvexsOne c t) s c.cap.kv with
    | .error b => killCmd s c b
    | .ok s => s

end Sys2Proof.Machine
end

