-- ==== Sys2Proof/Machine/Exchange.lean ====
section
/-! DEFINITION. Gathers and scatters, window transfers, fabric items handed over and taken, and the effect of every X command
(R24, R126 to R128, R229, R238, R405 to R409). -/

namespace Sys2Proof.Machine

/-! ## Windows (R126 to R128) -/

/-- One byte of a value. -/
def byteAt (v i : Nat) : Byte := BitVec.ofNat 8 (v / 2 ^ (8 * i))
/-- A value with one byte replaced. -/
def putByte (v i : Nat) (b : Byte) : Nat := v - v / 2 ^ (8 * i) % 256 * 2 ^ (8 * i) + b.toNat * 2 ^ (8 * i)

/-- A place in a context's registers that a window byte names: the object and the byte in it (R127). -/
inductive RegPlace
  | data (t r i : Nat)
  | exps (t r i : Nat)
  | rcw (t r i : Nat)
  | tag (t i : Nat)
  | lane (a l i : Nat)
  | laneFlags (a l i : Nat)
  | alpha (a i : Nat)
  | v (n i : Nat)
  | s (n i : Nat)
  | k (n i : Nat)
  | p (i : Nat)
  deriving DecidableEq, Repr

/-- The context and place of an offset of spaces 1 to 3, none where it is unpopulated (R127). -/
def regPlace (space off : Nat) : Option (Nat × RegPlace) :=
  match space with
  | 1 =>
    let t := off / 2 ^ 14 % 16
    let x := off % 2 ^ 14
    if 2 ^ 20 ≤ off then none
    else if x < 0x2000 then some (off / 2 ^ 18, .data t (x / 128) (x % 128))
    else if x < 0x2100 then some (off / 2 ^ 18, .exps t ((x - 0x2000) / 4) (x % 4))
    else if x < 0x2200 then some (off / 2 ^ 18, .rcw t ((x - 0x2100) / 4) (x % 4))
    else if x < 0x2204 then some (off / 2 ^ 18, .tag t (x % 4))
    else none
  | 2 =>
    let a := off / 2 ^ 17 % 2
    let x := off % 2 ^ 17
    if 2 ^ 20 ≤ off then none
    else if x < 0x10000 then some (off / 2 ^ 18, .lane a (x / 16) (x % 16))
    else if x < 0x14000 then some (off / 2 ^ 18, .laneFlags a ((x - 0x10000) / 4) (x % 4))
    else if x < 0x14002 then some (off / 2 ^ 18, .alpha a (x % 2))
    else none
  | 3 =>
    let x := off % 2 ^ 14
    if 2 ^ 16 ≤ off then none
    else if x < 0x2000 then some (off / 2 ^ 14, .v (x / 256) (x % 256))
    else if x < 0x2200 then some (off / 2 ^ 14, .s ((x - 0x2000) / 8) (x % 8))
    else if x < 0x2240 then some (off / 2 ^ 14, .k ((x - 0x2200) / 8) (x % 8))
    else if x < 0x2242 then some (off / 2 ^ 14, .p (x % 2))
    else none
  | _ => none

/-- The word of a tile's format code and live-row count (R127). -/
def Tile.tagWord (t : Tile) : Nat := t.fmt.toNat + 2 ^ 8 * t.live.toNat
/-- The flag word of an accumulator lane (R127). -/
def AccLane.flagWord (l : AccLane) : Nat := l.cnt.toNat + (if l.nan then 2 ^ 17 else 0) + (if l.ovf then 2 ^ 18 else 0)

/-- The byte at a place; registers that read as constants give those constants (R8, R128). -/
def Ctx.place (c : Ctx) : RegPlace → Byte
  | .data t r i => byteAt ((c.tile t).row r).data.toNat i
  | .exps t r i => byteAt (((c.tile t).row r).e0.toNat + 2 ^ 16 * ((c.tile t).row r).e1.toNat) i
  | .rcw t r i => byteAt ((c.tile t).row r).rcw.toNat i
  | .tag t i => byteAt (c.tile t).tagWord i
  | .lane a l i => byteAt (Tab.get {} (c.acc a).lanes l : AccLane).n.toNat i
  | .laneFlags a l i => byteAt (Tab.get {} (c.acc a).lanes l : AccLane).flagWord i
  | .alpha a i => byteAt (c.acc a).alpha.toNat i
  | .v n i => byteAt (Tab.get (0 : Vec) c.v n).toNat i
  | .s n i => if n = 0 then 0 else byteAt (Tab.get (0 : Word) c.s n).toNat i
  | .k n i => byteAt (c.rK (BitVec.ofNat 3 n)).toNat i
  | .p i => byteAt (c.p ||| 1).toNat i

/-- A tile row changed. -/
def Ctx.mapRow (c : Ctx) (t r : Nat) (f : TileRow → TileRow) : Ctx := { c with t := Tab.set c.t t ((c.tile t).setRow r (f ((c.tile t).row r))) }
/-- An accumulator lane changed. -/
def Ctx.mapLane (c : Ctx) (a l : Nat) (f : AccLane → AccLane) : Ctx :=
  let x := c.acc a
  { c with a := Tab.set c.a a { x with lanes := Tab.set x.lanes l (f (Tab.get {} x.lanes l)) } }

/-- The byte at a place written; reserved bits stay clear, and a register that reads as a constant discards it (R8, R128). -/
def Ctx.putPlace (c : Ctx) (p : RegPlace) (b : Byte) : Ctx :=
  match p with
  | .data t r i => c.mapRow t r fun x => { x with data := BitVec.ofNat 1024 (putByte x.data.toNat i b) }
  | .exps t r i => c.mapRow t r fun x =>
      let v := putByte (x.e0.toNat + 2 ^ 16 * x.e1.toNat) i b
      { x with e0 := BitVec.ofNat 9 v, e1 := BitVec.ofNat 9 (v / 2 ^ 16) }
  | .rcw t r i => c.mapRow t r fun x => { x with rcw := BitVec.ofNat 32 (putByte x.rcw.toNat i b % 2 ^ 30) }
  | .tag t i =>
    let v := putByte (c.tile t).tagWord i b
    { c with t := Tab.set c.t t { c.tile t with fmt := BitVec.ofNat 4 v, live := BitVec.ofNat 7 (v / 2 ^ 8) } }
  | .lane a l i => c.mapLane a l fun x => { x with n := BitVec.ofNat 128 (putByte x.n.toNat i b) }
  | .laneFlags a l i => c.mapLane a l fun x =>
      let v := putByte x.flagWord i b
      { x with cnt := BitVec.ofNat 17 v, nan := v.testBit 17, ovf := v.testBit 18 }
  | .alpha a i =>
    let x := c.acc a
    { c with a := Tab.set c.a a { x with alpha := BitVec.ofNat 12 (putByte x.alpha.toNat i b) } }
  | .v n i => { c with v := Tab.set c.v n (BitVec.ofNat 2048 (putByte (Tab.get (0 : Vec) c.v n).toNat i b)) }
  | .s n i => if n = 0 then c else { c with s := Tab.set c.s n (BitVec.ofNat 64 (putByte (Tab.get (0 : Word) c.s n).toNat i b)) }
  | .k n i => if n = 0 then c else { c with k := Tab.set c.k n (BitVec.ofNat 64 (putByte (Tab.get (0 : Word) c.k n).toNat i b)) }
  | .p i => { c with p := BitVec.ofNat 16 (putByte c.p.toNat i b) &&& 0xFFFE }

/-- The space and offset in it of the low 32 bits of a window address (R126). -/
def winSpace (x : Nat) : Nat × Nat := (x / 2 ^ 30 % 4, x % 2 ^ 30)

/-- A 16-byte granule of spaces 1 to 3 of a core: it starts at a populated place of a reserved context (R127, R128). -/
def granuleOk (s : State) (core space off : Nat) : Bool :=
  match regPlace space off with
  | some (x, _) => (s.ctx (4 * core + x)).status == .reserved
  | none => false

/-- The n bytes at an offset may be reached: space 0 within the job's share, spaces 1 to 3 in reserved contexts (R128). -/
def windowOk (s : State) (job core x n : Nat) : Bool :=
  let (space, off) := winSpace x
  if space = 0 then inShare (s.job job) off n
  else decide (off + n ≤ 2 ^ 30) && (List.range ((n + 15) / 16)).all fun i => granuleOk s core space (off + 16 * i)

/-- The checks of R128 on a window access by the bundle being issued: its core and the low 32 bits. -/
def windowOf? (s : State) (va : Word) (n : Nat) (w : Bool) : Except Bad (Nat × Nat) :=
  let job := s.me.cr.job.toNat
  let core := bits va 39 32
  if bits va 63 40 = 0xFE ∧ (s.job job).partition.getLsbD core = true ∧ windowOk s job core (bits va 31 0) n = true then
    .ok (core, bits va 31 0)
  else .error { code := 0x14, acc := if w then 1 else 0, addr := va }

/-- Whether a register place lies in poisoned state (R215). -/
def Ctx.placePoison (c : Ctx) : RegPlace → Bool
  | .data t r _ | .exps t r _ | .rcw t r _ => ((c.tile t).row r).poison
  | .lane a l _ | .laneFlags a l _ => (Tab.get {} (c.acc a).lanes l : AccLane).poison
  | _ => false

/-- n bytes read through a window; a byte of no object reads zero (R127, R132). -/
def windowRead (s : State) (core x n : Nat) : Except Bad (State × List Byte) :=
  let (space, off) := winSpace x
  if space = 0 then scrFetch s core off n
  else
    let ps := (List.range n).map fun i => regPlace space (off + i)
    let at_ := fun (k : Nat) => s.ctx (4 * core + k)
    if ps.any fun p => match p with | some (k, p) => (at_ k).placePoison p | none => false then .error poisonedReg
    else .ok (s, ps.map fun p => match p with | some (k, p) => (at_ k).place p | none => 0)

/-- Bytes written through a window; a byte of no object is discarded (R127, R132). -/
def windowWrite (s : State) (core x : Nat) (bs : List Byte) : Except Bad State :=
  let (space, off) := winSpace x
  if space = 0 then scrStore s core off bs
  else .ok (bs.zipIdx.foldl (fun s (b, i) =>
    match regPlace space (off + i) with
    | some (k, p) => s.mapCtx (4 * core + k) fun c => c.putPlace p b
    | none => s) s)

/-! ## PUT and GET (R406) -/

/-- A length and offsets that R406 allows. -/
def transferFits (n : Word) (offs : List Word) : Bool :=
  decide (16 ≤ n.toNat) && decide (n.toNat ≤ 65536) && offs.all fun x => x.toNat % 16 == 0

/-- A window access checked by R128, and its mapped scratch bytes as an access by the sender (R155, R159, R392). -/
def windowChecked (s : State) (va : Word) (n : Nat) (w : Bool) : Except Bad State :=
  match windowOf? s va n w with
  | .error b => .error b
  | .ok (core, x) => if (winSpace x).1 = 0 then checkMapped s s.cur.ctx core (winSpace x).2 n w else .ok s

/-- PUT (R406): the operands, the window and the local source are checked at issue. -/
def execPut (ds : Bool) (e : PutEnd) (d a b : SReg) (s : State) : Out :=
  let x := s.rS d
  let src := s.rS a
  let n := s.rS b
  let ring := match e with | .ring _ => true | _ => false
  if !transferFits n (if ring then [src] else [src, x]) then
    s.raise (if ring || src.toNat % 16 ≠ 0 then windowError s.cur.core src false else { code := 0x14, acc := 1, addr := x })
  else
    let dest := if ring then .ok s else windowChecked s x n.toNat true
    s.try dest fun s => s.try (scrCheck s s.cur.ctx src n.toNat false) fun s =>
      .next (s.toX (.put ds e d a b) { sa := src, sb := n, sd := x })

/-- GET (R406): the operands, the window and the local destination are checked at issue. -/
def execGet (ds : Bool) (d a b : SReg) (s : State) : Out :=
  let dst := s.rS d
  let x := s.rS a
  let n := s.rS b
  if !transferFits n [dst, x] then
    s.raise (if dst.toNat % 16 ≠ 0 then windowError s.cur.core dst true else { code := 0x14, acc := 0, addr := x })
  else s.try (windowChecked s x n.toNat false) fun s => s.try (scrCheck s s.cur.ctx dst n.toNat true) fun s =>
    .next (s.toX (.get ds d a b) { sa := x, sb := n, sd := dst })

/-- A flit of a context's command. -/
def cmdFlit (s : State) (c : Command) (target dcore ix len : Nat) (ds : Bool) (cargo : Cargo) : Flit :=
  let core := coreOf c.ctx
  { part := (s.ctx c.ctx).cr.job, dlvl := BitVec.ofNat 3 (coreLevel dcore), dstop := BitVec.ofNat 4 (coreStop dcore), target
    slvl := BitVec.ofNat 3 (coreLevel core), sstop := BitVec.ofNat 4 (coreStop core), sender := BitVec.ofNat 11 c.ctx
    pseq := s.chip.net.pseq, ix, len, circuit := 0, ds, launch := c.launch, cargo }

/-- The flits of a packet of n bytes: the first carries it, the others are its body (R192, R406). -/
def packet (n : Nat) (f : Nat → Nat → Cargo → Flit) (cargo : Cargo) : List Flit :=
  let len := max 1 ((n + 31) / 32)
  (List.range len).map fun i => f i len (if i = 0 then cargo else .body)

/-- Bytes cut into packets of at most 128, each with its place (R406). -/
def packets (bs : List Byte) : List (Nat × List Byte) :=
  (List.range ((bs.length + 127) / 128)).map fun i => (128 * i, (bs.drop (128 * i)).take 128)

/-- PUT's source is read and its packets are buffered at the stop (R193, R406); an end that names no kernel context is sunk. -/
def completePut (ds : Bool) (e : PutEnd) (c : Command) (s : State) : State :=
  let core := coreOf c.ctx
  match scrFetch s core c.cap.sa.toNat c.cap.sb.toNat with
  | .error b => killCmd s c b
  | .ok (s, bs) =>
    let n := bs.length
    match e with
    | .ring _ =>
      let g := bits c.cap.sd 10 0
      if !kernelIn (s.job (s.ctx c.ctx).cr.job.toNat).partition g then
        sinkFlit s (coreLevel core) (cmdFlit s c g core 0 1 ds (.put 0 bs true e c.cap.sd)) .noRoute
      else (packets bs).foldl (fun s (o, b) =>
        inject s core (packet b.length (fun i l x => cmdFlit s c g (g / 4) i l ds x)
          (.put (BitVec.ofNat 64 o) b (decide (o + b.length = n)) e c.cap.sd))) s
    | _ =>
      let t := bits c.cap.sd 39 32
      (packets bs).foldl (fun s (o, b) =>
        inject s core (packet b.length (fun i l x => cmdFlit s c t t i l ds x)
          (.put (BitVec.ofNat 64 (bits c.cap.sd 31 0 + o)) b (decide (o + b.length = n)) e c.cap.sd))) s

/-- A command in flight changed. -/
def mapFly (s : State) (c : Command) (f : Command → Command) : State :=
  s.mapCore (coreOf c.ctx) fun k => { k with fly := k.fly.map fun x => if x.ctx = c.ctx ∧ x.serial = c.serial then f x else x }

/-- GET's request leaves for the target core, and its command waits for the replies (R406). -/
def sendGet (ds : Bool) (c : Command) (s : State) : State :=
  let t := bits c.cap.sa 39 32
  let f := cmdFlit s c t t 0 1 ds (.getRequest (BitVec.ofNat 64 (bits c.cap.sa 31 0)) c.cap.sb.toNat c.cap.sd.toNat c.serial)
  mapFly (inject s (coreOf c.ctx) [f]) c fun x => { x with cap := { x.cap with base := 1 } }

/-- GET's bytes are written in the local scratchpad; a sunk one leaves it unchanged (R406). -/
def completeGet (c : Command) (s : State) : State :=
  if c.cap.base ≠ 2 then s
  else match scrStore s (coreOf c.ctx) c.cap.sd.toNat (c.cap.idx.map (BitVec.ofNat 8)) with
    | .error b => killCmd s c b
    | .ok s => s

/-! ## Fabric items (R24, R238, R408) -/

/-- s with the fabric changed. -/
def State.onFab (s : State) (f : Fabric → Fabric) : State := s.onChip fun c => { c with fab := f c.fab }

/-- The peer is in the peer table (R229). -/
def knownPeer (s : State) (p : Nat) : Bool := (Tab.find s.chip.fab.peers p).isSome

/-- Bytes an item charges (R24, R408). -/
def itemCharge (i : FabItem) : Nat := i.payload.length + 64

/-- A job has fabric allowance left in this tick for an item (R24). -/
def fabRoom (s : State) (job : Nat) (n : Nat) : Bool := decide ((s.job job).fabUsed + n ≤ (s.job job).alw.fab.toNat)

/-- Key of a queue and a peer in a job's queue sequences (R238). -/
def queueKey (peer queue : Nat) : Nat := peer * 16 + queue

/-- An item handed to the ports: charged, numbered by source sequence and, for ROWS, by queue sequence (R24, R238). -/
def handOver (s : State) (i : FabItem) : State :=
  let j := i.job.toNat
  let dst := i.dst.toNat
  let q := queueKey dst i.queue.toNat
  let seq := Tab.get 0 s.chip.fab.sourceSeq dst
  let qs := Tab.get 0 (s.job j).sentRows q
  let i := { i with src := s.chip.host.pkgid, sourceSeq := BitVec.ofNat 32 seq, sendTick := BitVec.ofNat 64 s.chip.fab.tick
                    queueSeq := if i.kind = .rows then BitVec.ofNat 32 qs else i.queueSeq }
  let s := s.mapJob j fun x => { x with
    fabUsed := x.fabUsed + itemCharge i, sentRows := if i.kind = .rows then Tab.set x.sentRows q (qs + 1) else x.sentRows }
  s.onFab fun f => { f with sourceSeq := Tab.set f.sourceSeq dst (seq + 1), sent := f.sent ++ [i] }

/-- An item of the command's context for a peer. -/
def cmdItem (s : State) (c : Command) (peer : Nat) (kind : ItemKind) : FabItem :=
  { dst := BitVec.ofNat 18 peer, src := s.chip.host.pkgid, job := (s.ctx c.ctx).cr.job, priority := false, kind, sourceSeq := 0, queue := 0
    queueSeq := BitVec.ofNat 32 c.serial, sendTick := 0, rva := 0, stepn := 0, bnd := 0, fmt := 0, ds := false, launch := c.launch
    ctx := BitVec.ofNat 11 c.ctx, payload := [] }

/-- The delivery fault of an operation refused at issue for a peer that the table does not hold (R229, R203, R210). -/
def peerRefused (s : State) (peer : Nat) (store : Bool) : State :=
  s.post { s.recordHere 0x0A (if store then 4 else 2) 7 (BitVec.ofNat 64 peer)
    (BitVec.ofNat 64 (peer + if store then 2 ^ 32 * s.me.cr.launch.toNat else 0)) with tslot := 7 }

/-! ## GATH and SCAT (R405) -/

/-- What S[a] names: the local form, a peer, or neither (R405). -/
inductive Place | local | peer (p : Nat) | none
  deriving DecidableEq, Repr

/-- The place that S[a] names (R405). -/
def placeOf (x : Word) : Place := if x = 0 then .local else if bits x 63 18 = 2 ^ 45 then .peer (bits x 17 0) else .none

/-- A gather or scatter at issue: index entries, then the footprint of a local one (R392, R405). -/
def rowsIssue (i : Instr) (f : Fmt) (loc w : Bool) (g : GReg) (n : Nat) (a : SReg) (s : State) : Out :=
  let me := s.cur.ctx
  let x := s.rG g
  s.try (captureIndexes s me x n) fun (s, idx) =>
    s.try (if loc then footprint s me false (rowBytes f) w (walkSteps x f false idx n) else .ok s) fun s =>
      .next (s.toX i { sa := s.rS a, g := x, idx, count := n })

/-- GATH (R405). -/
def execGath (h : Hint) (t : TReg) (g : GReg) (a : SReg) (s : State) : Out :=
  let x := s.rG g
  let n := min (walkLength x) 64
  match placeOf (s.rS a) with
  | .none => s.raise { code := 0x10, acc := 0, addr := s.rS a }
  | .local => rowsIssue (.gath h t g a) (streamFmt x).1 true false g n a s
  | .peer p =>
    if knownPeer s p then rowsIssue (.gath h t g a) (streamFmt x).1 false false g n a s
    else
      let tl := s.me.tile t.toNat
      .next (peerRefused ((s.keepTile s.cur.ctx t.toNat).setTile s.cur.ctx t.toNat { (tl.clearFrom 0) with live := 0 }) p false)

/-- SCAT (R405). -/
def execScat (h : Hint) (t : TReg) (g : GReg) (a : SReg) (s : State) : Out :=
  let tl := s.issueTile t.toNat
  let n := min (walkLength (s.rG g)) tl.live.toNat
  match placeOf (s.rS a) with
  | .none => s.raise { code := 0x10, acc := 1, addr := s.rS a }
  | .local => rowsIssue (.scat h t g a) (fmtRun tl.fmt).1 true true g n a s
  | .peer p =>
    if knownPeer s p then rowsIssue (.scat h t g a) (fmtRun tl.fmt).1 false true g n a s
    else .next (peerRefused s p true)

/-- The request items of a peer gather, one a row: the row's address, and that of its exponent pair as the payload (R405). -/
def gatherItems (s : State) (c : Command) (p : Nat) : List FabItem :=
  let (f, _) := streamFmt c.cap.g
  ((walkSteps c.cap.g f false c.cap.idx c.cap.count).zipIdx).map fun (x, j) =>
    { cmdItem s c p .gathRequest with
      rva := wrap 64 x.row, stepn := BitVec.ofNat 32 j, fmt := f.code
      payload := match x.exp with | some e => leBytes 8 (wrap 64 e).toNat | none => [] }

/-- The replies to a command's requests. -/
def repliesOf (s : State) (c : Command) : List FabItem :=
  s.chip.fab.replies.filter fun i => i.ctx.toNat == c.ctx && i.queueSeq.toNat == c.serial

/-- A gathered row's bytes as a tile row (R349, R405). -/
def replyRow (f : Fmt) (bs : List Byte) (rcw : Lane) : TileRow :=
  let n := rowBytes f
  { data := BitVec.ofNat 1024 (leNat (bs.take n)), rcw
    e0 := if isNbf f then (pairExps ((bs.drop n).take 4)).1 else 0, e1 := if isNbf f then (pairExps ((bs.drop n).take 4)).2 else 0 }

/-- A peer gather completes with its replies, the first failed row ending the context (R405). -/
def completePeerGath (t : TReg) (c : Command) (s : State) : State :=
  let (f, fl) := streamFmt c.cap.g
  let rs := repliesOf s c
  let s := s.onFab fun x => { x with replies := x.replies.filter fun i => !(i.ctx.toNat == c.ctx && i.queueSeq.toNat == c.serial) }
  match rs.find? fun i => i.bnd != 0 with
  | some i => killCmd s c { code := i.bnd.setWidth 8, acc := 0, addr := i.rva, info := BitVec.ofNat 64 (leNat (i.payload.take 8)) }
  | none =>
    let old := (s.ctx c.ctx).tile t.toNat
    let rows := (List.range 64).map fun j =>
      (j, match rs.find? fun i => i.stepn.toNat == j with
        | some i => replyRow f i.payload (old.row j).rcw
        | none => { rcw := (old.row j).rcw : TileRow })
    (s.setTile c.ctx t.toNat { rows, fmt := f.code, live := BitVec.ofNat 7 c.cap.count }).mapCtx c.ctx (·.orFlags fl)

/-- The remote stores of one row of a peer scatter: its bytes, with its exponent pair where that follows them, else a second store (R405). -/
def scatterItems (s : State) (c : Command) (p : Nat) (t : TReg) (j : Nat) : List FabItem :=
  let tl := c.tile s t.toNat
  let (f, _) := fmtRun tl.fmt
  let r := tl.row j
  let x := walkStep c.cap.g f false (c.cap.idx.getD j 0) j
  let row := leBytes (rowBytes f) r.data.toNat
  let ps := leBytes 2 r.e0.toNat ++ leBytes 2 r.e1.toNat
  let mk := fun (a : Int) (bs : List Byte) => { cmdItem s c p .store with rva := wrap 64 a, payload := bs }
  match x.exp with
  | none => [mk x.row row]
  | some e => if e = x.row + rowBytes f then [mk x.row (row ++ ps)] else [mk x.row row, mk e ps]

/-! ## FSEND (R407, R408) -/

/-- The item that a send descriptor and a payload make, none where a limit is broken (R407, R408). -/
def sendItem (s : State) (ds pri : Bool) (bs : List Byte) : Option (FabItem × Nat) :=
  let at_ := fun (o n : Nat) => leNat ((bs.drop o).take n)
  let peer := at_ 0 8
  let kind := at_ 9 1
  let queue := at_ 0x0A 1
  let fmt := at_ 0x0B 1
  let len := at_ 0x10 2
  let bnd := at_ 0x12 2
  let rva := at_ 0x18 8
  let item : ItemKind → FabItem := fun k =>
    { dst := BitVec.ofNat 18 peer, src := s.chip.host.pkgid, job := s.me.cr.job, priority := pri, kind := k, sourceSeq := 0
      queue := BitVec.ofNat 4 queue, queueSeq := 0, sendTick := 0, rva := BitVec.ofNat 64 rva, stepn := BitVec.ofNat 32 (at_ 0x14 4)
      bnd := BitVec.ofNat 16 bnd, fmt := BitVec.ofNat 4 fmt, ds, launch := s.me.cr.launch, ctx := BitVec.ofNat 11 s.cur.ctx, payload := [] }
  if 2 ^ 18 ≤ peer then none
  else match kind with
    | 0 => if pri || len < 16 || 4096 < len || len % 16 ≠ 0 || rva % 16 ≠ 0 then none else some (item .store, len)
    | 1 => if pri || len < 1 || 64 < len || 16 ≤ queue || 13 ≤ fmt || 256 ≤ bnd || rva ≠ 0 then none else some (item .rows, 136 * len)
    | 2 => if !pri || len ≠ 64 || rva ≠ 0 then none else some (item .notice, 64)
    | _ => none

/-- The boundary of a notice is the BLK of its payload; its step number is the descriptor's STEPN (R239, R407, R408). -/
def noticeBnd (i : FabItem) (bs : List Byte) : FabItem :=
  if i.kind = .notice then { i with bnd := BitVec.ofNat 16 (leNat ((bs.drop 2).take 2)) } else i

/-- FSEND (R408): descriptor and payload are read at issue, in the context's program order; an unknown peer refuses the item. -/
def execFsend (ds pri : Bool) (a b : SReg) (s : State) : Out :=
  let x := s.rS a
  if x.toNat % 32 ≠ 0 then s.raise (windowError s.cur.core x false)
  else s.try (scrRead s s.cur.ctx x 32) fun (s, bs) =>
    match sendItem s ds pri bs with
    | none => s.raise (windowError s.cur.core x false)
    | some (i, n) =>
      if !knownPeer s i.dst.toNat then .next (peerRefused s i.dst.toNat (i.kind == .store))
      else s.try (scrRead s s.cur.ctx (s.rS b) n) fun (s, p) =>
        .next (s.toX (.fsend ds pri a b) { items := [noticeBnd { i with payload := p } p] })

/-! ## FRECV (R409) -/

/-- Whether FRECV may run: not without .SRC in STRICT (R170, R409). -/
def frecvReady (src : Option SReg) (s : State) : Ready :=
  if modeOf s s.cur.ctx = 1 && src.isNone then .bad (strictFault 0x11) else .go

/-- FRECV (R409). -/
def execFrecv (src : Option SReg) (t : TReg) (a : SReg) (s : State) : Out :=
  s.when (frecvReady src s) fun s =>
    .next (s.toX (.frecv src t a) { sa := s.rS a, sb := match src with | some b => s.rS b | none => 0 })

/-- The items in a receive queue of a job, in delivery order (R408). -/
def Job.queueOf (j : Job) (q : Nat) : List FabItem := Tab.get [] j.rowsq q

/-- The item that FRECV.SRC takes: the next of its source; a later one where the gap before it counts as abandoned (R238, R409). -/
def nextOfSource (s : State) (j : Job) (q src : Nat) : Option FabItem :=
  let l := (j.queueOf q).filter fun i => i.src.toNat == src
  let next := Tab.get 0 j.taken (queueKey src q)
  match l.find? fun i => i.queueSeq.toNat == next with
  | some i => some i
  | none =>
    let later := l.filter fun i => decide (next < i.queueSeq.toNat)
    (later.foldl (fun (b : Option FabItem) i => match b with
      | some x => if x.queueSeq.toNat ≤ i.queueSeq.toNat then some x else some i
      | none => some i) none).filter fun i => decide (i.sendTick.toNat + 257 ≤ s.chip.fab.tick)

/-- The item an FRECV takes now (R409). -/
def frecvItem (s : State) (c : Command) (src : Option SReg) : Option FabItem :=
  let j := s.job (s.ctx c.ctx).cr.job.toNat
  let q := bits c.cap.sa 3 0
  match src with
  | some _ => nextOfSource s j q (bits c.cap.sb 17 0)
  | none => (j.queueOf q).head?

/-- The notice of an item's step and boundary that names a slot: its BLK (R92, R409). -/
def namedBy (j : Job) (i : FabItem) (slot : Nat) : Bool :=
  j.noticeStore.any fun n => n.stepn == i.stepn && n.bnd == i.bnd &&
    (List.range (leNat ((n.payload.drop 8).take 2))).any fun k => leNat ((n.payload.drop (10 + 2 * k)).take 2) % 2048 == slot

/-- One record of a ROWS item as a tile row. The rules give a row that a notice names its elements, ACT and XDEPTH, and leave its RCNT open: the
model's choice is 0 (R92, R408, R409; log entry 56). -/
def itemRow (j : Job) (i : FabItem) (k : Nat) : TileRow :=
  let bs := (i.payload.drop (136 * k)).take 136
  let rcw : Lane := BitVec.ofNat 32 (leNat (bs.drop 132) % 2 ^ 30)
  if namedBy j i (rcwSlot rcw) then { rcw := rcwSet rcw (i.bnd.setWidth 8) 0 2 }
  else { data := BitVec.ofNat 1024 (leNat (bs.take 128)), e0 := (pairExps ((bs.drop 128).take 4)).1, e1 := (pairExps ((bs.drop 128).take 4)).2
         rcw }

/-- An item taken from its queue; a gap skipped for it is reported to the foreman (R409). -/
def takeItem (s : State) (job : Nat) (q : Nat) (src : Bool) (i : FabItem) : State :=
  let k := queueKey i.src.toNat q
  let next := Tab.get 0 (s.job job).taken k
  let s := s.mapJob job fun j => { j with
    rowsq := Tab.set j.rowsq q (eraseFirst (fun x => x == i) (j.queueOf q))
    taken := Tab.set j.taken k (max next (i.queueSeq.toNat + 1)) }
  if src && decide (next < i.queueSeq.toNat) then
    s.post (agentRecord 0x0A 2 0x7F2 job 0 (i.src.setWidth 64) (i.src.setWidth 64))
  else s

/-- FRECV completes with an item (R409). -/
def completeFrecv (src : Option SReg) (t : TReg) (c : Command) (i : FabItem) (s : State) : State :=
  let job := (s.ctx c.ctx).cr.job.toNat
  let n := i.payload.length / 136
  let rows := (List.range 64).map fun r => (r, if r < n then itemRow (s.job job) i r else { rcw := rcwPad })
  (takeItem s job (bits c.cap.sa 3 0) src.isSome i).setTile c.ctx t.toNat { rows, fmt := i.fmt, live := BitVec.ofNat 7 n }

/-! ## The X engine (R392) -/

/-- What an X command in flight can do now: nothing yet, go on without completing, or complete. -/
inductive XMove
  | wait
  | more (s : State)
  | done (s : State)

/-- The next rows of a peer scatter handed over as the allowance allows; a reserved tag raises IV (R24, R94, R405). -/
def scatterOn (p : Nat) (t : TReg) (c : Command) (s : State) : XMove :=
  if c.cap.count ≤ c.cap.base then .done (s.mapCtx c.ctx (·.orFlags (fmtRun (c.tile s t.toNat).fmt).2))
  else if ((c.tile s t.toNat).row c.cap.base).poison then .done (killCmd s c poisonedReg)
  else
    let l := scatterItems s c p t c.cap.base
    if fabRoom s (s.ctx c.ctx).cr.job.toNat (l.foldl (fun n i => n + itemCharge i) 0) then
      .more (mapFly (l.foldl handOver s) c fun x => { x with cap := { x.cap with base := x.cap.base + 1 } })
    else .wait

/-- The next requests of a peer gather handed over, then its completion once every row has been answered (R24, R405). -/
def gatherOn (p : Nat) (t : TReg) (c : Command) (s : State) : XMove :=
  if (repliesOf s c).any (fun i => i.bnd != 0) || decide (c.cap.count ≤ c.cap.base ∧ c.cap.count ≤ (repliesOf s c).length) then
    .done (completePeerGath t c s)
  else match (gatherItems s c p)[c.cap.base]? with
    | none => .wait
    | some i =>
      if fabRoom s (s.ctx c.ctx).cr.job.toNat (itemCharge i) then
        .more (mapFly (handOver s i) c fun x => { x with cap := { x.cap with base := x.cap.base + 1 } })
      else .wait

/-- What a command of the X engine does next (R392 to R409). -/
def xMove (c : Command) (s : State) : XMove :=
  match c.instr with
  | .cwld scr t _ => .done (completeCwld scr t c s)
  | .cwst scr t _ => .done (completeCwst scr t c s)
  | .cwupd sh nl t _ _ => .done (completeCwupd sh nl t c s)
  | .cwcnt sh d t => .done (completeCwcnt sh d t c s)
  | .compact sh k d a => .done (completeCompact sh k d a c s)
  | .restore k d a => .done (completeRestore k d a c s)
  | .kvapp v f h t _ => .done (completeKvapp v f h t c s)
  | .kvg _ _ _ t _ _ mq => .done (completeKvg t mq c s)
  | .kvscan _ _ d _ _ => .done (completeKvscan d c s)
  | .kvexs t _ => .done (completeKvexs t c s)
  | .gath _ t _ _ =>
    match placeOf c.cap.sa with
    | .peer p => gatherOn p t c s
    | _ => .done (completeTld false t c s)
  | .scat _ t _ _ =>
    match placeOf c.cap.sa with
    | .peer p => scatterOn p t c s
    | _ => .done (completeTst false t c s)
  | .put ds e _ _ _ => .done (completePut ds e c s)
  | .get ds _ _ _ => if c.cap.base = 0 then .more (sendGet ds c s) else if c.cap.base = 1 then .wait else .done (completeGet c s)
  | .fsend _ _ _ _ =>
    match c.cap.items with
    | [i] => if fabRoom s i.job.toNat (itemCharge i) then .done (handOver s i) else .wait
    | _ => .done s
  | .frecv src t _ =>
    match frecvItem s c src with
    | some i => .done (completeFrecv src t c i s)
    | none => .wait
  | _ => .done s

end Sys2Proof.Machine
end

