-- ==== Sys2Proof/Machine/Engine.lean ====
section
/-! DEFINITION. The engines: which instructions queue a command, what a command may wait for, and the steps in which commands are accepted and
complete and scoreboarded results land (R34, R147, R262, R349, R378, R392, R411). -/

namespace Sys2Proof.Machine

/-- A matrix operand read from memory. -/
def fromStream : MatSrc → Bool
  | .stream _ => true
  | .tile _ => false

/-- A command that accesses memory when it completes (R147). -/
def memCommand : Instr → Bool
  | .tld _ _ _ _ _ _ | .tst _ _ _ _ _ _ | .cwld _ _ _ | .cwst _ _ _ | .kvapp _ _ _ _ _ | .kvscan _ _ _ _ _ | .kvexs _ _
  | .gath _ _ _ _ | .scat _ _ _ _ | .put _ _ _ _ _ | .get _ _ _ _ => true
  | .mma _ l r | .mmas _ l r _ => fromStream l || fromStream r
  | .matt _ _ k v => fromStream k || fromStream v
  | _ => false

/-- A tile register or accumulator. -/
def isTile : RegName → Bool
  | .t _ | .a _ => true
  | _ => false

/-- The tiles and accumulators an instruction writes. -/
def tileWrites (i : Instr) : List RegName := i.writes.filter isTile
/-- The tiles and accumulators an instruction reads. -/
def tileReads (i : Instr) : List RegName := i.reads.filter isTile
/-- Two lists share a register. -/
def meets (l m : List RegName) : Bool := l.any m.contains

/-- The tiles and accumulators that a command has still to read: not those it keeps from its issue (R243). -/
def Command.tilesRead (c : Command) : List RegName :=
  (tileReads c.instr).filter fun r => match r with
    | .t n => (Tab.find c.cap.olds n).isNone
    | _ => true

/-- A later command must wait for an earlier one on account of a tile or accumulator (R378, R392). -/
def tileClash (earlier later : Command) : Bool :=
  meets later.tilesRead (tileWrites earlier.instr) || meets (tileWrites later.instr) earlier.tilesRead ||
  meets (tileWrites later.instr) (tileWrites earlier.instr)

/-- Two commands of a context, of which one writes its permutation memory and the other reads or writes it (R80, R81, R411). -/
def permClash (earlier later : Instr) : Bool :=
  match earlier, later with
  | .compact _ _ _ _, .compact _ _ _ _ | .compact _ _ _ _, .restore _ _ _ | .restore _ _ _, .compact _ _ _ _ => true
  | _, _ => false

/-- The commands of a context not yet complete. -/
def commandsOf (s : State) (g : Nat) : List Command := (s.core (coreOf g)).commands.filter fun c => c.ctx == g

/-- The cores whose scratchpads a command accesses: its own, and the one that a GET reads (R406). -/
def scratchCores (c : Command) : List Nat :=
  coreOf c.ctx :: match c.instr with
    | .get _ _ _ _ => [bits c.cap.sa 39 32]
    | _ => []

/-- Everything the command must follow in its context's program order has completed: earlier commands on its tiles and on the permutation memory,
and for its memory accesses every earlier memory command and queued reduction, and the packets of earlier PUTs to a scratchpad it accesses
(R147, R148, R378, R392, R411). -/
def commandFree (s : State) (c : Command) : Bool :=
  let prior := (commandsOf s c.ctx).filter fun x => decide (x.serial < c.serial)
  !prior.any (fun x => tileClash x c || permClash x.instr c.instr) &&
  (!memCommand c.instr ||
    (!prior.any (fun x => memCommand x.instr) && (s.ctx c.ctx).settledBefore c.serial && !(scratchCores c).any (putsTo s.chip.net c.ctx)))

/-- A command taken out of those in flight and those that wait for rows. -/
def takeCommand (s : State) (c : Command) : State :=
  let keep := fun (l : List Command) => l.filter fun x => !(x.ctx == c.ctx && x.serial == c.serial)
  s.mapCore (coreOf c.ctx) fun k => { k with fly := keep k.fly, waitRows := keep k.waitRows }

/-- Arrivals waiting on a core for handlers of a launch (R59). -/
def arrivalsAt (s : State) (lid core : Nat) : Nat :=
  match Tab.find s.chip.launches lid with
  | some l => (l.arrivals.filter fun a => a.core == core).length
  | none => 0

/-- The engine accepts the command now: its context is not being pre-empted, unless a later command already in flight must complete behind it,
and a PUT.H finds its launch's arrival queue on the target core not full (R59, R61, R411). -/
def acceptable (s : State) (c : Command) : Bool :=
  (!(s.ctx c.ctx).preempting || (s.core (coreOf c.ctx)).fly.any fun x => x.ctx == c.ctx && decide (c.serial < x.serial)) &&
  (match c.instr with
   | .put _ (.handler _) _ _ _ => decide (arrivalsAt s c.launch.toNat (bits c.cap.sd 39 32) < 8)
   | _ => true)

/-- A command for which sectors are read or written: one that accesses memory when it completes, and KVG, whose pages are read as it issues
(R24, R403). -/
def chargedCommand (i : Instr) : Bool := memCommand i || (match i with | .kvg _ _ _ _ _ _ _ => true | _ => false)

/-- The command with the transfers that it issues toward the HBM, those its job's allowance pays for now issued (R24, R36). -/
def chargeCommand (s : State) (c : Command) : State × Command :=
  if chargedCommand c.instr then
    let (rest, t) := s.paySectors (s.ctx c.ctx).cr.job.toNat (s.transfers commandSectors)
    (t.bump, { c with owed := rest })
  else (s, c)

/-- What a command in flight still owes, paid as far as its job's allowance goes (R36). -/
def payCommand (s : State) (c : Command) : Nat × State :=
  if c.owed = 0 then (0, s)
  else
    let (rest, t) := s.paySectors (s.ctx c.ctx).cr.job.toNat c.owed
    (rest, mapFly t c fun x => { x with owed := rest })

/-- ENGINE_COMMAND_ACCEPT: the head of the engine's queue is in flight and its entry is free; an FRECV waits for rows outside the queue
(R409, R411). -/
def execEngineCommandAccept (core : BitVec 8) (e : Engine) (s : State) : Out :=
  let k := s.core core.toNat
  match k.queue e with
  | [] => .next s
  | c :: r =>
    if !acceptable s c then .next s
    else
      let (s, c) := chargeCommand s c
      .next (s.mapCore core.toNat fun k =>
      let k := (k.setQueue e r).fill
      match c.instr with
      | .frecv _ _ _ => { k with waitRows := k.waitRows ++ [c] }
      | _ => { k with fly := k.fly ++ [c] })

/-- The first command in flight on a core that belongs to an engine and may complete. -/
def nextComplete (s : State) (core : Nat) (e : Engine) : Option Command :=
  (s.core core).fly.find? fun c => cmdEngine c.instr == some e && commandFree s c

/-- MATRIX_COMMAND_COMPLETE, once the command's transfers are issued (R36, R378). -/
def execMatrixCommandComplete (core : BitVec 8) (s : State) : Out :=
  match nextComplete s core.toNat .m with
  | none => .next s
  | some c =>
    match payCommand s c with
    | (0, s) => .next (finishMatrix c (takeCommand s c))
    | (_, s) => .next s

/-- What completes a tile command. -/
def finishTile (c : Command) (s : State) : State :=
  match c.instr with
  | .tld _ scr _ t _ _ => completeTld scr t c (takeCommand s c)
  | .tst _ scr _ t _ _ => completeTst scr t c (takeCommand s c)
  | _ => s

/-- TILE_COMMAND_COMPLETE, once the command's transfers are issued (R36, R349 to R351). -/
def execTileCommandComplete (core : BitVec 8) (s : State) : Out :=
  match nextComplete s core.toNat .a with
  | none => .next s
  | some c =>
    match payCommand s c with
    | (0, s) => .next (finishTile c s)
    | (_, s) => .next s

/-- What a command of the X engine does in this step, on a state in which it is no longer listed where it completes; while it owes transfers it
only pays for them (R36). -/
def xStep (s : State) (c : Command) : Option State :=
  if c.owed ≠ 0 then
    let (rest, t) := payCommand s c
    if rest = c.owed then none else some t
  else match xMove c s with
  | .wait => none
  | .more s => some s
  | .done _ =>
    match xMove c (takeCommand s c) with
    | .done s => some s
    | _ => none

/-- The commands that the X engine may go on with, those in flight before those that wait for rows. -/
def xReady (s : State) (core : Nat) : List Command :=
  let k := s.core core
  (k.fly.filter (fun c => cmdEngine c.instr == some .x) ++ k.waitRows).filter (commandFree s)

/-- X_COMMAND_COMPLETE: the first command that can do so goes on (R392). -/
def execXCommandComplete (core : BitVec 8) (s : State) : Out :=
  match (xReady s core.toNat).findSome? (xStep s) with
  | none => .next s
  | some s => .next s

/-- A row about to land is kept as it was by the commands of its bundle that read the tile (R243). -/
def State.keepLanding (s : State) (g : Nat) (r : Landing) : State :=
  match r with
  | .row t _ _ _ _ => s.keepTile g t.toNat
  | _ => s

/-- SCOREBOARD_RESULT_LAND: the n-th result on its way to context g lands, once its transfers are issued; those for dq land in their order (R36,
R254, R262). -/
def execScoreboardResultLand (g : CtxId) (n : BitVec 6) (s : State) : Out :=
  let g := g.toNat
  let l := (s.ctx g).coming
  match l[n.toNat]? with
  | none => .next s
  | some x =>
    let earlier := (l.take n.toNat).any fun y => match x.res, y.res with | .dq _, .dq _ => true | _, _ => false
    if earlier then .next s
    else
      let (rest, t) := s.paySectors (s.ctx g).cr.job.toNat x.owed
      if rest = 0 then .next ((t.keepLanding g x.res).mapCtx g fun c => { c with coming := l.eraseIdx n.toNat }.landComing x)
      else .next (t.mapCtx g fun c => { c with coming := l.set n.toNat { x with owed := rest } })

end Sys2Proof.Machine
end

