-- ==== Sys2Proof/Machine/Sched.lean ====
section
/-! DEFINITION. The dispatcher, the walker, the save engine and the budget period (R23 to R25, R46 to R49, R61 to R64, R217). -/

namespace Sys2Proof.Machine

/-- Job priority class (R257). -/
def Job.prio (j : Job) : Nat := bits (j.reg 0x10F) 2 0

/-- An order count put back to zero (R178). -/
def zeroCount (s : State) (job key : Nat) : State := s.mapJob job fun j => { j with counts := Tab.del j.counts key }

/-! ## Steps taken at most once in a cycle -/

/-- A step of a kind that happens at most once in a cycle is taken: 0 the refill (R23), 1 the slot's send (R189), 2 a dispatch (R46), 3 an
assignment (R48). -/
def State.took (s : State) (n : Nat) : State := s.onRun fun r => { r with once := n :: r.once }
/-- It has been taken in this cycle. -/
def State.hasTaken (s : State) (n : Nat) : Bool := s.chip.run.once.contains n
/-- A step not yet taken in this cycle, and that it is now taken. -/
def State.once (s : State) (n : Nat) : Option State := if s.hasTaken n then none else some (s.took n)

/-! ## Dispatch (R46) -/

/-- The launch of a job that may be dispatched: the first in sequence not yet dispatched, where its predecessors are complete (R45, R46). -/
def candidate (s : State) (job : Nat) : Option (Nat × Launch) :=
  let first := (s.chip.launches.filter fun (_, l) => l.job == job && !l.active).foldl (fun (b : Option (Nat × Launch)) x =>
    match b with
    | some y => if y.2.seq ≤ x.2.seq then some y else some x
    | none => some x) none
  first.filter fun (_, l) => l.preds.all fun p => (Tab.find s.chip.launches p).isNone

/-- Jobs in the order in which their candidates are considered: class descending, then round robin after the job last dispatched (R46). -/
def dispatchOrder (s : State) : List Nat :=
  let rr := (List.range 64).map fun i => (s.chip.lastJob + 1 + i) % 64
  (List.range 8).reverse.flatMap fun p => rr.filter fun j => (s.job j).prio == p

/-- A launch becomes active: its reservations are claimed, its walk begins, and one of no iterations completes at once (R46, R52, R58). -/
def activate (s : State) (lid : Nat) (l : Launch) : State :=
  let s := s.onChip fun c => { c with lastJob := l.job, dispatched := c.dispatched + 1 }
  let s := s.mapLaunch lid fun x => { x with active := true, order := s.chip.dispatched, walk := some ([], firstBounds (s.job l.job) l.image) }
  let s := if 0 < recHandlers l.image then tryReserveAll s (coresOf s l) else s
  let s := bringWalk s lid
  match Tab.find s.chip.launches lid with
  | some l => if l.done && l.count == 0 && l.ord == 0 then completeLaunch s lid else s
  | none => s

/-- The first candidate that the log lets go is dispatched (R46, R175, R180). -/
def dispatchFirst : List Nat → State → State
  | [], s => s
  | j :: r, s =>
    match candidate s j with
    | none => dispatchFirst r s
    | some (lid, l) =>
      match agentOp (zeroCount s j (countKey 6 l.seq)) j (dispRecord l 0 0) lid with
      | .hold s => dispatchFirst r s
      | .diverge s => dispatchFirst r (completeLaunch (failLaunch s lid) lid)
      | .go s => activate (s.took 2) lid l

/-- DISPATCH: at most one in a cycle (R46). -/
def execDispatch (s : State) : Out := .next (if s.hasTaken 2 then s else dispatchFirst (dispatchOrder s) s)

/-! ## Assignment (R48, R49, R181) -/

/-- The context may take an iteration of a job: free, on a core in service of a level awake on which the job is not pre-empted (R48, R336). -/
def usable (s : State) (job g : Nat) : Bool :=
  let core := g / 4
  (s.ctx g).status == .free && (s.level (coreLevel core)).power == .awake && !(s.level (coreLevel core)).mappedOut &&
  !(s.core core).mappedOut && !(s.core core).resetting && !(s.job job).preempted.getLsbD core && !recordWaits s g

/-- The context that takes the launch's next iteration: the first usable one from the core after the cursor on (R48). -/
def pickCtx (s : State) (l : Launch) : Option Nat :=
  let cores := coresOf s l
  ((List.range 256).map fun i => (l.cursor + 1 + i) % 256).findSome? fun c =>
    if cores.getLsbD c then (coreCtxs c).find? (usable s l.job) else none

/-- The indices i0 to i3 of an iteration (R47, R49). -/
def indices (l : Launch) (idx bs : List Nat) : Nat → Lane := fun d =>
  let n := recNdim l.image
  match (List.range n).find? fun p => recNest l.image p == d with
  | some p => BitVec.ofNat 32 (dimIndex l.image d (bs.getD p 0) (idx.getD (n - 1 - p) 0))
  | none => 0

/-- The iteration starts on a context (R48, R49, R178). -/
def startIteration (s : State) (lid : Nat) (l : Launch) (g : Nat) (idx bs : List Nat) : State :=
  let i := indices l idx bs
  let s := zeroCount (zeroCount s l.job (countKey 3 g)) l.job (countKey 5 g)
  let s := s.mapCtx g fun c =>
    let x := c.start (BitVec.ofNat 6 l.job) (BitVec.ofNat 32 lid) l.image (((s.job l.job).reg 0x10E).setWidth 32)
    { x with status := .running, i0 := i 0, i1 := i 1, i2 := i 2, i3 := i 3
             cr := { x.cr with iterno := BitVec.ofNat 32 l.ord } }
  s.mapLaunch lid fun l => { l with count := l.count + 1, ord := l.ord + 1, cursor := g / 4, walk := some (idx ++ [0], bs) }

/-- What REPLAY says of the context of an assignment: the logged one, none logged yet, or one that cannot be (R181). -/
inductive Logged1
  | free
  | named (g : Nat)
  | wrong (r : BitVec 256)

/-- The context the log names for the launch's next assignment. -/
def loggedCtx (s : State) (l : Launch) : Logged1 :=
  if (s.job l.job).fmode ≠ 3 then .free
  else match peekRecord s (foremanOf s l.job) 0 with
    | .record r true =>
      if recMatches r (dispRecord l 1 0) then
        let g := bits (recVal r) 10 0
        if g < 1024 ∧ (coresOf s l).getLsbD (g / 4) = true then .named g else .wrong r
      else .free
    | _ => .free

/-- One launch asked for an iteration: whether one was assigned, and the state. -/
def assignOf (s : State) (lid : Nat) : State × Bool :=
  let s := bringWalk s lid
  match Tab.find s.chip.launches lid with
  | none => (s, false)
  | some l =>
    match l.walk with
    | some (idx, bs) =>
      if idx.length ≠ recNdim l.image || bs.isEmpty then (s, false)
      else
        let pick := match loggedCtx s l with
          | .named g => if usable s l.job g then some g else none
          | _ => pickCtx s l
        match loggedCtx s l, pick with
        | .wrong r, _ => (failLaunch (agentDiverges s l.job (dispRecord l 1 0) r lid) lid, false)
        | _, none => (s, false)
        | _, some g =>
          match agentOp s l.job (dispRecord l 1 (BitVec.ofNat 64 g)) lid with
          | .hold s => (s, false)
          | .diverge s => (failLaunch s lid, false)
          | .go s => (startIteration (s.took 3) lid l g idx bs, true)
    | none => (s, false)

/-- Active launches in the order the walker serves them: class descending, then earliest dispatch (R48). -/
def walkerOrder (s : State) : List Nat :=
  let before := fun (x y : Nat × Launch) =>
    let p := (s.job x.2.job).prio
    let q := (s.job y.2.job).prio
    decide (q < p) || (p == q && decide (x.2.order < y.2.order))
  (sortBy before (s.chip.launches.filter fun (_, l) => l.active && !l.done)).map Prod.fst

/-- The first launch that can give an iteration gives one. -/
def assignFirst : List Nat → State → State
  | [], s => s
  | lid :: r, s =>
    match assignOf s lid with
    | (s, true) => s
    | (s, false) => assignFirst r s

/-- ITERATION_ASSIGN: at most one iteration in the package in a cycle (R48). -/
def execIterationAssign (s : State) : Out := .next (if s.hasTaken 3 then s else assignFirst (walkerOrder s) s)

/-! ## Save areas (R61 to R64, R217) -/

/-- Bytes of a save area (R63). -/
def areaLen : Nat := 294912
/-- The most sectors that hold a save area (R130). -/
def areaSectors : Nat := sectorOf areaLen + 8
/-- The physical base of a context's save area for its job (R63). -/
def areaBase (s : State) (g : Nat) : Nat := bits ((s.job (s.ctx g).cr.job.toNat).reg 0x10B) 51 16 * 0x10000 + areaLen * g
/-- Every byte of a save area is populated. -/
def areaPopulated (s : State) (base : Nat) : Bool :=
  decide (base + areaLen ≤ hbmSize) && (List.range 9).all fun i => populated s (base + 0x8000 * i) && populated s (base + 0x8000 * i + 0x7FFF)
/-- The bytes the device writes in a save area: ciphertext and tag under the job's key (R63). -/
def areaBytes (key g count launch : Nat) : List Byte := (List.range areaLen).map (Config.cipherByte key g count launch)

/-- Nothing of the context is in flight: its bundle boundary is reached and its commands have completed (R61). -/
def savable (s : State) (g : Nat) : Bool :=
  let c := s.ctx g
  decide (g < 1024) && c.preempting && !c.endi && !c.cancelling && c.doom.isNone && (c.status == .running || c.status == .stopped) &&
  c.coming.isEmpty && c.reds.isEmpty && !(s.core (g / 4)).fly.any fun x => x.ctx == g

/-- The unissued commands of a context (R62, R409). -/
def unissued (k : Core) (g : Nat) : List Command := (k.mq ++ k.xq ++ k.aq ++ k.waitRows ++ k.late).filter fun x => x.ctx == g

/-- What stays with a saved context outside its area: whose it is, its log registers, its save count and its held record. -/
def Ctx.saved (c : Ctx) : Ctx :=
  { status := .saved, handlerRun := c.handlerRun, pc := c.pc, cr := c.cr, held := c.held, saves := c.saves + 1, oreds := c.oreds
    serial := c.serial }

/-- CONTEXT_SAVE (R61 to R63). -/
def execContextSave (g : CtxId) (s : State) : Out :=
  let g := g.toNat
  if !savable s g then .next s
  else
    let c := s.ctx g
    let j := s.job c.cr.job.toNat
    let base := areaBase s g
    if !areaPopulated s base then .fault (.noSuchAddress base)
    else
      let r := { s.recordOf g 0x19 2 0 0 with acc := 7 }
      let s := leaveQueues s g
      let area : SaveArea := { ctx := { c with queued := unissued (s.core (g / 4)) g, preempting := false }
                               count := c.saves, launch := c.cr.launch, job := c.cr.job, base }
      let s := (dropCommands s g false).poke base (areaBytes j.keySerial g c.saves.toNat c.cr.launch.toNat)
      let s := s.onChip fun x => { x with areas := Tab.set x.areas g area }
      .next (((s.mapCtx g Ctx.saved).post r).chargeWrite c.cr.job.toNat areaSectors)

/-- An active launch of a higher class has an iteration that waits for the core: its walk is not over, its CORESET names the core and its job
is not pre-empted there, so that it could take a context of it (R48, R64). -/
def higherWaits (s : State) (job core : Nat) : Bool :=
  s.chip.launches.any fun (_, l) =>
    l.active && !l.done && (match l.walk with | some (_, _ :: _) => true | _ => false) && decide ((s.job job).prio < (s.job l.job).prio) &&
    !(s.job l.job).preempted.getLsbD core && (coresOf s l).getLsbD core

/-- The restoration of a context may take place, on a core in service of a level awake (R64, R201, R218). -/
def restorable (s : State) (g : Nat) (a : SaveArea) : Bool :=
  let core := g / 4
  let k := s.core core
  (s.ctx g).status == .saved && !(s.job a.job.toNat).preempted.getLsbD core && (s.level (coreLevel core)).power == .awake &&
  !k.resetting && !k.mappedOut && !higherWaits s a.job.toNat core

/-- The save area verifies: its tag under the job's key and the context's last save, and no poisoned sector (R63, R217). -/
def areaVerifies (s : State) (g : Nat) (a : SaveArea) : Bool :=
  a.count + 1 == (s.ctx g).saves && (firstPoison s a.base areaLen).isNone &&
  Cells.bytes s.mem a.base areaLen == areaBytes (s.job a.job.toNat).keySerial g a.count.toNat a.launch.toNat

/-- The saved commands back in their engines' queues, those that find no place waiting for one (R64; log entry 49). -/
def requeue (k : Core) (l : List Command) : Core := Core.fill { k with late := k.late ++ l }

/-- The state of a restored context: that of its area, with what outlived the save (R62, R64, R205). -/
def restoredCtx (live : Ctx) (a : SaveArea) : Ctx :=
  { a.ctx with status := if live.held.isSome then .stopped else .running, held := live.held, cr := live.cr, saves := live.saves
               oreds := live.oreds, queued := [], preempting := false, atRestore := none }

/-- CONTEXT_RESTORE: the area is verified, the context restored, and a recorded CTXRES takes effect (R64, R205, R217). -/
def execContextRestore (g : CtxId) (s : State) : Out :=
  let g := g.toNat
  match Tab.find s.chip.areas g with
  | none => .next s
  | some a =>
    if !restorable s g a then .next s
    else
      let live := s.ctx g
      let good := areaVerifies s g a
      let s := (s.onChip fun x => { x with areas := Tab.del x.areas g }).chargeWrite a.job.toNat areaSectors
      if !good then
        let s := s.cerRecord (CerEvent.ofCtx { type := 7, cls := 9, unit := g, addr := a.base, detail := a.count.toNat } s g)
        .next (killFatal s g { s.recordOf g 0x12 1 0 a.count with acc := 7 })
      else
        let s := (s.mapCtx g fun c => restoredCtx c a).mapCore (g / 4) fun k => requeue k a.ctx.queued
        match live.atRestore with
        | none => .next s
        | some (act, seq) => .next ((resumeAction s g act seq).getD s)

/-! ## Budget periods (R23 to R26) -/

/-- Commits due at the boundary, in ascending job order (R25, R257). -/
def commitAll (s : State) : State :=
  s.chip.jobs.foldl (fun s (j, x) => match x.commit with | some a => commitAllowance s j a | none => s) s

/-- A context blocked on budget is ready, in its core or in its save area (R23). -/
def Ctx.refilled (c : Ctx) : Ctx := if c.blocked = some .budget then { c with blocked := none } else c

/-- A job's allowances whole again, the transfers that waited for the HBM's issued as far as it goes (R23, R36). -/
def Job.refilled (x : Job) : Job :=
  let n := min x.hbmHeld x.alw.hbm.toNat
  { x with used := [], shfUsed := 0, hbmUsed := n, hbmHeld := x.hbmHeld - n }

/-- BUDGET_PERIOD_REFILL: in the first cycle of a period, the commits due come into force, every job's core-issue, HBM and shaft allowances are
whole again, and what was blocked on budget is ready (R23, R25). -/
def execBudgetPeriodRefill (s : State) : Out :=
  if s.cyc % 8192 ≠ 0 then .next s
  else match s.once 0 with
    | none => .next s
    | some s =>
      let s := commitAll s
      .next (s.onChip fun c => { c with
        jobs := c.jobs.map fun (j, x) => (j, x.refilled)
        ctxs := c.ctxs.map fun (g, x) => (g, x.refilled)
        areas := c.areas.map fun (g, a) => (g, { a with ctx := a.ctx.refilled }) })

end Sys2Proof.Machine
end

