-- ==== Sys2Proof/Machine/Tier.lean ====
section
/-! DEFINITION. The tier engine: migrations and the demotion pool (R140 to R145). -/

namespace Sys2Proof.Machine

/-! ## Completion of a migration -/

/-- How a migration ends, in the codes of R210. -/
inductive MigEnd | success | poisoned | dstFail
  deriving DecidableEq, Repr

/-- Status in the completion record (R210). -/
def MigEnd.code : MigEnd → Nat
  | .success => 0 | .poisoned => 1 | .dstFail => 2

/-- Bytes of the page a migration moves. -/
def Migration.len (m : Migration) : Nat := pageLen (if m.big then 1 else 0)

/-- The page lies behind an expander whose link has dropped (R237). -/
def behindDropped (s : State) (pa : Nat) : Bool := droppedAt s pa

/-- How the migration ends: a poisoned source sector stops it, a destination that cannot be written fails it (R142). Where both happen the rule
does not say which is reported: the model's choice is POISONED, whichever sector comes first (log entry 61). -/
def migEnd (s : State) (m : Migration) : MigEnd :=
  if (firstPoison s m.src m.len).isSome then .poisoned
  else if !pagePopulated s m.dst m.len || behindDropped s m.dst then .dstFail
  else .success

/-- The sectors of the source copied in ascending order, up to a poisoned one (R140, R142). -/
def copyPage (s : State) (m : Migration) : State :=
  let n := match firstPoison s m.src m.len with
    | some p => p - m.src
    | none => m.len
  if !pagePopulated s m.dst m.len || behindDropped s m.dst then s else s.poke m.dst (Cells.bytes s.mem m.src n)

/-- Word 1 of the translation at the end of a migration (R121, R140, R142). -/
def migEntry (e : Word) (m : Migration) (r : MigEnd) : Word :=
  let e := e &&& ~~~((1 : Word) <<< 57)
  match r with
  | .success =>
    let tier : Word := if inTier2 m.dst then 1 <<< 58 else 0
    (e &&& ~~~((0xFFFFFFFFF : Word) ||| (1 <<< 58))) ||| tier ||| BitVec.ofNat 64 (m.dst / 0x10000 % 2 ^ 36)
  | .poisoned => e ||| (1 <<< 59)
  | .dstFail => e

/-- TIER written in the KV page-table entry that the migration names; a write that fails translation or meets poison is left out (R140). -/
def writeKvTier (s : State) (m : Migration) : State :=
  if m.kve = 0 then s
  else match translateAll s m.asid .write (pieces m.kve.toNat 8) with
    | .error _ => s
    | .ok l =>
      if l.any fun (pa, n, _) => (firstPoison s pa n).isSome then s
      else
        let v : Word := BitVec.ofNat 64 (leNat (l.flatMap fun (pa, n, _) => Cells.bytes s.mem pa n))
        writePieces s l (leBytes 8 ((v &&& ~~~2) ||| (if inTier2 m.dst then 2 else 0)).toNat)

/-- DEMPOOL of a job: base and size code (R145, R257). -/
def Job.pool (j : Job) : Nat × Nat := (bits (j.reg 0x10D) 51 12 * 4096, bits (j.reg 0x10D) 4 0)
/-- Entries of a demotion pool (R145). -/
def poolEntries (lg : Nat) : Nat := (2 ^ lg - 64) / 8
/-- Address of pool entry i (R145). -/
def poolAt (base lg i : Nat) : Nat := base + 64 + 8 * (i % poolEntries lg)

/-- A pool entry written and HEAD advanced past it (R145). -/
def poolDone (s : State) (j head : Nat) (page st : Nat) : State :=
  let (base, lg) := (s.job j).pool
  (s.pokeNum (poolAt base lg head) 8 (page / 0x10000 * 0x10000 % 2 ^ 52 + st)).pokeNum base 8 ((head + 1) % 2 ^ 64)

/-- What the end of a migration is reported by: the pool entry of a demotion, else a completion record to the foreman (R140, R145). -/
def reportMig (s : State) (m : Migration) (r : MigEnd) : State :=
  match m.pool with
  | some head => if r = .success then poolDone s m.job head m.src 1 else poolDone s m.job head m.dst 2
  | none => s.post { agentRecord 0 5 0x7F3 m.job 0 m.va (BitVec.ofNat 64 r.code) with acc := 7 }

/-- MIGRATION_COMPLETE: the n-th migration in progress copies, rewrites its translation and reports (R24, R140 to R142, R145). -/
def execMigrationComplete (n : BitVec 8) (s : State) : Out :=
  match s.chip.migs[n.toNat]? with
  | none => .next s
  | some m =>
    let r := migEnd s m
    let s := s.onChip fun c => { c with migs := c.migs.eraseIdx n.toNat }
    let s := copyPage s m
    let s := s.pokeNum (m.way + 8) 8 (migEntry (BitVec.ofNat 64 (s.peek (m.way + 8) 8)) m r).toNat
    let s := if r = .success then writeKvTier s m else s
    .next ((reportMig s m r).chargeWrite m.job (m.len / 16))

/-! ## Demotion (R144, R145) -/

/-- What the pool offers: nothing, or an entry with its page and ST. -/
inductive Offer
  | empty
  | entry (head : Nat) (page st : Nat)

/-- The pool's next entry: HEAD, with TAIL read again (R145). The rule is silent on poison in the ring and on a TAIL below HEAD: the model's
choices are that poisoned sectors of the ring are read like others, and that TAIL less HEAD is taken modulo 2^64, so that a ring with more
entries than it holds counts as empty (log entry 61). -/
def poolOffer (s : State) (j : Nat) : Except Fault Offer :=
  let (base, lg) := (s.job j).pool
  if lg = 0 then .ok .empty
  else if !populated s base || !populated s (base + 2 ^ lg - 1) then .error (.noSuchAddress base)
  else
    let head := s.peek base 8
    let tail := s.peek (base + 8) 8
    if head = tail ∨ poolEntries lg < (tail + 2 ^ 64 - head) % 2 ^ 64 then .ok .empty
    else
      let e := s.peek (poolAt base lg head) 8
      .ok (.entry head (e / 0x10000 % 2 ^ 36 * 0x10000) (e % 4))

/-- A demotion's migration, refused also for a page that is not of the size the pool holds (R84, R140, R145). -/
def startDemotion (s : State) (j asid e page : Nat) (kve : Word) (head : Nat) : Option State :=
  match pageWay s asid (kvPageVa e) with
  | some (_, _, _, false) => startMigration s j asid (kvPageVa e) page kve (some head)
  | _ => none

/-- The first demotion of a job replaced or removed. -/
def setDemotion (s : State) (j : Nat) (f : Demotion → Option Demotion) : State :=
  let rec go : List Demotion → List Demotion
    | [] => []
    | d :: r => if d.job = j then (match f d with | some d => d :: r | none => r) else d :: go r
  s.onChip fun c => { c with dems := go c.dems }

/-- The entry of a demotion moves on, and the demotion is over after its last. -/
def nextPage (s : State) (j : Nat) : State :=
  setDemotion s j fun d => if d.next + 1 < d.total then some { d with next := d.next + 1 } else none

/-- One page of a demotion offered to the pool: an unfit entry is failed and passed over, n bounding how many; an entry whose migration is refused
fails with it (R145). -/
def demoteFrom (s : State) (j : Nat) (d : Demotion) (e : Nat) (kve : Word) : Nat → Out
  | 0 => .next s
  | n + 1 =>
    match poolOffer s j with
    | .error f => .fault f
    | .ok .empty => .next (nextPage s j)
    | .ok (.entry head page st) =>
      if st ≠ 0 ∨ !inTier2 page ∨ !pagePopulated s page 0x10000 then demoteFrom (poolDone s j head page 2) j d e kve n
      else match startDemotion s j d.asid e page kve head with
        | some s => .next (nextPage s j)
        | none => .next (nextPage (poolDone s j head page 2) j)

/-- DEMOTION_PAGE: the next page of the job's oldest demotion, once the job's last demotion has completed; a table entry that is not valid names
no page, and a page that cannot move, or for which the pool is empty, stays where it is (R144, R145). An entry that the tier engine cannot read
names no page either: the model's choice (log entry 61). -/
def execDemotionPage (job : BitVec 6) (s : State) : Out :=
  let j := job.toNat
  if s.chip.migs.any (fun m => m.job == j && m.pool.isSome) then .next s
  else match s.chip.dems.find? fun d => d.job == j with
    | none => .next s
    | some d =>
      if d.total ≤ d.next then .next (nextPage s j)
      else
        let kve := d.kvpt + BitVec.ofNat 64 (64 + 8 * d.next)
        match readVaNum s d.asid kve 8 with
        | .error _ => .next (nextPage s j)
        | .ok e => if e % 2 = 1 then demoteFrom s j d e kve 4096 else .next (nextPage s j)

end Sys2Proof.Machine
end

