-- ==== Sys2Proof/Machine/Stack.lean ====
section
/-! DEFINITION. The stack: slots and transfers of the shaft, the golden stop, the viaducts and winzes, overflow stores, and the delivery of
packets (R59, R128, R132, R179, R187 to R199, R324, R361, R362, R406). -/

namespace Sys2Proof.Machine

/-! ## The shaft (R187 to R190, R201, R202) -/

/-- FRAME_BOUNDARY: in the first cycle of a frame the committed slot table comes into force (R188). -/
def execFrameBoundary (s : State) : Out :=
  if !atFrame s then .next s
  else match s.chip.shaft.commit with
    | none => .next s
    | some t => .next (s.onChip fun c => { c with shaft := { c.shaft with table := t, commit := none } })

/-- The owner of the current slot: none where it is idle, 8 for the base die (R188). -/
def slotOwner (s : State) : Option Nat :=
  let i := s.cyc % 64
  let o := bits s.chip.shaft.table (4 * i + 3) (4 * i)
  if o = 8 then some 8
  else if o < 8 ∧ (s.level o).power ≠ .asleep ∧ (s.level o).power ≠ .freezing ∧ (s.level o).mappedOut = false then some o
  else none

/-- The send queue a context's transfers stand in: its level's, or the base die's for a foreman (R189). -/
def sendQueueOf (g : Nat) : Nat := if isForeman g then 8 else levelOf g

/-- A send queue's transfers by cycle of entry and then by context (R189). -/
def sendOrder (s : State) (o : Nat) : List Transfer :=
  sortBy (fun x y => decide (x.entered < y.entered) || (x.entered == y.entered && decide (x.ctx < y.ctx)))
    (s.chip.shaft.queue.filter fun t => sendQueueOf t.ctx == o)

/-- The SHAFT record a transfer takes at its send (R177, R179). -/
def sendRecord (s : State) (t : Transfer) : Logged := shaftRecord s t.ctx (if t.notice then 2 else 0) t.line

/-- A transfer leaves its queue: the oldest of its context for its job. -/
def unqueue (s : State) (t : Transfer) : State :=
  s.onChip fun c => { c with shaft := { c.shaft with queue := eraseFirst (fun x => x.ctx == t.ctx && x.job == t.job) c.shaft.queue } }

/-- A failure of a transfer's record: it stops or kills the issuer, and the transfer is not sent (R173, R182). -/
def sendFails (s : State) (t : Transfer) (b : Bad) : State :=
  let s := unqueue s t
  if b.stops then s.stopOf t.ctx .s b
  else killFatal s t.ctx { s.recordOf t.ctx b.code 1 b.addr b.info with acc := b.acc }

/-- An entry goes before one of its job that entered earlier only in REPLAY, where another context's place in the stream can be due first
(R179, R189; log entry 51). -/
def sendBehind (s : State) (t x : Transfer) : Bool :=
  x.job == t.job && (modeOf s t.ctx != 3 || x.ctx == t.ctx)

/-- The oldest transfer that allowance and log let go is sent, entries of one job in the order they entered; n bounds how many are looked at
(R24, R179, R189). -/
def sendFirst : Nat → List Transfer → State → State
  | 0, _, s => s
  | _, [], s => s
  | n + 1, t :: r, s =>
    let j := s.job t.job
    let later := r.filter fun x => !sendBehind s t x
    if j.alw.shf.toNat ≤ j.shfUsed then sendFirst n (r.filter fun x => x.job != t.job) s
    else match logReady s t.ctx (sendRecord s t) with
      | .wait _ => sendFirst n later s
      | .bad b => sendFails s t b
      | .go s =>
        match logDone s t.ctx (sendRecord s t) with
        | .error b => sendFails s t b
        | .ok s =>
          let s := (unqueue s t).mapJob t.job fun j => { j with shfUsed := j.shfUsed + 1 }
          s.onChip fun c => { c with shaft := { c.shaft with flight := c.shaft.flight ++ [(s.cyc, t)] } }

/-- SHAFT_SLOT_SEND: the owner of the current slot sends one transfer (R188, R189). -/
def execShaftSlotSend (s : State) : Out :=
  match slotOwner s, s.once 1 with
  | some o, some s => .next (sendFirst s.chip.shaft.queue.length (sendOrder s o) s)
  | _, _ => .next s

/-- One transfer applied at the master and at every replica in service, and kept for a replica that is being refilled (R190, R202). -/
def applyTransfer (s : State) (t : Transfer) : State :=
  (List.range 8).foldl (fun s l =>
    match (s.level l).power with
    | .awake | .draining => if (s.level l).mappedOut then s else applyAt s l t
    | .refilling => s.mapLevel l fun x => { x with buffered := x.buffered ++ [t] }
    | _ => s) (applyAt s 8 t)

/-- SHAFT_TRANSFER_APPLY: the oldest transfer in flight is applied eight cycles after its send (R190). -/
def execShaftTransferApply (s : State) : Out :=
  match s.chip.shaft.flight with
  | [] => .next s
  | (c, t) :: r =>
    if s.cyc < c + 8 then .next s
    else .next (applyTransfer (s.onChip fun x => { x with shaft := { x.shaft with flight := r } }) t)

/-- GOLDEN_STOP_ADVANCE: the golden stop is that of the package cycle (R195). -/
def execGoldenStopAdvance (s : State) : Out := .next (s.onNet fun n => { n with golden := s.cyc / 2048 % 12 })

/-! ## Routing (R196) -/

/-- ACT of a flit at a stop: that of the lowest valid entry that matches, none where none does (R196). -/
def lookupRoute (n : Net) (lvl stop : Nat) (f : Flit) : Option Nat :=
  (List.range 64).findSome? fun e =>
    let x := n.route (64 * stopKey lvl stop + e)
    if x.getLsbD 31 && x.extractLsb' 16 6 == f.part && x.extractLsb' 13 3 == f.dlvl && (x.extractLsb' 9 4 == f.dstop || x.extractLsb' 9 4 == 15) then
      some (bits x 2 0)
    else none

/-- A level whose tables are being swapped: its stops do not inject (R198). -/
def swapping (n : Net) (lvl : Nat) : Bool :=
  match n.swap with
  | some lv => lv.getLsbD lvl
  | none => false

/-- Key of a viaduct position. -/
def posKey (lvl dir stop : Nat) : Nat := lvl * 24 + dir * 12 + stop

/-- Stops that the winze router serves (R199). -/
def winzeStop (stop : Nat) : Bool := stop % 3 == 2

/-- The core a flit is for. -/
def Flit.core (f : Flit) : Nat :=
  match f.cargo with
  | .message _ | .credit _ _ | .getReply _ _ _ _ => f.target / 4
  | .put _ _ _ (.ring _) _ => f.target / 4
  | _ => f.target

/-! ## Sinking a packet (R192, R193, R197) -/

/-- The flits of a packet still on their way. -/
def packetFlits (n : Net) (p : Nat) : List Flit :=
  let mine := fun (l : List Flit) => l.filter fun f => f.pseq == p
  n.inject.flatMap (fun (_, l) => mine l) ++ mine (n.pos.map Prod.snd) ++ n.winze.flatMap (fun (_, l) => mine (l.map fun (_, _, f) => f)) ++
  n.asm.flatMap (fun (_, l) => mine l) ++ n.parts.flatMap fun (_, l) => mine l

/-- A packet's flits taken out of the network. -/
def removePacket (s : State) (p : Nat) : State :=
  s.onNet fun n => { n with
    inject := n.inject.map fun (k, l) => (k, l.filter fun f => f.pseq != p)
    pos := n.pos.filter fun (_, f) => f.pseq != p
    winze := n.winze.map fun (k, l) => (k, l.filter fun (_, _, f) => f.pseq != p)
    asm := n.asm.filter fun (k, _) => k / 8 != p, parts := Tab.del n.parts p }

/-- A flit sunk with what is left of its packet, which can no longer be delivered (R193, R197). -/
def sinkPacket (s : State) (lvl : Nat) (f : Flit) (why : SinkReason) : State :=
  let rest := packetFlits s.chip.net f.pseq
  (f :: rest).foldl (fun s x => sinkFlit s lvl x why) (removePacket s f.pseq)

/-! ## Delivery at the stop (R193 to R195, R324, R361) -/

/-- An earlier packet from the same source stop to the same target is still on its way (R193). -/
def overtakes (n : Net) (f : Flit) : Bool :=
  let rival := fun (x : Flit) => decide (x.pseq < f.pseq) && x.slvl == f.slvl && x.sstop == f.sstop && x.target == f.target &&
    x.dlvl == f.dlvl && x.dstop == f.dstop
  n.inject.any (fun (_, l) => l.any rival) || n.pos.any (fun (_, x) => rival x) || n.winze.any (fun (_, l) => l.any fun (_, _, x) => rival x) ||
  n.asm.any (fun (_, l) => l.any rival) || n.parts.any fun (_, l) => l.any rival

/-- A packet come whole to its stop: messages and credits to their queues, the rest to be written (R193, R324, R361, R406). -/
def deliverPacket (s : State) (f : Flit) : State :=
  match f.cargo with
  | .message _ => deliverMessage s f
  | .credit _ _ => deliverCredit s f
  | .body => s
  | _ => s.onNet fun n => { n with ready := n.ready ++ [⟨f, f.core⟩] }

/-- The first whole packet that nothing earlier holds back and that its queue takes (R193, R195). -/
def wholePacket (s : State) : Option (Nat × Flit) :=
  s.chip.net.parts.findSome? fun (p, l) =>
    match l.find? fun f => f.ix == 0 with
    | some h => if l.length = h.len && !overtakes s.chip.net h && queueTakes s h then some (p, h) else none
    | none => none

/-- Whole packets delivered in order, n bounding how many. -/
def releaseParts : Nat → State → State
  | 0, s => s
  | n + 1, s =>
    match wholePacket s with
    | none => s
    | some (p, h) => releaseParts n (deliverPacket (s.onNet fun t => { t with parts := Tab.del t.parts p }) h)

/-- Whole packets delivered. -/
def settleParts (s : State) : State := releaseParts s.chip.net.parts.length s

/-- A flit ejected at a stop: sunk where its stop, core or level cannot take it, else kept until its packet is whole (R193, R197). -/
def ejectHere (s : State) (lvl stop : Nat) (f : Flit) : State :=
  if f.dlvl.toNat ≠ lvl ∨ f.dstop.toNat ≠ stop then sinkPacket s lvl f .noRoute
  else match undeliverable s f.core with
  | some why => sinkPacket s lvl f why
  | none => settleParts (s.onNet fun n => { n with parts := Tab.set n.parts f.pseq (Tab.get [] n.parts f.pseq ++ [f]) })

/-- A flit put in the queue of a link, which carries it for eight cycles; where there is no such link it is sunk (R199). -/
def toWinze (s : State) (lvl stop : Nat) (up : Bool) (f : Flit) : State :=
  if !winzeStop stop || (if up then lvl == 7 else lvl == 0) then sinkPacket s lvl f .noRoute
  else
    let k := 2 * lvl + if up then 0 else 1
    s.onNet fun n => { n with winze := Tab.set n.winze k (Tab.get [] n.winze k ++ [(s.cyc + 8, stop, f)]) }

/-- What ACT does with a flit that leaves a stop other than along a viaduct (R196, R199). -/
def leaveAt (s : State) (lvl stop : Nat) (act : Option Nat) (f : Flit) : State :=
  match act with
  | some 0 => ejectHere s lvl stop f
  | some 3 => toWinze s lvl stop true f
  | some 4 => toWinze s lvl stop false f
  | _ => sinkPacket s lvl f .noRoute

/-! ## Injection, ejection, the winzes -/

/-- The flit at the head of a stop's buffer may leave it: not during a swap of its level, but for the rest of a packet that has begun to leave,
which follows its first flit under the same table (R193, R198; log entry 28). -/
def mayInject (n : Net) (lvl : Nat) (f : Flit) : Bool := !swapping n lvl || f.ix != 0

/-- The viaduct, 0 east and 1 west, that the flit at the head of a stop's buffer waits for. -/
def headViaduct (n : Net) (lvl stop : Nat) : Option Nat :=
  match Tab.get [] n.inject (stopKey lvl stop) with
  | [] => none
  | f :: _ =>
    if !mayInject n lvl f then none
    else match lookupRoute n lvl stop f with
      | some 1 => some 0
      | some 2 => some 1
      | _ => none

/-- FLIT_INJECT: the flit at the head of a stop's buffer enters the empty position of its viaduct, the golden stop going first; one routed
elsewhere leaves at once (R193, R195, R196, R198). -/
def execFlitInject (level : BitVec 3) (stop : BitVec 4) (s : State) : Out :=
  let lvl := level.toNat
  let st := stop.toNat
  let n := s.chip.net
  let k := stopKey lvl st
  match Tab.get [] n.inject k with
  | [] => .next s
  | f :: r =>
    let taken := s.onNet fun n => { n with inject := Tab.set n.inject k r }
    if 12 ≤ st || !mayInject n lvl f then .next s
    else match headViaduct n lvl st with
      | none => .next (settleParts (leaveAt taken lvl st (lookupRoute n lvl st f) f))
      | some d =>
        if (Tab.find n.pos (posKey lvl d st)).isSome then .next s
        else if n.golden ≠ st ∧ headViaduct n lvl n.golden = some d then .next s
        else .next (taken.onNet fun n => { n with pos := Tab.set n.pos (posKey lvl d st) f })

/-- The flit at a stop on a viaduct that is to leave it there. -/
def leaving (s : State) (lvl dir stop : Nat) : Option (Nat × Flit) :=
  match Tab.find s.chip.net.pos (posKey lvl dir stop) with
  | none => none
  | some f =>
    match lookupRoute s.chip.net lvl stop f with
    | some 1 | some 2 => none
    | some 0 => if queueTakes s f then some (dir, f) else none
    | _ => some (dir, f)

/-- The first of two rivals wins: from the golden source, else with the higher circuit count, else eastbound (R194). -/
def winner (n : Net) (x y : Nat × Flit) : Nat × Flit :=
  let gold := fun (z : Nat × Flit) => z.2.sstop.toNat == n.golden
  if gold x != gold y then (if gold x then x else y)
  else if x.2.circuit.toNat < y.2.circuit.toNat then y else x

/-- FLIT_EJECT: the stop's port takes one flit in a cycle, its rival going on (R194, R196, R197, R199). -/
def execFlitEject (level : BitVec 3) (stop : BitVec 4) (s : State) : Out :=
  let lvl := level.toNat
  let st := stop.toNat
  let k := stopKey lvl st
  if 12 ≤ st || s.chip.net.ejected.contains k then .next s
  else
    let pick := match leaving s lvl 0 st, leaving s lvl 1 st with
      | some x, some y => some (winner s.chip.net x y)
      | some x, none => some x
      | none, y => y
    match pick with
    | none => .next s
    | some (d, f) =>
      let act := lookupRoute s.chip.net lvl st f
      let s := s.onNet fun n => { n with pos := Tab.del n.pos (posKey lvl d st), ejected := k :: n.ejected }
      .next (settleParts (leaveAt s lvl st act f))

/-- One cycle of every viaduct: flits move on, those that pass their source stop have gone one circuit more, and one at the limit of fifteen
is sunk (R192, R194). -/
def moveViaducts (s : State) : State :=
  let moved := s.chip.net.pos.map fun (k, f) =>
    let lvl := k / 24
    let dir := k % 24 / 12
    let st := if dir = 0 then (k % 12 + 1) % 12 else (k % 12 + 11) % 12
    (posKey lvl dir st, if f.sstop.toNat = st then { f with circuit := f.circuit + 1 } else f)
  let s := s.onNet fun n => { n with pos := moved.foldl (fun t (k, f) => Tab.set t k f) [], ejected := [] }
  (moved.filter fun (_, f) => f.circuit == 15).foldl (fun s (k, f) =>
    sinkPacket (s.onNet fun n => { n with pos := Tab.del n.pos k }) (k / 24) f .circuit) s

/-- A flit that a winze brings to a stop for a viaduct: its packet waits for injection there, its flits in order, once every flit of it is
buffered (R193, R199). -/
def bufferFlit (s : State) (lvl st : Nat) (f : Flit) : State :=
  let a := 8 * f.pseq + lvl
  let l := Tab.get [] s.chip.net.asm a ++ [f]
  if l.length < f.len then s.onNet fun n => { n with asm := Tab.set n.asm a l }
  else
    let k := stopKey lvl st
    let whole := sortBy (fun x y => decide (x.ix < y.ix)) l
    s.onNet fun n => { n with asm := Tab.del n.asm a, inject := Tab.set n.inject k (Tab.get [] n.inject k ++ whole) }

/-- WINZE_ARRIVAL: the oldest flit of the link that leaves a level upward or downward comes to the next level's router and is looked up
again, its eight cycles over (R196, R199). -/
def execWinzeArrival (level : BitVec 3) (up : Bool) (s : State) : Out :=
  let k := 2 * level.toNat + if up then 0 else 1
  let lvl := if up then level.toNat + 1 else level.toNat - 1
  match Tab.get [] s.chip.net.winze k with
  | [] => .next s
  | (c, st, f) :: r =>
    if s.cyc < c then .next s
    else
      let act := lookupRoute s.chip.net lvl st f
      if act = some 0 ∧ !queueTakes s f then .next s
      else
        let s := s.onNet fun n => { n with winze := Tab.set n.winze k r }
        match act with
        | some 1 | some 2 => .next (bufferFlit s lvl st f)
        | _ => .next (settleParts (leaveAt s lvl st act f))

/-- One flit of an overflow store passed on where its receiver takes it, the flits for one queue in order; those that stay are kept, and
packets for rings are given back in order (R195, R324, R361, R362). -/
def drainOne (x : State × List Flit × List Delivered) (f : Flit) : State × List Flit × List Delivered :=
  let (s, kept, ds) := x
  let c := s.ctx f.target
  if kept.any f.sameQueue || c.status == .saved then (s, kept ++ [f], ds)
  else match f.cargo with
    | .message _ =>
      if c.status = .free then (sinkFlit s (levelOf f.target) f .noRoute, kept, ds)
      else if c.recv.length < 16 then (toQueue s f, kept, ds)
      else (s, kept ++ [f], ds)
    | .credit _ _ => (deliverCredit s f, kept, ds)
    | _ => (s, kept, ds ++ [⟨f, f.core⟩])

/-- OVERFLOW_STORE_DRAIN: packets for rings come before all that wait to be written, which came later (R195, R324). -/
def execOverflowStoreDrain (level : BitVec 3) (s : State) : Out :=
  let l := level.toNat
  let fs := s.overflow l
  let (s, kept, ds) := fs.foldl drainOne (s.onNet fun n => { n with overflow := Tab.set n.overflow l [] }, [], [])
  .next (s.onNet fun n => { n with overflow := Tab.set n.overflow l kept, ready := ds ++ n.ready })

/-! ## Packets written at their target (R59, R128, R362, R406) -/

/-- The context that sent a flit still runs the launch for which it did. -/
def senderStands (s : State) (g : Nat) (launch : Lane) : Bool :=
  let c := s.ctx g
  c.status != .free && c.status != .reserved && (isForeman g || c.cr.launch == launch)

/-- The failure of a window access made for a context that still runs the launch that asked: it is killed (R128, R132, R216), or stopped where
its rights do not allow the access (R155, R160). -/
def windowFails (s : State) (g : Nat) (launch : Lane) (w : Bool) (va : Nat) (b : Bad) : State :=
  if !senderStands s g launch then s
  else if b.code = 0x04 then s.stopOf g .x b
  else
    let (code, info) : BitVec 8 × Word := if b.code = 0x11 then (0x11, b.info) else (0x14, 0)
    killFatal s g { s.recordOf g code 1 (BitVec.ofNat 64 va) info with acc := if w then 1 else 0 }

/-- The end of a PUT that names a handler: an arrival for its launch, or the fault that was asked for (R59). -/
def handlerArrival (s : State) (f : Flit) (core x : Nat) (start : Word) : State :=
  let lid := f.launch.toNat
  match Tab.find s.chip.launches lid with
  | some l =>
    if l.active && decide (x < recHandlers l.image) then
      let a : Arrival := { core, handler := x, off := (start.extractLsb' 0 30).setWidth 64, sender := f.sender }
      startHandler (s.mapLaunch lid fun l => { l with arrivals := l.arrivals ++ [a] }) lid core
    else if f.ds then deliveryFault s f.sender.toNat f.dest else s
  | none => if f.ds then deliveryFault s f.sender.toNat f.dest else s

/-- A packet of a window PUT written, and its handler started after the last; one whose target context is no longer reserved, or whose bytes
cannot be reached any more, is sunk with reason 0: the model's choice (R128, R406; log entry 61). -/
def writeWindow (s : State) (f : Flit) (core : Nat) (off : Word) (bs : List Byte) (last : Bool) (e : PutEnd) (start : Word) : State :=
  if !windowOk s f.part.toNat core off.toNat bs.length then sinkFlit s (coreLevel core) f .noRoute
  else match windowWrite s core off.toNat bs with
    | .error b => windowFails s f.sender.toNat f.launch true (windowOf core off.toNat) b
    | .ok s =>
      match e with
      | .handler x => if last then handlerArrival s f core x.toNat start else s
      | _ => s

/-- The packets of one arrival in a ring, from its first in the list on: none until the last is there. -/
def ringPackets (f : Flit) (q : QReg) : List Delivered → Option (List Delivered)
  | [] => none
  | d :: r =>
    match d.flit.cargo with
    | .put _ _ last (.ring x) _ =>
      if d.flit.sender = f.sender ∧ d.flit.target = f.target ∧ x = q then
        (if last then some [d] else (ringPackets f q r).map (d :: ·))
      else ringPackets f q r
    | _ => ringPackets f q r

/-- The bytes a flit carries for a ring or window. -/
def Flit.bytes (f : Flit) : List Byte :=
  match f.cargo with
  | .put _ bs _ _ _ => bs
  | _ => []

/-- One arrival in a ring: kept for a saved context and behind what waits for it; sunk where the context is free, of another length than the
slot or with the ring full (R195, R361, R362, R406). -/
def ringDeliver (s : State) (f : Flit) (q : QReg) (ds : List Delivered) : State :=
  let g := f.target
  let c := s.ctx g
  let lvl := levelOf g
  let bs := ds.flatMap fun d => d.flit.bytes
  let sunk := fun (s : State) => ds.foldl (fun s d => sinkFlit s lvl d.flit .noRoute) s
  if diverts s f then ds.foldl (fun s d => toOverflow s lvl d.flit) s
  else if c.status = .free ∨ c.cr.job ≠ f.part ∨ bs.length ≠ ringSsz (c.rQ q) then sunk s
  else match ringArrival s (if senderStands s f.sender.toNat f.launch then some f.sender.toNat else none) g q bs with
    | .error b => windowFails s f.sender.toNat f.launch true (windowOf (g / 4) 0) b
    | .ok none => sunk s
    | .ok (some s) => s

/-- A flit from a core back to a context that asked (R406). -/
def replyFlit (s : State) (f : Flit) (core : Nat) (ix len : Nat) (cargo : Cargo) : Flit :=
  let back := coreOf f.sender.toNat
  { part := f.part, dlvl := BitVec.ofNat 3 (coreLevel back), dstop := BitVec.ofNat 4 (coreStop back), target := f.sender.toNat
    slvl := BitVec.ofNat 3 (coreLevel core), sstop := BitVec.ofNat 4 (coreStop core), sender := f.sender, pseq := s.chip.net.pseq
    ix, len, circuit := 0, ds := f.ds, launch := f.launch, cargo }

/-- A GET's request answered with its bytes in packets (R128, R406). -/
def answerGet (s : State) (f : Flit) (core : Nat) (off : Word) (n dst serial : Nat) : State :=
  if !windowOk s f.part.toNat core off.toNat n then sinkFlit s (coreLevel core) f .noRoute
  else match windowRead s core off.toNat n with
    | .error b => windowFails s f.sender.toNat f.launch false (windowOf core off.toNat) b
    | .ok (s, bs) =>
      (packets bs).foldl (fun s (o, b) =>
        inject s core (packet b.length (fun i l x => replyFlit s f core i l x) (.getReply (dst + o) b (decide (o + b.length = n)) serial))) s

/-- A GET's reply kept with its command until the last (R406). -/
def takeReply (s : State) (f : Flit) (bs : List Byte) (last : Bool) (serial : Nat) : State :=
  s.mapCore (coreOf f.target) fun k => { k with fly := k.fly.map fun c =>
    if c.ctx = f.target ∧ c.serial = serial then
      { c with cap := { c.cap with idx := c.cap.idx ++ bs.map BitVec.toNat, base := if last then 2 else c.cap.base } }
    else c }

/-- A packet that can be written now: a handler's last packet finds room in the arrival queue, a ring's first packet the last one there
(R59, R362). -/
def deliverable (s : State) (d : Delivered) : Bool :=
  match d.flit.cargo with
  | .put _ _ true (.handler _) _ => decide (arrivalsAt s d.flit.launch.toNat d.core < 8)
  | .put _ _ _ (.ring q) _ =>
    match ringPackets d.flit q s.chip.net.ready with
    | some ds => !diverts s d.flit || storeRoom s (levelOf d.flit.target) (ds.map fun x => x.flit.len).sum
    | none => false
  | _ => true

/-- The oldest packet for a core that nothing earlier from its sender holds back. -/
def nextDelivery (s : State) (core : Nat) : List Delivered → List Delivered → Option Delivered
  | _, [] => none
  | before, d :: r =>
    if d.core = core && deliverable s d && !before.any (fun x => x.core == core && x.flit.sender == d.flit.sender) then some d
    else nextDelivery s core (d :: before) r

/-- Packets taken out of those ready. -/
def takeReady (s : State) (ds : List Delivered) : State :=
  s.onNet fun n => { n with ready := n.ready.filter fun x => !ds.any fun d => d.flit.pseq == x.flit.pseq }

/-- PUT_DELIVERY: the next packet for a core is written, or an arrival of a ring, or a GET is answered or takes its reply (R59, R362,
R406). -/
def execPutDelivery (core : BitVec 8) (s : State) : Out :=
  let k := core.toNat
  match nextDelivery s k [] s.chip.net.ready with
  | none => .next s
  | some d =>
    let f := d.flit
    let one := takeReady s [d]
    match f.cargo with
    | .put off bs last e start =>
      match e with
      | .ring q =>
        match ringPackets f q s.chip.net.ready with
        | none => .next s
        | some ds => .next (ringDeliver (takeReady s ds) f q ds)
      | _ => .next (writeWindow one f k off bs last e start)
    | .getRequest off n dst serial => .next (answerGet one f k off n dst serial)
    | .getReply _ bs last serial => .next (takeReply one f bs last serial)
    | .refused serial => .next (endGet one f.target serial)
    | _ => .next one

end Sys2Proof.Machine
end

