-- ==== Sys2Proof/Machine/Fabric.lean ====
section
/-! DEFINITION. The fabric and the clock: arrivals, delivery at tick boundaries, abandoned items, retransmissions, the slewed time
(R24, R92, R168, R184, R185, R238 to R240, R408, R409). -/

namespace Sys2Proof.Machine

/-! ## The boundary at which an item is due (R92, R184) -/

/-- Boundary of delivery for an item handed over in tick k: k + D, for the priority class k + D − 1 where D exceeds 1 (R92, R184). -/
def dueTick (dist : Nat) (i : FabItem) : Nat :=
  i.sendTick.toNat + if i.priority && decide (1 < dist) then dist - 1 else dist

/-- Nanoseconds of one tick (R184). -/
def tickNs (f : Fabric) : Nat := 1000 * f.tickus

/-- Canonical order within a boundary: the priority class first, then source package, then source sequence (R92, R184). -/
def canonical (a b : FabItem) : Bool :=
  if a.priority ≠ b.priority then a.priority
  else decide (a.src.toNat < b.src.toNat) || (a.src == b.src && decide (a.sourceSeq.toNat < b.sourceSeq.toNat))

/-- Arrived items of a job that are due at a boundary. -/
def dueItems (s : State) (job k : Nat) : List (Nat × FabItem) :=
  s.chip.fab.inbox.filter fun (_, i) => i.job.toNat == job && decide (dueTick s.chip.fab.dist i ≤ k)

/-- The item arrived after its boundary (R185). -/
def isLate (dist : Nat) (x : Nat × FabItem) : Bool := decide (dueTick dist x.2 ≤ x.1)

/-- Items in canonical order, those on time before the late ones (R184, R185). -/
def deliveryOrder (dist : Nat) (l : List (Nat × FabItem)) : List (Nat × FabItem) :=
  sortBy (fun a b => canonical a.2 b.2) (l.filter fun x => !isLate dist x) ++ sortBy (fun a b => canonical a.2 b.2) (l.filter (isLate dist))

/-- The items that find room in their receive queues; a full queue withholds its item (R408). -/
def fitting (room : Nat → Nat) : List (Nat × FabItem) → List (Nat × FabItem)
  | [] => []
  | x :: r =>
    if x.2.kind = .rows then
      let q := x.2.queue.toNat
      if room q = 0 then fitting room r else x :: fitting (fun n => if n = q then room n - 1 else room n) r
    else x :: fitting room r

/-- Free places of a job's receive queue. -/
def queueRoom (s : State) (job q : Nat) : Nat := Config.rowsQueue - ((s.job job).queueOf q).length

/-! ## What a delivered item does (R92, R168, R405, R408) -/

/-- The greatest step number below a bound in the notice store. -/
def nextStep (l : List FabItem) (below : Nat) : Nat := l.foldl (fun m i => if i.stepn.toNat < below then max m i.stepn.toNat else m) 0

/-- A notice store with only its four most recent step numbers (R408). -/
def fourSteps (l : List FabItem) : List FabItem :=
  let a := nextStep l (2 ^ 32)
  let d := nextStep l (nextStep l (nextStep l a))
  l.filter fun i => decide (d ≤ i.stepn.toNat)

/-- A notice kept, or discarded with a delivery fault where data of its step and boundary has been delivered (R92). -/
def deliverNotice (s : State) (job : Nat) (i : FabItem) : State :=
  if (s.job job).rowsSeen.contains (i.stepn.toNat, i.bnd.toNat) then
    s.post (agentRecord 0x0A 2 0x7F2 job 0 (i.src.setWidth 64) (i.src.setWidth 64))
  else s.mapJob job fun j => { j with noticeStore := fourSteps (j.noticeStore ++ [i]) }

/-- A ROWS item put in its queue (R408). -/
def deliverRows (s : State) (job : Nat) (i : FabItem) : State :=
  let q := i.queue.toNat
  s.mapJob job fun j => { j with
    rowsq := Tab.set j.rowsq q (j.queueOf q ++ [i])
    rowsSeen := if j.rowsSeen.contains (i.stepn.toNat, i.bnd.toNat) then j.rowsSeen else (i.stepn.toNat, i.bnd.toNat) :: j.rowsSeen }

/-- The bound flag region of a job under the log whose flag word a delivered store touches (R179). -/
def storeHitsFlag (s : State) (job : Nat) (i : FabItem) : Option Nat :=
  let j := s.job job
  if j.fmode < 2 then none
  else (j.regions.find? fun (_, r) =>
    r.kind == 2 && decide (r.obj < i.rva.toNat + i.payload.length) && decide (i.rva.toNat < r.obj + 8)).map Prod.fst

/-- A remote store written at the start of its tick under the job's primary ASID; one that fails has no effect. Under the log a store to the flag
word of a bound region is a region access fault of the agent that delivers it (R168, R179, R408). -/
def deliverStore (s : State) (job : Nat) (i : FabItem) : State :=
  match storeHitsFlag s job i with
  | some ix => s.post { agentRecord 0x04 4 0x7F2 job 0 i.rva (BitVec.ofNat 64 ix) with acc := 1 }
  | none =>
    match writeVa s (s.job job).asid i.rva i.payload with
    | .ok s => s.chargeWrite job (sectorOf i.payload.length + 2 + walkSectors)
    | .error _ => s

/-- The bytes of the row that a peer asks for, and of its exponent pair (R405). -/
def gatheredBytes (s : State) (job : Nat) (i : FabItem) : Except Bad (List Byte) :=
  let n := match Fmt.ofCode i.fmt with | some f => rowBytes f | none => 128
  match readVa s (s.job job).asid i.rva n with
  | .error b => .error b
  | .ok bs =>
    if i.payload.isEmpty then .ok bs
    else match readVa s (s.job job).asid (BitVec.ofNat 64 (leNat i.payload)) 4 with
      | .error b => .error b
      | .ok es => .ok (bs ++ es)

/-- The reply to a gather request: the row, or the code of the failure, with the poisoned sector where it is poison (R210, R405). -/
def replyItem (i : FabItem) (r : Except Bad (List Byte)) : FabItem :=
  { i with
    dst := i.src, src := i.dst, kind := .gathReply
    bnd := match r with | .ok _ => 0 | .error b => b.code.setWidth 16
    payload := match r with | .ok bs => bs | .error b => if b.code = 0x11 then leBytes 8 b.info.toNat else [] }

/-- The request that a reply answers. -/
def answers (r i : FabItem) : Bool :=
  i.kind == .gathRequest && i.ctx == r.ctx && i.queueSeq == r.queueSeq && i.stepn == r.stepn && i.job == r.job

/-- A reply to a gather kept for its command (R405). -/
def deliverReply (s : State) (i : FabItem) : State :=
  s.onFab fun f => { f with sent := f.sent.filter (fun x => !answers i x), replies := f.replies ++ [i] }

/-- One item delivered (R405, R408). -/
def deliverItem (job : Nat) (s : State) (i : FabItem) : State :=
  match i.kind with
  | .store => deliverStore s job i
  | .rows => deliverRows s job i
  | .notice => deliverNotice s job i
  | .gathRequest => (handOver s (replyItem i (gatheredBytes s job i))).chargeWrite job (6 + 2 * walkSectors)
  | .gathReply => deliverReply s i

/-! ## The boundary of a tick (R24, R181, R184, R185) -/

/-- The TICK record of a delivery (R177). -/
def tickRecord (n late : Nat) : Logged :=
  { type := recTick, flags := if 0 < late then 1 else 0, val := BitVec.ofNat 64 (n + 2 ^ 32 * late), ctx := 0x7F2, key := countKey 8 0 }

/-- Items taken out of those that have arrived. -/
def takeArrived (s : State) (l : List (Nat × FabItem)) : State :=
  s.onFab fun f => { f with inbox := f.inbox.filter fun x => !l.contains x }

/-- The items delivered in order, the late ones counted as tick overruns (R185). -/
def deliverAll (s : State) (job late : Nat) (l : List (Nat × FabItem)) : State :=
  let s := (takeArrived s l).onFab fun f => { f with overruns := f.overruns + BitVec.ofNat 64 late }
  (l.map Prod.snd).foldl (deliverItem job) s

/-- REPLAY: the number of items and of late items that the job's next record gives, where it is a TICK (R181). -/
def loggedTick (s : State) (job : Nat) : Option (Nat × Nat) :=
  match peekRecord s ((s.job job).owner job) 0 with
  | .record r true => if bits r 7 0 = recTick ∧ bits r 15 8 ≤ 1 then some (bits (recVal r) 31 0, bits (recVal r) 63 32) else none
  | _ => none

/-- REPLAY: the logged number of items, the earliest due first, grouped as they were logged (R181, R185). -/
def replayItems (dist n late : Nat) (l : List (Nat × FabItem)) : List (Nat × FabItem) :=
  let before := fun (a b : Nat × FabItem) =>
    decide (dueTick dist a.2 < dueTick dist b.2) || (dueTick dist a.2 == dueTick dist b.2 && canonical a.2 b.2)
  let l := (sortBy before l).take n
  let sorted := fun (l : List (Nat × FabItem)) => sortBy (fun a b => canonical a.2 b.2) l
  sorted (l.drop late) ++ sorted (l.take late)

/-- What a job is to be given at a boundary, and how many of the items are late; in REPLAY what the log names, or nothing while they have not
all arrived. -/
def jobItems (s : State) (job k : Nat) : List (Nat × FabItem) × Nat :=
  let d := s.chip.fab.dist
  let due := dueItems s job k
  let now := fitting (queueRoom s job) (deliveryOrder d due)
  let plain := (now, (now.filter (isLate d)).length)
  if (s.job job).fmode ≠ 3 then plain
  else match loggedTick s job with
    | none => plain
    | some (n, late) =>
      let l := replayItems d n late due
      if l.length = n ∧ (fitting (queueRoom s job) l).length = n then (l, late) else ([], 0)

/-- A job's delivery at a boundary with its record; held whole where the log holds it (R175, R184). -/
def deliverJob (k : Nat) (s : State) (job : Nat) : State :=
  let (l, late) := jobItems s job k
  if l.isEmpty then s
  else match agentOp s job (tickRecord l.length late) with
    | .hold s => s
    | .diverge s => s
    | .go s => deliverAll s job late l

/-- Items that a receiver gives up: those of a job that is not started, and those withheld to the end of their time (R238, R408). -/
def dropStale (s : State) (k : Nat) : State :=
  s.onFab fun f => { f with
    inbox := f.inbox.filter fun (_, i) =>
      (decide (i.job = 0) || (s.job i.job.toNat).started || decide (k < dueTick f.dist i)) &&
      (i.kind != .rows || decide (k < i.sendTick.toNat + 256))
    sent := f.sent.filter fun i => i.kind == .gathRequest || decide (k ≤ i.sendTick.toNat + 256) }

/-- TICK_BOUNDARY: once the time has reached the next tick, its number advances, the fabric allowances are whole again, and every job's due
items are delivered (R24, R184, R185). -/
def execTickBoundary (s : State) : Out :=
  let f := s.chip.fab
  let k := f.tick + 1
  if s.chip.host.state ≠ 5 ∨ f.time.toNat < f.t0.toNat + k * tickNs f then .next s
  else
    let s := s.onChip fun c => { c with fab := { c.fab with tick := k }, jobs := c.jobs.map fun (j, x) => (j, { x with fabUsed := 0 }) }
    .next ((List.range 64).foldl (deliverJob k) (dropStale s k))

/-! ## Arrivals and abandoned items (R168, R238) -/

/-- FABRIC_ITEM_RECEIVE: an item from a peer of the table arrives for this package; another is no item of it (R229, R238). -/
def execFabricItemReceive (it : FabItem) (s : State) : Out :=
  if it.dst ≠ s.chip.host.pkgid ∨ ¬ knownPeer s it.src.toNat = true then .next s
  else .next (s.onFab fun f => { f with inbox := f.inbox ++ [(f.tick, it)] })

/-- The report of an abandoned item (R168, R238, R210). -/
def reportAbandoned (s : State) (i : FabItem) : State :=
  let info : Word := i.launch ++ (0 : BitVec 14) ++ i.dst
  match i.kind with
  | .store => s.post (agentRecord 0x0A 4 0x7F2 i.job.toNat i.launch (i.dst.setWidth 64) info)
  | .rows | .notice =>
    if i.ds then s.post (agentRecord 0x0A 2 0x7F2 i.job.toNat i.launch (i.dst.setWidth 64) (i.dst.setWidth 64)) else s
  | .gathRequest => s.onFab fun f => { f with replies := f.replies ++ [{ replyItem i (.error { code := 0x10 }) with src := i.dst }] }
  | .gathReply => s

/-- FABRIC_ITEM_ABANDON: the n-th item not acknowledged by tick k + 256 is abandoned and reported (R238). -/
def execFabricItemAbandon (n : BitVec 16) (s : State) : Out :=
  match s.chip.fab.sent[n.toNat]? with
  | none => .next s
  | some i =>
    if s.chip.fab.tick < i.sendTick.toNat + 256 then .next s
    else .next (reportAbandoned (s.onFab fun f => { f with sent := f.sent.eraseIdx n.toNat }) i)

/-! ## Links and time (R238, R240) -/

/-- LINK_RETRANSMIT: frames of a port sent again, counted in the error log (R220, R238). -/
def execLinkRetransmit (port : BitVec 5) (count : BitVec 16) (s : State) : Out :=
  .next (s.cerRecord { type := 9, cls := 11, unit := port.toNat, detail := count.toNat })

/-- PTP_TIME_SYNC: the clock advances by the elapsed nanoseconds, slewed toward the grandmaster by at most 100 parts per million, and shows its
offset from it (R235, R240). -/
def execPtpTimeSync (elapsed : BitVec 64) (master : Word) (s : State) : Out :=
  if s.chip.host.state ≠ 5 then .next s
  else
    let plain : Int := s.chip.fab.time.toNat + elapsed.toNat
    let most : Int := elapsed.toNat / 10000
    let slew := max (-most) (min most (master.toNat - plain))
    .next (s.onFab fun f => { f with time := wrap 64 (plain + slew), offset := wrap 64 (plain + slew - master.toNat) })

end Sys2Proof.Machine
end

