-- ==== Sys2Proof/Machine/Errors.lean ====
section
/-! DEFINITION. The trap queue, bit errors and their poison, register parity, patrol scrub and lost expanders
(R207 to R209, R214 to R216, R220, R237, R414). -/

namespace Sys2Proof.Machine

/-! ## The trap queue (R207 to R209, R414) -/

/-- BASE and LG of a job's trap queue (R207, R257). -/
def Job.trapq (j : Job) : Word × Nat := (j.reg 0x108 &&& 0x00FFFFFFFFFFF000, bits (j.reg 0x108) 4 0)
/-- Records a trap queue holds: none while it is unconfigured (R207). -/
def queueRecords (lg : Nat) : Nat := if lg = 0 then 0 else (2 ^ lg - 128) / 128
/-- Address of record i (R207). -/
def trapAt (base : Word) (lg i : Nat) : Word := base + BitVec.ofNat 64 (128 + 128 * (i % queueRecords lg))

/-- The queue has room: RD is read again, and a header that cannot be read counts as full (R209, R414). -/
def queueHasRoom (s : State) (j : Nat) : Bool :=
  let (base, lg) := (s.job j).trapq
  decide (lg ≠ 0) &&
  (match readVaNum s (s.job j).asid base 8 with
   | .ok rd => decide ((s.job j).tqSeq.toNat < rd + queueRecords lg)
   | .error _ => false)

/-- The held record of a stop takes its number (R205, R208). -/
def nameHeld (s : State) (own : Option Nat) (seq : Word) : State :=
  match own with
  | none => s
  | some g => s.mapCtx g fun c => match c.held with
    | some h => if h.seq.isNone then { c with held := some { h with seq := some seq } } else c
    | none => c

/-- The most sectors that the device transfers for one trap record: the record, the header's words, and their walks (R24; log entry 33). -/
def trapSectors : Nat := 8 + 4 * walkSectors

/-- A record, WR and LOST written to a job's queue: none where an access fails, which writes nothing (R24, R207, R208, R414). -/
def writeTrap (s : State) (j : Nat) (r : TrapRec) : Option State :=
  let (base, lg) := (s.job j).trapq
  let asid := (s.job j).asid
  let seq := (s.job j).tqSeq
  match writeVa s asid (trapAt base lg seq.toNat) (leBytes 128 (r.image seq).toNat) with
  | .error _ => none
  | .ok s =>
    match writeVa s asid (base + 8) (leBytes 8 (seq + 1).toNat ++ leBytes 8 (s.job j).lost.toNat) with
    | .error _ => none
    | .ok s => some ((s.mapJob j fun x => { x with tqSeq := seq + 1 }).chargeWrite j trapSectors)

/-- LOST in the header of a job's queue brought up to the count of dropped records (R207, R209). -/
def writeLost (s : State) (j : Nat) : State :=
  let (base, lg) := (s.job j).trapq
  let asid := (s.job j).asid
  if lg = 0 then s
  else match readVaNum s asid (base + 16) 8 with
    | .error _ => s
    | .ok v =>
      if v = (s.job j).lost.toNat then s
      else match writeVa s asid (base + 16) (leBytes 8 (s.job j).lost.toNat) with
        | .error _ => s
        | .ok t => t.chargeWrite j trapSectors

/-- A context whose record is written can be reserved again (R58, R209). -/
def reoffer (s : State) (own : Option Nat) : State :=
  match own with
  | some g => if g < 1024 ∧ g % 4 = 3 then tryReserve s (g / 4) else s
  | none => s

/-- The first record of a job that can be written now, written: the supervisor's own to the fault window once that is free, any other to the
queue while it has room (R207, R209). -/
def writeWaiting (s : State) (j : Nat) : List Waiting → List Waiting → State
  | _, [] => writeLost s j
  | before, w :: r =>
    let rest := before.reverse ++ r
    if w.record.ctx = 1024 then
      if s.chip.host.fvalid then writeWaiting s j (w :: before) r
      else reoffer ((s.mapJob j fun x => { x with waiting := rest }).faultWindow w.record) w.own
    else if !queueHasRoom s j then writeWaiting s j (w :: before) r
    else match writeTrap s j w.record with
      | none => s
      | some t => reoffer (nameHeld (t.mapJob j fun x => { x with waiting := rest }) w.own (s.job j).tqSeq) w.own

/-- TRAP_RECORD_WRITE (R209). -/
def execTrapRecordWrite (job : BitVec 6) (s : State) : Out := .next (writeWaiting s job.toNat [] (s.job job.toNat).waiting)

/-! ## Bit errors and poison (R215, R216, R220) -/

/-- The error-log record of an error at a place: its class, unit and address or offset, and the context whose state it is (R19, R220). An
instruction cache counts as an L1, and a queue, for which CLASS has no number, as core logic (log entry 50). -/
def siteEvent (type detail : Nat) (s : State) : EccSite → CerEvent
  | .hbm pa => { type, cls := 0, unit := channelOf pa.toNat, addr := pa.toNat, detail }
  | .saveArea g pa => CerEvent.ofCtx { type, cls := 9, unit := g.toNat, addr := pa.toNat, detail } s g.toNat
  | .scratch core off => { type, cls := 1, unit := core.toNat, addr := off.toNat, detail }
  | .l1 core pa | .icache core pa => { type, cls := 2, unit := core.toNat, addr := pa.toNat, detail }
  | .l2 slice pa => { type, cls := 3, unit := slice.toNat, addr := pa.toNat, detail }
  | .l3 pa => { type, cls := 4, unit := channelOf pa.toNat, addr := pa.toNat, detail }
  | .tile g t row => CerEvent.ofCtx { type, cls := 5, unit := g.toNat, addr := t.toNat * 2 ^ 14 + row.toNat * 128, detail } s g.toNat
  | .acc g a lane => CerEvent.ofCtx { type, cls := 5, unit := g.toNat, addr := a.toNat * 2 ^ 17 + lane.toNat * 16, detail } s g.toNat
  | .replica level off => { type, cls := 7, unit := level.toNat, addr := off.toNat, detail }
  | .tcache core pa => { type, cls := 8, unit := core.toNat, addr := pa.toNat, detail }
  | .queue core => { type, cls := 10, unit := core.toNat, detail }

/-- The unit in which an error of two bits lies poisoned: a sector of memory, of which a cache holds a copy, a sector of scratch, a tile row,
an accumulator lane, a line of a replica; for a queue the spec names no unit, and nothing is poisoned (R215; log entry 50). -/
def poisonSite (s : State) : EccSite → State
  | .hbm pa | .saveArea _ pa | .l1 _ pa | .icache _ pa | .l2 _ pa | .l3 pa | .tcache _ pa =>
    if populated s pa.toNat then s.onChip fun c => { c with poison := insertNat (sectorOf pa.toNat) c.poison } else s
  | .scratch core off => let (o, n) := (s.core core.toNat).scrSector off.toNat; s.scrTaint core.toNat o n
  | .tile g t row => s.mapCtx g.toNat fun c => c.mapRow t.toNat row.toNat fun r => { r with poison := true }
  | .acc g a lane => s.mapCtx g.toNat fun c => c.mapLane a.toNat lane.toNat fun l => { l with poison := true }
  | .replica level off => s.onChip fun c => { c with repPoison := insertNat (repLine level.toNat (off.toNat / 64)) c.repPoison }
  | .queue _ => s

/-- An error recorded with a syndrome and a bit index that the spec leaves open (R220). -/
def recordError (s : State) (e : Nat → CerEvent) : State := (s.cerRecord (e (s.fresh 16).toNat)).bump

/-- ECC_SINGLE_BIT: corrected in place and recorded (R215). -/
def execEccSingleBit (site : EccSite) (s : State) : Out := .next (recordError s fun d => siteEvent 2 d s site)

/-- ECC_DOUBLE_BIT: its unit is poisoned and the event recorded (R215). -/
def execEccDoubleBit (site : EccSite) (s : State) : Out := .next (recordError (poisonSite s site) fun d => siteEvent 4 d s site)

/-- PATROL_SCRUB_PASS: the pass is recorded with its number since boot (R215, R220). -/
def execPatrolScrubPass (s : State) : Out :=
  let s := s.onCer fun c => { c with pass := c.pass + 1 }
  .next (s.cerRecord { type := 0x0D, cls := 0, detail := s.chip.cer.pass.toNat })

/-! ## Register parity (R214) -/

/-- The value of a register, by the class numbers of the operand log (log entry 47); physical numbers where registers age. The registers that
nothing writes after the start (job, launch, iteration number, i0 to i3) have their starting values. -/
def Ctx.regValue (c : Ctx) (cls num : Nat) : Nat :=
  match cls with
  | 0 => (Tab.get (0 : Word) c.s num).toNat
  | 1 => if c.p.getLsbD num then 1 else 0
  | 2 => (Tab.get (0 : Vec) c.v num).toNat
  | 3 => (Tab.get (0 : Word) c.k num).toNat
  | 4 => (Tab.get (0 : StreamBits) c.g num).toNat
  | 5 => (Tab.get (0 : RingBits) c.q num).toNat
  | 6 =>
    match num with
    | 0x08 => c.cr.mode.toNat
    | 0x10 => c.cr.fpstat.toNat
    | 0x18 => c.cr.wdog.toNat
    | 0x20 => c.cr.key0.toNat
    | 0x21 => c.cr.key1.toNat
    | 0x22 => c.cr.rngctr.toNat
    | 0x28 => c.cr.logbase.toNat
    | 0x29 => c.cr.logsize.toNat
    | 0x2A => c.cr.logwr.toNat
    | 0x2B => c.cr.logrd.toNat
    | 0x40 => c.cr.blockno.toNat
    | _ => 0
  | 7 =>
    match c.loops, num with
    | e :: _, 0 => e.lc.toNat
    | e :: _, 1 => e.ec.toNat
    | _, _ => 0
  | 8 => if num = 0 then c.lr.toNat else 0
  | _ => 0

/-- The registers with which the context's iteration, handler run or foreman started, as they were then (R49, R59, R232). -/
def startOf (s : State) (g : Nat) : Ctx :=
  let c := s.ctx g
  let x := { c with cr := { c.cr with logwr := c.logStart.1, logrd := c.logStart.2 } }.start c.cr.job c.cr.launch 0 c.wdogStart
  { x with s := c.sStart, cr := { x.cr with mode := c.modeStart } }

/-- REGISTER_PARITY_FAIL: the value is restored where the operand log holds its write or it is still the starting value, and that is recorded;
else the context is killed (R214). -/
def execRegisterParityFail (g : CtxId) (cls num : BitVec 8) (s : State) : Out :=
  let g := g.toNat
  let c := s.ctx g
  let n := cls.toNat + 256 * num.toNat
  if (c.status ≠ .running ∧ c.status ≠ .stopped) ∨ c.killed = true then .next s
  else if c.oplog.contains ⟨cls.toNat, num.toNat⟩ ∨ c.regValue cls.toNat num.toNat = (startOf s g).regValue cls.toNat num.toNat then
    .next (s.cerRecord (CerEvent.ofCtx { type := 3, cls := 6, unit := g, detail := n } s g))
  else
    let s := recordError s fun d => CerEvent.ofCtx { type := 4, cls := 6, unit := g, detail := d } s g
    .next (killFatal s g (s.recordOf g 0x13 1 0 (BitVec.ofNat 64 n)))

/-! ## Expanders (R237) -/

/-- EXPANDER_LINK_DROP: the range of an expander in service reads poisoned from now on, and the loss is recorded (R237). -/
def execExpanderLinkDrop (port : BitVec 3) (s : State) : Out :=
  let p := port.toNat
  if s.chip.sup.dropped.contains p || !(s.chip.sup.expanders.any fun x => x.1 == p) then .next s
  else .next (recordError (s.onSup fun x => { x with dropped := insertNat p x.dropped }) fun d => { type := 4, cls := 11, unit := p, detail := d })

end Sys2Proof.Machine
end

