-- ==== Sys2Proof/Machine/Jobs.lean ====
section
/-! DEFINITION. Job profiles, the allotment of a job's resources, the placing of its code and of its memory, its removal
(R22, R116, R119 to R121, R212, R232, R233; log entry 9). -/

namespace Sys2Proof.Machine

/-! ## Profiles (R233) -/

/-- n bytes of an image at an offset. -/
def imgNum (bs : List Byte) (off n : Nat) : Nat := leNat ((bs.drop off).take n)

/-- A job profile (R233). -/
structure Profile where
  fmva : Nat
  fmarg : Nat
  fmoff : Nat
  fmlen : Nat
  scrLen : Nat
  shLines : Nat
  phCnt : Nat
  tkCnt : Nat
  wdog : Nat
  budget : Nat
  hbm : Nat
  fab : Nat
  shf : Nat
  bcap : Nat
  kvbud : Nat
  trapLg : Nat
  demLg : Nat
  hbmBytes : Nat
  deriving DecidableEq, Repr

/-- The profile at an offset of the configuration body. -/
def profileFrom (b : List Byte) (o : Nat) : Profile :=
  let f := fun (x n : Nat) => imgNum b (o + x) n
  { fmva := f 0 8, fmarg := f 8 8, fmoff := f 0x10 4, fmlen := f 0x14 4, scrLen := f 0x18 4, shLines := f 0x1C 2, phCnt := f 0x1E 2
    tkCnt := f 0x20 2, wdog := f 0x24 4, budget := f 0x28 8, hbm := f 0x30 4, fab := f 0x34 4, shf := f 0x38 2, bcap := f 0x3A 2
    kvbud := f 0x3C 4, trapLg := f 0x40 1, demLg := f 0x41 1, hbmBytes := f 0x48 8 }

/-- The ranges of R233 hold, the code body lies in the firmware's BODY of n bytes. -/
def profileOk (n : Nat) (p : Profile) : Bool :=
  p.fmoff % 4096 == 0 && decide (p.fmoff + p.fmlen ≤ n) && p.scrLen % 0x10000 == 0 && decide (p.scrLen ≤ 0x300000) &&
  decide (128 ≤ p.shLines) && decide (p.shLines ≤ 16384) && decide (p.phCnt ≤ 4096) && decide (p.tkCnt ≤ 16384) &&
  decide (p.hbm ≤ 1310720) && decide (p.shf ≤ 8192) && decide (1 ≤ p.bcap) && decide (p.bcap ≤ 2048) &&
  decide (13 ≤ p.trapLg) && decide (p.trapLg ≤ 24) && (p.demLg == 0 || (decide (12 ≤ p.demLg) && decide (p.demLg ≤ 24))) &&
  p.hbmBytes % 0x400000 == 0

/-- BODY of an image (R226). -/
def imageBody (img : List Byte) : List Byte := img.drop 0x800
/-- The configuration body in force. -/
def cfgBody (s : State) : List Byte := imageBody s.chip.host.cfg
/-- Offset of the job profile table (R227). -/
def profileTable (b : List Byte) : Nat := imgNum b 0x44 4
/-- Profile i of the configuration record, none where it is undefined (R227, R232). -/
def profileNo (b : List Byte) (i : Nat) : Option Profile :=
  if i < imgNum b (profileTable b) 4 then some (profileFrom b (profileTable b + 8 + 128 * i)) else none

/-! ## Free ranges (R232) -/

/-- The lowest base at which n units fit below a limit beside the ranges taken. -/
def lowestFit (limit n : Nat) (taken : List (Nat × Nat)) : Option Nat :=
  let fits := fun (b : Nat) => decide (b + n ≤ limit) && taken.all fun (x, l) => !overlap b n x l
  ((0 :: taken.map fun (x, l) => x + l).filter fits).foldl (fun (m : Option Nat) b => match m with
    | some x => some (min x b)
    | none => some b) none

/-- The started jobs other than j. -/
def otherJobs (s : State) (j : Nat) : List Job := s.chip.jobs.filterMap fun (k, x) => if k ≠ j ∧ x.started = true then some x else none

/-- Bytes of the translation store (R119). -/
def storeLen (s : State) : Nat := 2 ^ s.chip.sup.tscfg.toNat * 128
/-- Base of the translation store (R119). -/
def storeBase (s : State) : Nat := bits s.chip.sup.tsbase 51 7 * 128

/-- Bytes of the eight sink rings once they are placed (R197; log entry 45). -/
def sinkLen (s : State) : Nat := if s.chip.sup.sinkBase = 0 then 0 else 0x40000

/-- HBM that the device has placed something in: the CER window, the translation store, the sink rings, the jobs' areas and pages (R119, R197,
R219, R232). -/
def placed (s : State) : List (Nat × Nat) :=
  (s.chip.cer.base, 4096 * (s.chip.cer.recBlocks + s.chip.cer.ckpBlocks)) :: (storeBase s, storeLen s) :: (s.chip.sup.sinkBase, sinkLen s) ::
  s.chip.jobs.flatMap fun (_, x) => (match x.hbmArea with | some a => [a] | none => []) ++ x.fmPages.map fun p => (p, 0x10000)

/-- Every 64 KiB unit of a range is populated HBM. -/
def rangePopulated (s : State) (b n : Nat) : Bool :=
  (List.range (n / 0x10000)).all fun i => populated s (b + 0x10000 * i) && populated s (b + 0x10000 * i + 0xFFFF)

/-- The lowest free range of HBM of n bytes from a base on, in steps of its alignment. -/
def lowestHbm (s : State) (n align : Nat) : Nat → Nat → Option Nat
  | _, 0 => none
  | b, fuel + 1 =>
    if hbmSize < b + n then none
    else if (placed s).all (fun (x, l) => !overlap b n x l) && rangePopulated s b n then some b
    else lowestHbm s n align (b + align) fuel

/-! ## Pages (R119 to R121) -/

/-- The first of n ways from an address that is not valid. -/
def freeWay (s : State) : Nat → Nat → Option Nat
  | _, 0 => none
  | a, n + 1 => if s.peek a 8 / 2 ^ 63 = 0 then some a else freeWay s (a + 16) n

/-- The set of a page in the translation store (R122). -/
def setAt (s : State) (asid va sz : Nat) : Nat := storeBase s + 128 * setOf s.chip.sup.tscfg.toNat asid (va / pageLen sz) sz
/-- Word 0 of a page's way (R120). -/
def tagOf (asid va sz : Nat) : Nat := 2 ^ 63 + sz * 2 ^ 62 + asid * 2 ^ 40 + va / pageLen sz

/-- A page mapped in the first free way of its set; none where the set is full (R119 to R121). -/
def mapPage (s : State) (asid va pa sz flags : Nat) : Option State :=
  match freeWay s (setAt s asid va sz) 8 with
  | none => none
  | some a => some ((s.pokeNum a 8 (tagOf asid va sz)).pokeNum (a + 8) 8 (flags + pa / 0x10000))

/-- Read and write rights (R121). -/
def pageRw : Nat := 2 ^ 61 + 2 ^ 60
/-- Execute and read rights (R121). -/
def pageRx : Nat := 2 ^ 62 + 2 ^ 60

/-- n pages of one kind mapped in a row. -/
def mapRange (asid va pa sz flags : Nat) : Nat → State → Option State
  | 0, s => some s
  | n + 1, s =>
    match mapPage s asid va pa sz flags with
    | none => none
    | some s => mapRange asid (va + pageLen sz) (pa + pageLen sz) sz flags n s

/-- The ways of one set that hold a tag cleared, n to go. -/
def clearWays (tag : Nat) : Nat → Nat → State → State
  | _, 0, s => s
  | a, n + 1, s => clearWays tag (a + 16) n (if s.peek a 8 = tag then s.pokeNum a 16 0 else s)

/-- A page no longer mapped. -/
def unmapPage (asid va sz : Nat) (s : State) : State := clearWays (tagOf asid va sz) (setAt s asid va sz) 8 s

/-- A range of memory zeroed, with its poison. -/
def zeroRange (s : State) (b n : Nat) : State :=
  { s with
    mem := s.mem.filter fun (a, _) => decide (a < b) || decide (b + n ≤ a)
    chip := { s.chip with poison := s.chip.poison.filter fun k => decide (sectorBase k < b) || decide (b + n ≤ sectorBase k) } }

/-- A fresh page of 64 KiB for job j, zeroed. -/
def takePage (s : State) (j : Nat) : Option (Nat × State) :=
  match lowestHbm s 0x10000 0x10000 0 0x800000 with
  | none => none
  | some pa => some (pa, (zeroRange s pa 0x10000).mapJob j fun x => { x with fmPages := x.fmPages ++ [pa] })

/-! ## Placing a job (R232 steps 3 to 6) -/

/-- What a job is made of. -/
structure Making where
  job : Nat
  profile : Profile
  cores : BitVec 256
  prio : Nat
  fmode : Nat
  asids : Nat
  rqBase : Nat
  rqCnt : Nat
  deriving DecidableEq, Repr

/-- JOBCTL written: ignored where RECORD or REPLAY finds no ring (R173; log entry 48). -/
def setJobctl (v : Nat) (x : Job) : Job := if jobWriteIgnored x 0x10F (BitVec.ofNat 64 v) then x else x.setReg 0x10F (BitVec.ofNat 64 v)

/-- Registers of a job written. -/
def setRegs (l : List (Nat × Nat)) (x : Job) : Job := l.foldl (fun x (n, v) => x.setReg n (BitVec.ofNat 64 v)) x

/-- Step 3: the allotments, each the lowest free range that fits; phasers and tokens are as an allotment leaves them (R150, R171, R232, R319). -/
def allotJob (s : State) (m : Making) : Option State :=
  let others := otherJobs s m.job
  let p := m.profile
  let near := others.filter fun x => x.partition &&& m.cores != 0
  let rqTaken := others.any fun x => overlap2 (m.rqBase, m.rqCnt) x.requests
  if 65536 < m.rqBase + m.rqCnt || rqTaken then none
  else
    match lowestFit 8192 m.asids (others.map Job.asids), lowestFit 4096 p.phCnt (others.map Job.phasers),
        lowestFit 16384 p.tkCnt (others.map Job.tokens), lowestFit 16384 p.shLines (others.map Job.window'),
        lowestFit 0x300000 p.scrLen (near.map fun x => (x.scrBase, x.scrLen)) with
    | some a, some ph, some tk, some sh, some sc =>
      let sync := ph + 2 ^ 12 * p.phCnt + 2 ^ 25 * tk + 2 ^ 39 * p.tkCnt
      some ((allotSync s m.job 0 (BitVec.ofNat 64 sync)).mapJob m.job fun x => setRegs
        [(0x118, a + 2 ^ 13 * (m.asids - 1)), (0x117, sync),
         (0x116, sh + 2 ^ 16 * p.shLines), (0x115, sc + 2 ^ 32 * p.scrLen), (0x119, m.rqBase + 2 ^ 16 * m.rqCnt),
         (0x11C, bits m.cores 63 0), (0x11D, bits m.cores 127 64), (0x11E, bits m.cores 191 128), (0x11F, bits m.cores 255 192)] x)
    | _, _, _, _, _ => none

/-- Step 4, page by page: the code copied, scanned as foreman code and mapped executable; none where the scanner refuses (R212, R232). -/
def placeCode (m : Making) : Nat → Nat → List Byte → State → Option State
  | 0, _, _, s => some s
  | n + 1, va, code, s =>
    match takePage s m.job with
    | none => none
    | some (pa, s) =>
      let s := s.poke pa (code.take 0x10000)
      match scanFrom s .foreman pa 0 2048 with
      | some _ => none
      | none =>
        let s := s.onChip fun c => { c with
          code := { base := pa, big := false, kind := .foreman, accepted := true } :: c.code, sup := { c.sup with codestat := 2 } }
        match mapPage s (s.job m.job).asid va pa 0 pageRx with
        | none => none
        | some s => placeCode m n (va + 0x10000) (code.drop 0x10000) s

/-- Step 4: the foreman code and its argument page (R232). -/
def placeForeman (s : State) (m : Making) : Option State :=
  let p := m.profile
  if p.fmva % 0x10000 ≠ 0 ∨ 2 ^ 56 ≤ p.fmva ∨ p.fmarg % 0x10000 ≠ 0 ∨ 2 ^ 56 ≤ p.fmarg then none
  else
    let code := ((imageBody s.chip.host.fw).drop p.fmoff).take p.fmlen
    match placeCode m ((p.fmlen + 0xFFFF) / 0x10000) p.fmva code s with
    | none => none
    | some s =>
      if p.fmarg = 0 then some s
      else match takePage s m.job with
        | none => none
        | some (pa, s) => mapPage s (s.job m.job).asid p.fmarg pa 0 pageRw

/-- Virtual address at which a physical address of a job's area is mapped (log entry 9). -/
def areaVa (pa : Nat) : Nat := 2 ^ 55 + pa

/-- The lowest and one past the highest context of a set of cores. -/
def ctxSpan (cores : BitVec 256) : Nat × Nat :=
  match (List.range 256).find? fun c => cores.getLsbD c, (List.range 256).reverse.find? fun c => cores.getLsbD c with
  | some a, some b => (4 * a, 4 * b + 4)
  | _, _ => (0, 0)

/-- Offsets in a job's area: step tables, region table, demotion pool, save areas, and its end (log entry 9). -/
def areaPlan (m : Making) : Nat × Nat × Nat × Nat × Nat :=
  let step := (2 ^ m.profile.trapLg + 0xFFFF) / 0x10000 * 0x10000
  let reg := step + 0x10000
  let pool := reg + 0x40000
  let save := (pool + (if m.profile.demLg = 0 then 0 else 2 ^ m.profile.demLg) + 0xFFFF) / 0x10000 * 0x10000
  let (lo, hi) := ctxSpan m.cores
  (step, reg, pool, save, save + areaLen * (hi - lo) + if lo = hi then 0 else 0x10000)

/-- Step 5: the job's HBM area with its structures, and the allowances committed (R25, R232). -/
def placeArea (s : State) (m : Making) : Option State :=
  let p := m.profile
  let (step, reg, pool, save, len) := areaPlan m
  let (lo, _) := ctxSpan m.cores
  let least := (areaLen * lo - save + 0x3FFFFF) / 0x400000 * 0x400000
  if p.hbmBytes < len then none
  else match lowestHbm s p.hbmBytes 0x400000 least 0x20000 with
    | none => none
    | some b =>
      let s := (zeroRange s b p.hbmBytes).mapJob m.job fun x => { x with hbmArea := some (b, p.hbmBytes) }
      match mapRange (s.job m.job).asid (areaVa b) b 1 pageRw (p.hbmBytes / 0x400000) s with
      | none => none
      | some s =>
        let saveBase := (b + save - areaLen * lo + 0xFFFF) / 0x10000 * 0x10000
        let s := s.mapJob m.job fun x => setRegs
          [(0x108, areaVa b + p.trapLg), (0x109, areaVa (b + step)), (0x10A, areaVa (b + reg)), (0x10B, saveBase),
           (0x10D, if p.demLg = 0 then 0 else b + pool + p.demLg), (0x10C, p.bcap + 2 ^ 32 * p.kvbud), (0x10E, p.wdog),
           (0x110, p.budget), (0x111, p.hbm), (0x112, p.fab), (0x113, p.shf),
           (0x11A, p.fmva), (0x11B, p.fmarg)] (setJobctl (m.prio + 16 * m.fmode) x)
        let a := (s.job m.job).staged
        if allowanceFits s m.job a then some (s.mapJob m.job fun x => { x with alw := a }) else none

/-- Steps 3 to 6 up to the writing of JOBSTART, the area before the code's pages: none where one fails. The registers that no step writes keep
what SETREG gave them (R173, R232; log entry 9). -/
def makeJob (s : State) (m : Making) : Option State :=
  match allotJob (s.mapJob m.job fun x => { regs := x.regs }) m with
  | none => none
  | some s =>
    match placeArea s m with
    | none => none
    | some s => placeForeman s m

/-! ## Removal (R232) -/

/-- A job's launches, migrations and contexts are through, and its sent stores are at their peers (R168, R232). -/
def jobQuiet (s : State) (j : Nat) : Bool :=
  !s.chip.launches.any (fun (_, l) => l.job == j) && !s.chip.fab.sent.any (fun x => x.job.toNat == j) && !s.chip.migs.any (fun m => m.job == j) &&
  !s.chip.ctxs.any fun (g, c) => decide (g < 1024) && c.status != .free && c.cr.job.toNat == j

/-- The pages that CREATE mapped for a job no longer mapped. -/
def unmapJob (s : State) (j : Nat) : State :=
  let x := s.job j
  let a := x.asid
  let s := (List.range x.fmPages.length).foldl (fun s i => unmapPage a ((x.reg 0x11A).toNat + 0x10000 * i) 0 s) s
  let s := if x.reg 0x11B = 0 then s else unmapPage a (x.reg 0x11B).toNat 0 s
  match x.hbmArea with
  | some (b, n) => (List.range (n / 0x400000)).foldl (fun s i => unmapPage a (areaVa b + 0x400000 * i) 1 s) s
  | none => s

/-- The end of a job: its key is destroyed, and its save areas, allotments, foreman context and code pages are released; the request records
keep their states (R69, R232). -/
def removeJob (s : State) (j : Nat) : State :=
  let x := s.job j
  let s := unmapJob (s.mapCtx (x.owner j) fun _ => {}) j
  s.onChip fun c => { c with
    jobs := Tab.del c.jobs j
    areas := c.areas.filter fun (_, a) => a.job.toNat != j
    dems := c.dems.filter fun d => d.job != j
    code := c.code.filter fun p => !x.fmPages.contains p.base }

end Sys2Proof.Machine
end

