-- ==== Sys2Proof/Machine/Mailbox.lean ====
section
/-! DEFINITION. The host's mailbox and its commands, attestation, and the resume of the supervisor (R223, R228, R230 to R234). -/

namespace Sys2Proof.Machine

/-- s with the host's side changed. -/
def State.onHost (s : State) (f : HostSide → HostSide) : State := s.onChip fun c => { c with host := f c.host }

/-- n bytes of a mailbox slot at an offset (R231). -/
def slotNum (c : BitVec 512) (off n : Nat) : Nat := bits c (8 * (off + n) - 1) (8 * off)

/-! ## Rings (R223, R231) -/

/-- Commands waiting. -/
def HostSide.commands (h : HostSide) : Nat := h.cmdwr.toNat - h.cmdrd.toNat
/-- A response slot is free. -/
def HostSide.hasRsp (h : HostSide) : Bool := decide (h.rspwr.toNat < h.rsprd.toNat + 32)
/-- The oldest command not yet taken. -/
def HostSide.head (h : HostSide) : BitVec 512 := Tab.get 0 h.cmd (h.cmdrd.toNat % 32)

/-- The supervisor can take a command: the module serves, its context runs, no END is in progress, and there is room for the response
(R225, R231). -/
def takesCommand (s : State) : Bool :=
  let h := s.chip.host
  h.state == 5 && (s.ctx 1024).status == .running && h.endTag.isNone && decide (0 < h.commands) && h.hasRsp

/-- A response: CODE, STATUS, TAG, JOB and payload (R231). -/
def rspSlot (c : BitVec 512) (status job : Nat) (payload : Nat) : BitVec 512 :=
  BitVec.ofNat 512 (slotNum c 0 1 + 2 ^ 8 * status + 2 ^ 16 * slotNum c 2 2 + 2 ^ 32 * job + 2 ^ 64 * payload)

/-- A command answered: its response is written and announced, and it is taken off the ring (R223, R231). -/
def answer (s : State) (c : BitVec 512) (status job payload : Nat) : State :=
  (s.onHost fun h => { h with
    rsp := Tab.set h.rsp (h.rspwr.toNat % 32) (rspSlot c status job payload), rspwr := h.rspwr + 1, cmdrd := h.cmdrd + 1 }).msix

/-- Commands of no known code at the head of the ring answered as such, at most n (R231). -/
def answerUnknown : Nat → State → State
  | 0, s => s
  | n + 1, s =>
    let c := s.chip.host.head
    if takesCommand s && (slotNum c 0 1 == 0 || decide (6 < slotNum c 0 1)) then answerUnknown n (answer s c 2 (slotNum c 4 1) 0) else s

/-- A command answered, and those of no known code behind it. -/
def reply (s : State) (c : BitVec 512) (status job payload : Nat) : Out := .next (answerUnknown 32 (answer s c status job payload))

/-- CMDWR: commands published by the host; one beyond a full ring is lost (R231). -/
def execCmdwr (slots : List (BitVec 512)) (s : State) : Out :=
  .next (answerUnknown 32 (slots.foldl (fun s c =>
    if s.chip.host.commands < 32 then
      s.onHost fun h => { h with cmd := Tab.set h.cmd (h.cmdwr.toNat % 32) c, cmdwr := h.cmdwr + 1 }
    else s) s))

/-- RSPRD: responses consumed by the host; a value outside those written is ignored (R223). -/
def execRsprd (v : Word) (s : State) : Out :=
  let h := s.chip.host
  .next (if h.rsprd.toNat ≤ v.toNat ∧ v.toNat ≤ h.rspwr.toNat then answerUnknown 32 (s.onHost fun h => { h with rsprd := v }) else s)

/-- The command at the head of the ring where it has a code and can be taken. -/
def nextCommand (s : State) (code : Nat) : Option (BitVec 512) :=
  if takesCommand s && slotNum s.chip.host.head 0 1 == code then some s.chip.host.head else none

/-! ## CREATE and END (R231, R232) -/

/-- The lowest job number not in use (R232). -/
def freeJob (s : State) : Option Nat := ((List.range 63).map (· + 1)).find? fun j => !(s.job j).started && !(s.job j).ending
/-- The lowest foreman context that owns no job (R232). -/
def freeOwner (s : State) : Option Nat :=
  ((List.range 63).map (· + 1)).find? fun n => !s.chip.jobs.any fun (k, x) => x.started && x.owner k == 1024 + n

/-- CREATE's job with its foreman started: none where a step fails. A foreman mode that FMODE does not have is refused (R232, R257; log entry
48). -/
def createJob (s : State) (c : BitVec 512) : Option (Nat × State) :=
  let prio := slotNum c 0x28 1
  let fmode := slotNum c 0x29 1
  let asids := slotNum c 0x2A 2
  let rq := slotNum c 0x30 4
  let cores := c.extractLsb' 64 256 &&& coresUp s
  match freeJob s, freeOwner s, profileNo (cfgBody s) (slotNum c 0x2E 1) with
  | some j, some n, some p =>
    if 8 ≤ prio ∨ 4 ≤ fmode ∨ fmode = 1 ∨ asids = 0 ∨ 128 < asids ∨ rq = 0 ∨ 65536 < rq ∨ cores = 0 then none
    else
      match makeJob s { job := j, profile := p, cores, prio, fmode, asids, rqBase := slotNum c 0x2C 2, rqCnt := rq } with
      | none => none
      | some t =>
        if startRefused t j n then none else some (j, startJob t j (BitVec.ofNat 64 (0x100 + n)))
  | _, _, _ => none

/-- CREATE (R232); a scan of the supervisor's is over first. -/
def execCreate (s : State) : Out :=
  match nextCommand s 1 with
  | none => .next s
  | some c =>
    if s.chip.scan.isSome then .next s
    else match createJob s c with
      | none => reply s c 1 (slotNum c 4 1) 0
      | some (j, t) => reply t c 0 j 0

/-- The jobs that are ending and through with all they had. -/
def endedJob (s : State) : Option Nat := ((List.range 63).map (· + 1)).find? fun j => (s.job j).ending && jobQuiet s j

/-- The foreman of an ending job given up, where that has not happened yet (R166, R232). -/
def retireForeman (s : State) (j : Nat) : State :=
  let g := (s.job j).owner j
  if (s.ctx g).status = .free ∨ (s.ctx g).killed = true then s else stopForeman s g

/-- END: the job is cancelled; once its launches and migrations have completed and its foreman's drops are logged it is removed, and only then
the command is answered. A job that lost its foreman ends in the same way, with no command (R206, R232, R413). -/
def execEndJob (s : State) : Out :=
  match endedJob s with
  | some j =>
    let s := retireForeman s j
    if (s.ctx ((s.job j).owner j)).status ≠ .free then .next s
    else
      let s := removeJob s j
      (match s.chip.host.endTag with
       | some c => if slotNum c 4 1 = j then reply (s.onHost fun h => { h with endTag := none }) c 0 j 0 else .next s
       | none => .next s)
  | none =>
    match nextCommand s 2 with
    | none => .next s
    | some c =>
      let j := slotNum c 4 1
      if j = 0 ∨ 63 < j ∨ ¬ ((s.job j).started = true ∧ (s.job j).ending = false) then reply s c 1 j 0
      else .next ((cancelJob (s.onHost fun h => { h with endTag := some c }) j).mapJob j fun x => { x with ending := true })

/-! ## SETREG, QUERY, CKPT (R231) -/

/-- SETREG: the write that SETC makes for the named job (R231). -/
def execSetreg (s : State) : Out :=
  match nextCommand s 3 with
  | none => .next s
  | some c =>
    let j := slotNum c 4 1
    if 63 < j then reply s c 1 j 0
    else reply (supervisorSet s j (slotNum c 8 8) (BitVec.ofNat 64 (slotNum c 0x10 8))) c 0 j 0

/-- The status of a job's last launch, zero where it has had none (R45, R231). -/
def Job.lastStatus (x : Job) : Nat := match x.window with | (_, st) :: _ => st | [] => 0

/-- QUERY: the step number, then the status of the last launch (R231; log entry 10). -/
def execQuery (s : State) : Out :=
  match nextCommand s 4 with
  | none => .next s
  | some c =>
    let j := slotNum c 4 1
    if 63 < j ∨ (s.job j).started = false then reply s c 1 j 0
    else reply s c 0 j ((s.job j).stepNo.toNat + 2 ^ 64 * (s.job j).lastStatus)

/-- CKPT: a checkpoint is asked for (R221, R231). -/
def execCkpt (s : State) : Out :=
  match nextCommand s 5 with
  | none => .next s
  | some c => reply (s.onCer fun x => { x with wanted := true }) c 0 (slotNum c 4 1) 0

/-! ## Attestation (R228, R230) -/

/-- This boot's leaf of the identity hierarchy (R228). -/
def bootIx (h : HostSide) : Nat := h.cells - 1
/-- An uncompressed point: 0x04, then X and Y (R230). -/
def pointBytes (v : Nat) : List Byte := 0x04 :: leBytes 96 v
/-- Bytes of zero. -/
def zeros (n : Nat) : List Byte := List.replicate n 0

/-- The signed part of a report, 512 bytes (R230). -/
def reportBody (s : State) (nonce : List Byte) : List Byte :=
  let h := s.chip.host
  let b := bootIx h
  let e := s.chip.cer.epoch
  nonce ++ leBytes 4 h.pkgid.toNat ++ leBytes 4 b ++ sha384 h.fw ++ sha384 h.cfg ++ (h.fw.drop 8).take 4 ++ (h.cfg.drop 8).take 4 ++
  (h.fw.drop 0xC).take 1 ++ (h.cfg.drop 0xC).take 1 ++ zeros 6 ++ leBytes 8 s.chip.fab.time.toNat ++ leBytes 4 e ++ zeros 4 ++
  pointBytes Config.idEcPub.toNat ++ zeros 7 ++ leBytes 60 Config.idHssPub.toNat ++ zeros 4 ++
  pointBytes (Config.epochEcPub h.cells e).toNat ++ zeros 7 ++ leBytes 56 (Config.epochLmsPub h.cells e).toNat ++ zeros 16

/-- A whole report of 4 KiB with both signatures, by the next leaf of this boot's key (R228, R230). -/
def report (s : State) (nonce : List Byte) : List Byte :=
  let m := reportBody s nonce
  let h := s.chip.host
  m ++ leBytes 96 (Config.ecSig 0 m).toNat ++ leBytes 3444 (Config.hssSig (bootIx h) h.attests m).toNat ++ zeros 44

/-- ATTEST: refused once the boot's leaves are spent (R228, R230). -/
def execAttest (s : State) : Out :=
  match nextCommand s 6 with
  | none => .next s
  | some c =>
    let j := slotNum c 4 1
    if 0x100000 ≤ s.chip.host.attests then reply s c 1 j 0
    else
      let r := report s (leBytes 32 (slotNum c 8 32))
      reply (s.onHost fun h => { h with attest := r, attests := h.attests + 1 }) c 0 j 0

/-! ## The supervisor's resume (R234) -/

/-- RESGO with the SEQ of RESSEQ: the stopped supervisor resumes at the point named, the window is free, and commands of no known code that
waited for it are answered (R205, R231, R234). -/
def execResgo (seq v : Word) (s : State) : Out :=
  let s := s.onHost fun h => { h with resseq := seq }
  if !v.getLsbD 1 || !s.chip.host.fvalid then .next s
  else match resumeAction s 1024 (if v.getLsbD 0 then 1 else 0) seq with
    | none => .next s
    | some s => .next (answerUnknown 32 (s.onHost fun h => { h with fvalid := false }))

/-! ## What the host reads (R223, R224, R235, R236) -/

/-- MSTAT (R224). -/
def HostSide.mstat (h : HostSide) : Word := BitVec.ofNat 64 (h.state.toNat + 2 ^ 14 * h.pkgid.toNat + 2 ^ 32 * h.failcode.toNat)

/-- Eight bytes of a byte string, zero beyond its end. -/
def wordOf (bs : List Byte) (off : Nat) : Word := BitVec.ofNat 64 (leNat ((bs.drop off).take 8))

/-- Eight bytes of a table of mailbox slots (R231). -/
def slotWord (t : Tab (BitVec 512)) (off : Nat) : Word := BitVec.ofNat 64 (slotNum (Tab.get 0 t (off / 64)) (off % 64) 8)

/-- A TELEM counter (R235). Power and temperature are free values (Config), as the spec states none. -/
def telem (s : State) (off : Nat) : Word :=
  match off with
  | 0x00 => s.chip.fab.overruns
  | 0x08 => s.chip.net.sunk
  | 0x10 => s.chip.jobs.foldl (fun a (_, x) => a + x.lost) 0
  | 0x18 => BitVec.ofNat 64 s.chip.cer.next
  | 0x20 => Config.power s.cyc
  | 0x28 => Config.temperature s.cyc
  | 0x30 => s.chip.fab.offset
  | _ => 0

/-- A read of the CER export window (R236): CERSTAT says whether the record named is there, and CERDATA gives it or zero. -/
def cerRead (c : Cer) (off : Nat) : Word :=
  let r := c.recordAt c.cerix.toNat
  match off with
  | 0x00 => c.cerix
  | 0x08 => if r.isSome then 1 else 0
  | 0x10 => c.ckpix
  | 0x18 => c.cerack
  | 0x80 => c.nextWord
  | _ => if 0x40 ≤ off ∧ off < 0x80 then BitVec.ofNat 64 (slotNum (r.getD 0) (off - 0x40) 8) else 0

/-- What a read of eight bytes at an aligned offset of BAR0 returns; offsets not listed, and registers that are written only, read zero. Only
the writes that the table's host steps make have an effect (R223). -/
def barRead (s : State) (off : Nat) : Word :=
  let h := s.chip.host
  match off with
  | 0x0000 => h.mstat
  | 0x0010 => h.bootdesc
  | 0x1800 => h.cmdwr
  | 0x1808 => h.cmdrd
  | 0x2800 => h.rspwr
  | 0x2808 => h.rsprd
  | 0x3080 => if h.fvalid then 1 else 0
  | 0x3088 => h.resseq
  | _ =>
    if 0x1000 ≤ off ∧ off < 0x1800 then slotWord h.cmd (off - 0x1000)
    else if 0x2000 ≤ off ∧ off < 0x2800 then slotWord h.rsp (off - 0x2000)
    else if 0x3000 ≤ off ∧ off < 0x3080 then (h.fault >>> (8 * (off - 0x3000))).setWidth 64
    else if 0x4000 ≤ off ∧ off < 0x4100 then telem s (off - 0x4000)
    else if 0x5000 ≤ off ∧ off < 0x5100 then cerRead s.chip.cer (off - 0x5000)
    else if 0x8000 ≤ off ∧ off < 0x9000 then wordOf h.attest (off - 0x8000)
    else 0

end Sys2Proof.Machine
end

