-- ==== Sys2Proof/Machine/Boot.lean ====
section
/-! DEFINITION. Module reset, boot and repair (R26 to R28, R223 to R229, R233). -/

namespace Sys2Proof.Machine

/-! ## Reset (R223 to R225, R228) -/

/-- The module goes to a state, with its code in FAILED, and the host is told (R223, R224). -/
def enter (s : State) (st : BitVec 3) (code : BitVec 8) : State := (s.onHost fun h => { h with state := st, failcode := code }).msix

/-- The module fails with a code (R224). -/
def failBoot (s : State) (code : BitVec 8) : State := enter s 6 code

/-- The module back in RESET: everything is as reset leaves it but the identity boot counter's cells and the model's own run data
(R225, R228). -/
def resetModule (s : State) : State :=
  let z := State.reset
  let z := z.onHost fun h => { h with cells := s.chip.host.cells, keySerial := s.chip.host.keySerial, msix := s.chip.host.msix + 1 }
  z.onRun fun r => { r with agenda := s.chip.run.agenda, turn := s.chip.run.turn, free := s.chip.run.free }

/-- MODULE_RESET: RESET ends: the boot counter's next cell is programmed and AWAIT is entered, or training or identity fails; with every
cell programmed the module fails with 9 (R225, R228). -/
def execModuleReset (fail : Option (BitVec 8)) (s : State) : Out :=
  if s.chip.host.state ≠ 1 then .next s
  else if 32768 ≤ s.chip.host.cells then .next (failBoot s 9)
  else
    let s := s.onHost fun h => { h with cells := h.cells + 1 }
    match fail with
    | some c => .next (failBoot s (if c = 8 then 8 else 7))
    | none => .next (enter s 2 0)

/-- PCIE_FUNDAMENTAL_RESET (R225). -/
def execPcieFundamentalReset (s : State) : Out := .next (resetModule s)

/-- RSTCTL: 0x0000_A501 resets the module; another value is ignored (R223). -/
def execRstctl (v : Word) (s : State) : Out := .next (if v = 0xA501 then resetModule s else s)

/-- BOOTDESC and BOOTDB: writing 1 in AWAIT starts the fetch (R223, R225). -/
def execBootdb (desc v : Word) (s : State) : Out :=
  let s := s.onHost fun h => { h with bootdesc := desc }
  .next (if s.chip.host.state = 2 ∧ v = 1 then enter s 3 0 else s)

/-! ## Verification (R226) -/

/-- Every byte of a range of an image is zero. -/
def zeroBytes (img : List Byte) (off n : Nat) : Bool := ((img.drop off).take n).all fun b => b == 0

/-- An image's header is correct for its magic and its least and greatest BODYLEN, and its length is that of header and BODY (R226). -/
def headerOk (img : List Byte) (magic lo hi : Nat) : Bool :=
  let n := imgNum img 0x10 8
  imgNum img 0 4 == magic && imgNum img 4 4 == 1 && decide (imgNum img 0xC 1 < 4) && decide (lo ≤ n) && decide (n ≤ hi) &&
  img.length == 0x800 + n && zeroBytes img 0xD 3 && zeroBytes img 0x18 0x28 && zeroBytes img 0x78C 0x74

/-- What both signatures of an image cover (R226). -/
def signedPart (img : List Byte) : List Byte := img.take 0x40 ++ imageBody img
/-- The ECDSA signature of an image verifies (R226). -/
def ecVerifies (img : List Byte) : Bool :=
  Config.vendorEcOk (img.getD 0xC 0) (signedPart img) ((img.drop 0x40).take 96)
/-- The LMS signature of an image verifies (R226). -/
def lmsVerifies (img : List Byte) : Bool :=
  Config.vendorLmsOk (img.getD 0xC 0) (signedPart img) ((img.drop 0xA0).take 1772)

/-- The code with which two images fail their checks, the firmware first; none where both pass (R224, R226; log entry 11). -/
def verifyImages (fw cfg : List Byte) : Option (BitVec 8) :=
  if !headerOk fw 0x4638474E 0x10000 0x4000000 then some 1
  else if !ecVerifies fw then some 2
  else if !lmsVerifies fw then some 3
  else if !headerOk cfg 0x4338474E 0x800 0x100000 then some 6
  else if !ecVerifies cfg then some 4
  else if !lmsVerifies cfg then some 5
  else none

/-- BOOT_VERIFY: the images fetched are checked, and INIT is entered, with PKGID valid, or the module fails; an image not fetched fails it
with 1 (R224 to R226). -/
def execBootVerify (fw cfg : Option (List Byte)) (s : State) : Out :=
  if s.chip.host.state ≠ 3 then .next s
  else match fw, cfg with
    | some fw, some cfg =>
      (match verifyImages fw cfg with
       | some c => .next (failBoot s c)
       | none => .next (enter (s.onHost fun h => { h with fw, cfg, pkgid := BitVec.ofNat 18 (imgNum (imageBody cfg) 0 4) }) 4 0))
    | _, _ => .next (failBoot s 1)

/-! ## The configuration (R227) -/

/-- The CXL ports of EXPORD up to its end (R227). -/
def expOrder (b : List Byte) : List Nat := (((b.drop 0x14).take 8).map BitVec.toNat).takeWhile (· != 0xFF)

/-- A structure of n bytes at an offset lies within BODY (R227). -/
def within (b : List Byte) (off n : Nat) : Bool := decide (off + n ≤ b.length)

/-- An entry of the map-out list names a unit (R227). -/
def mapoutOk (e : Nat) : Bool :=
  let id := e % 2 ^ 28
  match e / 2 ^ 28 with
  | 0 => decide (id < 64)
  | 1 => decide (id < 32)
  | 2 => decide (id < 8)
  | 3 => decide (id < 512)
  | 4 => decide (id < 32)
  | 5 => decide (id < 8)
  | _ => false

/-- Entries of the map-out list: kind and identifier (R227). -/
def mapouts (b : List Byte) : List (Nat × Nat) :=
  let o := imgNum b 0x38 4
  (List.range (imgNum b o 4)).map fun i => let e := imgNum b (o + 4 + 4 * i) 4; (e / 2 ^ 28, e % 2 ^ 28)

/-- The peers of the peer table with their ports (R229). -/
def peersOf (b : List Byte) : List (Nat × Nat) :=
  let o := imgNum b 0x30 4
  (List.range (imgNum b o 4)).map fun i => let e := imgNum b (o + 8 + 8 * i) 8; (e / 2 ^ 32, e % 2 ^ 32)

/-- The slot table (R188, R227). -/
def slotTable (b : List Byte) : BitVec 256 := BitVec.ofNat 256 (imgNum b (imgNum b 0x40 4) 32)

/-- The fields of the fixed part are in range and its zero fields are zero (R227). -/
def fixedOk (b : List Byte) : Bool :=
  let base := imgNum b 0x20 8
  let rec_ := imgNum b 0x28 4
  let ckp := imgNum b 0x2C 4
  let ex := expOrder b
  within b 0 0x80 && decide (imgNum b 0 4 < 2 ^ 18) && decide (1 ≤ imgNum b 0x10 2) && decide (imgNum b 0x10 2 ≤ 1024) &&
  decide (1 ≤ imgNum b 0x12 1) && decide (imgNum b 0x12 1 ≤ 64) && ex.all (fun p => decide (p < 8) && (imgNum b 0x13 1).testBit p) &&
  decide ex.Nodup && zeroBytes b 0x1C 4 && base % 0x400000 == 0 && decide (16 ≤ rec_) && decide (rec_ ≤ 65536) && decide (4 ≤ ckp) &&
  decide (ckp ≤ 4096) && decide (base + 4096 * (rec_ + ckp) ≤ hbmSize) && zeroBytes b 0x34 4 && zeroBytes b 0x48 56

/-- A routing entry of the configuration holds no reserved ACT and no DSTOP beside 0 to 11 and 15, and its zero bits are zero (R196, R227). -/
def routeOk (e : Nat) : Bool :=
  let stop := e / 2 ^ 9 % 16
  decide (e % 8 < 6) && (decide (stop < 12) || stop == 15) && e / 8 % 64 == 0 && e / 2 ^ 22 % 2 ^ 9 == 0

/-- The structures that the offsets name lie in BODY and hold no reserved code (R227). -/
def structuresOk (b : List Byte) (fwLen : Nat) : Bool :=
  let pt := imgNum b 0x30 4
  let mo := imgNum b 0x38 4
  let rt := imgNum b 0x3C 4
  let jp := profileTable b
  let n := imgNum b jp 4
  within b pt 8 && within b pt (8 + 8 * imgNum b pt 4) && zeroBytes b (pt + 4) 4 && (peersOf b).all (fun x => decide (x.1 < 2 ^ 18)) &&
  within b mo 4 && within b mo (4 + 4 * imgNum b mo 4) && (List.range (imgNum b mo 4)).all (fun i => mapoutOk (imgNum b (mo + 4 + 4 * i) 4)) &&
  within b rt 24576 && (List.range 6144).all (fun i => routeOk (imgNum b (rt + 4 * i) 4)) &&
  within b (imgNum b 0x40 4) 32 && !tableBad (slotTable b) &&
  within b jp 8 && decide (1 ≤ n) && decide (n ≤ 64) && zeroBytes b (jp + 4) 4 && within b jp (8 + 128 * n) &&
  (List.range n).all fun i => profileOk fwLen (profileFrom b (jp + 8 + 128 * i))

/-- The configuration is accepted (R227, R233). -/
def configOk (b : List Byte) (fwLen : Nat) : Bool := fixedOk b && structuresOk b fwLen

/-! ## Applying it (R28, R117, R184, R196, R227, R229) -/

/-- A unit of the map-out list mapped out (R28). -/
def mapOut (s : State) : Nat × Nat → State
  | (0, i) => (List.range 4).foldl (fun s k => s.mapCore (32 * (i / 8) + 4 * (i % 8) + k) fun c => { c with mappedOut := true }) s
  | (1, i) => s.mapLevel (i / 4) fun x => { x with slicesOut := insertNat (i % 4) x.slicesOut }
  | (2, l) =>
    let s := s.mapLevel l fun x => { x with mappedOut := true }
    (List.range 32).foldl (fun s k => s.mapCore (32 * l + k) fun c => { c with mappedOut := true }) s
  | (3, i) => s.onSup fun x => { x with deadChannels := insertNat i x.deadChannels }
  | (4, p) => s.onSup fun x => { x with deadPorts := x.deadPorts ||| ((1 : BitVec 32) <<< p) }
  | _ => s

/-- The levels above a mapped-out one, for which through-traffic is not carried, mapped out with it: its stops and router have failed (R28). The
map-out list names no stop and no router: the model takes them as failed where the routing tables, which carry the mapping out, give no stop of
the level a valid entry (log entry 62). -/
def cutLevels (s : State) : State :=
  let carries := fun (l : Nat) => (List.range 768).any fun e => (s.chip.net.route (768 * l + e)).getLsbD 31
  match (List.range 8).find? fun l => (s.level l).mappedOut && !carries l with
  | some l => ((List.range 8).filter fun k => decide (l < k)).foldl (fun s k => mapOut s (2, k)) s
  | none => s

/-- The expanders in placement order, each with its base and its capacity rounded down to 4 MiB (R117, R237). -/
def placeExpanders (cap : Nat → Nat) : Nat → List Nat → List (Nat × Nat × Nat)
  | _, [] => []
  | base, p :: r => let n := cap p / 0x400000 * 0x400000; (p, base, n) :: placeExpanders cap (base + n) r

/-- Identity, clock, peers, ports, error-log window, routing tables and slot table set, and the listed units mapped out. -/
def applyFixed (s : State) (b : List Byte) (time : Word) : State :=
  let t0 := imgNum b 8 8
  let us := imgNum b 0x10 2
  let rt := imgNum b 0x3C 4
  let s := s.onChip fun c => { c with
    host := { c.host with pkgid := BitVec.ofNat 18 (imgNum b 0 4) }
    fab := { c.fab with
      time, t0 := BitVec.ofNat 64 t0, tickus := us, dist := imgNum b 0x12 1, tick := (time.toNat - t0) / (1000 * us)
      peers := (peersOf b).foldl (fun t x => Tab.set t x.1 (BitVec.ofNat 32 x.2)) []
      ports := BitVec.ofNat 32 (imgNum b 4 4) }
    cer := { c.cer with base := imgNum b 0x20 8, recBlocks := imgNum b 0x28 4, ckpBlocks := imgNum b 0x2C 4 }
    net := { c.net with routes := (List.range 6144).map fun i => (i, BitVec.ofNat 32 (imgNum b (rt + 4 * i) 4) &&& 0x803FFE07) }
    shaft := { c.shaft with table := slotTable b } }
  cutLevels ((mapouts b).foldl mapOut s)

/-- The CXL ports that are enabled, not listed as mapped out, and trained. -/
def cxlInService (b : List Byte) (up : BitVec 8) (p : Nat) : Bool :=
  (imgNum b 0x13 1).testBit p && !(mapouts b).contains (5, p) && up.getLsbD p

/-- Links trained: a port that failed is mapped out and recorded, and the expanders are placed (R117, R225, R237). -/
def applyLinks (s : State) (b : List Byte) (cxlUp : BitVec 8) (portUp : BitVec 32) (capacity : List (BitVec 52)) : State :=
  let failedCxl := (List.range 8).filter fun p => (imgNum b 0x13 1).testBit p && !(mapouts b).contains (5, p) && !cxlUp.getLsbD p
  let failedPort := (List.range 32).filter fun p => (imgNum b 4 4).testBit p && !s.chip.sup.deadPorts.getLsbD p && !portUp.getLsbD p
  let s := failedPort.foldl (fun s p => mapOut s (4, p)) s
  let ex := placeExpanders (fun p => (capacity.getD p 0).toNat) tier2Base ((expOrder b).filter (cxlInService b cxlUp))
  let s := s.onSup fun x => { x with expanders := ex, tier2 := ex.foldl (fun n e => n + e.2.2) 0 }
  let s := failedPort.foldl (fun s p => s.cerRecord { type := 8, cls := 11, unit := p, detail := 4 }) s
  failedCxl.foldl (fun s p => s.cerRecord { type := 8, cls := 11, unit := p, detail := 5 }) s

/-- The BOOT record, and the report with a zero nonce as checkpoint block 0 (R219, R220, R230). -/
def bootRecord (s : State) : State :=
  let s := s.cerRecord { type := 1, detail := leNat ((sha384 s.chip.host.fw).take 8) }
  let r := report s (zeros 32)
  (s.onHost fun h => { h with attests := h.attests + 1 }).onCer fun c => { c with
    ckps := Tab.set c.ckps 0 r, ckpSeqs := Tab.set c.ckpSeqs 0 0, ckpNext := 1 }

/-- The translation store placed at the lowest free HBM behind job 0's area (R119; log entry 9). -/
def placeStore (s : State) : Option State :=
  match lowestHbm s (storeLen s) 0x10000 0 0x800000 with
  | none => none
  | some b => some (s.onSup fun x => { x with tsbase := BitVec.ofNat 64 b })

/-- The sink rings placed at the lowest free HBM behind the translation store (R197; log entry 45). -/
def placeSinks (s : State) : Option State :=
  (lowestHbm s 0x40000 0x10000 (storeBase s + storeLen s) 0x800000).map fun b => s.onSup fun x => { x with sinkBase := b }

/-- Profile 0 applied to job 0, the sink rings placed, and the supervisor started on foreman context 1,024: none where profile 0 has no HBM
allowance or something of it does not fit (R26, R197, R232, R233). -/
def startSupervisor (s : State) : Option State :=
  match profileNo (cfgBody s) 0 with
  | none => none
  | some p =>
    if p.hbm = 0 then none
    else
      let far := s.onSup fun x => { x with tsbase := 1 <<< 51 }
      let hole := far.mapJob 0 fun x => { x with hbmArea := (lowestHbm far p.hbmBytes 0x400000 0 0x20000).map fun b => (b, p.hbmBytes) }
      match placeStore hole with
      | none => none
      | some t =>
        let s := s.onSup fun x => { x with tsbase := t.chip.sup.tsbase }
        match (makeJob s { job := 0, profile := p, cores := 0, prio := 0, fmode := 0, asids := 1, rqBase := 0, rqCnt := 0 }).bind placeSinks with
        | none => none
        | some s =>
          let serial := s.chip.host.keySerial + 1
          let s := s.onHost fun h => { h with keySerial := serial }
          let s := s.mapJob 0 fun x => { x with started := true, key := true, keySerial := serial }
          some (foremanStart s 0 1024)

/-- BOOT_INIT: the configuration is checked and applied, the links are trained, the error log opens, the supervisor starts and the module is
READY, commands of no known code that came before being answered; or it fails with 6 or 8 (R225, R227, R231). -/
def execBootInit (memOk : Bool) (cxlUp : BitVec 8) (portUp : BitVec 32) (capacity : List (BitVec 52)) (time : Word) (s : State) : Out :=
  let b := cfgBody s
  if s.chip.host.state ≠ 4 then .next s
  else if !configOk b (imageBody s.chip.host.fw).length then .next (failBoot s 6)
  else
    let t := applyFixed s b time
    if !memOk then .next (failBoot t 8)
    else
      let t := applyLinks (bootRecord t) b cxlUp portUp capacity
      match startSupervisor t with
      | none => .next (failBoot t 6)
      | some t => .next (answerUnknown 32 (enter t 5 0))

/-! ## Repair (R27) -/

/-- The spare of a kind is in use on a level (R27). -/
def Level.spareUsed (x : Level) (slice : Bool) : Bool := if slice then x.spareSlice else x.spareCore

/-- The CER record of a strip that is repaired or mapped out (R220). -/
def stripEvent (l k : Nat) (slice repair : Bool) : CerEvent :=
  { type := 8, cls := if slice then 3 else 10, unit := (if slice then 4 else 8) * l + k, detail := slice.toNat + 16 * repair.toNat }

/-- STRIP_REPAIR, on a sleeping level: an unused spare of the kind takes the strip's place, and a core whose containment reset had not completed
is back; without one the strip is mapped out. Either is recorded (R27, R28, R218, R220). -/
def execStripRepair (level : BitVec 3) (slice : Bool) (strip : BitVec 3) (s : State) : Out :=
  let l := level.toNat
  let k := strip.toNat
  let x := s.level l
  if x.power ≠ .asleep ∨ x.mappedOut = true ∨ (slice = true ∧ 4 ≤ k) then .next s
  else if x.spareUsed slice then
    .next ((mapOut s (slice.toNat, (if slice then 4 else 8) * l + k)).cerRecord (stripEvent l k slice false))
  else
    let s := s.mapLevel l fun x => if slice then { x with spareSlice := true } else { x with spareCore := true }
    let s := if slice then s else
      (List.range 4).foldl (fun s i => s.mapCore (32 * l + 4 * k + i) fun c => { c with resetting := false }) s
    .next (s.cerRecord (stripEvent l k slice true))

end Sys2Proof.Machine
end

