-- ==== Sys2Proof/Machine/Scalar.lean ====
section
/-! DEFINITION. Integer, immediate, bit-field and constant instructions of the S slot, compares and predicate moves (R290 to R297). -/

namespace Sys2Proof.Machine

/-- NOP has no effect (R271). -/
def execNop (s : State) : Out := .next s

/-- S[d] ← f(S[a], S[b]) landing after lat ticks: the shape of R290. -/
def alu2 (lat : Nat) (f : Word → Word → Word) (d a b : SReg) (s : State) : Out := s.resS lat d (f (s.rS a) (s.rS b))

/-- S[d] ← f(S[a]) landing after one tick (R290, R291). -/
def alu1 (f : Word → Word) (d a : SReg) (s : State) : Out := s.resS 1 d (f (s.rS a))

/-- ADD (R290). -/
def execAdd (d a b : SReg) (s : State) : Out := alu2 1 (· + ·) d a b s
/-- SUB (R290). -/
def execSub (d a b : SReg) (s : State) : Out := alu2 1 (· - ·) d a b s
/-- MUL (R290). -/
def execMul (d a b : SReg) (s : State) : Out := alu2 3 (· * ·) d a b s
/-- MULH, MULH.U (R290). -/
def execMulh (u : Bool) (d a b : SReg) (s : State) : Out := alu2 3 (mulHigh u) d a b s
/-- DIV, DIV.U (R290, R112). -/
def execDiv (u : Bool) (d a b : SReg) (s : State) : Out := alu2 18 (divide u) d a b s
/-- REM, REM.U (R290, R112). -/
def execRem (u : Bool) (d a b : SReg) (s : State) : Out := alu2 18 (remainder u) d a b s
/-- AND (R290). -/
def execAnd (d a b : SReg) (s : State) : Out := alu2 1 (· &&& ·) d a b s
/-- OR (R290). -/
def execOr (d a b : SReg) (s : State) : Out := alu2 1 (· ||| ·) d a b s
/-- XOR (R290). -/
def execXor (d a b : SReg) (s : State) : Out := alu2 1 (· ^^^ ·) d a b s
/-- ANDN (R290). -/
def execAndn (d a b : SReg) (s : State) : Out := alu2 1 (fun x y => x &&& ~~~y) d a b s
/-- SHL (R290). -/
def execShl (d a b : SReg) (s : State) : Out := alu2 1 (fun x y => x <<< shiftOf y) d a b s
/-- SHR (R290). -/
def execShr (d a b : SReg) (s : State) : Out := alu2 1 (fun x y => x >>> shiftOf y) d a b s
/-- SAR (R290). -/
def execSar (d a b : SReg) (s : State) : Out := alu2 1 (fun x y => x.sshiftRight (shiftOf y)) d a b s
/-- ROTL (R290). -/
def execRotl (d a b : SReg) (s : State) : Out := alu2 1 (fun x y => rotl64 x (shiftOf y)) d a b s
/-- MIN, MIN.U (R290). -/
def execMin (u : Bool) (d a b : SReg) (s : State) : Out := alu2 1 (minOf u) d a b s
/-- MAX, MAX.U (R290). -/
def execMax (u : Bool) (d a b : SReg) (s : State) : Out := alu2 1 (maxOf u) d a b s
/-- CLZ (R290). -/
def execClz (d a : SReg) (s : State) : Out := alu1 (fun x => BitVec.ofNat 64 (leadingZeros 64 x.toNat)) d a s
/-- CTZ (R290). -/
def execCtz (d a : SReg) (s : State) : Out := alu1 (fun x => BitVec.ofNat 64 (trailingZeros x.toNat 64)) d a s
/-- POPC (R290). -/
def execPopc (d a : SReg) (s : State) : Out := alu1 (fun x => BitVec.ofNat 64 (onesCount x.toNat 64)) d a s

/-- ADDI (R291). -/
def execAddi (d a : SReg) (imm : BitVec 23) (s : State) : Out := alu1 (· + immWord imm) d a s
/-- ANDI (R291). -/
def execAndi (d a : SReg) (imm : BitVec 23) (s : State) : Out := alu1 (· &&& immWord imm) d a s
/-- ORI (R291). -/
def execOri (d a : SReg) (imm : BitVec 23) (s : State) : Out := alu1 (· ||| immWord imm) d a s
/-- XORI (R291). -/
def execXori (d a : SReg) (imm : BitVec 23) (s : State) : Out := alu1 (· ^^^ immWord imm) d a s
/-- SHLI (R291). -/
def execShli (d a : SReg) (n : BitVec 6) (s : State) : Out := alu1 (· <<< n.toNat) d a s
/-- SHRI (R291). -/
def execShri (d a : SReg) (n : BitVec 6) (s : State) : Out := alu1 (· >>> n.toNat) d a s
/-- SARI (R291). -/
def execSari (d a : SReg) (n : BitVec 6) (s : State) : Out := alu1 (·.sshiftRight n.toNat) d a s
/-- BFX, BFX.S (R292). -/
def execBfx (signed : Bool) (d a : SReg) (pos wm1 : BitVec 6) (s : State) : Out :=
  alu1 (fun x => extractField signed x pos.toNat (wm1.toNat + 1)) d a s
/-- BFI reads its destination (R292). -/
def execBfi (d a : SReg) (pos wm1 : BitVec 6) (s : State) : Out :=
  s.resS 1 d (insertField (s.rS d) (s.rS a) pos.toNat (wm1.toNat + 1))
/-- SXT (R291). -/
def execSxt (d a : SReg) (nm1 : BitVec 6) (s : State) : Out := alu1 (fun x => sextWord x (nm1.toNat + 1)) d a s
/-- LDI (R293). -/
def execLdi (d : SReg) (imm : BitVec 29) (s : State) : Out := s.resS 1 d (imm.setWidth 64)
/-- LDIH reads its destination (R293). -/
def execLdih (d : SReg) (imm : BitVec 29) (s : State) : Out := s.resS 1 d (s.rS d ||| (imm.setWidth 64 <<< 29))
/-- SEL (R294). -/
def execSel (d a b : SReg) (c : PReg) (s : State) : Out := s.resS 1 d (if s.rP c then s.rS a else s.rS b)
/-- LEA (R294). -/
def execLea (d a b : SReg) (sh : BitVec 4) (s : State) : Out := s.resS 1 d (s.rS a + (s.rS b <<< sh.toNat))

/-- The new values of p1 and p2 under a combining type, none where no write is made (R248). -/
def combine (ct : Comb) (q c v1 v2 : Bool) : Option (Bool × Bool) :=
  if q then
    some (match ct with
      | .set | .setz => (c, !c)
      | .all => (v1 && c, v2 && c)
      | .any => (v1 || c, v2 || c)
      | .alln => (v1 && c, v2 && !c)
      | .anyn => (v1 || c, v2 || !c)
      | .tog => (v1 ^^ c, v2 ^^ !c)
      | .split => (v1 || c, v2 && !c))
  else if ct = .setz then some (false, false) else none

/-- A compare's writes: both predicates at latency 1, one entry (R248, R295). -/
def compare (ct : Comb) (p1 p2 : PReg) (c : Bool) (s : State) : Out :=
  match combine ct s.cur.q c (s.rP p1) (s.rP p2) with
  | none => .next s
  | some (x, y) => .next (s.result 1 (wP (pBit p1 true ||| pBit p2 true) (pBit p1 x ||| pBit p2 y)))

/-- CMP (R295). -/
def execCmp (c : Cond) (ct : Comb) (p1 p2 : PReg) (a b : SReg) (s : State) : Out :=
  compare ct p1 p2 (intCond c (s.rS a) (s.rS b)) s
/-- CMPI (R295). -/
def execCmpi (c : Cond) (ct : Comb) (p1 p2 : PReg) (a : SReg) (imm : BitVec 13) (s : State) : Out :=
  compare ct p1 p2 (intCond c (s.rS a) (immWord imm)) s
/-- TBIT (R295). -/
def execTbit (set : Bool) (ct : Comb) (p1 p2 : PReg) (a : SReg) (n : BitSrc) (s : State) : Out :=
  compare ct p1 p2 ((s.rS a).getLsbD (s.bitOf n) == set) s

/-- PLOG (R296). -/
def execPlog (op : LogOp) (d a b : PReg) (s : State) : Out :=
  .next (s.result 1 (wP (pBit d true) (pBit d (logic op (BitVec.ofBool (s.rP a)) (BitVec.ofBool (s.rP b)) == 1))))
/-- PMOV (R297). -/
def execPmov (d a : PReg) (s : State) : Out := .next (s.result 1 (wP (pBit d true) (pBit d (s.rP a))))
/-- PMOV.N (R297). -/
def execPmovN (d a : PReg) (s : State) : Out := .next (s.result 1 (wP (pBit d true) (pBit d !(s.rP a))))
/-- PMOV.P2S (R297). -/
def execPmovP2s (d : SReg) (s : State) : Out := s.resS 1 d (s.rPreds.setWidth 64)
/-- PMOV.S2P (R297). -/
def execPmovS2p (a : SReg) (s : State) : Out := .next (s.result 1 (wP 0xFFFE ((s.rS a).setWidth 16)))

end Sys2Proof.Machine
end

