-- ==== Sys2Proof/Machine/Issue.lean ====
section
/-! DEFINITION. The issue of a bundle up to its first effect: its fetch, its qualifying tests, the holds and forced ticks before it, the causes
that block it, the budget it is charged to, the watchdog, and what the passing of a cycle does (R23, R33 to R38, R102, R211, R244, R258 to
R263, R309). -/

namespace Sys2Proof.Machine

/-! ## The slots of a bundle -/

/-- A compare of type SETZ acts even when nullified (R244, R248). -/
def isSetz : Instr → Bool
  | .cmp _ ct _ _ _ _ | .cmpi _ ct _ _ _ _ | .tbit _ ct _ _ _ _ => ct == .setz
  | _ => false

/-- The slots still to run that act (R244). -/
def Frame.active (f : Frame) : List SlotInstr := f.rest.filter fun x => f.qualify x || isSetz x.instr

/-- The physical register that a name of the bundle denotes (R251). -/
def Frame.phys (f : Frame) : RegName → RegName
  | .s n => .s (physS f.ages (BitVec.ofNat 6 n)).toNat
  | .v n => .v (physV f.agev (BitVec.ofNat 5 n)).toNat
  | r => r

/-- The registers an instruction of the bundle reads or writes, constants left out. -/
def Frame.regsOf (f : Frame) (l : List RegName) : List RegName := (l.filter fun r => !r.constant).map f.phys

/-- The registers the bundle reads or writes, its qualifying predicates among them (R243, R261). -/
def Frame.touched (f : Frame) : List RegName :=
  f.regsOf ((f.rest.map fun x => RegName.p x.qp.toNat) ++ f.active.flatMap fun x => x.instr.reads ++ x.instr.writes)

/-- The registers a landed write names. -/
def RegWrite.names : RegWrite → List RegName
  | .s n _ => [.s n.toNat]
  | .p m _ => ((List.range 16).filter fun i => m.getLsbD i).map .p
  | .v n _ => [.v n.toNat]
  | .k n _ => [.k n.toNat]
  | .g n _ => [.g n.toNat]
  | .q n _ | .qadv n _ _ => [.q n.toNat]
  | .ctl n _ => [.ctl n.toNat]

/-- The registers with a pending fixed-latency write, FPSTAT among them where its instruction can set a flag (R114, R260). -/
def Ctx.pendingRegs (c : Ctx) : List RegName :=
  c.pend.flatMap fun p => p.writes.flatMap RegWrite.names ++ if p.flagged then [.ctl 0x010] else []

/-- The registers that a command writes when it completes (R262, R264, R392). -/
def Command.regs (c : Command) : List RegName :=
  match c.instr with
  | .cwcnt _ _ _ | .kvscan _ _ _ _ _ => [.s c.cap.pd.toNat, .lr]
  | .compact _ _ _ _ => [.lr]
  | _ => []

/-- A command that computes with formats or rounds, so that it can set a flag of FPSTAT when it completes (R94, R113, R114). -/
def flagsLater : Instr → Bool
  | .tld _ _ _ _ _ _ | .tst _ _ _ _ _ _ | .mma _ _ _ | .mmas _ _ _ _ | .matt _ _ _ _ | .mattf _ _ _ _ | .acrd _ _ _ _ _ | .acld _ _ _
  | .cmpr _ _ _ | .mcvt _ _ _ _ | .mtrn _ _ | .cwupd _ _ _ _ _ | .cwcnt _ _ _ | .compact _ _ _ _ | .restore _ _ _ | .kvapp _ _ _ _ _
  | .kvg _ _ _ _ _ _ _ | .kvscan _ _ _ _ _ | .kvexs _ _ | .gath _ _ _ _ | .scat _ _ _ _ => true
  | _ => false

/-- A flag is still to land with a scoreboarded result or command of context g (R114, R378, R392; log entry 52). -/
def flagsComing (s : State) (g : Nat) : Bool :=
  ((s.ctx g).coming.any fun x => x.flags != 0) || (commandsOf s g).any fun c => flagsLater c.instr

/-- The registers whose scoreboarded result has not landed (R262). -/
def awaitedRegs (s : State) (g : Nat) : List RegName :=
  ((s.ctx g).coming.flatMap fun x => match x.res with
    | .regs l => l.flatMap RegWrite.names
    | _ => []) ++ ((commandsOf s g).flatMap Command.regs).filter fun r => !r.constant

/-- The instruction's register result is scoreboarded (R262). -/
def lands : Instr → Bool
  | .ld _ _ _ _ _ | .ldAcq _ _ _ _ | .apop _ _ _ | .mrecv _ _ | .shget _ _ | .sld _ _ _ _ | .vlds _ _ _ | .vtr _ _ _ _ _
  | .gload _ _ _ | .cwcnt _ _ _ | .compact _ _ _ _ | .kvscan _ _ _ _ _ => true
  | _ => false

/-- A SETC of any register (R258, R264). -/
def isSetc : Instr → Bool
  | .setc _ _ | .fpstatWrite _ | .rngControlWrite _ _ | .ctxlogWrite _ _ | .budcmt _ | .jobstart _ | .shaftgo _ | .tsinv _ | .routeswap _
  | .barcfg _ | .contain _ => true
  | _ => false

/-- Writeback entries that the fixed-latency results of an instruction take (R263, R349, R364); a SETC's write is one, whatever it names. -/
def entries (i : Instr) : Nat :=
  match i with
  | .loop _ _ _ | .loopr _ _ _ | .loopp _ _ _ _ | .vtw _ _ _ _ _ => 0
  | .vtopk _ _ _ _ _ => 2
  | .tld _ _ adv _ _ _ | .tst _ _ adv _ _ _ => if adv then 1 else 0
  | i => if isSetc i then 1 else if lands i || (cmdEngine i).isSome || i.writes.isEmpty then 0 else 1

/-! ## Holds (R34, R258, R261 to R263, R309, R321, R327) -/

/-- How the core spends a cycle on a context before its bundle: a forced tick, or a wait that leaves the clock. -/
inductive Hold | tick | wait
  deriving DecidableEq, Repr

/-- An instruction that reads memory or scratch when it issues. -/
def readsNow : Instr → Bool
  | .ld _ _ _ _ _ | .ldAcq _ _ _ _ | .flwait _ _ _ | .sld _ _ _ _ | .vlds _ _ _ | .gload _ _ _ | .kvapp _ _ _ _ _ | .kvg _ _ _ _ _ _ _
  | .kvscan _ _ _ _ _ | .kvexs _ _ | .fsend _ _ _ _ | .launch _ _ | .glaunch _ _ _ | .preempt _ _ _ | .preemptRel _ _ _ | .pmig _ _ => true
  | _ => false

/-- An instruction that writes memory or scratch when it issues, or orders the accesses before it. -/
def actsNow : Instr → Bool
  | .st _ _ _ _ _ | .stRel _ _ _ _ | .amo _ _ _ _ | .acas _ _ _ _ | .apop _ _ _ | .red _ _ _ _ | .ored _ | .rbind _ _ _ | .runbind _ _
  | .sst _ _ _ _ | .vsts _ _ _ | .rmap _ _ _ | .runmap _ _ | .rwb _ _ _ | .rinv _ _ _ | .rfill _ _ _ | .phsig _ _ | .phsw _ _
  | .tkrel _ _ | .qadvH _ _ | .rqrd _ _ _ | .rqwr _ _ _ _ | .step => true
  | _ => false

/-- A command whose stream's index entries are read at issue (R344). -/
def readsIndexes (s : State) (i : Instr) : Bool :=
  (cmdEngine i).isSome && i.reads.any fun r => match r with
    | .g n => indirect (Tab.get 0 s.operands.g n)
    | _ => false

/-- A memory access of the context in R147's sense, an ORED or an SHPUT: what a fence holds (R162, R321). -/
def fenced (s : State) (i : Instr) : Bool :=
  readsNow i || actsNow i || memCommand i || readsIndexes s i ||
  (match i with | .frecv _ _ _ | .shput _ _ _ => true | _ => false)

/-- A memory access of context g is not yet performed (R147, R162). -/
def accessOpen (s : State) (g : Nat) : Bool :=
  (commandsOf s g).any (fun c => memCommand c.instr) || !(s.ctx g).reds.isEmpty || putsOut s.chip.net g

/-- An FSEND of context g is not yet delivered and acknowledged (R162, R168). -/
def sendOpen (s : State) (g : Nat) : Bool :=
  (commandsOf s g).any (fun c => match c.instr with | .fsend _ _ _ _ => true | _ => false) ||
  s.chip.fab.sent.any fun i => i.ctx.toNat == g && (i.kind == .store || i.kind == .rows || i.kind == .notice)

/-- A fence of context g that is not yet complete (R162, R321). -/
def fenceOpen (s : State) (g : Nat) : Bool :=
  (decide (0 < (s.ctx g).fencing) && accessOpen s g) || (decide (2 ≤ (s.ctx g).fencing) && sendOpen s g)

/-- A release or an SHSYNC whose scope reaches the peers, whose point an earlier FSEND must have reached (R135, R147, R151, R307, R318, R319,
R327). -/
def awaitsSends : Instr → Bool
  | .stRel sc _ _ _ | .shsync sc | .phsig sc _ | .phsw sc _ | .tkrel sc _ => sc == .sys
  | _ => false

/-! ### What the slots of one bundle take from each other (R35) -/

/-- Order-log records that an instruction's operation takes in RECORD, and holds its record or records to in REPLAY, when it issues: an ENDI's
records are written when its drops take place, and an X slot is the last to log (R177, R303, R412). -/
def slotRecords (s : State) (i : Instr) : Nat :=
  let g := s.cur.ctx
  if modeOf s g < 2 then 0
  else match i with
    | .ldAcq _ _ _ _ | .stRel _ _ _ _ | .amo _ _ _ _ | .acas _ _ _ _ | .apop _ _ _ | .red _ _ _ _ | .tkacq _ _ _ _ _ | .mrecv _ _
    | .mpoll _ | .shget _ _ | .logmark _ => 1
    | .phreg sig ix _ a b => match phregPlan s sig ix (s.rS a) (s.rS b) with | .ok (_, some _) => 1 | _ => 0
    | .phdrop a => match phdropPlan s (s.rS a) with | .ok (some _) => 1 | _ => 0
    | .endi => if modeOf s g = 2 then (endRecords s g).length else 0
    | _ => 0

/-- Transfers that an instruction puts in the send queue before the last slot of its bundle (R189). -/
def slotSends : Instr → Nat
  | .shput _ _ _ => 1
  | _ => 0

/-- The first slot that a test answers for; each is asked beside what those before it take. -/
def firstSlot {α : Type} (test : State → SlotInstr → Option α) : List SlotInstr → State → Option α
  | [], _ => none
  | x :: r, s =>
    match test s x with
    | some a => some a
    | none => firstSlot test r (s.onCur fun f => { f with ahead := f.ahead + slotRecords s x.instr, sends := f.sends + slotSends x.instr })

/-- Transfers in a context's entries of the send queue, with those of earlier slots of the bundle being asked (R189). -/
def sendsHeld (s : State) : Nat := (queuedTransfers s s.cur.ctx).length + s.cur.sends

/-- A slot's action waits: a full send queue or stop, a synchronisation, a result on its way, earlier accesses to memory, a fence, a save
(R147, R148, R162, R189, R254, R258, R307, R324, R327, R330, R344, R399). An SHGET of a logged mode comes before the send of its cycle, or waits
for the next (R179). -/
def slotHolds (s : State) (i : Instr) : Bool :=
  let g := s.cur.ctx
  let c := s.me
  let cmds := commandsOf s g
  let later := cmds.any (fun x => memCommand x.instr) || !c.reds.isEmpty || putsTo s.chip.net g (coreOf g)
  (fenced s i && fenceOpen s g) || ((readsNow i || readsIndexes s i) && later) || (actsNow i && accessOpen s g) ||
  (awaitsSends i && sendOpen s g) ||
  (match i with
   | .msend ds d a => msendHolds ds d a s
   | .shput _ _ _ => decide (4 ≤ sendsHeld s)
   | .exnote t => let n := (notices s t).length; decide (0 < n) && decide (4 < sendsHeld s + n)
   | .shget _ _ => decide (2 ≤ modeOf s g) && s.hasTaken 1
   | .shsync _ => transfersOpen s g || accessOpen s g
   | .dqPop _ => c.dq.isEmpty && decide (0 < c.dqComing)
   | .getc _ n => n == 0x010 && flagsComing s g
   | .probe _ _ _ _ _ => !cmds.isEmpty || !c.reds.isEmpty || !c.oreds.isEmpty || !c.coming.isEmpty || putsOut s.chip.net g
   | .ctxlogWrite _ _ => isForeman g && (s.ctx (bits ((s.job s.target).reg 0x101) 10 0)).preempting
   | _ => false)

/-- What the core must do before the bundle being issued may issue; none where nothing holds it (R258 to R263, R309). -/
def holdOf (s : State) : Option Hold :=
  let f := s.cur
  let c := s.me
  let acts := f.active
  let late := acts.any fun x => lands x.instr && (f.regsOf x.instr.writes).any c.pendingRegs.contains
  let full := decide (16 < (c.pend.map Pending.cost).sum + (acts.map fun x => entries x.instr).sum)
  if f.touched.any (awaitedRegs s f.ctx).contains then some .wait
  else if !f.exposed && f.touched.any c.pendingRegs.contains then some .tick
  else if late || full then some .tick
  else if (firstSlot (fun s x => if slotHolds s x.instr then some () else none) (acts.filter f.qualify) s).isSome then some .wait
  else none

/-- Whether the next slot of a bundle that has begun to take effect must wait: an earlier slot's action is one it follows in program order
(R147, R148, R162, R189). -/
def nextHolds (s : State) : Bool :=
  match s.cur.rest with
  | [] => false
  | x :: _ => s.cur.qualify x && slotHolds s x.instr

/-- What holds the bundle being issued, before its first effect or between its slots. -/
def holdNow (s : State) : Option Hold := if s.cur.issued then (if nextHolds s then some .wait else none) else holdOf s

/-! ## Blocks (R34, R378, R392) -/

/-- The register of a later instruction that an earlier command keeps busy (R378, R392). -/
def clashReg (earlier later : Instr) : Option RegName :=
  let w := tileWrites earlier
  let r := tileReads earlier
  match (tileReads later).find? w.contains with
  | some x => some x
  | none => (tileWrites later).find? fun x => w.contains x || r.contains x

/-- Number of a tile register or accumulator (R210). -/
def regNumber : RegName → Nat
  | .t n | .a n => n
  | _ => 0

/-- The tile register or accumulator that makes an instruction of context g wait (R34). -/
def busyReg (s : State) (g : Nat) (i : Instr) : Option Nat :=
  let byCommand := (commandsOf s g).findSome? fun c => clashReg c.instr i
  let byRow := (s.ctx g).coming.findSome? fun x => match x.res with
    | .row t _ _ _ _ => (tileReads i ++ tileWrites i).find? (· == .t t.toNat)
    | _ => none
  match byCommand with
  | some r => some (regNumber r)
  | none => byRow.map regNumber

/-- Whether the instruction's own condition lets it proceed (R34). -/
def ownReady (i : Instr) (s : State) : Ready :=
  match i with
  | .amo op dbl a _ => amoReady op dbl a s
  | .acas dbl _ a _ => acasReady dbl a s
  | .apop dbl _ a => apopReady dbl a s
  | .red op dbl a _ => redReady op dbl a s
  | .ldAcq _ _ a off => ldAcqReady a off s
  | .stRel _ d a off => stRelReady d a off s
  | .phreg sig ix _ a b => phregReady sig ix a b s
  | .phdrop a => phdropReady a s
  | .phsig _ a => signalReady s (s.rS a)
  | .phwait _ a => waitReady s (s.rS a)
  | .phsw _ a => phswReady a s
  | .tkacq _ tk _ a b => tkacqReady tk a b s
  | .bar tag => barReady tag s
  | .flwait _ a b => flwaitReady a b s
  | .mrecv _ _ => mrecvReady s
  | .mpoll _ => mpollReady s
  | .shput _ a _ => shputReady a s
  | .shget _ a => shgetReady a s
  | .endi => endiReady s s.cur.ctx
  | .logmark a => logmarkReady a s
  | .launch _ _ => launchReady s
  | .glaunch _ _ b => glaunchReady b s
  | .waitc u _ a => waitcReady u a s
  | .step => stepReady s
  | .evict _ a => evictReady a s
  | .exnote t => exnoteReady t s
  | .kvapp v f h t b => kvappReady v f h t b s
  | .kvg _ v h _ g a _ => kvgReady v h g a s
  | .kvscan v h _ a b => kvscanReady v h a b s
  | .kvexs t a => kvexsReady t a s
  | .frecv src _ _ => frecvReady src s
  | .qwaitf q a => ringReady s q false (s.rS a)
  | .qwaite q a => ringReady s q true (s.rS a)
  | _ => .go

/-- The cause that blocks one slot of the bundle being issued (R34). -/
def slotCause (s : State) (i : Instr) : Option Cause :=
  let full := match cmdEngine i with
    | some e => if (s.core s.cur.core).engineFull e then some e else none
    | none => none
  match full with
  | some e => some (.engineFull e)
  | none =>
    match busyReg s s.cur.ctx i with
    | some n => some (.busy (BitVec.ofNat 32 n))
    | none => match ownReady i s with
      | .wait c => some c
      | _ => none

/-- The first slot of the bundle being issued whose cause is unmet, beside what the slots before it take: a bundle that blocks has had no
effect (R34, R35, R204). -/
def blockOf (s : State) : Option (Slot × Cause) :=
  firstSlot (fun s x => (slotCause s x.instr).map fun c => (x.slot, c)) (s.cur.active.filter s.cur.qualify) s

/-! ## What a bundle does when it first reaches issue (R313, R318 to R320) -/

/-- The arrival of one slot. -/
def slotArrives (i : Instr) (s : State) : State :=
  match i with
  | .phsw _ a => phswArrive a s
  | .bar tag => barArrive tag s
  | .tkacq _ tk _ a b => joinToken tk a b s
  | .apop dbl _ a => joinApop dbl a s
  | _ => s

/-- The arrivals of the bundle being issued. -/
def arriveAll (s : State) : State := (s.cur.active.filter s.cur.qualify).foldl (fun s x => slotArrives x.instr s) s

/-! ## Budgets (R24, R26, R36, R37) -/

/-- Budget class of the launch that a context runs (R36, R39). -/
def budgetClass (s : State) (g : Nat) : Nat :=
  match Tab.find s.chip.launches (s.ctx g).cr.launch.toNat with
  | some l => recField l.image 0x13 1 % 4
  | none => 0

/-- Allowance of context g's class on its core, what is used of it, and the key of the use. -/
def budgetOf (s : State) (g : Nat) : Nat × Nat × Nat :=
  let j := s.job (s.ctx g).cr.job.toNat
  let k := budgetClass s g
  (j.alw.ofClass k, Tab.get 0 j.used (coreOf g * 4 + k), coreOf g * 4 + k)

/-- The class of context g pays for n cycles; an untouched class pays for any one bundle (R26, R36). -/
def pays (s : State) (g n : Nat) : Bool :=
  let (most, used, _) := budgetOf s g
  isForeman g || (most != 0 && (decide (used + n ≤ most) || used == 0))

/-- n cycles charged to context g (R24, R26, R36). -/
def charge (s : State) (g n : Nat) : State :=
  let (most, used, key) := budgetOf s g
  if isForeman g then s
  else s.mapJob (s.ctx g).cr.job.toNat fun j => { j with used := Tab.set j.used key (min most (used + n)) }

/-! ## Fetch (R102, R121, R212, R216) -/

/-- Exposed mode: the innermost loop that names a mode, else MODE[2] (R102). -/
def Ctx.exposedMode (c : Ctx) : Bool :=
  match c.loops.find? fun e => e.pmode != .inherit with
  | some e => e.pmode == .exp
  | none => !c.cr.mode.getLsbD 2

/-- A frame with the operand values of its context as they now stand (R243, R251). -/
def Frame.refresh (f : Frame) (c : Ctx) : Frame :=
  { f with ages := c.ages, agev := c.agev, preds := c.p, exposed := c.exposedMode, ops := none }

/-- What a fetch gives: the bundle, a fatal error, or a bundle that does not decode. -/
inductive Fetch
  | frame (f : Frame)
  | dead (b : Bad)
  | illegal (why : Reject)

/-- The kind of page a context fetches from (R212). -/
def pageKindOf (g : Nat) : PageKind := if isForeman g then .foreman else .kernel

/-- The pieces of a fetch lie in pages accepted for the kind (R212). -/
def kindAccepted (s : State) (k : PageKind) (l : List (Nat × Nat × Nat)) : Bool := l.all fun (pa, _, _) => codeAccepted s pa == some k

/-- The 32 bytes of the bundle at a PC for execution (R121, R212, R216). -/
def fetchBytes (s : State) (g : Nat) (pc : Word) : Except Bad (List Byte) :=
  match translateAll s (asidOf s g) .exec (pieces pc.toNat 32) with
  | .error b => .error b
  | .ok l =>
    if kindAccepted s (pageKindOf g) l then
      match readPieces s l with
      | .error b => .error { b with acc := 3 }
      | .ok bs => .ok bs
    else .error { code := 0x10, acc := 3, addr := pc }

/-- The next bundle of context g: what is left of one that issued or was resumed, else the one at its PC (R205, R243). -/
def fetch (s : State) (g : Nat) : Fetch :=
  let c := s.ctx g
  match c.kept with
  | some f => .frame (if f.issued then f else f.refresh c)
  | none =>
    match fetchBytes s g c.pc with
    | .error b => .dead b
    | .ok bs =>
      match decodeBundle (pageKindOf g) (BitVec.ofNat 256 (leNat bs)) with
      | .error e => .illegal e
      | .ok b =>
        let f : Frame := { core := coreOf g, ctx := g, pc := c.pc, le := b.le, sc := b.sc, rest := b.slots }
        .frame (f.refresh c)

/-! ## Blocked contexts and the watchdog (R38, R210, R211) -/

/-- The state in which a frame is the bundle being issued. -/
def State.withFrame (s : State) (f : Frame) : State := s.onCur fun _ => f

/-- The slot and cause that block context g's next bundle now. -/
def unmet (s : State) (g : Nat) : Option (Frame × Slot × Cause) :=
  match fetch s g with
  | .frame f =>
    let s := s.withFrame f
    if (holdNow s).isSome then none else (blockOf s).map fun (sl, c) => (f, sl, c)
  | _ => none

/-- A blocked context looked at again in a new cycle: it is ready where its cause has cleared, else its watchdog counts (R35, R38). -/
def pollCtx (s : State) (g : Nat) : State :=
  let c := s.ctx g
  if c.status != .running || c.preempting then s
  else match c.blocked with
    | none => s
    | some .budget => s
    | some _ =>
      match unmet s g with
      | none => s.mapCtx g fun c => { c with blocked := none }
      | some (_, _, x) => s.mapCtx g fun c => { c with blocked := some x, wdCount := c.wdCount + 1 }

/-- Cause number, engine and object number of a timeout's INFO, and its ADDR (R210). -/
def Cause.report : Cause → Nat × Nat × BitVec 32 × Word
  | .engineFull e => (0, (match e with | .m => 0 | .x => 1 | .a => 2), 0, 0)
  | .busy n => (1, 0, n, 0)
  | .ring n => (2, 0, n, 0)
  | .phaser n => (3, 0, n, 0)
  | .token n => (4, 0, n, 0)
  | .flag va => (5, 0, 0, va)
  | .message => (6, 0, 0, 0)
  | .apop va => (7, 0, 0, va)
  | .logFull => (8, 0, 0, 0)
  | .replay => (9, 0, 0, 0)
  | .launchRoom => (10, 0, 0, 0)
  | .waitc => (11, 0, 0, 0)
  | .step => (12, 0, 0, 0)
  | .budget => (0, 0, 0, 0)

/-- INFO of a wait timeout (R210). -/
def Cause.info (c : Cause) : Word :=
  let (n, e, x, _) := c.report
  BitVec.ofNat 64 (n + 16 * e + 2 ^ 32 * x.toNat)

/-- WATCHDOG_TIMEOUT: a context whose bundle has stayed blocked for WDOG cycles, its cause still unmet, takes a wait timeout and leaves the
queues of waiters (R38, R204, R211). -/
def execWatchdogTimeout (g : CtxId) (s : State) : Out :=
  let g := g.toNat
  let c := s.ctx g
  if c.status != .running || c.preempting || c.cr.wdog == 0 || decide (c.wdCount < c.cr.wdog.toNat) then .next s
  else match c.blocked with
    | none | some .budget => .next s
    | some _ =>
      match unmet s g with
      | none => .next s
      | some (f, sl, x) =>
        let s := s.withFrame { f with slot := sl, q := true }
        .next (leaveQueues (s.stopWith (s.recordHere 0x02 0 7 x.report.2.2.2 x.info) false) g)

/-! ## The passing of a cycle (R23, R187 to R195, R200, R211) -/

/-- One step after another. -/
def Out.andThen (o : Out) (f : State → Out) : Out :=
  match o with
  | .next s => f s
  | r => r

/-- Steps in order. -/
def inOrder (l : List (State → Out)) (s : State) : Out := l.foldl Out.andThen (.next s)

/-- Every context that the state lists. -/
def State.known (s : State) : List Nat := s.chip.ctxs.map Prod.fst

/-- The steps that the first moment of a cycle makes: blocked contexts looked at again, handlers whose start has waited, the frame, what is due
of transfers, barriers and the golden stop, and the timeouts (R35, R38, R58, R188, R190, R195, R200, R211). -/
def timed (s : State) : Out :=
  let s := startWaiting (s.known.foldl pollCtx s)
  inOrder ([execFrameBoundary, execShaftTransferApply, execGoldenStopAdvance] ++
    ((List.range 8).map fun t => execBarrierRelease (BitVec.ofNat 3 t)) ++
    (s.known.map fun g => execWatchdogTimeout (BitVec.ofNat 11 g))) s

/-- One cycle passes: the send of the slot that it ends, where it has not been made, after every SHGET of the cycle and a replica's freeze
(R179, R201); then the cycle's number, the viaducts, the refill before anything is charged, and the timed steps (R23, R24, R194). -/
def tick (s : State) : Out :=
  (execShaftSlotSend s).andThen fun s =>
    let s := moveViaducts (s.onRun fun r => { r with cyc := r.cyc + 1, once := [] })
    (execBudgetPeriodRefill s).andThen timed

end Sys2Proof.Machine
end

