-- ==== Sys2Proof/Machine/Dispatch.lean ====
section
/-! DEFINITION. One arm per instruction and step: a direct call of its meaning. -/

namespace Sys2Proof.Machine

/-- The meaning of an instruction or step. -/
def exec (i : Instr) (s : State) : Host.Outcome State Fault Refusal :=
  match i with
  | .add d a b => Sys2Proof.Machine.execAdd d a b s
  | .sub d a b => Sys2Proof.Machine.execSub d a b s
  | .mul d a b => Sys2Proof.Machine.execMul d a b s
  | .mulh u d a b => Sys2Proof.Machine.execMulh u d a b s
  | .div u d a b => Sys2Proof.Machine.execDiv u d a b s
  | .rem u d a b => Sys2Proof.Machine.execRem u d a b s
  | .and d a b => Sys2Proof.Machine.execAnd d a b s
  | .or d a b => Sys2Proof.Machine.execOr d a b s
  | .xor d a b => Sys2Proof.Machine.execXor d a b s
  | .andn d a b => Sys2Proof.Machine.execAndn d a b s
  | .shl d a b => Sys2Proof.Machine.execShl d a b s
  | .shr d a b => Sys2Proof.Machine.execShr d a b s
  | .sar d a b => Sys2Proof.Machine.execSar d a b s
  | .rotl d a b => Sys2Proof.Machine.execRotl d a b s
  | .min u d a b => Sys2Proof.Machine.execMin u d a b s
  | .max u d a b => Sys2Proof.Machine.execMax u d a b s
  | .clz d a => Sys2Proof.Machine.execClz d a s
  | .ctz d a => Sys2Proof.Machine.execCtz d a s
  | .popc d a => Sys2Proof.Machine.execPopc d a s
  | .addi d a imm => Sys2Proof.Machine.execAddi d a imm s
  | .andi d a imm => Sys2Proof.Machine.execAndi d a imm s
  | .ori d a imm => Sys2Proof.Machine.execOri d a imm s
  | .xori d a imm => Sys2Proof.Machine.execXori d a imm s
  | .shli d a n => Sys2Proof.Machine.execShli d a n s
  | .shri d a n => Sys2Proof.Machine.execShri d a n s
  | .sari d a n => Sys2Proof.Machine.execSari d a n s
  | .bfx signed d a pos wm1 => Sys2Proof.Machine.execBfx signed d a pos wm1 s
  | .bfi d a pos wm1 => Sys2Proof.Machine.execBfi d a pos wm1 s
  | .sxt d a nm1 => Sys2Proof.Machine.execSxt d a nm1 s
  | .ldi d imm => Sys2Proof.Machine.execLdi d imm s
  | .ldih d imm => Sys2Proof.Machine.execLdih d imm s
  | .sel d a b c => Sys2Proof.Machine.execSel d a b c s
  | .lea d a b sh => Sys2Proof.Machine.execLea d a b sh s
  | .cmp c ct p1 p2 a b => Sys2Proof.Machine.execCmp c ct p1 p2 a b s
  | .cmpi c ct p1 p2 a imm => Sys2Proof.Machine.execCmpi c ct p1 p2 a imm s
  | .tbit set ct p1 p2 a n => Sys2Proof.Machine.execTbit set ct p1 p2 a n s
  | .plog op d a b => Sys2Proof.Machine.execPlog op d a b s
  | .pmov d a => Sys2Proof.Machine.execPmov d a s
  | .pmovN d a => Sys2Proof.Machine.execPmovN d a s
  | .pmovP2s d => Sys2Proof.Machine.execPmovP2s d s
  | .pmovS2p a => Sys2Proof.Machine.execPmovS2p a s
  | .br off => Sys2Proof.Machine.execBr off s
  | .bri a imm => Sys2Proof.Machine.execBri a imm s
  | .call off => Sys2Proof.Machine.execCall off s
  | .calli a imm => Sys2Proof.Machine.execCalli a imm s
  | .ret a imm => Sys2Proof.Machine.execRet a imm s
  | .loop pm a endOff => Sys2Proof.Machine.execLoop pm a endOff s
  | .loopr pm sh endOff => Sys2Proof.Machine.execLoopr pm sh endOff s
  | .loopp pm a stm1 endOff => Sys2Proof.Machine.execLoopp pm a stm1 endOff s
  | .iterationEnd g => Sys2Proof.Machine.execIterationEnd g s
  | .ld sz h d a off => Sys2Proof.Machine.execLd sz h d a off s
  | .st sz h d a off => Sys2Proof.Machine.execSt sz h d a off s
  | .ldAcq sc d a off => Sys2Proof.Machine.execLdAcq sc d a off s
  | .stRel sc d a off => Sys2Proof.Machine.execStRel sc d a off s
  | .amo op dbl a b => Sys2Proof.Machine.execAmo op dbl a b s
  | .acas dbl d a b => Sys2Proof.Machine.execAcas dbl d a b s
  | .apop dbl d a => Sys2Proof.Machine.execApop dbl d a s
  | .red op dbl a b => Sys2Proof.Machine.execRed op dbl a b s
  | .redPerform g => Sys2Proof.Machine.execRedPerform g s
  | .ored a => Sys2Proof.Machine.execOred a s
  | .oredCompletion g => Sys2Proof.Machine.execOredCompletion g s
  | .phreg sig ix d a b => Sys2Proof.Machine.execPhreg sig ix d a b s
  | .phdrop a => Sys2Proof.Machine.execPhdrop a s
  | .phsig sc a => Sys2Proof.Machine.execPhsig sc a s
  | .phwait sc a => Sys2Proof.Machine.execPhwait sc a s
  | .phsw sc a => Sys2Proof.Machine.execPhsw sc a s
  | .tkacq sc tk d a b => Sys2Proof.Machine.execTkacq sc tk d a b s
  | .tkrel sc a => Sys2Proof.Machine.execTkrel sc a s
  | .bar tag => Sys2Proof.Machine.execBar tag s
  | .fence sc => Sys2Proof.Machine.execFence sc s
  | .rbind d a b => Sys2Proof.Machine.execRbind d a b s
  | .runbind d b => Sys2Proof.Machine.execRunbind d b s
  | .flwait sc a b => Sys2Proof.Machine.execFlwait sc a b s
  | .msend ds d a => Sys2Proof.Machine.execMsend ds d a s
  | .mrecv d b => Sys2Proof.Machine.execMrecv d b s
  | .mpoll d => Sys2Proof.Machine.execMpoll d s
  | .shput d a b => Sys2Proof.Machine.execShput d a b s
  | .shget d a => Sys2Proof.Machine.execShget d a s
  | .shsync sc => Sys2Proof.Machine.execShsync sc s
  | .trap imm => Sys2Proof.Machine.execTrap imm s
  | .getc d num => Sys2Proof.Machine.execGetc d num s
  | .dqPop d => Sys2Proof.Machine.execDqPop d s
  | .setc num a => Sys2Proof.Machine.execSetc num a s
  | .fpstatWrite a => Sys2Proof.Machine.execFpstatWrite a s
  | .rngControlWrite r a => Sys2Proof.Machine.execRngControlWrite r a s
  | .ctxlogWrite size a => Sys2Proof.Machine.execCtxlogWrite size a s
  | .probe k nf d a off => Sys2Proof.Machine.execProbe k nf d a off s
  | .logmark a => Sys2Proof.Machine.execLogmark a s
  | .launch d a => Sys2Proof.Machine.execLaunch d a s
  | .glaunch d a b => Sys2Proof.Machine.execGlaunch d a b s
  | .cancel u d a => Sys2Proof.Machine.execCancel u d a s
  | .waitc u d a => Sys2Proof.Machine.execWaitc u d a s
  | .admitReq d a => Sys2Proof.Machine.execAdmit d a s
  | .rqrd d a b => Sys2Proof.Machine.execRqrd d a b s
  | .rqwr mask d a b => Sys2Proof.Machine.execRqwr mask d a b s
  | .preempt d a b => Sys2Proof.Machine.execPreempt d a b s
  | .preemptRel d a b => Sys2Proof.Machine.execPreemptRel d a b s
  | .ctxres pt d a b => Sys2Proof.Machine.execCtxres pt d a b s
  | .ctxresKill d a b => Sys2Proof.Machine.execCtxresKill d a b s
  | .pmig d a => Sys2Proof.Machine.execPmig d a s
  | .evict d a => Sys2Proof.Machine.execEvict d a s
  | .aadd d a imm => Sys2Proof.Machine.execAadd d a imm s
  | .aaddr d a b sh => Sys2Proof.Machine.execAaddr d a b sh s
  | .gset f g a => Sys2Proof.Machine.execGset f g a s
  | .gload scr g a => Sys2Proof.Machine.execGload scr g a s
  | .gadv g a => Sys2Proof.Machine.execGadv g a s
  | .gidx g a => Sys2Proof.Machine.execGidx g a s
  | .tld h scr adv t g a => Sys2Proof.Machine.execTld h scr adv t g a s
  | .tst h scr adv t g a => Sys2Proof.Machine.execTst h scr adv t g a s
  | .sld sz d a off => Sys2Proof.Machine.execSld sz d a off s
  | .sst sz d a off => Sys2Proof.Machine.execSst sz d a off s
  | .vlds d a off => Sys2Proof.Machine.execVlds d a off s
  | .vsts d a off => Sys2Proof.Machine.execVsts d a off s
  | .rmap d a b => Sys2Proof.Machine.execRmap d a b s
  | .runmap d a => Sys2Proof.Machine.execRunmap d a s
  | .rwb d a b => Sys2Proof.Machine.execRwb d a b s
  | .rinv d a b => Sys2Proof.Machine.execRinv d a b s
  | .rfill d a b => Sys2Proof.Machine.execRfill d a b s
  | .qcfg q d a b => Sys2Proof.Machine.execQcfg q d a b s
  | .qwaitf q a => Sys2Proof.Machine.execQwaitf q a s
  | .qwaite q a => Sys2Proof.Machine.execQwaite q a s
  | .qadvH q a => Sys2Proof.Machine.execQadvH q a s
  | .qadvT q a => Sys2Proof.Machine.execQadvT q a s
  | .vadd d a b k => Sys2Proof.Machine.execVadd d a b k s
  | .vsub d a b k => Sys2Proof.Machine.execVsub d a b k s
  | .vmul d a b k => Sys2Proof.Machine.execVmul d a b k s
  | .vfma d a b k => Sys2Proof.Machine.execVfma d a b k s
  | .vmax d a b k => Sys2Proof.Machine.execVmax d a b k s
  | .vmin d a b k => Sys2Proof.Machine.execVmin d a b k s
  | .vabs d a k => Sys2Proof.Machine.execVabs d a k s
  | .vneg d a k => Sys2Proof.Machine.execVneg d a k s
  | .vdiv d a b k => Sys2Proof.Machine.execVdiv d a b k s
  | .vsqrt d a k => Sys2Proof.Machine.execVsqrt d a k s
  | .vexp2 d a k => Sys2Proof.Machine.execVexp2 d a k s
  | .vscale d a b k => Sys2Proof.Machine.execVscale d a b k s
  | .vcmp c d a b k => Sys2Proof.Machine.execVcmp c d a b k s
  | .vicmp c d a b k => Sys2Proof.Machine.execVicmp c d a b k s
  | .viadd d a b k => Sys2Proof.Machine.execViadd d a b k s
  | .visub d a b k => Sys2Proof.Machine.execVisub d a b k s
  | .vimul d a b k => Sys2Proof.Machine.execVimul d a b k s
  | .vimin u d a b k => Sys2Proof.Machine.execVimin u d a b k s
  | .vimax u d a b k => Sys2Proof.Machine.execVimax u d a b k s
  | .vand d a b k => Sys2Proof.Machine.execVand d a b k s
  | .vor d a b k => Sys2Proof.Machine.execVor d a b k s
  | .vxor d a b k => Sys2Proof.Machine.execVxor d a b k s
  | .vshl d a b k => Sys2Proof.Machine.execVshl d a b k s
  | .vshr u d a b k => Sys2Proof.Machine.execVshr u d a b k s
  | .vsel d a b k => Sys2Proof.Machine.execVsel d a b k s
  | .vbcst d a k => Sys2Proof.Machine.execVbcst d a k s
  | .vgetl lane d a => Sys2Proof.Machine.execVgetl lane d a s
  | .vputl lane d a k => Sys2Proof.Machine.execVputl lane d a k s
  | .vperm d a b k => Sys2Proof.Machine.execVperm d a b k s
  | .viota d a k => Sys2Proof.Machine.execViota d a k s
  | .vcvt src dst rm d a k => Sys2Proof.Machine.execVcvt src dst rm d a k s
  | .vtr rm rc d a b => Sys2Proof.Machine.execVtr rm rc d a b s
  | .vtw rm rc d a b => Sys2Proof.Machine.execVtw rm rc d a b s
  | .vred op d a k => Sys2Proof.Machine.execVred op d a k s
  | .vtopk nm1 d a b k => Sys2Proof.Machine.execVtopk nm1 d a b k s
  | .klog op d a b => Sys2Proof.Machine.execKlog op d a b s
  | .kpopc d a => Sys2Proof.Machine.execKpopc d a s
  | .kmov d a => Sys2Proof.Machine.execKmov d a s
  | .kmovS2k d a => Sys2Proof.Machine.execKmovS2k d a s
  | .kmovK2s d a => Sys2Proof.Machine.execKmovK2s d a s
  | .vrng d k => Sys2Proof.Machine.execVrng d k s
  | .mma a l r => Sys2Proof.Machine.execMma a l r s
  | .mmas a l r m => Sys2Proof.Machine.execMmas a l r m s
  | .matt a q k v => Sys2Proof.Machine.execMatt a q k v s
  | .mattf f rm t a => Sys2Proof.Machine.execMattf f rm t a s
  | .aclr a x => Sys2Proof.Machine.execAclr a x s
  | .acrd f rm hi t a => Sys2Proof.Machine.execAcrd f rm hi t a s
  | .acld a t x => Sys2Proof.Machine.execAcld a t x s
  | .cmpr t t2 m => Sys2Proof.Machine.execCmpr t t2 m s
  | .mtrn t t2 => Sys2Proof.Machine.execMtrn t t2 s
  | .mzero t => Sys2Proof.Machine.execMzero t s
  | .mcvt f rm t t2 => Sys2Proof.Machine.execMcvt f rm t t2 s
  | .cwld scr t a => Sys2Proof.Machine.execCwld scr t a s
  | .cwst scr t a => Sys2Proof.Machine.execCwst scr t a s
  | .cwupd sh nl t a k => Sys2Proof.Machine.execCwupd sh nl t a k s
  | .cwcnt sh d t => Sys2Proof.Machine.execCwcnt sh d t s
  | .compact sh km1 d a => Sys2Proof.Machine.execCompact sh km1 d a s
  | .restore km1 d a => Sys2Proof.Machine.execRestore km1 d a s
  | .exnote t => Sys2Proof.Machine.execExnote t s
  | .kvapp v f h t b => Sys2Proof.Machine.execKvapp v f h t b s
  | .kvg hint v h t g a mq => Sys2Proof.Machine.execKvg hint v h t g a mq s
  | .kvscan v h d a b => Sys2Proof.Machine.execKvscan v h d a b s
  | .kvexs t a => Sys2Proof.Machine.execKvexs t a s
  | .gath h t g a => Sys2Proof.Machine.execGath h t g a s
  | .scat h t g a => Sys2Proof.Machine.execScat h t g a s
  | .put ds e d a b => Sys2Proof.Machine.execPut ds e d a b s
  | .get ds d a b => Sys2Proof.Machine.execGet ds d a b s
  | .fsend ds pri a b => Sys2Proof.Machine.execFsend ds pri a b s
  | .frecv src t a => Sys2Proof.Machine.execFrecv src t a s
  | .engineCommandAccept core e => Sys2Proof.Machine.execEngineCommandAccept core e s
  | .matrixCommandComplete core => Sys2Proof.Machine.execMatrixCommandComplete core s
  | .xCommandComplete core => Sys2Proof.Machine.execXCommandComplete core s
  | .tileCommandComplete core => Sys2Proof.Machine.execTileCommandComplete core s
  | .scoreboardResultLand g n => Sys2Proof.Machine.execScoreboardResultLand g n s
  | .launchComplete lid => Sys2Proof.Machine.execLaunchComplete lid s
  | .contextSave g => Sys2Proof.Machine.execContextSave g s
  | .contextRestore g => Sys2Proof.Machine.execContextRestore g s
  | .watchdogTimeout g => Sys2Proof.Machine.execWatchdogTimeout g s
  | .budcmt a => Sys2Proof.Machine.execBudcmt a s
  | .jobstart a => Sys2Proof.Machine.execJobstart a s
  | .shaftgo a => Sys2Proof.Machine.execShaftgo a s
  | .tsinv a => Sys2Proof.Machine.execTsinv a s
  | .codemapSubmit v => Sys2Proof.Machine.execCodemapSubmit v s
  | .codemapRelease v => Sys2Proof.Machine.execCodemapRelease v s
  | .levelSleepRequest level => Sys2Proof.Machine.execLevelSleepRequest level s
  | .levelSleepFreeze level => Sys2Proof.Machine.execLevelSleepFreeze level s
  | .levelWakeRequest level => Sys2Proof.Machine.execLevelWakeRequest level s
  | .wakeReplicaCopy level => Sys2Proof.Machine.execWakeReplicaCopy level s
  | .wakeComplete level => Sys2Proof.Machine.execWakeComplete level s
  | .routeswap a => Sys2Proof.Machine.execRouteswap a s
  | .barcfg a => Sys2Proof.Machine.execBarcfg a s
  | .barrierRelease tag => Sys2Proof.Machine.execBarrierRelease tag s
  | .contain a => Sys2Proof.Machine.execContain a s
  | .coreLogicUncorrectable core => Sys2Proof.Machine.execCoreLogicUncorrectable core s
  | .containmentComplete core => Sys2Proof.Machine.execContainmentComplete core s
  | .flitInject level stop => Sys2Proof.Machine.execFlitInject level stop s
  | .flitEject level stop => Sys2Proof.Machine.execFlitEject level stop s
  | .overflowStoreDrain level => Sys2Proof.Machine.execOverflowStoreDrain level s
  | .winzeArrival level up => Sys2Proof.Machine.execWinzeArrival level up s
  | .putDelivery core => Sys2Proof.Machine.execPutDelivery core s
  | .fabricItemReceive it => Sys2Proof.Machine.execFabricItemReceive it s
  | .fabricItemAbandon n => Sys2Proof.Machine.execFabricItemAbandon n s
  | .linkRetransmit port count => Sys2Proof.Machine.execLinkRetransmit port count s
  | .ptpTimeSync elapsed master => Sys2Proof.Machine.execPtpTimeSync elapsed master s
  | .migrationComplete n => Sys2Proof.Machine.execMigrationComplete n s
  | .demotionPage job => Sys2Proof.Machine.execDemotionPage job s
  | .trapRecordWrite job => Sys2Proof.Machine.execTrapRecordWrite job s
  | .eccSingleBit site => Sys2Proof.Machine.execEccSingleBit site s
  | .eccDoubleBit site => Sys2Proof.Machine.execEccDoubleBit site s
  | .registerParityFail g cls num => Sys2Proof.Machine.execRegisterParityFail g cls num s
  | .expanderLinkDrop port => Sys2Proof.Machine.execExpanderLinkDrop port s
  | .moduleReset fail => Sys2Proof.Machine.execModuleReset fail s
  | .rstctl v => Sys2Proof.Machine.execRstctl v s
  | .bootdb desc v => Sys2Proof.Machine.execBootdb desc v s
  | .bootVerify fw cfg => Sys2Proof.Machine.execBootVerify fw cfg s
  | .bootInit memOk cxlUp portUp capacity time => Sys2Proof.Machine.execBootInit memOk cxlUp portUp capacity time s
  | .cmdwr slots => Sys2Proof.Machine.execCmdwr slots s
  | .rsprd v => Sys2Proof.Machine.execRsprd v s
  | .resgo seq v => Sys2Proof.Machine.execResgo seq v s
  | .ceridx v => Sys2Proof.Machine.execCeridx v s
  | .ckpidx v => Sys2Proof.Machine.execCkpidx v s
  | .cerack v => Sys2Proof.Machine.execCerack v s
  | .stripRepair level slice strip => Sys2Proof.Machine.execStripRepair level slice strip s
  | .nop => Sys2Proof.Machine.execNop s
  | .endi => Sys2Proof.Machine.execEndi s
  | .halt => Sys2Proof.Machine.execHalt s
  | .step => Sys2Proof.Machine.execStep s
  | .dispatch => Sys2Proof.Machine.execDispatch s
  | .iterationAssign => Sys2Proof.Machine.execIterationAssign s
  | .budgetPeriodRefill => Sys2Proof.Machine.execBudgetPeriodRefill s
  | .codeScanComplete => Sys2Proof.Machine.execCodeScanComplete s
  | .routeSwapComplete => Sys2Proof.Machine.execRouteSwapComplete s
  | .frameBoundary => Sys2Proof.Machine.execFrameBoundary s
  | .shaftSlotSend => Sys2Proof.Machine.execShaftSlotSend s
  | .shaftTransferApply => Sys2Proof.Machine.execShaftTransferApply s
  | .goldenStopAdvance => Sys2Proof.Machine.execGoldenStopAdvance s
  | .tickBoundary => Sys2Proof.Machine.execTickBoundary s
  | .patrolScrubPass => Sys2Proof.Machine.execPatrolScrubPass s
  | .cerCheckpoint => Sys2Proof.Machine.execCerCheckpoint s
  | .pcieFundamentalReset => Sys2Proof.Machine.execPcieFundamentalReset s
  | .create => Sys2Proof.Machine.execCreate s
  | .endJob => Sys2Proof.Machine.execEndJob s
  | .setreg => Sys2Proof.Machine.execSetreg s
  | .query => Sys2Proof.Machine.execQuery s
  | .ckpt => Sys2Proof.Machine.execCkpt s
  | .attest => Sys2Proof.Machine.execAttest s
  | .ckpdataRead => Sys2Proof.Machine.execCkpdataRead s

end Sys2Proof.Machine
end

