-- ==== Sys2Proof/Machine/Run.lean ====
section
/-! DEFINITION. The issue of a bundle from its first effect on, the choice of a context by a core, and the moves the machine makes when none
is chosen for it (R32, R33, R35, R204 to R206, R243, R251, R252, R259, R301, R328; log entry 3). -/

namespace Sys2Proof.Machine

/-! ## A bundle's effects (R204, R243, R301, R328) -/

/-- The context of the bundle being issued still runs it. -/
def State.goesOn (s : State) : Bool := s.me.status == .running && !s.me.killed && s.me.blocked.isNone && !s.cur.paused

/-- The most sectors that an instruction transfers when it issues, the walks of its addresses among them (R24, R122; log entry 33). -/
def slotSectors : Instr → Nat
  | .ld _ _ _ _ _ | .ldAcq _ _ _ _ | .flwait _ _ _ | .apop _ _ _ | .amo _ _ _ _ | .acas _ _ _ _ | .red _ _ _ _ | .st _ _ _ _ _
  | .sld _ _ _ _ | .sst _ _ _ _ | .gload _ _ _ | .preempt _ _ _ | .preemptRel _ _ _ | .pmig _ _ | .probe _ _ _ _ _ => 2 + walkSectors
  | .rqrd _ _ _ | .rqwr _ _ _ _ | .ored _ => 5 + walkSectors
  | .vlds _ _ _ | .vsts _ _ _ => 8 + walkSectors
  | .launch _ _ | .glaunch _ _ _ => 0x200 + walkSectors
  | .stRel _ _ _ _ | .rwb _ _ _ | .rfill _ _ _ | .rbind _ _ _ | .runmap _ _ | .runbind _ _ | .tkrel _ _ | .phsig _ _ | .phsw _ _
  | .kvapp _ _ _ _ _ | .kvg _ _ _ _ _ _ _ | .kvscan _ _ _ _ _ | .kvexs _ _ | .fsend _ _ _ _ | .step => commandSectors
  | _ => 0

/-- The last result on its way owes transfers (R36). -/
def Ctx.owe (c : Ctx) (n : Nat) : Ctx :=
  match c.coming.getLast? with
  | some x => { c with coming := c.coming.dropLast ++ [{ x with owed := n }] }
  | none => c

/-- The transfers of a slot that has acted charged to its job: a scoreboarded result waits for those beyond the allowance, other accesses
leave them in the memory queues (R24, R26, R36). -/
def chargeSlot (i : Instr) (before s : State) : State :=
  let n := slotSectors i
  if n = 0 || !s.goesOn then s
  else
    let j := before.me.cr.job.toNat
    if before.me.coming.length < s.me.coming.length then
      let (rest, t) := s.paySectors j (s.transfers n)
      (t.mapMe fun c => c.owe rest).bump
    else s.chargeWrite j n

/-- One slot: nullified it has no effect, a SETZ compare apart (R244). -/
def runSlot (x : SlotInstr) (s : State) : Out :=
  let q := s.cur.qualify x
  let s := s.onCur fun f => { f with slot := x.slot, q }
  if q || isSetz x.instr then Out.andThen (exec x.instr s) fun t => .next (chargeSlot x.instr s t) else .next s

/-- A fence that has completed holds nothing more (R162). -/
def clearFence (s : State) (g : Nat) : State :=
  if (s.ctx g).fencing != 0 && !fenceOpen s g then s.mapCtx g fun c => { c with fencing := 0 } else s

/-- The slots still to run, in order, until one stops or blocks the context or must wait for what an earlier one began; n bounds them. A fence
that is complete already waits for no access of a later slot (R147, R162, R204). -/
def runSlots : Nat → State → Out
  | 0, s => .next s
  | n + 1, s =>
    match s.cur.rest with
    | [] => .next s
    | x :: _ =>
      let s := clearFence s s.cur.ctx
      if nextHolds s then .next (s.onCur fun f => { f with paused := true })
      else (runSlot x s).andThen fun s =>
        if s.goesOn then
          runSlots n (s.onCur fun f => { f with rest := f.rest.drop 1, done := f.done ||| Slot.doneBit x.slot })
        else .next s

/-- The next bundle's PC (R243). -/
def Frame.nextPc (f : Frame) (back : Option Word) : Word :=
  let ahead := f.target.getD (f.pc + 32)
  if f.taken then ahead else back.getD ahead

/-- The end of a bundle for its context: the clock passes 1 + SC ticks, the loop-back decision is made after the first, and the PC moves on
(R243, R252, R259, R301, R303). -/
def Ctx.endBundle (f : Frame) (c : Ctx) : Ctx :=
  let c := c.advance 1
  let (c, back) := if f.atLoopEnd c.loops && !f.taken then c.loopBack else (c, none)
  { c.advance f.sc.toNat with
    pc := f.nextPc back, endi := c.endi || f.ended, kept := none, blocked := none, wdCount := 0, stallPosted := false
    signalled := false, arrived := none }

/-- HALT's stop, after every slot of its bundle; it is made once (R328). -/
def State.haltStop (s : State) : State :=
  (s.onCur fun f => { f with halted := false }).stopWith { s.recordHere 0x01 0 7 0 (BitVec.allOnes 64) with tslot := 7 } true

/-- What follows the slots: the bundle waits in the middle, or it ends, or its context is gone; a fatal error found kills at the boundary
(R204, R206, R243, R328). -/
def afterSlots (g : Nat) (s : State) : State :=
  if s.me.status == .running && (s.me.blocked.isSome || s.cur.paused) then
    s.mapMe fun c => { c with kept := some { s.keepOps with paused := false } }
  else
    let s := if !s.goesOn then s else if s.cur.halted then s.haltStop else s.mapMe (Ctx.endBundle s.cur)
    settle s g

/-- The slots of the bundle being issued and its end; one that issues for the first time notes its context's count of commands (R243). -/
def runBundle (s : State) : Out :=
  let g := s.cur.ctx
  let first := if s.cur.issued then s.cur.first else s.me.serial
  let s := (s.onCur fun f => { f with issued := true, first }).mapCtx g fun c => { c with kept := none, blocked := none }
  (runSlots 5 s).andThen fun s => .next (afterSlots g s)

/-! ## One context's turn (R33 to R37, R175, R206) -/

/-- What a context's turn comes to: the core looks further, or it is taken for this cycle on, or a bundle that had issued before has gone on
without a cycle of its own. -/
inductive Turn
  | passed (s : State)
  | used (s : State)
  | resumed (s : State)
  | fault (f : Fault)
  | refused (r : Refusal)

/-- The context is left blocked on a cause; a full log is reported once in a spell (R34, R175). -/
def blockOn (s : State) (g : Nat) (c : Cause) : State :=
  let s := if c = .logFull ∧ (s.ctx g).stallPosted = false then
      (s.post (s.recordOf g 0x09 2 0 (s.ctx g).cr.logwr)).mapCtx g fun x => { x with stallPosted := true }
    else s
  s.mapCtx g fun x => { x with blocked := some c }

/-- The core of a context is taken for n cycles. -/
def occupy (s : State) (g n : Nat) : State := s.mapCore (coreOf g) fun k => { k with freeAt := s.cyc + n }

/-- A held cycle or a forced tick (R34, R37, R259). -/
def holdCycle (s : State) (g : Nat) (h : Hold) : Turn :=
  if pays s g 1 then
    .used (occupy ((charge s g 1).mapCtx g fun c => if h = .tick then c.advance 1 else c) g 1)
  else .passed (blockOn s g .budget)

/-- The transfers of a bundle's fetch, charged when it issues (R24, R26; log entry 33). -/
def chargeFetch (s : State) (g : Nat) : State := s.chargeWrite (s.ctx g).cr.job.toNat (2 + walkSectors)

/-- A bundle left in the middle by a block, the block as the core leaves it. -/
def leftBlocked (s : State) (g : Nat) : State :=
  match (s.ctx g).blocked with
  | some c => blockOn s g c
  | none => s

/-- The bundle issues, its cycles charged. One that had issued before has had its cycles, so what is left of it takes the core for none and is
charged none; that the same holds of the slots that a bundle resumed by CTXRES has left is the model's choice (R33, R36, R65, R205; log entry
61). -/
def issueBundle (s : State) (g : Nat) : Turn :=
  let f := s.cur
  let n := 1 + f.sc.toNat
  if !f.issued && !pays s g n then .passed (blockOn s g .budget)
  else match runBundle (if f.issued then s else chargeFetch (charge s g n) g) with
    | .next s => if f.issued then .resumed (leftBlocked s g) else .used (occupy (leftBlocked s g) g n)
    | .fault e => .fault e
    | .refused r => .refused r

/-- One look at a context that may issue (R33 to R37, R206, R309). -/
def lookAt (g : Nat) (s : State) : Turn :=
  match fetch s g with
  | .dead b => .passed (killFatal s g { s.recordOf g b.code 1 b.addr b.info with acc := b.acc })
  | .illegal why => .fault (.illegalBundle why)
  | .frame f =>
    let s := clearFence (s.withFrame f) g
    match holdNow s with
    | some h => holdCycle s g h
    | none =>
      let s := if f.issued then s else arriveAll s
      match blockOf s with
      | some (_, c) => .passed (blockOn s g c)
      | none => issueBundle s g

/-! ## A core (R32, R33) -/

/-- The context may issue: running, its iteration not ended, not being killed, cancelled or saved (R32, R61). -/
def runnable (s : State) (g : Nat) : Bool :=
  let c := s.ctx g
  c.status == .running && !c.endi && !c.killed && !c.cancelling && !c.preempting && c.doom.isNone

/-- The turn of a context that may issue: after the rest of a bundle that had issued before, its next bundle in the same cycle (R33). -/
def turnOf (g : Nat) (s : State) : Turn :=
  match lookAt g s with
  | .resumed s =>
    if runnable s g && (s.ctx g).blocked.isNone then
      match lookAt g s with
      | .resumed s => .passed s
      | t => t
    else .passed s
  | t => t

/-- Places on the core in the order they are looked at: the current one unless the core has left it, then those after it, itself last
(R33). -/
def lookOrder (k : Core) (n : Nat) : List Nat :=
  (if k.left then [] else [k.cur]) ++ (List.range n).map fun i => (k.cur + 1 + i) % n

/-- The core has left its current context (R33). -/
def leaveCore (s : State) (core : Nat) : State := s.mapCore core fun k => { k with left := true }

/-- The contexts at places of a core given their turn until one takes it. -/
def tryPlaces (core : Nat) : List Nat → State → Out
  | [], s => .next s
  | i :: r, s =>
    let g := (coreCtxs core).getD i 0
    if !runnable s g || (s.ctx g).blocked.isSome then tryPlaces core r (leaveCore s core)
    else match turnOf g s with
      | .passed s | .resumed s => tryPlaces core r (leaveCore s core)
      | .used s => .next (s.mapCore core fun k => { k with cur := i, left := !runnable s g })
      | .fault f => .fault f
      | .refused r => .refused r

/-- The core is in service and free, in a module that is ready, and some context of it is in use (R33, R218, R224). -/
def coreServes (s : State) (core : Nat) : Bool :=
  let k := s.core core
  s.chip.host.state == 5 && !k.resetting && !k.mappedOut && decide (k.freeAt ≤ s.cyc) &&
  (coreCtxs core).any fun g => (s.ctx g).status != .free

/-- One core's move in a cycle (R33). -/
def issueOn (core : Nat) (s : State) : Out :=
  if coreServes s core then tryPlaces core (lookOrder (s.core core) (coreCtxs core).length) s else .next s

/-! ## The moves of the machine when none is chosen (log entry 3) -/

/-- Keys of a table as identifiers of n bits. -/
def idsOf {α : Type} (n : Nat) (t : Tab α) : List (BitVec n) := t.map fun x => BitVec.ofNat n x.1

/-- Moves of contexts: results land, reductions are performed, iterations end, saves and restores (R38, R61, R64, R262, R303, R314). -/
def ctxMoves (s : State) : List Instr :=
  (idsOf 11 s.chip.ctxs).flatMap fun g => [.scoreboardResultLand g 0, .redPerform g, .oredCompletion g, .iterationEnd g, .contextSave g, .contextRestore g]

/-- Moves of cores: commands accepted and completed, packets written, containment over (R218, R406, R411). -/
def coreMoves (s : State) : List Instr :=
  (idsOf 8 (s.chip.cores.filter fun k => decide (k.1 < 256))).flatMap fun c =>
    [.engineCommandAccept c .m, .engineCommandAccept c .x, .engineCommandAccept c .a, .tileCommandComplete c, .matrixCommandComplete c,
     .xCommandComplete c, .putDelivery c, .containmentComplete c]

/-- Moves of the viaducts and winzes (R193 to R199). -/
def netMoves (s : State) : List Instr :=
  let n := s.chip.net
  ((n.inject.filter fun x => !x.2.isEmpty).map fun x => .flitInject (BitVec.ofNat 3 (x.1 / 12)) (BitVec.ofNat 4 (x.1 % 12))) ++
  (n.pos.map fun x => .flitEject (BitVec.ofNat 3 (x.1 / 24)) (BitVec.ofNat 4 (x.1 % 12))) ++
  ((n.winze.filter fun x => !x.2.isEmpty).map fun x => .winzeArrival (BitVec.ofNat 3 (x.1 / 2)) (x.1 % 2 == 0)) ++
  ((n.overflow.filter fun x => !x.2.isEmpty).map fun x => .overflowStoreDrain (BitVec.ofNat 3 x.1)) ++
  n.ready.map fun d => .putDelivery (BitVec.ofNat 8 d.core)

/-- Moves of jobs and levels: launches, records, migrations, demotions, power (R46, R52, R140, R145, R201, R202, R209). -/
def jobMoves (s : State) : List Instr :=
  (idsOf 32 s.chip.launches).map .launchComplete ++ [.dispatch, .iterationAssign] ++
  (idsOf 6 s.chip.jobs).flatMap (fun j => [.trapRecordWrite j, .demotionPage j]) ++
  (if s.chip.migs.isEmpty then [] else [.migrationComplete 0]) ++
  (idsOf 3 s.chip.levels).flatMap fun l => [.levelSleepFreeze l, .wakeReplicaCopy l, .wakeComplete l]

/-- Moves of the module: the scanner, routing swaps, the tick, the error log, the mailbox (R185, R198, R212, R221, R231). -/
def moduleMoves : List Instr :=
  [.codeScanComplete, .routeSwapComplete, .tickBoundary, .cerCheckpoint, .create, .endJob, .setreg, .query, .ckpt, .attest]

/-- The moves the hardware may make of itself. -/
def movesOf (s : State) : List Instr := ctxMoves s ++ coreMoves s ++ netMoves s ++ jobMoves s ++ moduleMoves

/-- A move that changes the state or stops the machine. -/
def moves (s : State) (i : Instr) : Option Out :=
  match exec i s with
  | .next t => if t = s then none else some (.next t)
  | r => some r

/-- The first move that changes something; where there is none a cycle passes and the cores begin anew. -/
def settleCycle (s : State) : Out :=
  match (movesOf s).findSome? (moves s) with
  | some o => o
  | none => (tick s).andThen fun s => .next (s.onRun fun r => { r with turn := 0 })

/-- Every core that there is: 256 and the eight foreman cores (R19). -/
def allCores : Nat := 264

/-- The machine's own move: each core in turn, then the hardware's moves until none is left in the cycle. -/
def ownMove (s : State) : Out :=
  let n := s.chip.run.turn
  if n < allCores then issueOn n (s.onRun fun r => { r with turn := n + 1 }) else settleCycle s

/-- A step of the hardware or of the outside, named by the agenda; a slot instruction runs only in a bundle (R243). -/
def runEvent (i : Instr) (s : State) : Out := if (encode i).isSome then .refused .notAnEvent else exec i s

/-- A chosen move. -/
def runAction (a : Action) (s : State) : Out :=
  match a with
  | .event i => runEvent i s
  | .issue core => issueOn core s
  | .tick => tick s

/-- The move that a state makes: the first of its agenda, else its own (log entry 3). -/
def nextMove (s : State) : Out :=
  match s.chip.run.agenda with
  | a :: r => runAction a (s.onRun fun x => { x with agenda := r })
  | [] => ownMove s

/-! ## A bundle placed to be run next (log entry 12) -/

/-- The context that runs a placed bundle: the first kernel context where the bundle may stand in a kernel page, else the supervisor. -/
def placedCtx (b : BitVec 256) : Nat :=
  match decodeBundle (some .kernel) b with
  | .ok _ => 0
  | .error _ => 1024

/-- The physical page that holds a placed bundle. -/
def placedPage : Nat := 0x200000

/-- The page of a PC mapped for fetching, accepted by the scanner, with the bundle at the PC (R120, R121, R212). -/
def codeAt (s : State) (g : Nat) (pc : Word) (b : BitVec 256) : State :=
  let asid := asidOf s g
  let way := setAt s asid pc.toNat 0
  let s := (s.pokeNum way 8 (tagOf asid pc.toNat 0)).pokeNum (way + 8) 8 (pageRx + placedPage / 0x10000)
  let s := s.pokeNum (placedPage + pc.toNat % 0x10000) 32 b.toNat
  s.onChip fun c => { c with code := ⟨placedPage, false, pageKindOf g, true⟩ :: c.code }

/-- Bundle b placed where the machine fetches next: the module ready, the context running with its core free and its job's budget whole. -/
def placeBundle (s : State) (b : BitVec 256) : State :=
  let g := placedCtx b
  let pc := (s.ctx g).pc &&& ~~~31
  let s := codeAt s g pc b
  let s := s.mapCtx g fun c => { c with
    status := .running, pc, endi := false, killed := false, cancelling := false, preempting := false, doom := none, blocked := none
    kept := none, held := none }
  let s := s.mapCore (coreOf g) fun k => { k with cur := 0, left := false, freeAt := s.cyc, resetting := false, mappedOut := false }
  let s := s.mapJob (s.ctx g).cr.job.toNat fun j => { j with alw := { j.alw with cls := 0x2000 }, used := [] }
  s.onChip fun c => { c with host := { c.host with state := 5 }, run := { c.run with agenda := [], turn := coreOf g } }

end Sys2Proof.Machine
end

