-- ==== Sys2Proof/Machine/Step.lean ====
section
/-! DEFINITION. One step of the machine, and the placing of a bundle where its next step fetches. -/

namespace Sys2Proof.Machine

/-- One step: the next move of the agenda, else the machine's own. -/
def step (s : State) : Host.Outcome State Fault Refusal := nextMove s

/-- s with the bundle whose bits are w placed so that the very next step issues it (log entry 12). -/
def State.withFetchWord (s : State) (_nbits w : Nat) : State := placeBundle s (BitVec.ofNat 256 w)

end Sys2Proof.Machine
end

