-- ==== Sys2Proof/Safety.lean ====
section
/-! DEFINITION. The terms in which claims speak: a legal state, a step that is one, and what an instruction is seen to change. -/

namespace Sys2Proof.Machine

/-! ## Legal states and steps -/

/-- The three memories are in canonical form. -/
def State.memoryWf (s : State) : Bool := Memory.wf s.mem && Memory.wf s.scr && Memory.wf s.rep

/-- A step that is one: neither a fault nor a refusal. -/
def safeStep (s : State) : Prop := ∃ t, step s = .next t

/-! ## Registers as they are seen -/

/-- A control register of R256 that an instruction writes, as a number. -/
def CtxRegs.num (r : CtxRegs) : Nat → Nat
  | 0x008 => r.mode.toNat
  | 0x010 => r.fpstat.toNat
  | 0x018 => r.wdog.toNat
  | 0x020 => r.key0.toNat
  | 0x021 => r.key1.toNat
  | 0x022 => r.rngctr.toNat
  | 0x040 => r.blockno.toNat
  | _ => 0

/-- A register of a context as a number; tiles and accumulators are compared whole (R249, R256). -/
def Ctx.regNat (c : Ctx) : RegName → Nat
  | .s n => (Tab.get 0 c.s n).toNat
  | .p n => (c.p.getLsbD n).toNat
  | .v n => (Tab.get 0 c.v n).toNat
  | .k n => (Tab.get 0 c.k n).toNat
  | .g n => (Tab.get 0 c.g n).toNat
  | .q n => (Tab.get 0 c.q n).toNat
  | .lr => c.lr.toNat
  | .lc => (match c.loops with | e :: _ => e.lc.toNat | [] => 0)
  | .ec => (match c.loops with | e :: _ => e.ec.toNat | [] => 0)
  | .ctl n => c.cr.num n
  | .t _ | .a _ => 0

/-- The name under which a scalar of the bundle is written; none for s0, whose writes are discarded (R8, R251). -/
def State.scalarName (s : State) (d : SReg) (v : Nat) : List (RegName × Nat) :=
  if d = 0 then [] else [(.s (physS s.cur.ages d).toNat, v)]

/-- The name under which a vector of the bundle is written (R251). -/
def State.vectorName (s : State) (d : VReg) (v : Nat) : List (RegName × Nat) := [(.v (physV s.cur.agev d).toNat, v)]

/-- The name under which a mask is written; none for k0 (R8). -/
def maskName (d : KReg) (v : Nat) : List (RegName × Nat) := if d = 0 then [] else [(.k d.toNat, v)]

/-- The name under which a predicate is written; none for p0 (R8). -/
def predName (d : PReg) (v : Bool) : List (RegName × Nat) := if d = 0 then [] else [(.p d.toNat, v.toNat)]

/-- An integer reduced to 64 bits, as its unsigned value (R11). -/
def mod64 (z : Int) : Nat := (z % 2 ^ 64).toNat

/-! ## What an instruction changes -/

/-- Of everything the state holds, only the issuing context's queue of pending writes differs. -/
def onlyPending (s t : State) : Prop := t = s.mapMe fun c => { c with pend := t.me.pend }

/-- The instruction answers a next state; nothing changes but pending writes, none of which shows before tick n of the bundle clock; at tick n
the registers of l hold the values given there and every other register holds what it would have held without the instruction, the flags of
FPSTAT joined by those of fl (R114, R260). -/
def gives (s : State) (i : Instr) (n : Nat) (l : List (RegName × Nat)) (fl : BitVec 8) : Prop :=
  ∃ t, exec i s = .next t ∧ onlyPending s t ∧
    (∀ m, m < n → ∀ x, (t.me.advance m).regNat x = (s.me.advance m).regNat x) ∧
    ∀ x, (t.me.advance n).regNat x =
      match l.lookup x with
      | some v => v
      | none => if x = .ctl 0x010 then ((s.me.advance n).cr.fpstat ||| fl).toNat else (s.me.advance n).regNat x

/-- The instruction writes one scalar, n ticks after issue, and touches nothing else. -/
def givesS (s : State) (i : Instr) (n : Nat) (d : SReg) (v : Nat) : Prop := gives s i n (s.scalarName d v) 0

/-- The instruction writes one vector, n ticks after issue, and ORs flags into FPSTAT. -/
def givesV (s : State) (i : Instr) (n : Nat) (d : VReg) (v : Vec) (fl : BitVec 8) : Prop := gives s i n (s.vectorName d v.toNat) fl

/-- The instruction writes one mask, n ticks after issue, and ORs flags into FPSTAT. -/
def givesK (s : State) (i : Instr) (n : Nat) (d : KReg) (v : Word) (fl : BitVec 8) : Prop := gives s i n (maskName d v.toNat) fl

/-- As gives, where the instruction also leaves s1 in place of s at once (R101, R365): s1 is s with what the instruction takes at issue. -/
def givesFrom (s s1 : State) (i : Instr) (n : Nat) (l : List (RegName × Nat)) (fl : BitVec 8) : Prop :=
  ∃ t, exec i s = .next t ∧ onlyPending s1 t ∧ (∀ m, m < n → ∀ x, (t.me.advance m).regNat x = (s1.me.advance m).regNat x) ∧
    ∀ x, (t.me.advance n).regNat x =
      match l.lookup x with
      | some v => v
      | none => if x = .ctl 0x010 then ((s1.me.advance n).cr.fpstat ||| fl).toNat else (s1.me.advance n).regNat x

/-- The instruction writes a vector of the given lanes n ticks after issue and ORs flags into FPSTAT. -/
def givesLanes (s : State) (i : Instr) (n : Nat) (d : VReg) (lane : Nat → Nat) (fl : BitVec 8) : Prop :=
  ∃ v : Vec, givesV s i n d v fl ∧ ∀ j, j < 64 → (laneOf v j).toNat = lane j

/-- Flag f of FPSTAT is raised by a selected lane's condition (R113, R364). -/
def anyLane (k : Word) (p : Nat → Prop) : Prop := ∃ j, j < 64 ∧ k.getLsbD j = true ∧ p j

/-- An FP32 encoding is a NaN (R98). -/
def laneNan (x : Lane) : Prop := 0x7F800000 < x.toNat % 2 ^ 31
/-- An FP32 encoding is a signalling NaN (R98). -/
def laneSignals (x : Lane) : Prop := 0x7F800000 < x.toNat % 2 ^ 31 ∧ x.toNat % 2 ^ 31 < 0x7FC00000
/-- An FP32 encoding is subnormal (R98). -/
def laneSubnormal (x : Lane) : Prop := 0 < x.toNat % 2 ^ 31 ∧ x.toNat % 2 ^ 31 < 0x00800000
/-- A key in the order of FP32 numbers, zeros of either sign equal, subnormals as zeros where they are flushed (R98, R102). -/
def floatKey (exposed : Bool) (x : Lane) : Int :=
  let m : Nat := x.toNat % 2 ^ 31
  let z : Int := if exposed = true ∧ m < 0x00800000 then 0 else m
  if x.toNat < 2 ^ 31 then z else -z

/-- The instruction answers s1 with one result more on its way to the issuing context (R262): when it lands, the registers of l take the values
given there and no other register changes. -/
def brings (s s1 : State) (i : Instr) (l : List (RegName × Nat)) : Prop :=
  ∃ x : Coming, exec i s = .next (s1.mapMe fun c => { c with coming := c.coming ++ [x] }) ∧
    ∀ (c : Ctx) r, (c.landComing x).regNat r = match l.lookup r with | some v => v | none => c.regNat r

/-- As brings, the result carrying flags that are ORed into FPSTAT when it lands (R114, R262). -/
def bringsFlagged (s s1 : State) (i : Instr) (l : List (RegName × Nat)) (fl : BitVec 8) : Prop :=
  ∃ x : Coming, exec i s = .next (s1.mapMe fun c => { c with coming := c.coming ++ [x] }) ∧
    ∀ (c : Ctx) r, (c.landComing x).regNat r = match l.lookup r with
      | some v => v
      | none => if r = .ctl 0x010 then (c.cr.fpstat ||| fl).toNat else c.regNat r

/-- Stream register z is y as it is written: bit 63 zero, each position reduced modulo its count, every other bit as it is (R343). -/
def fixedStream (y z : StreamBits) : Prop :=
  z.getLsbD 63 = false ∧ (∀ n, n < 220 → n ≠ 63 → z.getLsbD n = y.getLsbD n) ∧
  ∀ i, i < 3 → bits z (231 + 12 * i) (220 + 12 * i) = bits y (231 + 12 * i) (220 + 12 * i) % (bits y (195 + 12 * i) (184 + 12 * i) + 1)

/-- State t is s with one command more at the end of an engine's queue of the issuing core, holding the operand values cap, and the issuing
context's serial number counted (R34, R340, R411). -/
def queued (s t : State) (e : Engine) (i : Instr) (cap : Capture) : Prop :=
  ∃ c : Command, t = s.nextSerial.mapCore s.cur.core (fun k => k.setQueue e (k.queue e ++ [c])) ∧
    c.ctx = s.cur.ctx ∧ c.instr = i ∧ c.cap = { cap with exposed := s.cur.exposed, tags := s.tags i, olds := s.oldTiles i } ∧
    c.serial = s.me.serial ∧ c.pc = s.cur.pc ∧ c.launch = s.me.cr.launch

/-- The n-row walk of a command's captured stream under a format, with the index entries captured (R344). -/
def Command.step (c : Command) (f : Fmt) (scr : Bool) (j : Nat) : WalkStep := walkStep c.cap.g f scr (c.cap.idx.getD j 0) j

/-- Every row of a command, and its exponent pair where its format has one, reads as the bytes given and changes nothing (R344, R349). -/
def rowsRead (u : State) (c : Command) (scr : Bool) (f : Fmt) (bs es : Nat → List Byte) : Prop :=
  ∀ j, j < c.cap.count → walkRead u c.ctx scr (c.step f scr j).rot (c.step f scr j).row (rowBytes f) = .ok (u, bs j) ∧
    ∀ e, (c.step f scr j).exp = some e → walkRead u c.ctx scr (c.step f scr j).rot e 4 = .ok (u, es j)

/-- Tile z holds the rows read: the format, the live count, the row bytes and exponents, zero rows beyond, every RCW as in old (R349). -/
def tileLoaded (c : Command) (scr : Bool) (f : Fmt) (bs es : Nat → List Byte) (old z : Tile) : Prop :=
  z.fmt = f.code ∧ z.live = BitVec.ofNat 7 c.cap.count ∧ ∀ j, z.row j = if j < c.cap.count then
    { data := BitVec.ofNat 1024 (leNat (bs j)), rcw := (old.row j).rcw
      e0 := if (c.step f scr j).exp.isSome then BitVec.ofNat 9 (leNat ((es j).take 2)) else 0
      e1 := if (c.step f scr j).exp.isSome then BitVec.ofNat 9 (leNat ((es j).drop 2)) else 0 }
    else { rcw := (old.row j).rcw }

/-- States v 0, v 1, … of a store row by row: each row's bytes, then its exponent pair where its format has one; no row is poisoned (R350). -/
def rowsStored (c : Command) (scr : Bool) (f : Fmt) (tile : Tile) (v : Nat → State) : Prop :=
  ∀ j, j < c.cap.count → let r := tile.row j; let p := c.step f scr j
    r.poison = false ∧ ∃ z, walkWrite (v j) c.ctx scr p.rot p.row (leBytes (rowBytes f) r.data.toNat) = .ok z ∧
      (p.exp = none → v (j + 1) = z) ∧
      ∀ e, p.exp = some e → walkWrite z c.ctx scr p.rot e (leBytes 2 r.e0.toNat ++ leBytes 2 r.e1.toNat) = .ok (v (j + 1))

/-- The order log lets an operation of context g go on: s1 is the state once its record is written or consumed, s itself in FREE and STRICT
(R175, R180). -/
def logLets (s : State) (g : Nat) (o : Logged) (s1 : State) : Prop := (logReady s g o).ready = .go ∧ logDone s g o = .ok s1

/-- The n bytes at a virtual address lie in one 64 KiB unit, and the access kind k by context g translates to physical address pa in a page
whose entry is e. -/
def reaches (s : State) (g : Nat) (va : Word) (n : Nat) (k : Access) (pa : Nat) (e : Word) : Prop :=
  va.toNat % 65536 + n ≤ 65536 ∧ translate s (asidOf s g) va k = .ok (pa, e)

/-- Memory reads as before but for the n bytes at pa, which hold v lowest byte first (R1). -/
def storesWord (s t : State) (pa n v : Nat) : Prop :=
  ∀ a, Cells.read t.mem a = if pa ≤ a ∧ a < pa + n then BitVec.ofNat 8 (v / 256 ^ (a - pa)) else Cells.read s.mem a

/-- A FLAG record of the word at va, physical pa: flags 0 for an acquire, 1 for a release (R177, R178). -/
def flagRecord (s : State) (g flags : Nat) (va : Word) (pa : Nat) (v : Word) : Logged := .of s g recFlag flags va v (wordKey pa)

/-- The new value of an AMO on two values of n bits (R286, R311). -/
def amoValue (op : AmoOp) (n x y : Nat) : Nat :=
  let sx := (BitVec.ofNat n x).toInt
  let sy := (BitVec.ofNat n y).toInt
  match op with
  | .add => (x + y) % 2 ^ n
  | .smin => if sx ≤ sy then x else y
  | .smax => if sx ≤ sy then y else x
  | .umin => min x y
  | .umax => max x y
  | .and => Nat.land x y
  | .or => Nat.lor x y
  | .xor => Nat.xor x y
  | .swap => y

/-- The address S[a] plus a signed offset (R304). -/
def State.at (s : State) (a : SReg) (off : Int) : Word := BitVec.ofNat 64 (mod64 ((s.rS a).toNat + off))

/-- Every byte of physical memory, of the scratchpads and of the replicas reads as before. -/
def sameBytes (s t : State) : Prop :=
  ∀ a, Cells.read t.mem a = Cells.read s.mem a ∧ Cells.read t.scr a = Cells.read s.scr a ∧ Cells.read t.rep a = Cells.read s.rep a

/-- Only the issuing context differs, and of it only what f rewrites; the bundle being issued is as before. -/
def onlyMe (s t : State) (f : Ctx → Ctx) : Prop := t = s.mapMe f

end Sys2Proof.Machine
end

