-- ==== Sys2Proof/Certificates/Slice0/Obligations.lean ====
section
/-! DEFINITION. The statements for the provers. -/

open Sys2Proof Sys2Proof.Machine

/-- Decoding and encoding agree in both directions (R241, R244 to R246, R271 to R288, R345, R363, R382, R393): a slot's 48 bits decode to an
instruction under a qualifying predicate and sense exactly where the instruction keeps its field limits and they are its encoding; NOP is the one
slot of zeros. -/
def Obligations.DecodeEncodeAgree : Prop :=
  ∀ (sl : Slot) (x : BitVec 48) (qp : PReg) (sn : Bool) (i : Instr),
    (i ≠ .nop → (decodeSlot sl x = .ok ⟨sl, qp, sn, i⟩ ↔ wfFields i = true ∧ encodeSlot qp sn i = some (sl, x))) ∧
    (decodeSlot sl x = .ok ⟨sl, qp, sn, .nop⟩ ↔ x = 0 ∧ qp = 0 ∧ sn = false)

/-- Every step keeps the canonical form of the three memories (R1; log entry 1 says what an unlisted byte reads as). -/
def Obligations.StepKeepsMemoryCanonical : Prop :=
  ∀ s t : State, s.memoryWf = true → step s = .next t → t.memoryWf = true

/-- The machine after reset: MSTAT in RESET (R224), every context free with the control registers of R256 at their reset values and no bundle
open, kept, held or blocked, every job register at its reset value (R257), the package registers at theirs, the memories canonical. That every
context is free with nothing pending and no bundle open, and what an unlisted byte reads as, is the model's choice (log entries 1 and 2). -/
def Obligations.ResetValues : Prop :=
  let s := State.reset
  s.memoryWf = true ∧ s.chip.host.state = 1 ∧ s.chip.host.failcode = 0 ∧
  (∀ g, (s.ctx g).status = .free ∧ (s.ctx g).cr.fpstat = 0 ∧ (s.ctx g).cr.key0 = 0 ∧ (s.ctx g).cr.key1 = 0 ∧ (s.ctx g).cr.rngctr = 0 ∧
    (s.ctx g).cr.logbase = 0 ∧ (s.ctx g).cr.logsize = 0 ∧ (s.ctx g).cr.logwr = 0 ∧ (s.ctx g).cr.logrd = 0 ∧ (s.ctx g).cr.blockno = 0 ∧
    (s.ctx g).dq = [] ∧ (s.ctx g).pend = [] ∧ (s.ctx g).kept = none ∧ (s.ctx g).held = none ∧ (s.ctx g).blocked = none) ∧
  s.cur.issued = false ∧ s.cur.paused = false ∧ s.cur.rest = [] ∧ s.cur.ops = none ∧
  (∀ j n, (s.job j).started = false ∧ (s.job j).reg n = if n = 0x10C then 1 else 0) ∧
  s.chip.sup.jobsel = 0 ∧ s.chip.sup.tsbase = 0 ∧ s.chip.sup.tscfg = 10 ∧ s.chip.sup.codestat = 0 ∧ s.chip.sup.routeix = 0 ∧
  s.chip.sup.barmask = 0 ∧ s.chip.shaft.staged = BitVec.allOnes 256 ∧ (∀ l, (s.level l).power = .awake)

/-- R32, R33, R204, R243 and R301: where nothing was chosen from outside and the core whose turn it is serves its current context, whose next
bundle decodes to one slot and is neither held nor blocked, a step is the execution of that slot's instruction (none where its test fails), the
charge of the sectors that its fetch and it transfer (R24; how many is log entry 33) and then the end of the bundle. That a step with nothing
chosen from outside is the move of the core whose turn it is, is the model's choice (log entry 3). -/
def Obligations.StepRunsDecoded : Prop :=
  ∀ (s t : State) (n : Nat) (bs : List Byte) (b : Bundle) (x : SlotInstr),
    let g := (coreCtxs n).getD (s.core n).cur 0
    let s0 := s.onRun fun r => { r with turn := n + 1 }
    let c := s0.ctx g
    let f : Frame := Frame.refresh { core := coreOf g, ctx := g, pc := c.pc, le := b.le, sc := b.sc, rest := b.slots } c
    let cycles := 1 + b.sc.toNat
    let s1 := arriveAll (s0.withFrame f)
    let s2 := ((chargeFetch (charge s1 g cycles) g).onCur fun f => { f with issued := true, first := (s1.ctx g).serial }).mapCtx g fun c => { c with kept := none, blocked := none }
    let s3 := s2.onCur fun f => { f with slot := x.slot, q := s2.cur.qualify x }
    let acts := s2.cur.qualify x || isSetz x.instr
    let ends := fun (t : State) => afterSlots g (if t.goesOn then t.onCur fun f =>
      { f with rest := f.rest.drop 1, done := f.done ||| Slot.doneBit x.slot } else t)
    let acted := fun (t : State) => ends (chargeSlot x.instr s3 t)
    let leaves := fun (u : State) => let v := occupy ((u.ctx g).blocked.elim u (blockOn u g)) g cycles
      v.mapCore n fun k => { k with cur := (s.core n).cur, left := !runnable v g }
    s.chip.run.agenda = [] → s.chip.run.turn = n → n < 264 → coreServes s0 n = true → (s.core n).left = false → runnable s0 g = true →
    c.blocked = none → c.kept = none → c.fencing = 0 → fetchBytes s0 g c.pc = .ok bs →
    decodeBundle (some (pageKindOf g)) (BitVec.ofNat 256 (leNat bs)) = .ok b → b.slots = [x] →
    holdOf (s0.withFrame f) = none → blockOf s1 = none → pays s1 g cycles = true → s1.cur = f → nextHolds s2 = false →
      (acts = true → exec x.instr s3 = .next t → t.cur.rest = [x] → step s = .next (leaves (acted t))) ∧
      (∀ e, acts = true → exec x.instr s3 = .fault e → step s = .fault e) ∧
      (∀ e, acts = true → exec x.instr s3 = .refused e → step s = .refused e) ∧
      (acts = false → step s = .next (leaves (ends s3)))

/-- R242 to R246, R268 and R269: words written out from the spec's encodings decode to what they stand for: the worked bundle of R269's chapter,
one instruction of each slot and form, a qualified one, and a refused version, opcode and field. -/
def Obligations.DecodeWords : Prop :=
  decodeBundle (some .kernel) 0x0100E38000C00100828C00002031 =
    .ok { le := false, sc := 1, slots := [⟨.s, 0, false, .add 4 5 6⟩, ⟨.a, 0, false, .aadd 7 7 192⟩] } ∧
  decodeSlot .s 0x4029221E0040 = .ok ⟨.s, 2, true, .ldAcq .pkg 9 4 64⟩ ∧
  decodeSlot .s 0x2911A161FFFE = .ok ⟨.s, 1, false, .cmpi .ltu .setz 3 4 7 (-2)⟩ ∧
  decodeSlot .s 0x5500630E0180 = .ok ⟨.s, 0, false, .tkacq .pkg true 3 6 7⟩ ∧
  decodeSlot .a 0x10019000A009 = .ok ⟨.a, 0, false, .tld .df true true 3 2 5⟩ ∧
  decodeSlot .v 0x2800A3000BCA = .ok ⟨.v, 0, false, .vcvt .fp32 .bf16 .sr 5 6 2⟩ ∧
  decodeSlot .v 0x310102120019 = .ok ⟨.v, 0, false, .vtopk 3 8 4 9 1⟩ ∧
  decodeSlot .m 0x040203010001 = .ok ⟨.m, 0, false, .matt 1 4 (.tile 6) (.tile 8)⟩ ∧
  decodeSlot .x 0x0E0145980460 = .ok ⟨.x, 0, false, .put false (.handler 3) 10 11 12⟩ ∧
  decodeBundle none 0 = .error .version ∧ decodeSlot .m 0x10019000A009 = .error .opcode ∧ decodeSlot .x 0x10019000A009 = .error .field

/-- R242 (with R213's first three checks and R243): a bundle that decodes has version 1 and header bits [12:10] zero, its LE and SC bits, one slot
instruction for each presence bit in the order S, A, V, M, X, and zeros in every absent slot; any other header value is refused. -/
def Obligations.BundleHeader : Prop :=
  ∀ (k : Option PageKind) (b : BitVec 256) (x : Bundle),
    let slots := [Slot.s, .a, .v, .m, .x]; let there := fun (sl : Slot) => b.getLsbD (4 + sl.index); let held := fun (sl : Slot) => bits b (63 + 48 * sl.index) (16 + 48 * sl.index)
    (decodeBundle k b = .ok x → bits b 15 13 = 1 ∧ bits b 12 10 = 0 ∧ x.le = b.getLsbD 9 ∧ x.sc.toNat = bits b 3 0 ∧
      x.slots.map SlotInstr.slot = slots.filter there ∧ ∀ sl, there sl = false → held sl = 0) ∧
    (bits b 15 13 ≠ 1 → decodeBundle k b = .error .version) ∧
    (bits b 15 13 = 1 → bits b 12 10 ≠ 0 → decodeBundle k b = .error .headerReserved) ∧
    (bits b 15 13 = 1 → bits b 12 10 = 0 → (∃ sl, there sl = false ∧ held sl ≠ 0) → decodeBundle k b = .error .absentNotZero)

/-- R290, with the edge cases of R112: the integer instructions give the values of the table one tick after issue, products three, quotients and
remainders 18; the written register takes the value, s0 discards it, no flag and nothing else changes, whatever the operands; a nonzero fn bit
other than .U, or a nonzero unused b, is refused with reason 5. -/
def Obligations.IntegerArithmetic : Prop :=
  (∀ (s : State) (d a b : SReg), let x := s.rS a; let y := s.rS b; let n := y.toNat % 64
     givesS s (.add d a b) 1 d ((x.toNat + y.toNat) % 2 ^ 64) ∧
     givesS s (.sub d a b) 1 d (mod64 (x.toNat - y.toNat)) ∧
     givesS s (.mul d a b) 3 d (x.toNat * y.toNat % 2 ^ 64) ∧
     givesS s (.and d a b) 1 d (Nat.land x.toNat y.toNat) ∧
     givesS s (.or d a b) 1 d (Nat.lor x.toNat y.toNat) ∧
     givesS s (.xor d a b) 1 d (Nat.xor x.toNat y.toNat) ∧
     givesS s (.andn d a b) 1 d (Nat.land x.toNat (2 ^ 64 - 1 - y.toNat)) ∧
     givesS s (.shl d a b) 1 d (x.toNat * 2 ^ n % 2 ^ 64) ∧
     givesS s (.shr d a b) 1 d (x.toNat / 2 ^ n) ∧
     givesS s (.sar d a b) 1 d (mod64 (x.toInt / 2 ^ n)) ∧
     givesS s (.rotl d a b) 1 d (x.toNat * 2 ^ n % 2 ^ 64 + x.toNat / 2 ^ (64 - n)) ∧
     givesS s (.min true d a b) 1 d (min x.toNat y.toNat) ∧
     givesS s (.max true d a b) 1 d (max x.toNat y.toNat) ∧
     givesS s (.min false d a b) 1 d (mod64 (min x.toInt y.toInt)) ∧
     givesS s (.max false d a b) 1 d (mod64 (max x.toInt y.toInt))) ∧
  (∀ (s : State) (d a b : SReg), let x := s.rS a; let y := s.rS b
     givesS s (.mulh true d a b) 3 d (x.toNat * y.toNat / 2 ^ 64) ∧
     givesS s (.mulh false d a b) 3 d (mod64 (x.toInt * y.toInt / 2 ^ 64)) ∧
     givesS s (.div true d a b) 18 d (if y.toNat = 0 then 2 ^ 64 - 1 else x.toNat / y.toNat) ∧
     givesS s (.div false d a b) 18 d (if y.toNat = 0 then 2 ^ 64 - 1 else mod64 (x.toInt.tdiv y.toInt)) ∧
     givesS s (.rem true d a b) 18 d (if y.toNat = 0 then x.toNat else x.toNat % y.toNat) ∧
     givesS s (.rem false d a b) 18 d (if y.toNat = 0 then x.toNat else mod64 (x.toInt.tmod y.toInt)) ∧
     (x.toInt = -2 ^ 63 → y.toInt = -1 → givesS s (.div false d a b) 18 d (2 ^ 63) ∧ givesS s (.rem false d a b) 18 d 0)) ∧
  (∀ (s : State) (d a : SReg), let x := (s.rS a).toNat
     (∃ n, givesS s (.clz d a) 1 d n ∧ (x = 0 → n = 64) ∧ (x ≠ 0 → n ≤ 63 ∧ 2 ^ (63 - n) ≤ x ∧ x < 2 ^ (64 - n))) ∧
     (∃ n, givesS s (.ctz d a) 1 d n ∧ (x = 0 → n = 64) ∧ (x ≠ 0 → x % 2 ^ n = 0 ∧ x % 2 ^ (n + 1) ≠ 0)) ∧
     givesS s (.popc d a) 1 d ((List.range 64).filter fun i => x.testBit i).length) ∧
  (∀ x : BitVec 48, let op := bits x 47 40; let all := [0x01, 0x03, 0x04, 0x05, 0x06, 0x07, 0x08, 0x0A, 0x0C, 0x0E, 0x0F, 0x11, 0x13, 0x15, 0x16, 0x17, 0x18, 0x19, 0x1A]
     (op ∈ all → (bits x 16 1 ≠ 0 ∨ bits x 0 0 = 1 ∧ op ∉ [0x05, 0x06, 0x07, 0x16, 0x17] ∨ op ∈ [0x18, 0x19, 0x1A] ∧ bits x 22 17 ≠ 0) →
       decodeSlot .s x = .error .field) ∧ Reject.field.reason = 5)

/-- R173 to R178, R180 to R182, R186 and R412: the order log. A kernel context's ring is at LOGBASE, a foreman's at FMLOGBASE of its job; a
record's fields lie where R176 puts them. In RECORD an operation goes ahead where the ring, RD read again, has room for its record beside those of
earlier slots of its bundle, else it blocks; the record is written with its object's order count as SEQ, VER before the first record of an empty
ring and WR after it, and the count goes up by one. In REPLAY it waits for its record, or diverges where the log has ended; a record of another
TYPE, FLAGS, OBJ, version or VAL diverges with code 0x08 and both records, one whose SEQ is not the count of its object is waited for, and one due
and equal lets it go: RD is written and the count goes up. A divergence leaves RD and the count. A bundle of which any slot is held issues none of
its slots. An operation of a context waits behind the record of its own transfer still to be sent, a foreman's behind an agent's record: the
model's readings (log entry 51). A ring access that fails is a failure of the operation. -/
def Obligations.OrderLog : Prop :=
  (∀ (s s1 s2 s3 : State) (g rd x : Nat) (o : Logged) (q : Lane) (b : Bad) (h : List Byte),
     let c := s.ctx g; let jn := c.cr.job.toNat; let base := (ringOf s g).1; let lg := (ringOf s g).2; let cap := (2 ^ lg - 64) / 32
     let place := fun (i : Nat) => base + BitVec.ofNat 64 (64 + 32 * (i % cap)); let asid := asidOf s g; let cnt := (s.job jn).count o.key
     let k := if s.cur.ctx = g then s.cur.ahead else 0; let rdy := (logReady s g o).ready; let mode := modeOf s g
     let acc : BitVec 3 := if o.type = 4 then 2 else if o.type = 11 then (if o.flags = 0 then 0 else 1) else 7
     let apart := fun (exp : BitVec 256) => rdy = .bad { code := 0x08, acc := acc, exp := exp, act := o.image cnt }
     let counted := fun (t : State) => ∀ i, (t.job jn).count i = if i = o.key then cnt + 1 else (s.job jn).count i
     let i := o.image q; let hd := fun (n m : Nat) => leNat ((h.drop n).take m); let at_ := hd 0 8 + k; let r : BitVec 256 := BitVec.ofNat 256 x
     let same := bits r 7 0 = o.type % 256 ∧ bits r 15 8 = o.flags % 256 ∧ bits r 31 27 = 0 ∧ bits r 127 64 = o.obj.toNat
     let sound := bits r 7 0 ≠ 0 ∧ bits r 7 0 ≤ 12 ∧ bits r 31 27 = 0; let sends := ∃ y ∈ s.chip.shaft.queue, y.ctx = g
     let agents := 0x7F0 ≤ bits r 26 16 ∧ bits r 26 16 ≤ 0x7F2; let quiet := ¬ sends ∧ c.oreds = [] ∧ c.endi = false ∧ (g < 1024 ∨ ¬ agents)
     (g < 1024 → base = c.cr.logbase ∧ lg = c.cr.logsize.toNat) ∧ (1024 ≤ g → base = (s.job jn).reg 0x104 ∧ lg = ((s.job jn).reg 0x105).toNat) ∧
     (bits i 7 0 = o.type % 256 ∧ bits i 15 8 = o.flags % 256 ∧ bits i 26 16 = o.ctx % 2 ^ 11 ∧ bits i 31 27 = 0 ∧ bits i 63 32 = q.toNat ∧
       bits i 127 64 = o.obj.toNat ∧ bits i 191 128 = o.val.toNat ∧ bits i 223 192 = o.lid.toNat ∧ bits i 255 224 = o.ord.toNat) ∧
     (mode = 2 → readVaNum s asid base 8 = .error b → rdy = .bad b) ∧
     (mode = 2 → readVaNum s asid base 8 = .ok rd → (rdy = if c.cr.logwr.toNat + (k + 1) ≤ rd + cap then .go else .wait .logFull) ∧
       let z := setLogRd s g (BitVec.ofNat 64 rd)
       ((if c.cr.logwr.toNat = rd then writeVa z asid (base + 16) (leBytes 8 1) else .ok z) = .ok s1 →
         writeVa s1 asid (place c.cr.logwr.toNat) (leBytes 32 (o.image cnt).toNat) = .ok s2 →
         writeVa s2 asid (base + 8) (leBytes 8 (c.cr.logwr + 1).toNat) = .ok s3 → ∃ t, logDone s g o = .ok t ∧ t.mem = s3.mem ∧ t.scr = s.scr ∧
           t.rep = s.rep ∧ (t.ctx g).cr.logwr = c.cr.logwr + 1 ∧ (t.ctx g).cr.logrd = BitVec.ofNat 64 rd ∧ counted t ∧ ∀ y, y ≠ g → t.ctx y = s.ctx y)) ∧
     (mode = 3 → readVa s asid base 32 = .error b → rdy = .bad b) ∧
     (mode = 3 → readVa s asid base 32 = .ok h → (hd 8 8 ≤ at_ → if hd 24 8 = 0 then rdy = .wait .replay else apart 0) ∧
       (at_ < hd 8 8 → (readVaNum s asid (place at_) 32 = .error b → rdy = .bad b) ∧ (readVaNum s asid (place at_) 32 = .ok x →
         (hd 16 1 ≠ 1 → apart r) ∧ (hd 16 1 = 1 →
           (same → (bits r 63 32 ≠ cnt.toNat → rdy = .wait .replay) ∧ (bits r 63 32 = cnt.toNat → if bits r 191 128 = o.val.toNat then rdy = .go else apart r)) ∧
           (¬ same → (quiet ∨ ¬ sound → apart r) ∧
             (sound → (bits r 15 0 = 6 ∨ bits r 15 0 = 0x206) ∧ sends ∨ 1024 ≤ g ∧ agents → rdy = .wait .replay)))))) ∧
     (mode = 3 → readVa s asid base 16 = .ok h → writeVa s asid base (leBytes 8 (hd 0 8 + 1)) = .ok s1 → ∃ t, logDone s g o = .ok t ∧ t.mem = s1.mem ∧
       t.scr = s.scr ∧ t.rep = s.rep ∧ (t.ctx g).cr.logrd = BitVec.ofNat 64 (hd 0 8 + 1) ∧ (t.ctx g).cr.logwr = BitVec.ofNat 64 (hd 8 8) ∧ counted t ∧
       ∀ y, y ≠ g → t.ctx y = s.ctx y) ∧
     (mode = 3 → readVa s asid base 16 = .error b → logDone s g o = .error b) ∧ (mode < 2 → rdy = .go ∧ logDone s g o = .ok s)) ∧
  (∀ (s : State) (x y : SlotInstr) (c : Cause), s.cur.active.filter s.cur.qualify = [x, y] →
     let z := s.onCur fun f => { f with ahead := f.ahead + slotRecords s x.instr, sends := f.sends + slotSends x.instr }
     (slotCause s x.instr = some c → blockOf s = some (x.slot, c)) ∧
     (slotCause s x.instr = none → slotCause z y.instr = some c → blockOf s = some (y.slot, c)) ∧
     (slotCause s x.instr = none → slotCause z y.instr = none → blockOf s = none) ∧
     (∀ op dbl ro sc tk pd d a b off, x.instr ∈ [Instr.amo op dbl d a, .acas dbl d a b, .apop dbl d a, .red ro dbl a b, .ldAcq sc d a off,
       .stRel sc d a off, .mrecv d b, .mpoll d, .shget d a, .logmark a, .tkacq sc tk pd a b] →
       slotRecords s x.instr = if modeOf s s.cur.ctx < 2 then 0 else 1))

/-- R291 to R294: the immediate, bit-field, constant and selecting instructions give their values one tick after issue. R248, R295, R296 and R297:
a compare whose test passes writes both its predicates by its condition and combining type, and one whose test fails writes zeros under SETZ and
nothing else; PLOG and PMOV give their values; one tick after issue, no other register, p0 never. -/
def Obligations.ImmediatesComparesPredicates : Prop :=
  (∀ (s : State) (d a b : SReg) (imm : BitVec 23) (big : BitVec 29) (n m : BitVec 6) (sh : BitVec 4) (c : PReg),
       let x := s.rS a
       givesS s (.addi d a imm) 1 d (mod64 (x.toInt + imm.toInt)) ∧
       givesS s (.andi d a imm) 1 d (Nat.land x.toNat (mod64 imm.toInt)) ∧
       givesS s (.ori d a imm) 1 d (Nat.lor x.toNat (mod64 imm.toInt)) ∧
       givesS s (.xori d a imm) 1 d (Nat.xor x.toNat (mod64 imm.toInt)) ∧
       givesS s (.shli d a n) 1 d (x.toNat * 2 ^ n.toNat % 2 ^ 64) ∧
       givesS s (.shri d a n) 1 d (x.toNat / 2 ^ n.toNat) ∧
       givesS s (.sari d a n) 1 d (mod64 (x.toInt / 2 ^ n.toNat)) ∧
       givesS s (.sxt d a n) 1 d (mod64 (x.setWidth (n.toNat + 1)).toInt) ∧
       givesS s (.bfx false d a n m) 1 d (x.toNat / 2 ^ n.toNat % 2 ^ (m.toNat + 1)) ∧
       givesS s (.bfx true d a n m) 1 d (mod64 ((x >>> n.toNat).setWidth (m.toNat + 1)).toInt) ∧
       (∃ v : Word, givesS s (.bfi d a n m) 1 d v.toNat ∧ ∀ j, j < 64 → v.getLsbD j =
         if n.toNat ≤ j ∧ j < n.toNat + m.toNat + 1 then x.getLsbD (j - n.toNat) else (s.rS d).getLsbD j) ∧
       givesS s (.ldi d big) 1 d big.toNat ∧
       givesS s (.ldih d big) 1 d (Nat.lor (s.rS d).toNat (big.toNat * 2 ^ 29)) ∧
       givesS s (.sel d a b c) 1 d (if s.rP c then x.toNat else (s.rS b).toNat) ∧
       givesS s (.lea d a b sh) 1 d ((x.toNat + (s.rS b).toNat * 2 ^ sh.toNat) % 2 ^ 64)) ∧
  (∀ (s : State) (cn : Cond) (ct : Comb) (p1 p2 p3 : PReg) (d a b : SReg) (imm : BitVec 13) (n : BitVec 6) (set : Bool) (i : Instr) (x y : Word)
       (r v1 v2 : Bool), let q1 := s.rP p1; let q2 := s.rP p2
       let two := fun (u w : Bool) => predName p1 u ++ predName p2 w
       let compares := (cn, r) ∈ [(Cond.eq, decide (x = y)), (.ne, decide (x ≠ y)), (.lt, decide (x.toInt < y.toInt)),
         (.le, decide (x.toInt ≤ y.toInt)), (.gt, decide (y.toInt < x.toInt)), (.ge, decide (y.toInt ≤ x.toInt)), (.ltu, decide (x.toNat < y.toNat)),
         (.leu, decide (x.toNat ≤ y.toNat)), (.gtu, decide (y.toNat < x.toNat)), (.geu, decide (y.toNat ≤ x.toNat))]
       let tests := fun (k : Nat) => r = decide ((s.rS a).toNat / 2 ^ k % 2 = if set then 1 else 0)
       ((p1 = 0 ∨ p1 ≠ p2) →
         (compares ∧ (i, x, y) ∈ [(Instr.cmp cn ct p1 p2 a b, s.rS a, s.rS b), (.cmpi cn ct p1 p2 a imm, s.rS a, imm.signExtend 64)] ∨
           i = .tbit set ct p1 p2 a (.imm n) ∧ tests n.toNat ∨ i = .tbit set ct p1 p2 a (.reg b) ∧ tests ((s.rS b).toNat % 64)) →
         (s.cur.q = true →
           (ct, v1, v2) ∈ [(Comb.set, r, !r), (.setz, r, !r), (.all, q1 && r, q2 && r), (.any, q1 || r, q2 || r), (.alln, q1 && r, q2 && !r),
             (.anyn, q1 || r, q2 || !r), (.tog, q1 != r, q2 != !r), (.split, q1 || r, q2 && !r)] → gives s i 1 (two v1 v2) 0) ∧
         (s.cur.q = false → if ct = .setz then gives s i 1 (two false false) 0 else exec i s = .next s)) ∧
       gives s (.pmov p1 p2) 1 (predName p1 q2) 0 ∧ gives s (.pmovN p1 p2) 1 (predName p1 !q2) 0 ∧
       gives s (.plog .and p3 p1 p2) 1 (predName p3 (q1 && q2)) 0 ∧ gives s (.plog .or p3 p1 p2) 1 (predName p3 (q1 || q2)) 0 ∧
       gives s (.plog .xor p3 p1 p2) 1 (predName p3 (q1 != q2)) 0 ∧ gives s (.plog .andn p3 p1 p2) 1 (predName p3 (q1 && !q2)) 0 ∧
       gives s (.pmovS2p a) 1 ((List.range 16).flatMap fun j => predName (BitVec.ofNat 4 j) ((s.rS a).getLsbD j)) 0 ∧
       (∃ v : Word, givesS s (.pmovP2s d) 1 d v.toNat ∧ v.toNat < 2 ^ 16 ∧ ∀ m : PReg, v.getLsbD m.toNat = s.rP m))

/-- R298 and R299: a taken BR, BRI or RET names its target and pops the loop entries whose body does not contain it, except in a bundle whose LE
matches the top entry; CALL and CALLI name theirs, leave the loop stack and write the address of the next bundle to s63 one tick later. Nothing
else changes but the operand log, which notes a changed loop stack (R214; log entry 47 says under which numbers). R252 and R300: a loop
instruction of n trips with n zero goes past the loop's end bundle and pushes nothing; else it pushes an entry above at most three others, and
LOOPP also sets both age offsets to zero and the stage predicates to the first pass. n is S[a] mod 2^32, and ceil(lr / 2^sh) for LOOPR, with the
lr of the issue tick (R243). R301: the loop-back decision. LOOP and LOOPR go back while LC is not zero and count it down; LOOPP makes n + st − 1
passes, each one lowering the age offsets by one and setting p(8 + j) where j is below st and j ≤ pass ≤ j + n − 1; a loop that ends pops its
entry. -/
def Obligations.BranchesCallsLoops : Prop :=
  (∀ (s : State) (a : SReg) (off : BitVec 26) (imm : BitVec 23) (i : Instr) (t : Word),
       let pc := s.cur.pc
       let near : Word := BitVec.ofNat 64 (mod64 (pc.toNat + 32 * off.toInt))
       let far : Word := BitVec.ofNat 64 (mod64 ((s.rS a).toNat + imm.toInt) / 32 * 32)
       let stays := s.cur.le && s.me.loops.head?.map LoopEntry.stop == some pc
       let within := fun (e : LoopEntry) => decide (e.start.toNat ≤ t.toNat) && decide (t.toNat ≤ e.stop.toNat)
       let named := fun (x : State) => x.onCur fun f => { f with target := some t, taken := true }
       ((i, t) ∈ [(Instr.br off, near), (.bri a imm, far), (.ret a imm, far)] →
         exec i s = .next (named (if stays then s else s.mapMe fun c => if c.loops.dropWhile (fun e => !within e) = c.loops then c
           else { c with loops := c.loops.dropWhile fun e => !within e }.noteLoop false))) ∧
       ((i, t) ∈ [(Instr.call off, near), (.calli a imm, far)] →
         exec i s = .next ((named s).mapMe fun c => { c with pend := c.pend ++ [⟨1, [.s 63 (pc + 32)], 0, 1, false⟩] }))) ∧
  (∀ (s : State) (pm : PipeMode) (a : SReg) (sh : BitVec 5) (stm1 : BitVec 3) (off : BitVec 12) (i : Instr) (k : LoopKind) (n : Nat),
     let stop := s.cur.pc + 32 * off.setWidth 64
     let st := if k = .loopp then stm1.toNat + 1 else 0
     let entry : LoopEntry := { kind := k, start := s.cur.pc + 32, stop, pmode := pm, lc := BitVec.ofNat 32 (n - 1), ec := BitVec.ofNat 32 st,
                                n := BitVec.ofNat 32 n, st := BitVec.ofNat 4 st, pass := 0 }
     (i, k, n) ∈ [(Instr.loop pm a off, LoopKind.loop, (s.rS a).toNat % 2 ^ 32), (.loopp pm a stm1 off, .loopp, (s.rS a).toNat % 2 ^ 32),
       (.loopr pm sh off, .loopr, (s.operands.lr.toNat + 2 ^ sh.toNat - 1) / 2 ^ sh.toNat)] →
     (n = 0 → exec i s = .next (s.onCur fun f => { f with target := some (stop + 32) })) ∧
     (n ≠ 0 → k ≠ .loopp → exec i s = .next (s.mapMe fun c => { c with loops := entry :: c.loops.take 3 }.noteLoop false)) ∧
     (n ≠ 0 → k = .loopp → exec i s = .next (s.mapMe fun c => { c with
       loops := entry :: c.loops.take 3, ages := 0, agev := 0, p := (c.p &&& 0x00FF) ||| 0x0100 }.noteLoop true))) ∧
  (∀ (c : Ctx) (e : LoopEntry) (r : List LoopEntry), c.loops = e :: r →
     let pass := e.pass.toNat + 1
     (e.kind ≠ .loopp → e.lc ≠ 0 → c.loopBack = ({ c with loops := { e with lc := e.lc - 1 } :: r }.noteLoop false, some e.start)) ∧
     (e.kind ≠ .loopp → e.lc = 0 → c.loopBack = ({ c with loops := r }.noteLoop false, none)) ∧
     (e.kind = .loopp → ¬ pass < e.n.toNat + e.st.toNat - 1 → c.loopBack = ({ c with loops := r }.noteLoop false, none)) ∧
     (e.kind = .loopp → pass < e.n.toNat + e.st.toNat - 1 → ∃ d, c.loopBack = (d, some e.start) ∧
       d.loops = { e with pass := BitVec.ofNat 33 pass, lc := BitVec.ofNat 32 (e.n.toNat - 1 - pass),
                          ec := BitVec.ofNat 32 (e.st.toNat - (pass + 1 - e.n.toNat)) } :: r ∧
       d.ages = c.ages - 1 ∧ d.agev = c.agev - 1 ∧
       (∀ j, j < 8 → d.p.getLsbD j = c.p.getLsbD j ∧
         d.p.getLsbD (8 + j) = decide (j < e.st.toNat ∧ j ≤ pass ∧ pass ≤ j + e.n.toNat - 1)) ∧
       d = { c with loops := d.loops, ages := d.ages, agev := d.agev, p := d.p }.noteLoop true))

/-- R173, R175, R180 to R183 and R413: the order log of the agents and of forced drops. An agent's decision is made at once where the foreman's
mode logs nothing. In RECORD it is held while the foreman's ring is full, and made with its record else. In REPLAY it is held while its record is
awaited, is another party's, or is not yet due; it diverges where the log has ended or names another decision, which ends the job's replay: no
further decision is made, and a job fault carries both records; with its record due and equal it is made and the record consumed. A drop by a kill
or a level's sleep waits for room, or for its record to be due; where the log has another record it takes effect at once with a job fault. Which
other record an agent waits behind is the model's reading (log entry 51). -/
def Obligations.OrderLogAgents : Prop :=
  (∀ (s t : State) (j lid rd x : Nat) (o : Logged) (h : List Byte), let y := s.job j; let g := y.owner j; let a := agentOp s j o lid
     let base := (ringOf s g).1; let cap := (2 ^ (ringOf s g).2 - 64) / 32; let asid := asidOf s g; let cnt := y.count o.key
     let place := fun (i : Nat) => base + BitVec.ofNat 64 (64 + 32 * (i % cap)); let hd := fun (n m : Nat) => leNat ((h.drop n).take m)
     let wr := (s.ctx g).cr.logwr.toNat; let z := setLogRd s g (BitVec.ofNat 64 rd); let r : BitVec 256 := BitVec.ofNat 256 x
     let same := bits r 7 0 = o.type % 256 ∧ bits r 15 8 = o.flags % 256 ∧ bits r 31 27 = 0 ∧ bits r 127 64 = o.obj.toNat
     let sound := bits r 7 0 ≠ 0 ∧ bits r 7 0 ≤ 12 ∧ bits r 31 27 = 0
     let made := ∃ u, a = .go u ∧ u.mem = t.mem ∧ u.scr = t.scr ∧ u.rep = t.rep ∧ u.chip.ctxs = t.chip.ctxs ∧ (u.job j).counts = (t.job j).counts
     let off := fun (exp : BitVec 256) => ∃ u, a = .diverge u ∧ sameBytes s u ∧ u.chip.ctxs = s.chip.ctxs ∧ (u.job j).diverged = true ∧
       (u.job j).counts = y.counts ∧ (y.waiting = [] → ∃ w, (u.job j).waiting = [w] ∧ w.record.code = 0x08 ∧ w.record.kind = 4 ∧ w.record.acc = 7 ∧
         w.record.ctx = BitVec.ofNat 11 o.ctx ∧ w.record.launch = BitVec.ofNat 32 lid ∧ w.record.exp = exp ∧ w.record.act = o.image cnt)
     j < 64 → 0x7F0 ≤ o.ctx → o.ctx ≤ 0x7F2 → (y.fmode < 2 → a = .go s) ∧
     (y.fmode = 2 → readVaNum s asid base 8 = .ok rd → (rd + cap ≤ wr → a = .hold s) ∧ (wr < rd + cap → logDone z g o = .ok t → made)) ∧
     (y.fmode = 3 → y.diverged = true → a = .hold s) ∧
     (y.fmode = 3 → y.diverged = false → readVa s asid base 32 = .ok h →
       (hd 8 8 ≤ hd 0 8 → if hd 24 8 = 0 then a = .hold s else off 0) ∧
       (hd 0 8 < hd 8 8 → readVaNum s asid (place (hd 0 8)) 32 = .ok x → (hd 16 1 ≠ 1 → off r) ∧ (hd 16 1 = 1 →
         (same → bits r 63 32 ≠ cnt.toNat → a = .hold s) ∧ (same → bits r 63 32 = cnt.toNat → bits r 191 128 ≠ o.val.toNat → off r) ∧
         (same → bits r 63 32 = cnt.toNat → bits r 191 128 = o.val.toNat → logDone s g o = .ok t → made) ∧
         (¬ same → ¬ sound → off r) ∧ (¬ same → sound → bits r 26 16 ≠ o.ctx → a = .hold s) ∧
         (¬ same → sound → bits r 26 16 = o.ctx → (bits r 7 0 ≠ o.type ∨ o.type ≠ 1) → off r))))) ∧
  (∀ (s t : State) (g n rd x : Nat) (m : Member) (h : List Byte), let c := s.ctx g; let jn := c.cr.job.toNat; let o := phaseRecord s g n 1 m
     let base := (ringOf s g).1; let cap := (2 ^ (ringOf s g).2 - 64) / 32; let asid := asidOf s g; let cnt := (s.job jn).count o.key
     let place := fun (i : Nat) => base + BitVec.ofNat 64 (64 + 32 * (i % cap)); let hd := fun (n m : Nat) => leNat ((h.drop n).take m)
     let d := forcedDrop s g n m; let gone := fun (u : State) => (u.phaser n).member g = none; let r : BitVec 256 := BitVec.ofNat 256 x
     let same := bits r 7 0 = 2 ∧ bits r 15 8 = 1 ∧ bits r 31 27 = 0 ∧ bits r 127 64 = n % 2 ^ 64
     (o.type = 2 ∧ o.flags = 1 ∧ o.ctx = g ∧ o.obj = BitVec.ofNat 64 n ∧ o.val = (s.phaser n).k ++ (0 : BitVec 15) ++ BitVec.ofBool m.sig ++ BitVec.ofNat 16 m.ix) ∧
     g < 1024 → (modeOf s g < 2 → gone d ∧ sameBytes s d) ∧
     (modeOf s g = 2 → readVaNum s asid base 8 = .ok rd → (rd + cap ≤ c.cr.logwr.toNat → d = s) ∧
       (c.cr.logwr.toNat < rd + cap → logDone (setLogRd s g (BitVec.ofNat 64 rd)) g o = .ok t → gone d ∧ d.mem = t.mem)) ∧
     (modeOf s g = 3 → readVa s asid base 32 = .ok h → (hd 8 8 ≤ hd 0 8 → hd 24 8 = 0 → d = s) ∧
       (hd 0 8 < hd 8 8 → hd 16 1 = 1 → readVaNum s asid (place (hd 0 8)) 32 = .ok x →
         (same → bits r 63 32 ≠ cnt.toNat → d = s) ∧
         (same → bits r 63 32 = cnt.toNat → bits r 191 128 = o.val.toNat → logDone s g o = .ok t → gone d ∧ d.mem = t.mem) ∧
         (same → bits r 63 32 = cnt.toNat → bits r 191 128 ≠ o.val.toNat → gone d ∧ sameBytes s d ∧ ((s.job jn).waiting = [] → ∃ w,
           (d.job jn).waiting = [w] ∧ w.record.code = 0x08 ∧ w.record.kind = 4 ∧ w.record.ctx = BitVec.ofNat 11 g ∧ w.record.exp = r ∧ w.record.act = o.image cnt)))))

/-- R243, R252 and R301: at the end of a bundle the pc is the target of a taken branch; else, where LE matches the top loop entry, what the
loop-back decision gives; else the target of a loop of no trips or the next bundle. The iteration's end is noted; the clock passes 1 + SC. NOP has
no effect (R271). ENDI lets the bundle take effect and ends the iteration at the bundle's end; of a member it issues once the records of its drops
have room in the ring, or in REPLAY are found, and they are written or consumed when the drops take place (R303, R412, R413; log entry 61 names
what is compared when); HALT lets the bundle take effect and stops after it (R328). That the loop-back wins at the end bundle of a loop of no
trips is the model's reading (log entry 18). -/
def Obligations.BundleEndNopEndiHalt : Prop :=
  (∀ (f : Frame) (c : Ctx), let d := c.advance 1; let next := f.target.getD (f.pc + 32); let e := c.endBundle f
     (f.taken = true → e.pc = next) ∧
     (f.atLoopEnd d.loops = false → e.pc = next ∧ e.loops = d.loops) ∧
     (f.taken = false → f.atLoopEnd d.loops = true →
       e.loops = d.loopBack.1.loops ∧ e.pc = d.loopBack.2.getD next) ∧
     e.endi = (c.endi || f.ended) ∧ e.clk.toNat = (c.clk.toNat + 1 + f.sc.toNat) % 2 ^ 64) ∧
  (∀ s : State, exec .nop s = .next s ∧
     exec .halt s = .next (s.onCur fun f => { f with halted := true }) ∧
     ((modeOf s s.cur.ctx < 2 ∨ memberships s s.cur.ctx = []) → exec .endi s = .next (s.onCur fun f => { f with ended := true })) ∧
     (endiReady s s.cur.ctx = .go → exec .endi s = .next (s.onCur fun f => { f with ended := true })) ∧
     (modeOf s s.cur.ctx = 2 → memberships s s.cur.ctx ≠ [] →
       let room := logRoom s s.cur.ctx (s.ahead s.cur.ctx + (memberships s s.cur.ctx).length)
       (∀ u, room = .go u → exec .endi s = .next (s.onCur fun f => { f with ended := true })) ∧
       (∀ w, room = .wait w → exec .endi s = .next (s.mapMe fun c => { c with blocked := some w })) ∧
       (∀ b, room = .bad b → exec .endi s = s.raise b)) ∧
     (∀ b, endiReady s s.cur.ctx = .bad b → exec .endi s = s.raise b) ∧
     (∀ w, endiReady s s.cur.ctx = .wait w → exec .endi s = .next (s.mapMe fun c => { c with blocked := some w })))

/-- R204, R205, R208 and R328: TRAP stops its context in state STOPPED with a record of code 0x01, the trap's immediate in INFO, the trapping slot
in TSLOT and its own slot among those done; the record is held with the slots that have not executed, which no longer hold the trap. R204 and
R209: a stop names its context's held record and posts it to one queue: the fault window of the supervisor's own while that is free, else the
waiting records of job 0 for a foreman and of the context's job for a kernel context. No other context and no byte of memory changes. -/
def Obligations.TrapsAndStops : Prop :=
  (∀ (s : State) (imm : BitVec 29), ∃ t, exec (.trap imm) s = .next t ∧
     t.me.status = .stopped ∧ t.me.blocked = none ∧ sameBytes s t ∧
     ∃ h f, t.me.held = some h ∧ h.record.code = 0x01 ∧ h.record.kind = 0 ∧ h.record.info = imm.setWidth 64 ∧ h.record.addr = 0 ∧
       h.record.tslot = Machine.Slot.tslot s.cur.slot ∧ h.record.done = s.cur.done ||| Machine.Slot.doneBit s.cur.slot ∧ h.record.pc = s.cur.pc ∧
       h.record.ctx.toNat = s.cur.ctx % 2048 ∧ h.record.job = s.me.cr.job ∧ h.frame = some f ∧ f.rest = s.cur.rest.drop 1) ∧
  (∀ (s : State) (r : TrapRec) (ex : Bool), s.cur.ctx < 1088 → r.ctx.toNat = s.cur.ctx → r.kind = 0 → let t := s.stopWith r ex
     t.me.status = .stopped ∧ (∃ h, t.me.held = some h ∧ h.record = r ∧ (ex = false → ∃ f, h.frame = some f ∧ f.rest = s.cur.rest)) ∧
     (∀ g, g ≠ s.cur.ctx → t.ctx g = s.ctx g) ∧ sameBytes s t ∧
     (s.cur.ctx = 1024 → s.chip.host.fvalid = false → t.chip.jobs = s.chip.jobs ∧ t.chip.host.fvalid = true ∧
       t.chip.host.fault = r.image s.chip.host.faultSeq ∧ t.chip.host.msix = s.chip.host.msix + 1) ∧
     (s.cur.ctx ≠ 1024 ∨ s.chip.host.fvalid = true → ∀ j, (t.job j).waiting = (s.job j).waiting ++
       if j = (if s.cur.ctx < 1024 then r.job.toNat else 0) then [⟨r, some s.cur.ctx⟩] else []))

/-- R101, R113, R232, R254 to R258 and R329: GETC gives the register's value two ticks later, a kernel context reading zero above the context
group; GETC of DQ pops the oldest value; SETC of a writable context register lands a tick later under its width, the flags that land with it ORed
into FPSTAT (R114), MODE keeping its determinism bits, and is ignored elsewhere; the supervisor reads and writes the registers of the job that
JOBSEL names under their fields, which a started job's allotment registers and values outside their range ignore. -/
def Obligations.ControlRegisters : Prop :=
  (∀ (s : State) (d : SReg) (n : BitVec 12) (v : Nat), let c := s.me; let g := s.cur.ctx
     (n, v) ∈ ([(0x000, g % 2 ^ 64), (0x001, c.cr.job.toNat), (0x002, if 1024 ≤ g then 0 else c.cr.launch.toNat), (0x003, c.cr.iterno.toNat),
       (0x010, s.operands.fpstat.toNat), (0x018, c.cr.wdog.toNat), (0x020, c.cr.key0.toNat), (0x021, c.cr.key1.toNat), (0x022, c.cr.rngctr.toNat),
       (0x02A, c.cr.logwr.toNat), (0x02B, c.cr.logrd.toNat), (0x031, (c.dq.length + c.dqComing) % 16), (0x040, c.cr.blockno.toNat),
       (0x048, (c.loops.head?.map fun e => e.lc.toNat).getD 0), (0x049, (c.loops.head?.map fun e => e.ec.toNat).getD 0),
       (0x04A, s.operands.lr.toNat)] : List (BitVec 12 × Nat)) ∨
     (g < 1024 ∧ ((n, v) ∈ ([(0x008, c.cr.mode.toNat), (0x028, c.cr.logbase.toNat), (0x029, c.cr.logsize.toNat)] : List (BitVec 12 × Nat)) ∨
       (0x100 ≤ n.toNat ∧ v = 0))) →
     givesS s (.getc d n) 2 d v) ∧
  (∀ (s : State) (d : SReg),
     (s.me.dq = [] → givesS s (.dqPop d) 2 d 0) ∧
     (∀ v r, s.me.dq = v :: r → exec (.dqPop d) s =
       .next (s.mapMe fun c => { c with dq := r, pend := c.pend ++ [⟨2, if d = 0 then [] else [.s (physS s.cur.ages d) v], 0, 1, false⟩] }))) ∧
  (∀ (s : State) (a : SReg) (n : BitVec 12), let v := (s.rS a).toNat
     gives s (.setc 0x008 a) 1 [(.ctl 0x008, v / 4 % 2 * 4 + ((s.me.advance 1).cr.mode).toNat % 4)] 0 ∧
     gives s (.setc 0x018 a) 1 [(.ctl 0x018, v % 2 ^ 32)] 0 ∧ gives s (.setc 0x040 a) 1 [(.ctl 0x040, v % 2 ^ 8)] 0 ∧
     gives s (.rngControlWrite 0 a) 1 [(.ctl 0x020, v)] 0 ∧ gives s (.rngControlWrite 1 a) 1 [(.ctl 0x021, v)] 0 ∧
     gives s (.rngControlWrite 2 a) 1 [(.ctl 0x022, v)] 0 ∧
     (let landing := (s.me.pend.filter fun p => decide (p.left ≤ 1)).foldl (fun fl p => fl ||| p.flags) 0
      gives s (.fpstatWrite a) 1 [(.ctl 0x010, Nat.lor (v % 2 ^ 8) landing.toNat)] 0) ∧
     (n.toNat < 0x100 ∧ n ≠ 0x008 ∧ n ≠ 0x018 ∧ n ≠ 0x040 ∨ 0x100 ≤ n.toNat ∧ s.cur.ctx < 1024 → exec (.setc n a) s = .next s) ∧
     (s.cur.ctx < 1024 → exec (.ctxlogWrite false a) s = .next s ∧ exec (.ctxlogWrite true a) s = .next s)) ∧
  (∀ (s : State) (d a : SReg) (n : BitVec 12) (w : Word), s.cur.ctx = 1024 → let v := s.rS a; let j := s.chip.sup.jobsel.toNat; let x := s.job j
     exec (.setc 0x100 a) s = .next (s.onSup fun u => { u with jobsel := BitVec.ofNat 6 v.toNat }) ∧ givesS s (.getc d 0x100) 2 d j ∧
     ((n, w) ∈ [((0x109 : BitVec 12), (0x00FFFFFFFFFF0000 : Word)), (0x10A, 0x00FFFFFFFFFF0000), (0x10B, 0x000FFFFFFFFF0000), (0x10E, 0xFFFFFFFF),
         (0x110, BitVec.allOnes 64), (0x111, 0x1FFFFF), (0x112, 0xFFFFFFFF), (0x113, 0x3FFF)] →
       exec (.setc n a) s = .next (s.mapJob j fun z => z.setReg n.toNat (v &&& w)) ∧ givesS s (.getc d n) 2 d (x.reg n.toNat).toNat) ∧
     (x.started = true → n ∈ [(0x115 : BitVec 12), 0x116, 0x117, 0x118, 0x119, 0x11A, 0x11B, 0x11C, 0x11D, 0x11E, 0x11F] → exec (.setc n a) s = .next s) ∧
     (bits v 11 0 = 0 ∨ 2048 < bits v 11 0 → exec (.setc 0x10C a) s = .next s) ∧
     exec (.setc 0x140 a) s = .next (s.onSup fun u => { u with tsbase := v &&& 0x000FFFFFFFFFFF80 }) ∧
     (bits v 4 0 < 10 ∨ 20 < bits v 4 0 → exec (.setc 0x141 a) s = .next s))

/-- R1 and R305: an access of n bytes that lies in one 64 KiB unit and translates reads the n bytes at its physical address where no sector of
them is poisoned, and a write replaces exactly those bytes; an access that crosses a unit's edge translates both pieces before it performs any and
reads or stores the bytes of each at its own physical address. R304 and R305, LD in every size, mode and kind of page: where the checked read
gives bytes, the loaded register takes them with the extension of its size when the result lands; where it fails, the instruction stops or kills
as the failure says. In FREE the checked read of an address that translates and is not poisoned gives the bytes at it and changes nothing. R304
and R305, ST in every size: the low bytes of S[d] are stored at the translated address and no other byte of any memory changes; where the check or
the translation fails nothing is stored and the instruction stops or kills as the failure says. That the loaded bytes are those at issue and land
later is the model's choice (log entry 16). An address S[a] + off is taken modulo 2^64, the model's choice (log entry 57). -/
def Obligations.ScalarMemory : Prop :=
  (∀ (s : State) (g pa n : Nat) (va e : Word) (bs : List Byte), let asid := asidOf s g
     (0 < n → reaches s g va n .read pa e → firstPoison s pa n = none → readVa s asid va n = .ok (Cells.bytes s.mem pa n)) ∧
     (0 < n → reaches s g va n .read pa e → ∀ p, firstPoison s pa n = some p → ∃ b, readVa s asid va n = .error b ∧ b.code = 0x11 ∧
       b.info = BitVec.ofNat 64 p) ∧
     (bs ≠ [] → reaches s g va bs.length .write pa e → writeVa s asid va bs = .ok (s.poke pa bs)) ∧
     (∀ b, translateAll s asid .write (pieces va.toNat bs.length) = .error b → writeVa s asid va bs = .error b)) ∧
  (∀ (s : State) (g p q : Nat) (va d e : Word) (bs : List Byte), let asid := asidOf s g; let n := bs.length; let k := 65536 - va.toNat % 65536
     k < n → n ≤ k + 65536 → va.toNat + k < 2 ^ 64 →
     (translate s asid va .read = .ok (p, d) → translate s asid (va + BitVec.ofNat 64 k) .read = .ok (q, e) →
       firstPoison s p k = none → firstPoison s q (n - k) = none →
       readVa s asid va n = .ok (Cells.bytes s.mem p k ++ Cells.bytes s.mem q (n - k))) ∧
     (translate s asid va .write = .ok (p, d) → translate s asid (va + BitVec.ofNat 64 k) .write = .ok (q, e) → p + k ≤ q ∨ q + (n - k) ≤ p →
       ∃ t, writeVa s asid va bs = .ok t ∧ ∀ a, Cells.read t.mem a = if p ≤ a ∧ a < p + k then bs.getD (a - p) 0
         else if q ≤ a ∧ a < q + (n - k) then bs.getD (k + (a - q)) 0 else Cells.read s.mem a)) ∧
  (∀ (s s1 : State) (h : Hint) (d a : SReg) (off : BitVec 18) (bs : List Byte) (z : LdSize) (n : Nat),
     let va := s.at a off.toInt; let g := s.cur.ctx; let v := leNat bs
     (z, n) ∈ [(LdSize.b, 1), (.bu, 1), (.h, 2), (.hu, 2), (.w, 4), (.wu, 4), (.d, 8)] →
     (plainRead s g va n = .ok (s1, bs) → brings s s1 (.ld z h d a off)
       (s.scalarName d (mod64 (if z = .b ∨ z = .h ∨ z = .w then (BitVec.ofNat (8 * n) v).toInt else v)))) ∧
     (∀ b, plainRead s g va n = .error b → exec (.ld z h d a off) s = s.raise b) ∧
     (∀ pa e, modeOf s g = 0 → reaches s g va n .read pa e → firstPoison s pa n = none →
       plainRead s g va n = .ok (s, Cells.bytes s.mem pa n))) ∧
  (∀ (s s1 : State) (h : Hint) (d a : SReg) (off : BitVec 18) (z : StSize) (n : Nat),
     let va := s.at a off.toInt; let g := s.cur.ctx
     (z, n) ∈ [(StSize.b, 1), (.h, 2), (.w, 4), (.d, 8)] →
     (∀ pa e, regionCheck s g va n true = .ok s1 → reaches s1 g va n .write pa e →
       ∃ t, exec (.st z h d a off) s = .next t ∧ t = s1.poke pa (leBytes n (s.rS d).toNat) ∧ storesWord s1 t pa n (s.rS d).toNat ∧
         t.scr = s1.scr ∧ t.rep = s1.rep ∧ t.chip.ctxs = s1.chip.ctxs) ∧
     (modeOf s g = 0 → regionCheck s g va n true = .ok s) ∧
     (∀ b, plainWrite s g va (leBytes n (s.rS d).toNat) = .error b → exec (.st z h d a off) s = s.raise b))

/-- R122: a lookup gives the first way that matches, in the 64 KiB set of the address before its 4 MiB set, where no way read up to it lies in a
poisoned sector; the entry's checks for each kind of access; an address with bits [63:56] set has none. Which page is tested for population where
a 4 MiB way has PPN bits [5:0] set is the model's choice (log entry 59). -/
def Obligations.TranslationLookup : Prop :=
  ∀ (s : State) (asid w sz : Nat) (va : Word) (k : Access) (ok : Bool),
    let kk := s.chip.sup.tscfg.toNat
    let vpn := fun (z : Nat) => va.toNat / 2 ^ (16 + 6 * z)
    let set := fun (z : Nat) => Nat.xor (Nat.xor (Nat.xor (vpn z) (vpn z / 2 ^ kk)) asid) (z * 2 ^ (kk - 1)) % 2 ^ kk
    let way := fun (z v : Nat) => bits s.chip.sup.tsbase 51 7 * 128 + 128 * set z + 16 * v
    let entry := fun (z v : Nat) => (BitVec.ofNat 64 (s.peek (way z v + 8) 8) : Word)
    let fits := fun (z v : Nat) => let t : Word := BitVec.ofNat 64 (s.peek (way z v) 8); let e := entry z v
      t.getLsbD 63 = true ∧ bits t 62 62 = z ∧ bits t 52 40 = asid ∧ bits t 39 0 = vpn z ∧ ¬ (e.getLsbD 62 = true ∧ e.getLsbD 61 = true) ∧
      pagePopulated s (bits e 35 0 * 65536 / 2 ^ (16 + 6 * z) * 2 ^ (16 + 6 * z)) (2 ^ (16 + 6 * z)) = true
    let read := fun (z v : Nat) => firstPoison s (way z v) 16 = none
    let x := entry sz w; let pa := bits x 35 0 * 65536 + va.toNat % 2 ^ (16 + 6 * sz)
    let before := (sz = 1 → ∀ v, v < 8 → read 0 v ∧ ¬ fits 0 v) ∧ ∀ v, v < w → read sz v ∧ ¬ fits sz v
    (2 ^ 56 ≤ va.toNat → lookup s asid va = .miss) ∧
    (va.toNat < 2 ^ 56 → (∀ z v, z < 2 → v < 8 → read z v ∧ ¬ fits z v) → lookup s asid va = .miss) ∧
    (∀ p, va.toNat < 2 ^ 56 → sz < 2 → w < 8 → before → firstPoison s (way sz w) 16 = some p → lookup s asid va = .poison p) ∧
    (va.toNat < 2 ^ 56 → sz < 2 → w < 8 → before → read sz w → fits sz w → lookup s asid va = .hit x pa (way sz w) ∧
      ((k, ok) ∈ [(Access.read, x.getLsbD 60), (.write, x.getLsbD 61 && !x.getLsbD 57 && !codeBlocked s pa),
          (.exec, x.getLsbD 62 && (codeAccepted s pa).isSome),
          (.atomic, x.getLsbD 60 && x.getLsbD 61 && !x.getLsbD 57 && !codeBlocked s pa && x.getLsbD 63)] →
        (ok = true → x.getLsbD 59 = false → translate s asid va k = .ok (pa, x)) ∧
        (ok = true → x.getLsbD 59 = true → ∃ b, translate s asid va k = .error b ∧ b.code = 0x11 ∧ b.addr = va) ∧
        (ok = false → ∃ b, translate s asid va k = .error b ∧ b.addr = va ∧ b.acc = k.acc ∧
          b.code = if k = .atomic ∧ x.getLsbD 60 = true ∧ x.getLsbD 61 = true ∧ x.getLsbD 57 = false ∧ codeBlocked s pa = false
            then 0x05 else 0x10)))

/-- FREE and STRICT log nothing: an operation goes on and leaves the state (R175). R306, R307, R170 and R177: LD.ACQ reads an 8-byte aligned word
of a memory-side page with a FLAG record of flags 0, observes the regions flagged by it and invalidates what its core holds clean of them; ST.REL
writes back what its core holds dirty of them, writes the word with a FLAG record of flags 1 and publishes; in STRICT a LD.ACQ stops with code
0x06 and its opcode. An address S[a] + off is taken modulo 2^64, the model's choice (log entry 57). -/
def Obligations.AcquireRelease : Prop :=
  (∀ (s : State) (g : Nat) (o : Logged), modeOf s g < 2 → logLets s g o s) ∧
  (∀ (s s1 s2 : State) (sc : Scope) (d a : SReg) (off : BitVec 15) (pa : Nat) (e : Word),
     let va := s.at a off.toInt; let g := s.cur.ctx; let v := s.peek pa 8; let w := s.rS d
     (modeOf s g = 1 → exec (.ldAcq sc d a off) s = s.raise { code := 0x06, info := 0x40 }) ∧
     (modeOf s g ≠ 1 → va.toNat % 8 = 0 → translate s (asidOf s g) va .read = .ok (pa, e) → e.getLsbD 63 = true → firstPoison s pa 8 = none →
       logLets s g (flagRecord s g 0 va pa (BitVec.ofNat 64 v)) s1 →
       brings s (acquireOn (observeFlag s1 g va.toNat v) g 2 va.toNat) (.ldAcq sc d a off) (s.scalarName d v)) ∧
     (va.toNat % 8 ≠ 0 → modeOf s g ≠ 1 → exec (.ldAcq sc d a off) s = s.raise { code := 0x10, acc := 0, addr := va }) ∧
     (stRelReady d a off s = .go → releaseOn s g 2 va.toNat = .ok s1 → s1.cur = s.cur → stRelPlan s1 va w = .ok (pa, flagRecord s1 g 1 va pa w) →
       logLets s1 g (flagRecord s1 g 1 va pa w) s2 → s2.cur = s.cur →
       ∃ t, exec (.stRel sc d a off) s = .next t ∧ t = publishFlag (s2.pokeNum pa 8 w.toNat) s2.me.cr.job.toNat g va.toNat w.toNat ∧
         storesWord s2 t pa 8 w.toNat) ∧
     (va.toNat % 8 = 0 → translate s (asidOf s g) va .write = .ok (pa, e) → e.getLsbD 63 = true → modeOf s g = 0 →
       stRelPlan s va w = .ok (pa, flagRecord s g 1 va pa w)) ∧
     (va.toNat % 8 ≠ 0 → exec (.stRel sc d a off) s = s.raise { code := 0x10, acc := 1, addr := va }))

/-- R311, R312 and R254: AMO and ACAS on an aligned word that translates as kind atomic and is not poisoned store the new value of their width,
send the old value to dq and log it with their operation's number; no other byte changes. Misaligned they kill with code 0x10; in STRICT they stop
with code 0x06 and their opcode (R170). R313: APOP on a counter word that is not zero, in its turn, takes one from the word, brings the old value
to its register and leaves the queue of waiters; a zero word blocks it outside REPLAY. -/
def Obligations.Atomics : Prop :=
  (∀ (s s1 : State) (dbl : Bool) (d a b : SReg) (op : AmoOp) (pa : Nat) (e : Word) (i : Instr) (opcode code new : Nat),
     let n := if dbl then 8 else 4; let g := s.cur.ctx; let va := s.rS a; let old := s.peek pa n
     let y := (s.rS b).toNat % 2 ^ (8 * n)
     (i, opcode, code, new) ∈ [(Instr.amo op dbl a b, 0x48, op.code.toNat, amoValue op (8 * n) old y),
       (.acas dbl d a b, 0x49, 9, if old = y then (s.rS d).toNat % 2 ^ (8 * n) else old)] →
     let o : Logged := .of s g recAmo ((if dbl then 16 else 0) + code) va (BitVec.ofNat 64 old) (wordKey pa)
     (modeOf s g = 1 → exec i s = s.raise { code := 0x06, info := BitVec.ofNat 64 opcode }) ∧
     (modeOf s g ≠ 1 → va.toNat % n ≠ 0 → exec i s = s.raise { code := 0x10, acc := 2, addr := va }) ∧
     (modeOf s g ≠ 1 → va.toNat % n = 0 → translate s (asidOf s g) va .atomic = .ok (pa, e) → firstPoison s pa n = none → logLets s g o s1 →
       s1.cur = s.cur →
       ∃ t, exec i s = .next t ∧ storesWord s1 t pa n new ∧ t.scr = s1.scr ∧ t.rep = s1.rep ∧
         t.chip.ctxs = (s1.mapMe fun c => { c with
           coming := c.coming ++ [⟨.dq (BitVec.ofNat 64 old), 0, 0⟩], dqComing := c.dqComing + 1 }).chip.ctxs)) ∧
  (∀ (s s1 : State) (dbl : Bool) (d a : SReg) (pa : Nat) (e : Word),
     let n := if dbl then 8 else 4; let g := s.cur.ctx; let va := s.rS a; let old := s.peek pa n
     let o : Logged := .of s g recAmo ((if dbl then 16 else 0) + 10) va (BitVec.ofNat 64 old) (wordKey pa)
     modeOf s g ≠ 1 → va.toNat % n = 0 → translate s (asidOf s g) va .atomic = .ok (pa, e) → firstPoison s pa n = none →
     (old = 0 → modeOf s g ≠ 3 → exec (.apop dbl d a) s = .next (s.mapMe fun c => { c with blocked := some (.apop va) })) ∧
     (old ≠ 0 → (Tab.get [] s.chip.apops pa).headD g = g → logLets s g o s1 → s1.cur = s.cur → ∃ t, storesWord s1 t pa n (old - 1) ∧
       t.chip.ctxs = s1.chip.ctxs ∧ brings s t (.apop dbl d a) (s.scalarName d old) ∧
       Tab.get [] t.chip.apops pa = (Tab.get [] s1.chip.apops pa).filter (· != g)))

/-- R314: a RED joins its context's queue of reductions in FREE and STRICT; RED_PERFORM applies the oldest of the queue to its word: the new value
of the integer or FP32 operation at its width and no other byte, an FP32 operation's flags joining FPSTAT, or, on a poisoned word, the death of
the context by a fatal error 0x11. R182, R254, R262, R315 and R316: ORED reads and checks its block and joins its context's ordered reductions;
with every earlier access of the issuer over, ORED_COMPLETION writes back what its core holds dirty of the flag's regions, combines the sources of
each element in the tree of R316 whatever COUNT, stores the results, writes the flag word and drops the reduction; SCOREBOARD_RESULT_LAND lands
one result, results for dq in their order, where its job's HBM allowance issues the transfers it still waits for (R36). The moment at which a
reduction is performed or a result lands is chosen from outside (log entry 3); which checks ORED makes again is log entry 38; the number of
transfers is log entry 33. -/
def Obligations.Reductions : Prop :=
  (∀ (s : State) (dbl : Bool) (a b : SReg) (op : RedOp) (amo : AmoOp) (f : Val → Val → Val × BitVec 8) (pa p : Nat) (e : Word) (r : Reduction)
     (rest : List Reduction) (id : CtxId),
     let n := if dbl then 8 else 4; let g := s.cur.ctx; let va := s.rS a; let h := id.toNat; let c := s.ctx h
     (modeOf s g < 2 → (modeOf s g = 1 → op.isFloat = false) → va.toNat % n = 0 → translate s (asidOf s g) va .atomic = .ok (pa, e) →
       firstPoison s pa n = none → ∃ q : Reduction, q.instr = .red op dbl a b ∧ q.va = va ∧ q.pa = pa ∧ q.val = s.rS b ∧ q.serial = s.me.serial ∧
         q.exposed = s.cur.exposed ∧ q.job = s.me.cr.job.toNat ∧
         exec (.red op dbl a b) s = .next (s.mapMe fun c => { c with serial := c.serial + 1, reds := c.reds ++ [q] })) ∧
     (modeOf s g = 1 → op.isFloat = true → exec (.red op dbl a b) s = s.raise { code := 0x06, info := 0x4B }) ∧
     (c.reds = r :: rest → r.instr = .red op dbl a b →
       (firstPoison s r.pa n = none → ∃ t, exec (.redPerform id) s = .next t ∧ t.scr = s.scr ∧ t.rep = s.rep ∧ (t.ctx h).reds = rest ∧
         (t.ctx h).s = c.s ∧
         ((op, amo) ∈ [(RedOp.add, AmoOp.add), (.smin, .smin), (.smax, .smax), (.umin, .umin), (.umax, .umax), (.and, .and), (.or, .or),
           (.xor, .xor)] → storesWord s t r.pa n (amoValue amo (8 * n) (s.peek r.pa n) (r.val.toNat % 2 ^ (8 * n))) ∧ (t.ctx h).cr = c.cr) ∧
         ((op, f) ∈ [(RedOp.fadd, Val.add), (.fmin, Val.pick false), (.fmax, Val.pick true)] → dbl = false →
           let u := fp32Op2 r.exposed f (BitVec.ofNat 32 (s.peek r.pa 4)) (r.val.setWidth 32)
           storesWord s t r.pa 4 u.1.toNat ∧ (t.ctx h).cr.fpstat = c.cr.fpstat ||| u.2)) ∧
       (firstPoison s r.pa n = some p → ∃ t, exec (.redPerform id) s = .next t ∧
         t = killFatal (s.mapCtx h fun c => { c with reds := rest }) h { s.recordOf h 0x11 1 r.va (BitVec.ofNat 64 p) with acc := 2 } ∧
         (h < 1024 → h % 4 ≠ 3 → memberships s h = [] → (t.ctx h).status = .free))) ∧
     (c.reds = [] → exec (.redPerform id) s = .next s)) ∧
  (∀ (s z y t0 t1 : State) (a : SReg) (r : Reduction) (rest : List Reduction) (id : CtxId) (n : BitVec 6) (x : Coming) (pa : Nat) (p q o : Nat)
     (l : List Nat) (v : Word) (d : BitVec 6) (tr : BitVec 4) (rr : BitVec 6) (row : TileRow),
     let g := id.toNat; let c := s.ctx g; let k := s.core (coreOf g); let blk := s.rS a; let asid := asidOf s s.cur.ctx
     let quiet := (∀ q ∈ k.commands, ¬ (q.ctx = g ∧ q.serial < r.serial)) ∧ (∀ q ∈ c.reds, r.serial ≤ q.serial) ∧ putsOut s.chip.net g = false
     let record : Logged := { type := recFlag, flags := 2, obj := r.va, val := r.pv, ctx := g, lid := r.lid, ord := r.ord, key := wordKey r.flag }
     let lets := r.mode < 2 ∧ y = s ∨
       2 ≤ r.mode ∧ logReady (asIssuer s g r) g record = .go t0 ∧ logDone t0 g record = .ok t1 ∧ y = asItself t1 g c
     let stores := fun (t : State) (w : Nat → Nat) => ∀ a, Cells.read t.mem a =
       if r.flag ≤ a ∧ a < r.flag + 8 then BitVec.ofNat 8 (r.pv.toNat / 256 ^ (a - r.flag))
       else if pa ≤ a ∧ a < pa + 4 * r.count then BitVec.ofNat 8 (w ((a - pa) / 4) / 256 ^ ((a - pa) % 4)) else Cells.read z.mem a
     let clear := fun (w : Nat) => pa + 4 * r.count ≤ w ∨ w + 4 * r.count ≤ pa
     (∀ b, oredPlan s blk = .error b → exec (.ored a) s = s.raise b) ∧
     (blk.toNat % 64 ≠ 0 → oredPlan s blk = .error { code := 0x10, acc := 2, addr := blk }) ∧
     (oredPlan s blk = .ok r → exec (.ored a) s = .next (s.nextSerial.mapMe fun c => { c with oreds := c.oreds ++ [{ r with instr := .ored a }] }) ∧
       r.serial = s.me.serial ∧ r.mode = modeOf s s.cur.ctx ∧ r.op ≤ 4 ∧ 1 ≤ r.count ∧ r.count ≤ 1048576 ∧
       ∃ bs tb, readVa s asid blk 64 = .ok bs ∧ readVa s asid (BitVec.ofNat 64 (leNat ((bs.drop 0x18).take 8))) (8 * r.srcs.length) = .ok tb ∧
         r.srcs.length = leNat ((bs.drop 0x20).take 2) ∧ 1 ≤ r.srcs.length ∧ r.srcs.length ≤ 64 ∧ r.op = leNat ((bs.drop 0x22).take 1) ∧
         r.count = leNat ((bs.drop 0x24).take 4) ∧ r.va.toNat = leNat ((bs.drop 8).take 8) ∧ r.pv.toNat = leNat ((bs.drop 0x10).take 8)) ∧
     (c.oreds = [] → exec (.oredCompletion id) s = .next s) ∧
     (c.oreds = r :: rest → (¬ quiet → exec (.oredCompletion id) s = .next s) ∧
       (quiet → lets → releaseFor y r.job (coreOf g) 2 r.va.toNat = .ok z → (z.ctx g).oreds = r :: rest → r.dst = [(pa, 4 * r.count)] →
         r.op ≤ 3 → ∃ t, exec (.oredCompletion id) s = .next t ∧ t.scr = z.scr ∧ t.rep = z.rep ∧ (t.ctx g).oreds = rest ∧
         (∀ h, h ≠ g → t.ctx h = z.ctx h) ∧ (t.ctx g).s = (z.ctx g).s ∧
         (r.op = 3 → r.srcs = l.map (fun w => [(w, 4 * r.count)]) → 1 ≤ l.length → l.length ≤ 64 → (∀ w ∈ l, clear w) →
           stores t fun j => (l.map fun w => z.peek (w + 4 * j) 4).sum % 2 ^ 32) ∧
         (r.op = 0 → r.srcs = [[(p, 4 * r.count)], [(q, 4 * r.count)], [(o, 4 * r.count)]] → clear p → clear q → clear o →
           let val := fun (w j : Nat) => BitVec.ofNat 32 (z.peek (w + 4 * j) 4)
           let u := fun (j : Nat) => fp32Op2 r.exposed Val.add (val p j) (val q j)
           let w := fun (j : Nat) => fp32Op2 r.exposed Val.add (u j).1 (val o j)
           (stores t fun j => (w j).1.toNat) ∧ (t.ctx g).cr.fpstat = if issuerStands z g r
             then (z.ctx g).cr.fpstat ||| (List.range r.count).foldl (fun fl j => fl ||| ((u j).2 ||| (w j).2)) 0 else (z.ctx g).cr.fpstat) ∧
         (∀ j < r.count, (∃ b ∈ r.srcs, (firstPoison z (pieceAt b (4 * j)) 4).isSome = true) →
           sectorOf (pa + 4 * j) ∈ t.chip.poison))) ∧
     (c.coming[n.toNat]? = none → exec (.scoreboardResultLand id n) s = .next s) ∧
     (c.coming[n.toNat]? = some x → let left := (s.job c.cr.job.toNat).hbmLeft
       let inTurn := (∀ w, x.res ≠ .dq w) ∨ ∀ y ∈ c.coming.take n.toNat, ∀ w, y.res ≠ .dq w
       (¬ inTurn → exec (.scoreboardResultLand id n) s = .next s) ∧
       (inTurn → left < x.owed → ∃ t, exec (.scoreboardResultLand id n) s = .next t ∧ sameBytes s t ∧ (∀ h, h ≠ g → t.ctx h = s.ctx h) ∧
         t.ctx g = { c with coming := c.coming.set n.toNat { x with owed := x.owed - left } }) ∧
       (inTurn → x.owed ≤ left → ∃ t, exec (.scoreboardResultLand id n) s = .next t ∧ sameBytes s t ∧
         (∀ h, h ≠ g → t.ctx h = s.ctx h) ∧ (t.ctx g).coming = c.coming.eraseIdx n.toNat ∧
         (x.res = .regs [.s d v] → (t.ctx g).s = Tab.set c.s d.toNat v ∧ (t.ctx g).cr.fpstat = c.cr.fpstat ||| x.flags) ∧
         (x.res = .dq v → c.dq.length < 8 → (t.ctx g).dq = c.dq ++ [v] ∧ (t.ctx g).dqComing = c.dqComing - 1) ∧
         (x.res = .dq v → c.dq.length = 8 → (t.ctx g).dq = c.dq.drop 1 ++ [v]) ∧
         (x.res = .row tr rr false row [] → ∀ i, ((t.ctx g).tile tr.toNat).row i =
           if i = rr.toNat then { row with rcw := ((c.tile tr.toNat).row i).rcw } else (c.tile tr.toNat).row i))))

/-- R330 and R331: the status of PROBE is 1 on a miss, 2 where an entry fails a check of the kind, 3 for .A on a page that is not memory-side, 5
for .W or .A on a page being migrated, 4 where PSN is set and 0 elsewhere; a lookup that reads poison is a fatal error 0x11. PROBE.NF gives the
status one tick later and PROBE without it goes on where it is 0 or 4 and stops else; both are held while a command, a reduction, a result or a
PUT packet of the context is not over (R125). LOGMARK does nothing in FREE and STRICT and writes or consumes a MARK record of S[a] in RECORD and
REPLAY. An address S[a] + off is taken modulo 2^64, the model's choice (log entry 57). -/
def Obligations.ProbeAndMark : Prop :=
  ∀ (s s1 : State) (k : ProbeKind) (nf : Bool) (d a : SReg) (off : BitVec 18) (st p : Nat) (passes : Bool), let va := s.at a off.toInt; let g := s.cur.ctx
    let found := lookup s (asidOf s g) va
    let busy := commandsOf s g ≠ [] ∨ s.me.reds ≠ [] ∨ s.me.oreds ≠ [] ∨ s.me.coming ≠ [] ∨ putsOut s.chip.net g = true
    (probeStatus s va k = .ok st → givesS s (.probe k true d a off) 1 d (st % 2 ^ 64) ∧
      ((st = 0 ∨ st = 4) → exec (.probe k false d a off) s = .next s) ∧
      (st ≠ 0 → st ≠ 4 → exec (.probe k false d a off) s =
        s.raise { code := if st = 3 then 0x05 else 0x07, acc := (probeAccess k).acc, addr := va })) ∧
    (found = .miss → probeStatus s va k = .ok 1) ∧
    (found = .poison p → exec (.probe k nf d a off) s =
      s.raise { code := 0x11, acc := (probeAccess k).acc, addr := va, info := BitVec.ofNat 64 p }) ∧
    (∀ e pa w, found = .hit e pa w →
      (k, passes) ∈ [(ProbeKind.r, e.getLsbD 60), (.w, e.getLsbD 61 && !codeBlocked s pa), (.a, e.getLsbD 60 && e.getLsbD 61 && !codeBlocked s pa),
        (.x, e.getLsbD 62 && (codeAccepted s pa).isSome)] →
      probeStatus s va k = .ok (if passes = false then 2 else if e.getLsbD 57 = true ∧ (k = .w ∨ k = .a) then 5
        else if k = .a ∧ e.getLsbD 63 = false then 3 else if e.getLsbD 59 = true then 4 else 0)) ∧
    (busy → slotHolds s (.probe k nf d a off) = true) ∧
    (logLets s g (.of s g recMark 0 0 (s.rS a) (countKey 5 g)) s1 → exec (.logmark a) s = .next s1)

/-- R308 and R317: PHREG joins a phaser of its job's range under the index of its operand or the lowest free one and gives the index one tick
later, with a PHASE record; a member gets its index again, and a context for which no index is free gets all ones; PHDROP removes the membership
with a PHASE record, after which the phase may complete, and does nothing for a non-member; a number outside the range stops with code 0x04. R150
and R318: the current phase of a phaser completes where some member can signal and all that can have signalled it. PHSIG releases, then counts the
member's next phase to signal, waiting while it is a phase ahead; PHWAIT waits for its member's phase, then counts it and acquires; PHSW signals,
unless its bundle has done so when it first reached issue, notes it, and waits. A context that is no member, or a member that cannot signal, stops
with code 0x04. -/
def Obligations.Phasers : Prop :=
  (∀ (s s1 : State) (sig ix : Bool) (d a b : SReg) (n i : Nat),
     let g := s.cur.ctx; let x := s.rS a; let r := (s.job s.me.cr.job.toNat).reg 0x117; let p := s.phaser n
     let used := fun k => p.members.any fun m => m.ix == k
     let m : Member := { ctx := g, ix := i, sig, sp := p.k, wp := p.k }
     let inside := x.toNat < 2 ^ 12 ∧ bits r 11 0 ≤ x.toNat ∧ x.toNat < bits r 11 0 + bits r 24 12
     (¬ inside → exec (.phreg sig ix d a b) s = s.raise { code := 0x04, addr := x, info := 0xFFFF } ∧
       exec (.phdrop a) s = s.raise { code := 0x04, addr := x, info := 0xFFFF }) ∧
     (inside → n = x.toNat →
       (p.member g = none → modeOf s g ≠ 3 → (modeOf s g = 1 → ix = true) →
         (i < 1024 → used i = false → (ix = true → i = (s.rS b).toNat % 65536) → (ix = false → ∀ k, k < i → used k = true) →
           logLets s g (phaseRecord s g n 0 m) s1 →
           exec (.phreg sig ix d a b) s = .next ((s1.mapPhaser n fun q => { q with members := q.members ++ [m] }).result 1
             (s1.wS d (BitVec.ofNat 64 i)))) ∧
         (ix = false → (∀ k, k < 1024 → used k = true) → exec (.phreg sig ix d a b) s = .next (s.result 1 (s.wS d (BitVec.allOnes 64)))) ∧
         exec (.phdrop a) s = .next s) ∧
       (∀ q, p.member g = some q →
         ((modeOf s g = 1 → ix = true) → exec (.phreg sig ix d a b) s = .next (s.result 1 (s.wS d (BitVec.ofNat 64 q.ix)))) ∧
         (logLets s g (phaseRecord s g n 1 q) s1 → s1.cur = s.cur → exec (.phdrop a) s = .next (s1.mapPhaser n fun z =>
           Phaser.settle { z with members := z.members.filter fun y => y.ctx != g }))))) ∧
  (∀ (s s1 : State) (sc : Scope) (a : SReg) (n : Nat) (m : Member),
     let g := s.cur.ctx; let x := s.rS a; let p := s.phaser n
     let blocked := fun (z : State) => z.mapMe fun c => { c with blocked := some (.phaser (BitVec.ofNat 32 n)) }
     let signalled := fun (z : State) => z.mapPhaser n fun q => (q.mapMember g fun y => { y with sp := y.sp + 1 }).settle
     let waited := fun (z : State) => acquireOn (z.mapPhaser n fun q => q.mapMember g fun y => { y with wp := y.wp + 1, waited := true }) g 0 n
     let noted := fun (z : State) (v : Bool) => z.mapMe fun c => { c with signalled := v }
     (∀ q : Phaser, let sigs := q.members.filter Member.sig
       q.settle = if sigs ≠ [] ∧ (∀ y ∈ sigs, y.sp ≠ q.k) then { q with k := q.k + 1 } else q) ∧
     (syncNumber s g x false = .ok n → p.member g = none → ∀ i ∈ [Instr.phsig sc a, .phwait sc a, .phsw sc a],
       exec i s = s.raise { code := 0x04, addr := x, info := 0xFFFF }) ∧
     (syncNumber s g x false = .ok n → p.member g = some m →
       (m.sig = false → exec (.phsig sc a) s = s.raise { code := 0x04, addr := x, info := 0xFFFF }) ∧
       (m.sig = true → m.sp ≠ p.k + 1 → releaseOn s g 0 n = .ok s1 → s1.cur = s.cur → exec (.phsig sc a) s = .next (signalled s1)) ∧
       (m.sig = true → m.sp = p.k + 1 → exec (.phsig sc a) s = .next (blocked s)) ∧
       (p.k ≠ m.wp → exec (.phwait sc a) s = .next (waited s)) ∧
       (p.k = m.wp → exec (.phwait sc a) s = .next (blocked s)) ∧
       (s.me.signalled = false →
         (m.sig = false → exec (.phsw sc a) s = s.raise { code := 0x04, addr := x, info := 0xFFFF }) ∧
         (m.sig = true → m.sp = p.k + 1 → exec (.phsw sc a) s = .next (blocked s)) ∧
         (m.sig = true → m.sp ≠ p.k + 1 → releaseOn s g 0 n = .ok s1 → s1.cur = s.cur → let z := noted (signalled s1) true
           ((z.phaser n).k ≠ m.wp → exec (.phsw sc a) s = .next (noted (waited z) false)) ∧
           ((z.phaser n).k = m.wp → exec (.phsw sc a) s = .next (blocked z)))) ∧
       (s.me.signalled = true → p.k ≠ m.wp → exec (.phsw sc a) s = .next (noted (waited (noted s true)) false)) ∧
       (s.me.signalled = true → p.k = m.wp → exec (.phsw sc a) s = .next (blocked s))))

/-- R319, R150, R166 and R167: TKACQ of a token that is free or abandoned, in its turn, holds it, acquires and writes whether it was abandoned to
P[d] one tick later, with a TOKEN record; one that is held elsewhere blocks; TKREL releases and frees a token its context holds, a STRICT grant's
release taking the turn on, and stops on any other token. R200 and R320: a BAR whose arrival has been answered with a generation that has released
goes on; one that has not arrived arrives and blocks; BARRIER_RELEASE in the cycle set for it counts the generation and takes its arrivals away,
CNT of each core, after which the next generation is set to release where it is complete; a complete generation is set to release 40 cycles after
its last arrival. A tag not configured for the job or the core stops with code 0x04. -/
def Obligations.TokensAndBarriers : Prop :=
  (∀ (s s1 : State) (sc : Scope) (tk : Bool) (d : PReg) (a b : SReg) (n : Nat),
     let g := s.cur.ctx; let x := s.rS a; let t := s.token n; let ab := t.state == .abandoned
     let o : Logged := .of s g recToken 0 (BitVec.ofNat 64 n) (if ab then 1 else 0) (countKey 2 n)
     let inTurn := if modeOf s g = 1 then tk = true ∧ ((s.rS b).setWidth 32 : Lane) = t.turn else modeOf s g = 3 ∨ t.waiters.headD g = g
     syncNumber s g x true = .ok n →
     ((∀ h, t.state ≠ .held h) → inTurn → logLets s g o s1 → s1.cur = s.cur → modeOf s1 g = modeOf s g →
       exec (.tkacq sc tk d a b) s = .next ((acquireOn (s1.mapToken n fun z => { z with
         state := .held g, strict := modeOf s g == 1, waiters := z.waiters.filter (· != g) }) g 1 n).result 1
         (wP (pBit d true) (pBit d ab)))) ∧
     (∀ h, t.state = .held h → h ≠ g → modeOf s g = 0 → exec (.tkacq sc tk d a b) s =
       .next (s.mapMe fun c => { c with blocked := some (.token (BitVec.ofNat 32 n)) })) ∧
     (t.state = .held g → exec (.tkacq sc tk d a b) s = s.raise { code := 0x04, addr := x, info := 0xFFFF }) ∧
     (t.state = .held g → releaseOn s g 1 n = .ok s1 → exec (.tkrel sc a) s = .next (s1.mapToken n fun z => { z with
       state := .free, strict := false, turn := if z.strict then z.turn + 1 else z.turn })) ∧
     (t.state ≠ .held g → exec (.tkrel sc a) s = s.raise { code := 0x04, addr := x, info := 0xFFFF })) ∧
  (∀ (s : State) (tag : BitVec 3) (n c : Nat), let w := tag.toNat; let b := s.barrier w
     let conf := b.set && b.job == s.me.cr.job.toNat && b.mask.getLsbD s.cur.core && decide (s.cur.core < 256)
     (conf = false → exec (.bar tag) s = s.raise { code := 0x04, addr := tag.setWidth 64, info := 0xFFFF }) ∧
     (conf = true → s.me.arrived = some n → n < b.gen → exec (.bar tag) s = .next (s.mapMe fun c => { c with arrived := none })) ∧
     (conf = true → s.me.arrived = some n → ¬ n < b.gen → exec (.bar tag) s =
       .next (s.mapMe fun c => { c with blocked := some (.phaser (0x80000000 + tag.setWidth 32)) })) ∧
     (conf = true → s.me.arrived = none → b.releaseAt = none → ∃ t k, exec (.bar tag) s = .next t ∧
       t.me.blocked = some (.phaser (0x80000000 + tag.setWidth 32)) ∧ t.me.arrived = some k ∧ b.gen ≤ k ∧
       Tab.get [] (t.barrier w).arrivals s.cur.core = Tab.get [] b.arrivals s.cur.core ++ [s.cyc]) ∧
     (b.releaseAt = some c → c ≤ s.cyc → ∃ t, exec (.barrierRelease tag) s = .next t ∧ (t.barrier w).gen = b.gen + 1 ∧
       (∀ e, e ∈ (t.barrier w).arrivals ↔ e.2 ≠ [] ∧ ∃ f ∈ b.arrivals, e = (f.1, f.2.drop b.cnt)) ∧
       (t.barrier w).releaseAt = ((t.barrier w).lastArrival t w).map (· + 40) ∧ (∀ l < 8, w ∉ (t.level l).stuck) ∧
       t.chip.ctxs = s.chip.ctxs ∧ sameBytes s t) ∧
     (b.releaseAt = none ∨ (b.releaseAt = some c ∧ s.cyc < c) → exec (.barrierRelease tag) s = .next s) ∧
     (b.releaseAt = none → b.lastArrival s w = some c → ((armBarrier s w 0).barrier w).releaseAt = some (c + 40)))

/-- R162, R321, R322 and R323: a FENCE goes on at once; until its context's accesses are performed, and its sends delivered where its scope is
SYS, every later access, ORED and SHPUT is held, and then nothing is; the releases ST.REL, PHSIG, PHSW and TKREL of scope SYS, and SHSYNC of SYS,
are held for the context's sends (R135, R151). RBIND binds a descriptor that no check refuses, with the write-backs and the table entry, and gives
0, else the status of R322's table; RUNBIND writes back on every core, unbinds and gives 0, or 1 where nothing is bound; a table entry that cannot
be read or written is named by the fault (R414). FLWAIT goes on where the flag word has reached its operand, acquiring, and blocks before. That
the lowest of several statuses is given, edges before overlap before validity, is the model's choice (log entry 29). -/
def Obligations.FenceRegionsFlagWait : Prop :=
  (∀ (s s1 s2 : State) (sc : Scope) (d a b : SReg) (bs bs' : List Byte) (r : Region) (pa : Nat) (x : Bad),
     let g := s.cur.ctx; let asid := asidOf s g; let va := s.rS a; let ix := s.rS b; let jn := s.me.cr.job.toNat; let j := s.job jn
     let entry : Word := BitVec.ofNat 64 (bits (j.reg 0x10A) 55 16 * 0x10000 + 64 * ix.toNat)
     let q := regionOf bs
     exec (.fence sc) s = .next (s.mapMe fun c => { c with fencing := max c.fencing (if sc = .sys then 2 else 1) }) ∧
     (va.toNat % 64 ≠ 0 → exec (.rbind d a b) s = s.raise { code := 0x10, acc := 0, addr := va }) ∧
     (va.toNat % 64 = 0 → readVa s asid va 64 = .ok bs →
       (bindStatus s j ix q ≠ 0 → exec (.rbind d a b) s = .next (s.result 1 (s.wS d (BitVec.ofNat 64 (bindStatus s j ix q))))) ∧
       (bindStatus s j ix q = 0 →
         (readVa s asid entry 64 = .error x → exec (.rbind d a b) s = s.raise { x with addr := entry }) ∧
         (readVa s asid entry 64 = .ok bs' → writeBackCore asid q.base q.len s s.cur.core = .ok s1 →
           (writeVa s1 asid entry q.image = .error x → exec (.rbind d a b) s = s1.raise { x with addr := entry }) ∧
           (writeVa s1 asid entry q.image = .ok s2 → s2.cur = s.cur → exec (.rbind d a b) s =
             .next ((s2.mapJob jn fun z => { z with regions := Tab.set z.regions ix.toNat q }).result 1 (s.wS d 0)))))) ∧
     ((4096 ≤ ix.toNat ∨ Tab.find j.regions ix.toNat = none) → exec (.runbind d b) s = .next (s.result 1 (s.wS d 1))) ∧
     (ix.toNat < 4096 → Tab.find j.regions ix.toNat = some r →
       (readVa s asid entry 64 = .error x → exec (.runbind d b) s = s.raise { x with addr := entry }) ∧
       (readVa s asid entry 64 = .ok bs' → foldE (writeBackCore asid r.base r.len) s (s.chip.cores.map Prod.fst) = .ok s1 →
         (writeVa s1 asid (entry + 16) [0] = .error x → exec (.runbind d b) s = s1.raise { x with addr := entry }) ∧
         (writeVa s1 asid (entry + 16) [0] = .ok s2 → s2.cur = s.cur → exec (.runbind d b) s =
           .next ((s2.mapJob jn fun z => { z with regions := Tab.del z.regions ix.toNat }).result 1 (s.wS d 0))))) ∧
     (flagWord s g va .read = .ok pa → firstPoison s pa 8 = none →
       (ix.toNat ≤ s.peek pa 8 → exec (.flwait sc a b) s = .next (acquireOn (observeFlag s g va.toNat (s.peek pa 8)) g 2 va.toNat)) ∧
       (s.peek pa 8 < ix.toNat → exec (.flwait sc a b) s = .next (s.mapMe fun c => { c with blocked := some (.flag va) })))) ∧
  (∀ (s : State) (i : Instr) (sz : LdSize) (z : StSize) (h : Hint) (sc : Scope) (d a b : SReg) (off : BitVec 18) (off' : BitVec 15) (off'' : BitVec 12) (x y : Bool)
     (pe : PutEnd) (op : AmoOp) (rop : RedOp) (t : TReg) (gr : GReg) (vr : VReg) (n6 : BitVec 6) (mq : Option TReg) (src : Option SReg)
     (acc : AReg) (l r : MatSrc), let n := s.cur.ctx
     let out := 1 ≤ s.me.fencing ∧ accessOpen s n = true ∨ 2 ≤ s.me.fencing ∧ sendOpen s n = true
     (i ∈ [Instr.ld sz h d a off, .st z h d a off, .ldAcq sc d a off', .stRel sc d a off', .sld sz d a off, .sst z d a off, .vlds vr a off,
         .vsts vr a off, .amo op x a b, .acas x d a b, .apop x d a, .red rop x a b, .ored a, .gload x gr a, .tld h x y t gr a, .tst h x y t gr a,
         .cwld x t a, .cwst x t a, .gath h t gr a, .scat h t gr a, .put x pe d a b, .get x d a b, .kvapp x y n6 t b, .kvg h x n6 t gr a mq,
         .kvscan x n6 d a b, .kvexs t a, .fsend x y a b, .frecv src t a, .shput d a b, .flwait sc a b, .rbind d a b, .runbind d b, .rmap d a b,
         .runmap d a, .rwb d a b, .rinv d a b, .rfill d a b, .phsig sc a, .phsw sc a, .tkrel sc a, .launch d a, .glaunch d a b, .rqrd d a b,
         .rqwr off'' d a b, .preempt d a b, .preemptRel d a b, .pmig d a] → out → slotHolds s i = true) ∧
     ((fromStream l = true ∨ fromStream r = true) → i ∈ [Instr.mma acc l r, .matt acc t l r] → out → slotHolds s i = true) ∧
     (i ∈ [Instr.add d a b, .fence sc, .nop] → slotHolds s i = false) ∧
     (¬ out → (clearFence s n).me.fencing = 0) ∧ (out → clearFence s n = s) ∧
     (i ∈ [Instr.stRel .sys d a off', .shsync .sys, .phsig .sys a, .phsw .sys a, .tkrel .sys a] → sendOpen s n = true → slotHolds s i = true)) ∧
  (∀ (s : State) (j : Job) (ix : Word) (r : Region), let st := bindStatus s j ix r
     let used := 4096 ≤ ix.toNat ∨ (Tab.find j.regions ix.toNat).isSome = true
     let edges := sectorEdge r.base = false ∨ sectorEdge (r.base + r.len) = false ∨
       (r.kind = 0 ∧ ∃ k, k ≤ r.nslice ∧ sectorEdge (r.base + k * r.slen) = false)
     let meets := ∃ e ∈ j.regions, e.2.base < r.base + r.len ∧ r.base < e.2.base + e.2.len
     let flag := r.kind = 2 ∧ (¬ (r.prod < 1088 ∨ r.prod = 0xFFFF) ∨ ∀ pa, flagWord s s.cur.ctx (BitVec.ofNat 64 r.obj) .read ≠ .ok pa)
     let invalid := r.kind = 3 ∨ bits r.ctl 2 0 < 1 ∨ 4 < bits r.ctl 2 0 ∨ r.len < 16 ∨ 2 ^ 36 < r.len ∨ 2 ^ 56 ≤ r.base ∨ flag ∨
       (r.kind = 0 ∧ (r.nslice < 1 ∨ 1024 < r.nslice ∨ r.slen = 0 ∨ r.len < r.nslice * r.slen))
     (used → st = 1) ∧ (¬ used → edges → st = 2) ∧ (¬ used → ¬ edges → meets → st = 3) ∧ (¬ used → ¬ edges → ¬ meets → invalid → st = 4) ∧
     (¬ used → ¬ edges → ¬ meets → ¬ invalid → st = 0))

/-- R324, R325, R179 and R197: MSEND of a kernel context buffers one flit with its four scalars at its stop; a foreman's is sunk, queued or put in
the overflow store by the state of its receiver, at once; one that names no receiver of its partition is sunk with reason 0; MRECV takes the
oldest flit of the queue with a MSG record and brings its payload and sender to five scalars, and blocks on an empty queue; MPOLL gives whether
the queue holds one, with a MSG record. In STRICT the two stop with code 0x06. R189, R190, R191, R326 and R327: SHPUT puts a line of eight scalars
under a byte mask into its context's entries of the send queue, at a line of the job's window with 64 lines to spare, in RECORD where its record
and those of the queued transfers have room and in REPLAY where its record is the next (R175, R179, R412); SHGET brings a line of its level's
replica to eight scalars with a SHAFT record; a line outside the window kills with code 0x14; SHSYNC has no effect of its own and is held while
transfers or accesses of the context are open. That a message to a context outside the partition is sunk with reason 0 and that a foreman's is
delivered at once are the model's reading (log entry 37); so is that ADDR of a line outside the window is S[a] (log entry 46). -/
def Obligations.MessagesAndShaft : Prop :=
  (∀ (s s1 : State) (ds : Bool) (d a b : SReg) (m : Message) (q : List Message),
     let g := s.cur.ctx; let x := (s.rS a).toNat; let j := s.job s.me.cr.job.toNat
     let payload : BitVec 256 := s.rS (d + 3) ++ s.rS (d + 2) ++ s.rS (d + 1) ++ s.rS d
     let f := s.flit s.me.cr.job x (x / 4) 0 1 ds (.message payload)
     let empty := s.me.recv.isEmpty
     (g < 1024 → x < 1024 → j.partition.getLsbD (x / 4) = true → exec (.msend ds d a) s = .next (inject s s.cur.core [f])) ∧
     (¬ (x < 1024 ∧ j.partition.getLsbD (x / 4) = true) → exec (.msend ds d a) s =
       .next (sinkFlit s (if 1024 ≤ g then 0 else s.cur.core / 32) f .noRoute)) ∧
     (1024 ≤ g → x < 1024 → j.partition.getLsbD (x / 4) = true →
       let z := s.ctx x; let k := s.core (x / 4); let l := s.level (x / 128); let out := k.resetting = true ∨ k.mappedOut = true ∨ l.mappedOut = true
       let store := Tab.get [] s.chip.net.overflow (x / 128)
       let full := z.status = .saved ∨ 16 ≤ z.recv.length ∨ ∃ y ∈ store, y.target = x ∧ y.isMessage = true
       (out → exec (.msend ds d a) s = .next (sinkFlit s (x / 128) f .coreReset)) ∧
       (¬ out → l.power = .asleep → exec (.msend ds d a) s = .next (sinkFlit s (x / 128) f .asleep)) ∧
       (¬ out → l.power ≠ .asleep → z.status = .free → exec (.msend ds d a) s = .next (sinkFlit s (x / 128) f .noRoute)) ∧
       (¬ out → l.power ≠ .asleep → z.status ≠ .free → full → exec (.msend ds d a) s =
         .next (s.onNet fun n => { n with overflow := Tab.set n.overflow (x / 128) (store ++ [f]) })) ∧
       (¬ out → l.power ≠ .asleep → z.status ≠ .free → ¬ full → exec (.msend ds d a) s =
         .next (s.mapCtx x fun c => { c with recv := c.recv ++ [⟨BitVec.ofNat 11 g, payload⟩] }))) ∧
     (modeOf s g = 1 → exec (.mrecv d b) s = s.raise { code := 0x06, info := 0x61 } ∧
       exec (.mpoll d) s = s.raise { code := 0x06, info := 0x62 }) ∧
     (modeOf s g ≠ 1 → modeOf s g ≠ 3 →
       (s.me.recv = [] → exec (.mrecv d b) s = .next (s.mapMe fun c => { c with blocked := some .message })) ∧
       (s.me.recv = m :: q → logLets s g (.of s g recMsg 0 (BitVec.ofNat 64 g) (m.sender.setWidth 64) (countKey 3 g)) s1 → s1.cur = s.cur →
         s1.me.recv = s.me.recv →
         exec (.mrecv d b) s = .next ((s1.mapMe fun c => { c with recv := q }).coming (.regs (s1.wSRun d m.payload.toNat 4 ++
           s1.wS b (m.sender.setWidth 64))))) ∧
       (logLets s g (.of s g recMsg 1 (BitVec.ofNat 64 g) (if empty then 0 else 1 <<< 63) (countKey 3 g)) s1 →
         exec (.mpoll d) s = .next (s1.result 1 (s1.wS d (if empty then 0 else 1)))))) ∧
  (∀ (s s1 : State) (sc : Scope) (d a b : SReg) (r : BitVec 256),
     let g := s.cur.ctx; let x := s.rS a; let jn := s.me.cr.job.toNat; let j := s.job jn; let base := bits (j.reg 0x116) 13 0
     let cnt := bits (j.reg 0x116) 30 16; let line := base + x.toNat; let queued := (queuedTransfers s g).length + s.cur.sends
     let o : Logged := .of s g recShaft 1 0 (BitVec.ofNat 64 (64 * line)) (countKey 4 0)
     let p : Logged := .of s g recShaft 0 0 (BitVec.ofNat 64 (64 * line)) (countKey 4 0)
     let enters := s.onChip fun c => { c with shaft := { c.shaft with
       queue := c.shaft.queue ++ [{ ctx := g, job := jn, notice := false, line, mask := s.rS b, payload := s.rS8 d, entered := s.cyc }] } }
     let blocks := fun (w : Cause) => s.mapMe fun c => { c with blocked := some w }
     (x.toNat < 2 ^ 14 → x.toNat + 64 < cnt →
       (modeOf s g < 2 → exec (.shput d a b) s = .next enters) ∧
       (modeOf s g = 2 → let room := logRoom s g (s.ahead g + queued + 1)
         (∀ u, room = .go u → exec (.shput d a b) s = .next enters) ∧ (∀ w, room = .wait w → exec (.shput d a b) s = .next (blocks w))) ∧
       (modeOf s g = 3 → queued = 0 → let next := peekRecord s g 0
         (next = .record r true → recEquals r p = true → exec (.shput d a b) s = .next enters) ∧
         (next = .record r true → bits r 7 0 = 6 → bits r 15 8 ≠ 1 → recEquals r p = false → exec (.shput d a b) s = s.raise (p.diverges s jn r)) ∧
         (next = .ended → exec (.shput d a b) s = s.raise (p.diverges s jn 0)) ∧
         (next = .wait → exec (.shput d a b) s = .next (blocks .replay)))) ∧
     (¬ (x.toNat < 2 ^ 14 ∧ x.toNat + 64 < cnt) → exec (.shput d a b) s = s.raise { code := 0x14, acc := 1, addr := x }) ∧
     (modeOf s g ≠ 1 → x.toNat < 2 ^ 14 → x.toNat < cnt → linePoisoned s g line = false → logLets s g o s1 → s1.cur = s.cur →
       exec (.shget d a) s = .next (s1.coming (.regs (s1.wSRun d (leNat (readLine s1 g line)) 8)))) ∧
     (modeOf s g = 0 → readLine s g line = Cells.bytes s.rep ((if 1024 ≤ g then 8 else g / 128) * 0x100000 + line * 64) 64) ∧
     (modeOf s g ≠ 1 → ¬ (x.toNat < 2 ^ 14 ∧ x.toNat < cnt) → exec (.shget d a) s = s.raise { code := 0x14, acc := 0, addr := x }) ∧
     exec (.shsync sc) s = .next s ∧ slotHolds s (.shsync sc) = (transfersOpen s g || accessOpen s g || (sc == .sys && sendOpen s g)) ∧
     (4 ≤ queued → slotHolds s (.shput d a b) = true))

/-- R24, R25, R29, R188, R232, R255 and R257: BUDCMT of the supervisor takes the values now staged for the job that JOBSEL names,
BUDGET_PERIOD_REFILL later judging them; SHAFTGO commits the staged slot table unless an owner is reserved; JOBSTART starts the job's foreman in
its starting state or is refused; a GO bit of zero, and any other context, does nothing; TSINV completes at once, the model's choice (log entry
29). R23 to R25 and R36: in the first cycle of a period, once, every job's core-issue and shaft uses are zero again, the HBM transfers of writes
that waited are issued as far as its allowance goes, every context blocked on budget is ready, and a commit comes into force where, with the other
jobs' allowances, every sum of R25 stays within its limit (core classes per core, HBM transfers, fabric bytes, shaft slots), and is refused in
whole where one does not; in every other cycle nothing happens. How many transfers there are is log entry 33. -/
def Obligations.SupervisorCommits : Prop :=
  (∀ (s : State) (a : SReg), let v := s.rS a; let j := s.chip.sup.jobsel.toNat; let x := s.job j; let n := bits v 5 0; let g := 1024 + n
     let staged : Allowance := { cls := x.reg 0x110, hbm := (x.reg 0x111).setWidth 21, fab := (x.reg 0x112).setWidth 32, shf := (x.reg 0x113).setWidth 14 }
     let reserved := ∃ i, i < 64 ∧ 9 ≤ bits s.chip.shaft.staged (4 * i + 3) (4 * i) ∧ bits s.chip.shaft.staged (4 * i + 3) (4 * i) ≤ 14
     let shaft := fun (f : Shaft → Shaft) => s.onChip fun c => { c with shaft := f c.shaft }
     exec (.tsinv a) s = .next s ∧
     (s.cur.ctx ≠ 1024 → exec (.budcmt a) s = .next s ∧ exec (.shaftgo a) s = .next s ∧ exec (.jobstart a) s = .next s) ∧
     (s.cur.ctx = 1024 →
       (v.getLsbD 0 = false → exec (.budcmt a) s = .next s ∧ exec (.shaftgo a) s = .next s) ∧
       (v.getLsbD 0 = true → exec (.budcmt a) s = .next (s.mapJob j fun z => { z with commit := some staged }) ∧
         (reserved → exec (.shaftgo a) s = .next (shaft fun h => { h with refused := true })) ∧
         (¬ reserved → exec (.shaftgo a) s = .next (shaft fun h => { h with refused := false, commit := some h.staged }))) ∧
       (v.getLsbD 8 = false → exec (.jobstart a) s = .next s) ∧
       (v.getLsbD 8 = true → startRefused s j n = true → exec (.jobstart a) s = .next (s.mapJob j fun z => { z with startRefused := true })) ∧
       ((n = 0 ∨ x.started = true ∨ bits (x.reg 0x108) 4 0 < 13) → startRefused s j n = true) ∧
       (v.getLsbD 8 = true → startRefused s j n = false → ∃ t, exec (.jobstart a) s = .next t ∧ sameBytes s t ∧
         (t.job j).started = true ∧ (t.job j).key = true ∧ (t.job j).startRefused = false ∧ (t.job j).owner j = (if j = 0 then 1024 else g) ∧
         (t.ctx g).status = .running ∧ (t.ctx g).pc = x.reg 0x11A &&& ~~~31 ∧ (t.ctx g).s = Tab.set [] 1 (x.reg 0x11B) ∧
         (t.ctx g).cr.job = s.chip.sup.jobsel ∧ (t.ctx g).cr.mode.toNat = bits (x.reg 0x10F) 5 4 ∧ (t.ctx g).cr.launch = 0 ∧
         (t.ctx g).cr.wdog = (x.reg 0x10E).setWidth 32 ∧ (t.ctx g).cr.fpstat = 0 ∧ (t.ctx g).loops = [] ∧
         (∀ h, h ≠ g → t.ctx h = s.ctx h) ∧ ∀ k, k ≠ j → t.job k = s.job k))) ∧
  (∀ (s : State) (j k : Nat) (x y : Job) (a : Allowance),
     let issue := fun (b : Allowance) => bits b.cls 15 0 + bits b.cls 31 16 + bits b.cls 47 32 + bits b.cls 63 48
     let slots := (List.range 64).countP fun i => let w := bits s.chip.shaft.table (4 * i + 3) (4 * i)
       w == 8 || decide (w < 8) && !(s.level w).mappedOut
     let up := (List.range 32).countP fun p => s.chip.fab.ports.getLsbD p && !s.chip.sup.deadPorts.getLsbD p
     let within := fun (hbm fab shf : Nat) => hbm ≤ 2560 * (512 - s.chip.sup.deadChannels.length) ∧ fab ≤ 100000 * s.chip.fab.tickus * up ∧
       shf ≤ 128 * slots
     let alone := issue a ≤ 8192 ∧ within a.hbm.toNat a.fab.toNat a.shf.toNat
     let both := issue a ≤ 8192 ∧ (∀ c < 256, x.partition.getLsbD c = true → y.partition.getLsbD c = true → issue a + issue y.alw ≤ 8192) ∧
       within (a.hbm.toNat + y.alw.hbm.toNat) (a.fab.toNat + y.alw.fab.toNat) (a.shf.toNat + y.alw.shf.toNat)
     ((s.cyc % 8192 ≠ 0 ∨ s.chip.run.once.contains 0 = true) → exec .budgetPeriodRefill s = .next s) ∧
     (s.cyc % 8192 = 0 → s.chip.run.once.contains 0 = false → ∃ t, exec .budgetPeriodRefill s = .next t ∧ sameBytes s t ∧
       (∀ g, t.ctx g = if (s.ctx g).blocked = some .budget then { s.ctx g with blocked := none } else s.ctx g) ∧
       (∀ k, let held := (s.job k).hbmHeld; let most := (t.job k).alw.hbm.toNat
         (t.job k).used = [] ∧ (t.job k).shfUsed = 0 ∧ (t.job k).hbmUsed = min held most ∧ (t.job k).hbmHeld = held - min held most ∧
         (t.job k).regs = (s.job k).regs) ∧
       (s.chip.jobs = [(j, x)] → x.commit = none → (t.job j).alw = x.alw) ∧
       (s.chip.jobs = [(j, x)] → x.commit = some a → (t.job j).commit = none ∧
         (alone → (t.job j).alw = a ∧ (t.job j).commitRefused = false) ∧ (¬ alone → (t.job j).alw = x.alw ∧ (t.job j).commitRefused = true)) ∧
       (s.chip.jobs = [(j, x), (k, y)] ∧ j < k ∨ s.chip.jobs = [(k, y), (j, x)] ∧ k < j → x.commit = some a → y.commit = none →
         (t.job k).alw = y.alw ∧ (t.job j).commit = none ∧
         (both → (t.job j).alw = a ∧ (t.job j).commitRefused = false) ∧ (¬ both → (t.job j).alw = x.alw ∧ (t.job j).commitRefused = true))))

/-- R212 and R213: a submit while no scan runs blocks the page for writing and begins its scan; one while a scan runs is ignored; a scan of a
populated page accepts it where every bundle decodes for its kind, and refuses it with the offset and reason of the first that does not; a release
withdraws the acceptance; that it also ends the scan of its page is the model's choice (log entry 36). -/
def Obligations.CodeScanner : Prop :=
  ∀ (s : State) (v : Word) (p : CodePage), let big := v.getLsbD 60; let len := if big then 0x400000 else 0x10000
    let base := bits v 51 16 * 0x10000 / len * len
    let n := (if p.big then 0x400000 else 0x10000) / 32
    let bundle := fun (k : Nat) => decodeBundle (some p.kind) (BitVec.ofNat 256 (s.peek (p.base + 32 * k) 32))
    let other := s.chip.code.filter fun x => !(x.base == p.base && x.big == p.big)
    (s.chip.scan.isSome = true → exec (.codemapSubmit v) s = .next s) ∧
    (s.chip.scan = none → ∃ t, exec (.codemapSubmit v) s = .next t ∧ t.chip.scan =
        some { base, big, kind := if v.getLsbD 61 then .foreman else .kernel, accepted := false } ∧ t.chip.sup.codestat = 1 ∧
      (∀ pa, base ≤ pa → pa < base + len → codeBlocked t pa = true) ∧ (∀ pa, codeAccepted t pa = codeAccepted s pa) ∧ sameBytes s t ∧
      t.chip.ctxs = s.chip.ctxs) ∧
    (s.chip.scan = none → exec .codeScanComplete s = .next s) ∧
    (s.chip.scan = some p → pagePopulated s p.base (if p.big then 0x400000 else 0x10000) = true →
      ((∀ k, k < n → (bundle k).isOk = true) → exec .codeScanComplete s = .next ((s.onChip fun c => { c with
        scan := none, code := { p with accepted := true } :: other }).onSup fun u => { u with codestat := 2 })) ∧
      (∀ k e, k < n → (∀ m, m < k → (bundle m).isOk = true) → bundle k = .error e → exec .codeScanComplete s = .next ((s.onChip fun c => { c with
        scan := none, code := other }).onSup fun u => { u with codestat := BitVec.ofNat 64 (3 + 16 * e.reason + 2 ^ 24 * (32 * k)) }))) ∧
    (s.chip.scan = some p → pagePopulated s p.base (if p.big then 0x400000 else 0x10000) = false →
      exec .codeScanComplete s = .fault (.noSuchAddress p.base)) ∧
    (∃ t, exec (.codemapRelease v) s = .next t ∧ t.chip.code = s.chip.code.filter (fun x => !(x.base == base && x.big == big)) ∧
      (∀ q, t.chip.scan = some q → s.chip.scan = some q ∧ ¬ (q.base = base ∧ q.big = big)) ∧ sameBytes s t ∧ t.chip.ctxs = s.chip.ctxs)

/-- R201 and R202: a sleep request of an idle level awake starts its drain, else it is refused; at a frame boundary after the cycle of the
request, the level's transfers sent and none of them in that cycle, its replica freezes with every transfer of earlier frames applied, then its
memberships are dropped as the log allows, and only when none is left is it asleep, its barrier inputs reading as arrived; a wake request of a
sleeping level starts the copy of the master, made at the next frame boundary, and the transfers buffered since then are applied in order when it
is awake. That the freeze comes before the drops, and that the drops can delay only the sleep, is R201 with R413; that a level whose replica
refills keeps its transfers is log entry 36. -/
def Obligations.LevelPower : Prop :=
  ∀ (s : State) (level : BitVec 3) (n : Nat) (p : Phaser), let l := level.toNat; let x := s.level l
    let mine := fun (g : Nat) => 128 * l ≤ g ∧ g < 128 * l + 128
    let busy := ∃ g, mine g ∧ (s.ctx g).status ∈ [Status.running, .stopped, .reserved]
    let told := fun (t : State) (b : Bool) => t.onSup fun u => { u with levelRefused := b }
    let starts := x.power = .draining ∧ s.cyc % 64 = 0 ∧ x.asked < s.cyc ∧ (∀ t ∈ s.chip.shaft.queue, ¬ mine t.ctx) ∧
      ∀ e ∈ s.chip.shaft.flight, e.1 = s.cyc → ¬ mine e.2.ctx
    let sent := (s.chip.shaft.flight.filter fun e => decide (e.1 < s.cyc)).foldl (fun u e => applyAt u l e.2) s
    let caughtUp := (x.buffered.foldl (fun u t => applyAt u l t) s).mapLevel l fun y => { y with power := .awake, buffered := [] }
    ((busy ∨ x.mappedOut = true ∨ x.power ≠ .awake) → exec (.levelSleepRequest level) s = .next (told s true)) ∧
    (¬ busy → x.mappedOut = false → x.power = .awake →
      exec (.levelSleepRequest level) s = .next (told (s.mapLevel l fun y => { y with power := .draining, asked := s.cyc }) false)) ∧
    ((x.mappedOut = true ∨ x.power ≠ .asleep) → exec (.levelWakeRequest level) s = .next (told s true)) ∧
    (x.mappedOut = false → x.power = .asleep → exec (.levelWakeRequest level) s =
      .next (told (s.mapLevel l fun y => { y with power := .waking, asked := s.cyc, stuck := List.range 8 }) false)) ∧
    (x.power ≠ .freezing → ¬ starts → exec (.levelSleepFreeze level) s = .next s) ∧
    ((x.power = .freezing ∨ starts) → ∃ t, exec (.levelSleepFreeze level) s = .next t ∧
      ((t.level l).power = .freezing ∨ (t.level l).power = .asleep) ∧ (∀ k, k ≠ l → t.level k = s.level k) ∧
      t.rep = (if x.power = .freezing then s.rep else sent.rep) ∧
      ((t.level l).power = .asleep → ∀ g, mine g → memberships t g = []) ∧
      ((∀ g, mine g → memberships s g = []) → (t.level l).power = .asleep ∧ t.mem = s.mem ∧ t.chip.ctxs = s.chip.ctxs ∧
        t.chip.phasers = s.chip.phasers ∧ ∀ w < 8, (s.barrier w).releaseAt = none →
          (t.barrier w).releaseAt = ((s.barrier w).lastArrival t w).map fun c => max c s.cyc + 40) ∧
      (s.chip.phasers = [(n, p)] → (∀ g, mine g → modeOf s g < 2) → (t.level l).power = .asleep ∧ t.mem = s.mem ∧
        (t.phaser n).members = p.members.filter fun m => decide (¬ mine m.ctx))) ∧
    (x.power = .waking → s.cyc % 64 = 0 → x.asked < s.cyc → ∃ t, exec (.wakeReplicaCopy level) s = .next t ∧ (t.level l).power = .refilling ∧
      (t.level l).buffered = [] ∧ t.chip.ctxs = s.chip.ctxs ∧
      (∀ o, o < 0x100000 → Cells.read t.rep (l * 0x100000 + o) = Cells.read s.rep (8 * 0x100000 + o)) ∧
      ∀ a, ¬ (l * 0x100000 ≤ a ∧ a < (l + 1) * 0x100000) → Cells.read t.rep a = Cells.read s.rep a) ∧
    ((x.power ≠ .waking ∨ s.cyc % 64 ≠ 0 ∨ s.cyc ≤ x.asked) → exec (.wakeReplicaCopy level) s = .next s) ∧
    (x.power = .refilling → exec (.wakeComplete level) s = .next (tryReserveAll caughtUp (BitVec.ofNat 256 ((2 ^ 32 - 1) * 2 ^ (32 * l)))) ∧
      (s.chip.launches = [] → exec (.wakeComplete level) s = .next caughtUp)) ∧
    (x.power ≠ .refilling → exec (.wakeComplete level) s = .next s)

/-- R198, R200, R218, R257 and R258: ROUTESWAP asks for a swap of levels' tables unless one is in progress or a shadow entry's ACT is reserved,
and once no flit is in the viaducts and winzes of the levels and no stop of theirs is in the middle of a packet (R193) their tables and shadows
change places (that the shadows take the old tables is the model's reading, log entry 36); BARCFG configures a tag with no arrivals pending from
the staged mask; CONTAIN and a core's uncorrectable logic error begin its reset, which kills the contexts in use with a record of code 0x1A, fails
their launches, leaves free and saved ones as they are, and ends once none of its contexts is in use; CTXLOGBASE and CTXLOGSIZE reach a free
context of the job's partition only. -/
def Obligations.RoutingBarriersContainment : Prop :=
  ∀ (s : State) (a : SReg) (core : BitVec 8) (size : Bool) (lv : BitVec 8), let v := s.rS a; let c := core.toNat
    let bad := ∃ x ∈ s.chip.net.shadow, v.getLsbD (x.1 / 768) = true ∧ x.1 / 768 < 8 ∧ 6 ≤ bits x.2 2 0
    let said := fun (t : State) (b : Bool) => t.onSup fun u => { u with routeRefused := b }
    let drained := (∀ e ∈ s.chip.net.pos, lv.getLsbD (e.1 / 24) = false) ∧ (∀ e ∈ s.chip.net.asm, lv.getLsbD (e.1 % 8) = false) ∧
      (∀ e ∈ s.chip.net.inject, lv.getLsbD (e.1 / 12) = true → ∀ f, e.2.head? = some f → f.ix = 0) ∧ ∀ e ∈ s.chip.net.winze, e.2 = [] ∨
      lv.getLsbD (e.1 / 2) = false ∧ lv.getLsbD (if e.1 % 2 = 0 then e.1 / 2 + 1 else e.1 / 2 - 1) = false
    let n := bits v 2 0; let b := s.barrier n
    let j := if s.cur.ctx = 1024 then s.chip.sup.jobsel.toNat else s.me.cr.job.toNat
    let g := bits ((s.job j).reg 0x101) 10 0
    (s.cur.ctx = 1024 → (s.chip.net.swap.isSome = true ∨ bad) → exec (.routeswap a) s = .next (said s true)) ∧
    (s.cur.ctx = 1024 → s.chip.net.swap = none → ¬ bad → exec (.routeswap a) s =
      .next (said (s.onNet fun t => { t with swap := some (v.setWidth 8) }) false)) ∧
    (s.chip.net.swap = none → exec .routeSwapComplete s = .next s) ∧
    (s.chip.net.swap = some lv → ¬ drained → exec .routeSwapComplete s = .next s) ∧
    (s.chip.net.swap = some lv → drained → ∃ t, exec .routeSwapComplete s = .next t ∧ t.chip.net.swap = none ∧
      (∀ k < 6144, lv.getLsbD (k / 768) = true → t.chip.net.route k = s.chip.net.shadowAt k ∧ t.chip.net.shadowAt k = s.chip.net.route k) ∧
      (∀ k, lv.getLsbD (k / 768) = false → t.chip.net.route k = s.chip.net.route k ∧ t.chip.net.shadowAt k = s.chip.net.shadowAt k) ∧
      t.chip.net.pos = s.chip.net.pos ∧ t.chip.net.inject = s.chip.net.inject ∧ t.chip.ctxs = s.chip.ctxs ∧ sameBytes s t) ∧
    (s.cur.ctx = 1024 → v.getLsbD 11 = true → b.arrivals = [] → b.releaseAt = none → exec (.barcfg a) s =
      .next ((s.mapBarrier n fun z => { z with set := true, job := bits v 8 3, mask := s.chip.sup.barmask, cnt := bits v 10 9 + 1 }).onSup fun u =>
        { u with barRefused := false })) ∧
    (s.cur.ctx = 1024 → v.getLsbD 11 = true → b.arrivals ≠ [] → exec (.barcfg a) s = .next (s.onSup fun u => { u with barRefused := true })) ∧
    (s.cur.ctx = 1024 → v.getLsbD 11 = false → exec (.barcfg a) s = .next s) ∧
    (s.cur.ctx ≠ 1024 → exec (.routeswap a) s = .next s ∧ exec (.barcfg a) s = .next s ∧ exec (.contain a) s = .next s) ∧
    ((s.core c).resetting = true → exec (.coreLogicUncorrectable core) s = .next s) ∧
    (s.cur.ctx = 1024 → bits v 7 0 = c → (s.core c).resetting = true → exec (.contain a) s = .next s) ∧
    ((s.core c).resetting = false → ∀ i, i = .coreLogicUncorrectable core ∨ i = .contain a ∧ s.cur.ctx = 1024 ∧ bits v 7 0 = c →
      ∃ t, exec i s = .next t ∧ (t.core c).resetting = true ∧
        (∀ h, h / 4 ≠ c → t.ctx h = s.ctx h) ∧
        (∀ h, h / 4 = c → (s.ctx h).status = .free ∨ (s.ctx h).status = .saved → t.ctx h = s.ctx h) ∧
        (∀ h, h / 4 = c → memberships s h = [] → (t.ctx h).status = .free ∨ (t.ctx h).status = .saved ∨ (t.ctx h).killed = true) ∧
        (∀ h r, h / 4 = c → (∀ k, k / 4 = c → k ≠ h → (s.ctx k).status = .free ∨ (s.ctx k).status = .saved) →
          (s.ctx h).status = .running ∨ (s.ctx h).status = .stopped → (s.ctx h).killed = false → memberships s h = [] →
          Tab.find s.chip.launches (s.ctx h).cr.launch.toNat = some r → (t.ctx h).status = .free ∧
          (∃ q, Tab.find t.chip.launches (s.ctx h).cr.launch.toNat = some q ∧ q.failed = true ∧ q.done = true ∧ q.count = r.count - 1) ∧
          ∃ w ∈ (t.job (s.ctx h).cr.job.toNat).waiting, w.record.code = 0x1A ∧ w.record.kind = 1 ∧ w.record.ctx.toNat = h ∧
            w.record.info.toNat = c)) ∧
    ((s.core c).resetting = true → (∀ h, h / 4 = c → h < 1024 → (s.ctx h).status = .free ∨ (s.ctx h).status = .saved) →
      ∃ t, exec (.containmentComplete core) s = .next t ∧ (t.core c).resetting = false) ∧
    ((s.core c).resetting = false → exec (.containmentComplete core) s = .next s) ∧
    (1024 ≤ s.cur.ctx →
      (1024 ≤ g ∨ (s.job j).partition.getLsbD (g / 4) = false ∨ (s.ctx g).status ≠ .free → exec (.ctxlogWrite size a) s = .next s) ∧
      (g < 1024 → (s.job j).partition.getLsbD (g / 4) = true → (s.ctx g).status = .free → exec (.ctxlogWrite size a) s =
        .next (s.mapCtx g fun c => { c with cr := if size then { c.cr with logsize := v.setWidth 6 }
          else { c.cr with logbase := v &&& 0x00FFFFFFFFFFFFFF } })))

/-- R41 to R44, R52 and R332: a LAUNCH without an entry free in its job's queue waits, and a GLAUNCH without one for each of its records; a record
that is refused gives the first reason of R332's list that it has, the reasons 1 to 11 told here by what each is, and takes no launch id; the
first refused record of a GLAUNCH decides; a list that cannot be read gives 12, and so does a misaligned one, which is the model's reading (log
entry 34); one accepted takes the package's next id and the job's next sequence, with its record kept, and gives the id. LAUNCH_COMPLETE retires a
launch enumerated to its end with nothing running, with its status in the window. -/
def Obligations.LaunchAndComplete : Prop :=
  (∀ (s : State) (jn i n : Nat) (graph : Bool) (x : BitVec 2048) (va : Word) (m : Nat) (v : Word) (y : BitVec 2048 × List (Nat × Nat))
     (l : List (BitVec 2048 × List (Nat × Nat))),
     let j := s.job jn; let nd := recNdim x; let kind := fun (d : Nat) => recDim x d / 2 ^ 62
     let cores := recCores x j.partition &&& coresUp s; let entry : Word := BitVec.ofNat 64 (recField x 0 8)
     let dep := fun (k : Nat) => recField x (0x18 + 4 * k) 4
     let reasons : List Prop := [
       entry.toNat % 32 ≠ 0 ∨ executable s j.asid entry = false, nd < 1 ∨ 4 < nd,
       ∃ d < nd, ((List.range nd).filter fun p => recNest x p == d).length ≠ 1,
       ∃ p < 4, nd ≤ p ∧ (recNest x p ≠ 0 ∨ recDown x p = true),
       ∃ d < nd, kind d = 3 ∨ kind d = 1 ∧ 16 < recDim x d % 64,
       ∃ d < nd, kind d = 2 ∧ (nd ≤ recDim x d / 2 ^ 60 % 4 ∨ nestOf x (recDim x d / 2 ^ 60 % 4) ≤ nestOf x d),
       (∀ d < nd, kind d = 0) ∧ 2 ^ 32 ≤ (List.range nd).foldl (fun n d => n * (recDim x d % 2 ^ 32)) 1,
       3 < recField x 0x13 1 ∨ 16 < recHandlers x ∨ 4096 < recField x 0x58 4, cores = 0,
       ∃ k < 4, dep k ≠ 0 ∧ (2 ^ 31 ≤ dep k ∧ ¬ (graph = true ∧ dep k % 16 < i) ∨
         dep k < 2 ^ 31 ∧ j.statusOf (dep k) = none ∧ notAssigned s (dep k) = true),
       2 ≤ recMode x ∧ ∃ g < 1024, cores.getLsbD (g / 4) = true ∧ ((s.ctx g).cr.logsize.toNat < 12 ∨ 30 < (s.ctx g).cr.logsize.toNat)]
     let why := refuseReason s jn i graph (BitVec.ofNat 2048 m); let named := fun (k : Nat) => (0xFFFFFFFF00000000 : Word) + BitVec.ofNat 64 (k + 256 * i)
     (∀ k < 11, reasons.getD k False → (∀ h < k, ¬ reasons.getD h False) → refuseReason s jn i graph x = k + 1) ∧
     ((∀ h < 11, ¬ reasons.getD h False) → refuseReason s jn i graph x = 0) ∧
     (va.toNat % 32 ≠ 0 → readRecord s jn i graph va = .error (named 12)) ∧
     (∀ e, readVaNum s j.asid va 256 = .error e → readRecord s jn i graph va = .error (named 12)) ∧
     (va.toNat % 32 = 0 → readVaNum s j.asid va 256 = .ok m → why ≠ 0 → readRecord s jn i graph va = .error (named why)) ∧
     (va.toNat % 32 = 0 → readVaNum s j.asid va 256 = .ok m → why = 0 → (∀ e, readPriv s j.asid (BitVec.ofNat 2048 m) = .error e →
       readRecord s jn i graph va = .error (named 12)) ∧ ∀ p, readPriv s j.asid (BitVec.ofNat 2048 m) = .ok p → readRecord s jn i graph va =
       .ok (BitVec.ofNat 2048 m, p)) ∧
     (readRecord s jn i graph va = .error v → readRecords s jn graph va i (n + 1) = .error v) ∧
     (readRecord s jn i graph va = .ok y → readRecords s jn graph (va + 256) (i + 1) n = .error v →
       readRecords s jn graph va i (n + 1) = .error v) ∧
     (readRecord s jn i graph va = .ok y → readRecords s jn graph (va + 256) (i + 1) n = .ok l →
       readRecords s jn graph va i (n + 1) = .ok (y :: l))) ∧
  ∀ (s s1 : State) (d a b : SReg) (l : List (BitVec 2048 × List (Nat × Nat))) (img : BitVec 2048) (pr : List (Nat × Nat)) (v : Word) (id : BitVec 32)
    (x : Launch), let jn := s.me.cr.job.toNat; let j := s.job jn; let n := (s.rS b).toNat; let lid := s.chip.nextLid; let k := id.toNat
    let used := (s.chip.launches.filter fun x => x.2.job == jn).length
    let blocked := s.mapMe fun c => { c with blocked := some .launchRoom }
    let st := if x.depfail then 4 else if x.overflow then 6 else if x.failed then 3 else if x.cancelled then 2 else 1
    (16 ≤ used → exec (.launch d a) s = .next blocked) ∧
    (1 ≤ n → n ≤ 16 → 16 < used + n → exec (.glaunch d a b) s = .next blocked) ∧
    ((n = 0 ∨ 16 < n) → givesS s (.glaunch d a b) 1 d 0xFFFFFFFF0000000D) ∧
    (used < 16 → readRecords s jn false (s.rS a) 0 1 = .error v → givesS s (.launch d a) 1 d v.toNat) ∧
    ((s.rS a).toNat % 32 ≠ 0 → readRecords s jn false (s.rS a) 0 1 = .error 0xFFFFFFFF0000000C) ∧
    (used < 16 → readRecords s jn false (s.rS a) 0 1 = .ok [(img, pr)] → recField img 0x18 16 = 0 → ∃ t l, exec (.launch d a) s = .next t ∧
      Tab.find t.chip.launches lid = some l ∧ l.image = img ∧ l.job = jn ∧ l.seq = j.seqNext ∧ l.step = j.stepNo ∧ l.preds = [] ∧
      l.active = false ∧ l.done = false ∧ l.count = 0 ∧ l.priv = pr ∧ t.chip.nextLid = (if lid = 0x7FFFFFFF then 1 else lid + 1) ∧
      (t.job jn).seqNext = j.seqNext + 1 ∧ (t.job jn).statusOf lid = some 0 ∧ sameBytes s t ∧
      t.chip.ctxs = (s.result 1 (s.wS d (BitVec.ofNat 64 lid))).chip.ctxs) ∧
    (1 ≤ n → n ≤ 16 → used + n ≤ 16 →
      (readRecords s jn true (s.rS a) 0 n = .error v → givesS s (.glaunch d a b) 1 d v.toNat) ∧
      (readRecords s jn true (s.rS a) 0 n = .ok l → s1 = (acceptAll s jn l).1 →
        exec (.glaunch d a b) s = .next (s1.result 1 (s1.wS d (BitVec.ofNat 64 lid))))) ∧
    (Tab.find s.chip.launches k = none → exec (.launchComplete id) s = .next s) ∧
    (Tab.find s.chip.launches k = some x → ¬ (x.active = true ∧ x.done = true ∧ x.count = 0) → exec (.launchComplete id) s = .next s) ∧
    (Tab.find s.chip.launches k = some x → x.active = true → x.done = true → x.count = 0 → (∀ y ∈ s.chip.launches, y.2.preds = [] ∧ y.2.arrivals = []) →
      (s.job x.job).statusOf k = some 0 → ∃ t, exec (.launchComplete id) s = .next t ∧ Tab.find t.chip.launches k = none ∧
        (t.job x.job).statusOf k = some st ∧ (t.job x.job).worst = max (s.job x.job).worst st ∧ sameBytes s t)

/-- R46 to R49 and R58: at most once in a cycle, DISPATCH takes, among the jobs by class descending and then in turn after the job last
dispatched, the first whose earliest launch not yet dispatched has no predecessor left, and its walk begins; at most once in a cycle,
ITERATION_ASSIGN gives the next iteration of the first active launch, by class descending and then by dispatch, to the lowest usable context of
the first core after the launch's cursor that has one, which starts with the launch's entry, argument, mode and indices and with everything else
as R49 says. A context is usable where it is free with no record of it waiting, on a core in service of a level awake on which the job is not
pre-empted. The foreman's ring lets each decision go, holds it or makes it diverge, which fails the launch (R175, R180, R182); in REPLAY the
walker takes the logged context and waits while it is not usable, and one outside the launch's cores diverges (R181). -/
def Obligations.DispatchAndAssign : Prop :=
  ∀ (s u : State) (pre post : List Nat) (j lid g : Nat) (l : Launch) (idx bs : List Nat) (r : BitVec 256),
    let bound := recDim l.image (recNest l.image 0)
    let prio := fun (k : Nat) => bits ((s.job k).reg 0x10F) 2 0; let turn := fun (k : Nat) => (k + 64 - (s.chip.lastJob + 1) % 64) % 64
    let away := fun (h : Nat) => (h / 4 + 256 - (l.cursor + 1) % 256) % 256
    let fits := fun (h : Nat) => (coresOf s l).getLsbD (h / 4) = true ∧ usable s l.job h = true; let k := s.core (g / 4); let v := s.level (g / 4 / 32)
    (∀ k, k ∈ dispatchOrder s ↔ k < 64) ∧
    (dispatchOrder s).Pairwise (fun x y => prio y < prio x ∨ prio x = prio y ∧ turn x < turn y) ∧
    (∃ o : List (Nat × Launch), walkerOrder s = o.map Prod.fst ∧ o.Perm (s.chip.launches.filter fun y => y.2.active && !y.2.done) ∧
      o.Pairwise fun x y => prio y.2.job < prio x.2.job ∨ prio x.2.job = prio y.2.job ∧ x.2.order ≤ y.2.order) ∧
    (pickCtx s l = none ↔ ∀ h < 1024, ¬ fits h) ∧
    (pickCtx s l = some g → g < 1024 ∧ fits g ∧ ∀ h < 1024, fits h → away g < away h ∨ g / 4 = h / 4 ∧ g ≤ h) ∧
    (g < 1024 → (usable s j g = true ↔ (s.ctx g).status = .free ∧ v.power = .awake ∧ v.mappedOut = false ∧ k.mappedOut = false ∧ k.resetting = false ∧
      (s.job j).preempted.getLsbD (g / 4) = false ∧ ∀ y ∈ s.chip.jobs, ∀ w ∈ y.2.waiting, w.own ≠ some g)) ∧
    (s.hasTaken 2 = true → exec .dispatch s = .next s) ∧ (s.hasTaken 3 = true → exec .iterationAssign s = .next s) ∧
    (s.chip.launches = [] → exec .dispatch s = .next s ∧ exec .iterationAssign s = .next s) ∧
    (candidate s j = some (lid, l) → l.job = j ∧ l.active = false ∧ (∀ p ∈ l.preds, Tab.find s.chip.launches p = none) ∧
      ∀ y ∈ s.chip.launches, y.2.job = j → y.2.active = false → l.seq ≤ y.2.seq) ∧
    (s.hasTaken 2 = false → dispatchOrder s = pre ++ j :: post → (∀ k ∈ pre, candidate s k = none) → candidate s j = some (lid, l) →
      let log := agentOp (zeroCount s j (countKey 6 l.seq)) j (dispRecord l 0 0) lid; let others := fun (z : State) => ∀ k ∈ post, candidate z k = none
      ((s.job j).fmode < 2 → log = .go (zeroCount s j (countKey 6 l.seq))) ∧ (log = .hold u → others u → exec .dispatch s = .next u) ∧
      (log = .diverge u → let z := completeLaunch (failLaunch u lid) lid; others z → exec .dispatch s = .next z) ∧
      (log = .go u → ∃ t, exec .dispatch s = .next t ∧ t.hasTaken 2 = true ∧ t.chip.dispatched = u.chip.dispatched + 1 ∧ t.chip.lastJob = j ∧
        (Tab.find u.chip.launches lid = some l → l.done = false → recHandlers l.image = 0 → recNdim l.image = 1 → bound / 2 ^ 62 = 0 → 0 < bound % 2 ^ 32 →
          l.ord < 2 ^ 32 → ∃ m, Tab.find t.chip.launches lid = some m ∧ m.active = true ∧ m.order = u.chip.dispatched + 1 ∧
            m.walk = some ([0], [bound % 2 ^ 32]) ∧ t.chip.ctxs = u.chip.ctxs))) ∧
    (s.hasTaken 3 = false → walkerOrder s = lid :: post → bringWalk s lid = s → Tab.find s.chip.launches lid = some l → l.walk = some (idx, bs) →
      idx.length = recNdim l.image → bs ≠ [] →
      let next := peekRecord s ((s.job l.job).owner l.job) 0; let m3 := (s.job l.job).fmode = 3
      let named := next = .record r true ∧ recMatches r (dispRecord l 1 0) = true; let h := bits (recVal r) 10 0
      let there := h < 1024 ∧ (coresOf s l).getLsbD (h / 4) = true; let log := agentOp s l.job (dispRecord l 1 (BitVec.ofNat 64 g)) lid
      let picked := ¬ m3 ∧ pickCtx s l = some g ∨ m3 ∧ named ∧ there ∧ usable s l.job h = true ∧ g = h
      (m3 → named → there → usable s l.job h = false → post = [] → exec .iterationAssign s = .next s) ∧
      (m3 → named → ¬ there → post = [] → exec .iterationAssign s =
        .next (failLaunch (agentDiverges s l.job (dispRecord l 1 0) r lid) lid)) ∧
      (picked → (s.job l.job).fmode < 2 → log = .go s) ∧ (picked → log = .hold u → post = [] → exec .iterationAssign s = .next u) ∧
      (picked → log = .diverge u → post = [] → exec .iterationAssign s = .next (failLaunch u lid)) ∧
      (picked → log = .go u → Tab.find u.chip.launches lid = some l → (s.ctx g).status = .free ∧ (coresOf s l).getLsbD (g / 4) = true ∧
        ∃ t, exec .iterationAssign s = .next t ∧ t.hasTaken 3 = true ∧ sameBytes u t ∧ (∀ h, h ≠ g → t.ctx h = u.ctx h) ∧
        (let c := t.ctx g; c.status = .running ∧ c.pc.toNat = recField l.image 0 8 ∧ c.s = Tab.set [] 1 (BitVec.ofNat 64 (recField l.image 8 8)) ∧
          c.p = 0 ∧ c.v = [] ∧ c.k = [] ∧ c.t = [] ∧ c.g = [] ∧ c.q = [] ∧ c.loops = [] ∧ c.lr = 0 ∧ c.dq = [] ∧ c.pend = [] ∧ c.recv = [] ∧
          c.i0 = indices l idx bs 0 ∧ c.i1 = indices l idx bs 1 ∧ c.i2 = indices l idx bs 2 ∧ c.i3 = indices l idx bs 3 ∧
          c.cr.job.toNat = l.job % 64 ∧ c.cr.launch.toNat = lid % 2 ^ 32 ∧ c.cr.iterno.toNat = l.ord % 2 ^ 32 ∧
          c.cr.mode.toNat = recField l.image 0x10 1 % 4 + 4 * (recField l.image 0x11 1 % 2) ∧ c.cr.fpstat = 0 ∧ c.cr.rngctr = 0 ∧
          c.cr.wdog = ((u.job l.job).reg 0x10E).setWidth 32 ∧ c.cr.logwr = (u.ctx g).cr.logwr ∧ c.cr.logrd = (u.ctx g).cr.logrd) ∧
        ∃ m, Tab.find t.chip.launches lid = some m ∧ m.count = l.count + 1 ∧ m.ord = l.ord + 1 ∧ m.cursor = g / 4))

/-- R52, R54, R166, R303, R412 and R413: ITERATION_END frees a context whose iteration has ended once everything it issued is performed: the
tokens it holds are released as TKREL would, with their write-backs, and become free, its memberships end, its launch counts one less; a
write-back that fails kills it; in RECORD its drops wait for room in its ring and are written first, and it stays until its queued transfers are
sent (R179); before that it does nothing. R54, R55 and R334: CANCEL comes after the completions of its job that are due; of a unit with nothing
left to cancel it gives 1; of a launch, graph, step or job it gives 0, and every launch the unit covers is complete or enumerates no more; WAITC
gives the status of a complete unit and blocks on one that is not. That a freed context's registers are cleared is the model's choice (log entry
21), and so is what a CANCEL makes of a foreman's iteration that has issued ENDI (log entry 22). -/
def Obligations.IterationEndCancelWait : Prop :=
  (∀ (s z : State) (id : CtxId) (l : Launch), let g := id.toNat; let freed := foldE (fun u n => releaseOn u g 1 n) s (heldTokens s g); let c := s.ctx g
     let lid := c.cr.launch.toNat; let quiet := modeOf s g < 2 ∨ memberships s g = [] ∧ queuedTransfers s g = []
     let ends := c.status = .running ∧ c.endi = true ∧ drained s g = true; let room := logRoom s g (memberships s g).length
     c.killed = false → c.cancelling = false → c.doom = none →
     ((c.status ≠ .running ∨ c.endi = false ∨ drained s g = false) → exec (.iterationEnd id) s = .next s) ∧
     (ends → quiet → freed = .ok z → c.handlerRun = false → g % 4 ≠ 3 ∨ 1024 ≤ g → ∃ t, exec (.iterationEnd id) s = .next t ∧
       (t.ctx g).status = .free ∧ (t.ctx g).s = [] ∧ (t.ctx g).cr.logbase = c.cr.logbase ∧ (t.ctx g).cr.logsize = c.cr.logsize ∧
       (t.ctx g).cr.logwr = c.cr.logwr ∧ (t.ctx g).cr.logrd = c.cr.logrd ∧ (∀ h, h ≠ g → t.ctx h = s.ctx h) ∧
       (∀ n, (t.token n).state ≠ .held g) ∧ (∀ n, (t.phaser n).member g = none) ∧
       (Tab.find s.chip.launches lid = some l → ∃ m, Tab.find t.chip.launches lid = some m ∧ m = { l with count := l.count - 1 }) ∧ sameBytes z t) ∧
     (∀ e, ends → quiet → freed = .error e → exec (.iterationEnd id) s =
       .next (killFatal s g { s.recordOf g e.code 1 e.addr e.info with acc := e.acc, site := e.site })) ∧
     (ends → modeOf s g = 2 → memberships s g ≠ [] → heldTokens s g = [] → (∀ w, room = .wait w → exec (.iterationEnd id) s = .next s) ∧
       (∀ u w, room = .go u → logManyDone u g (endRecords u g) = .ok w → c.handlerRun = false → g % 4 ≠ 3 ∨ 1024 ≤ g →
         ∃ t, exec (.iterationEnd id) s = .next t ∧ (∀ n, (t.phaser n).member g = none) ∧ (∀ h, h ≠ g → t.ctx h = w.ctx h) ∧ sameBytes w t ∧
           (queuedTransfers s g = [] → (t.ctx g).status = .free) ∧ (queuedTransfers s g ≠ [] → t.ctx g = w.ctx g))) ∧
     (ends → quiet → freed = .ok z → c.handlerRun = true → g < 1024 → g % 4 = 3 →
       Tab.find s.chip.launches lid = some l → l.holds.contains (g / 4) = true → l.arrivals = [] → ∃ t, exec (.iterationEnd id) s = .next t ∧
       (t.ctx g).status = .reserved ∧ (∀ h, h ≠ g → t.ctx h = s.ctx h) ∧ sameBytes z t ∧
       ∃ m, Tab.find t.chip.launches lid = some m ∧ m.count = l.count - 1 ∧ m.holds.contains (g / 4) = true)) ∧
  (∀ (s : State) (d a : SReg) (u : WorkUnit) (v : Nat) (ids : List Nat),
     let jn := s.me.cr.job.toNat; let j := s.job jn; let x := (s.rS a).toNat
     let z := completeDue s jn; let w := (z.rS a).toNat
     let blocked := s.mapMe fun c => { c with blocked := some .waitc }
     ((∀ g, endsNow s g = true → (s.ctx g).cr.job.toNat ≠ jn) →
       (∀ i y, Tab.find s.chip.launches i = some y → ¬ (y.active = true ∧ y.count = 0)) → z = s) ∧
     ((u, ids) ∈ [(WorkUnit.lnch, unitLaunches z jn .lnch w), (.graph, unitLaunches z jn .graph w), (.step, unitLaunches z jn .step w),
         (.job, launchesOf z jn)] →
       (ids = [] → exec (.cancel u d a) s = .next (z.result 1 (z.wS d 1))) ∧
       (ids ≠ [] → ∃ t : State, exec (.cancel u d a) s = .next (t.result 1 (t.wS d 0)) ∧
         ∀ i ∈ ids, ∀ l : Launch, Tab.find t.chip.launches i = some l → l.cancelled = true ∧ l.done = true)) ∧
     (cancellable z jn w = false → exec (.cancel .iter d a) s = .next (z.result 1 (z.wS d 1))) ∧
     (cancellable z jn w = true → ∃ t : State, exec (.cancel .iter d a) s = .next (t.result 1 (t.wS d 0)) ∧
       ((t.ctx w).cancelling = true ∨ (t.ctx w).status ≠ (z.ctx w).status ∨ (t.ctx w).killed = true ∨ (t.ctx w).handlerRun = true)) ∧
     ((v ≠ 0 ∧ j.statusOf x = some v ∨ v = 5 ∧ j.statusOf x = none ∧ notAssigned s x = true ∨
         v = 1 ∧ j.statusOf x = none ∧ notAssigned s x = false) → givesS s (.waitc .lnch d a) 1 d (v % 2 ^ 64)) ∧
     (j.statusOf x = some 0 → exec (.waitc .lnch d a) s = .next blocked ∧ ((graphOf j x).contains x = true → exec (.waitc .graph d a) s = .next blocked)) ∧
     (unitStatus s jn .graph x = some v → givesS s (.waitc .graph d a) 1 d (v % 2 ^ 64)) ∧
     ((∃ y ∈ s.chip.launches, y.2.job = jn ∧ y.2.step = j.stepNo) → exec (.waitc .step d a) s = .next blocked) ∧
     ((∀ y ∈ s.chip.launches, y.2.job = jn → y.2.step ≠ j.stepNo) →
       givesS s (.waitc .step d a) 1 d (Tab.get 1 j.steps j.stepNo.toNat % 2 ^ 64)) ∧
     ((∀ y ∈ s.chip.launches, y.2.job ≠ jn) → givesS s (.waitc .job d a) 1 d (max 1 j.worst % 2 ^ 64)) ∧
     ((∃ y ∈ s.chip.launches, y.2.job = jn) → exec (.waitc .job d a) s = .next blocked))

/-- R66 to R70, R335 and R339: ADMIT queues a FREE request of its job's range; RQRD stores its record; RQWR writes the fields its mask names,
where R70 lets it; EVICT takes an ACTIVE or DEFERRED request out between steps, its valid pages to be demoted by the record as the last STEP read
it. Each gives 0, or 1 with nothing changed. -/
def Obligations.RequestInstructions : Prop :=
  ∀ (s s1 : State) (d a b : SReg) (mask : BitVec 12) (img : List Byte),
    let jn := s.me.cr.job.toNat; let j := s.job jn; let i := (s.rS a).toNat; let q := s.req i
    let r := j.reg 0x119; let inside := bits r 15 0 ≤ i ∧ i < bits r 15 0 + bits r 32 16 ∧ i < 65536
    let gave := fun (t : State) => t.result 1 (t.wS d 0)
    let field := fun (o n : Nat) => leNat ((img.drop o).take n)
    let shut := (mask.getLsbD 3 = true ∧ q.state ≠ 0) ∨
      (mask.getLsbD 11 = true ∧ (field 8 1 ≠ 0 ∨ q.state ∉ [(1 : BitVec 8), 4, 5, 6] ∨ (q.state = 5 ∧ q.slot ≠ 0xFFFF)))
    let idle := ∀ x ∈ s.chip.launches, ¬ (x.2.job = jn ∧ x.2.step = j.stepNo)
    let o := { requestRecord recEvict 0 i q.slot 4 j.stepNo 0 with ctx := s.cur.ctx }
    (¬ (inside ∧ q.state = 0) → givesS s (.admitReq d a) 1 d 1) ∧
    (inside → q.state = 0 → exec (.admitReq d a) s = .next (gave ((s.mapReq i fun q => { q with
      state := 1, admseq := j.admseq, slot := 0xFFFF, flags := q.flags &&& ~~~3, fltcode := 0 }).mapJob jn fun x => { x with
      admseq := x.admseq + 1, counts := Tab.del x.counts (countKey 7 i) }))) ∧
    (¬ inside → givesS s (.rqrd d a b) 1 d 1 ∧ givesS s (.rqwr mask d a b) 1 d 1) ∧
    (inside → plainWrite s s.cur.ctx (s.rS b) q.bytes = .ok s1 → exec (.rqrd d a b) s = .next (gave s1)) ∧
    (∀ e, inside → plainWrite s s.cur.ctx (s.rS b) q.bytes = .error e → exec (.rqrd d a b) s = s.raise e) ∧
    (let at_ := fun (o n : Nat) => leNat ((q.bytes.drop o).take n);
      q.bytes.length = 128 ∧ at_ 0 8 = q.rid.toNat ∧ at_ 8 1 = q.state.toNat ∧ at_ 9 1 = q.prio.toNat ∧ at_ 0xC 2 = q.flags.toNat ∧
      at_ 0xE 2 = q.slot.toNat ∧ at_ 0x10 4 = q.pos.toNat ∧ at_ 0x14 4 = q.maxtok.toNat ∧ at_ 0x18 8 = q.admseq.toNat ∧
      at_ 0x20 8 = q.kvpt.toNat ∧ at_ 0x28 8 = q.xst.toNat ∧ at_ 0x30 8 = q.stopset.toNat ∧ at_ 0x38 8 = q.seed.toNat ∧
      at_ 0x40 2 = q.asid.toNat ∧ at_ 0x44 4 = q.fltcode.toNat ∧ at_ 0x48 4 = q.lasttok.toNat ∧ at_ 0x50 48 = q.swarea.toNat) ∧
    ((∃ e, readVa s j.asid (s.rS b) 128 = .error e) → givesS s (.rqwr mask d a b) 1 d 1) ∧
    (readVa s j.asid (s.rS b) 128 = .ok img → shut → givesS s (.rqwr mask d a b) 1 d 1) ∧
    (inside → readVa s j.asid (s.rS b) 128 = .ok img → ¬ shut → ∃ z, exec (.rqwr mask d a b) s = .next (gave (s.mapReq i fun _ => z)) ∧
      z.rid.toNat = (if mask.getLsbD 0 then field 0 8 else q.rid.toNat) ∧ z.prio.toNat = (if mask.getLsbD 1 then field 9 1 else q.prio.toNat) ∧
      z.pos.toNat = (if mask.getLsbD 3 then field 0x10 4 else q.pos.toNat) ∧
      z.maxtok.toNat = (if mask.getLsbD 4 then field 0x14 4 else q.maxtok.toNat) ∧
      z.kvpt.toNat = (if mask.getLsbD 5 then field 0x20 8 else q.kvpt.toNat) ∧ z.xst.toNat = (if mask.getLsbD 6 then field 0x28 8 else q.xst.toNat) ∧
      z.stopset.toNat = (if mask.getLsbD 7 then field 0x30 8 else q.stopset.toNat) ∧
      z.seed.toNat = (if mask.getLsbD 8 then field 0x38 8 else q.seed.toNat) ∧ z.asid.toNat = (if mask.getLsbD 9 then field 0x40 2 else q.asid.toNat) ∧
      z.swarea.toNat = (if mask.getLsbD 10 then field 0x50 48 else q.swarea.toNat) ∧ z.state = (if mask.getLsbD 11 then 0 else q.state) ∧
      (∀ n, n < 16 → z.flags.getLsbD n = if mask.getLsbD 2 ∧ 2 ≤ n then decide (n < 4) && (field 0xC 2).testBit n else q.flags.getLsbD n) ∧
      z.slot = q.slot ∧ z.admseq = q.admseq ∧ z.fltcode = (if mask.getLsbD 11 then 0 else q.fltcode) ∧ z.lasttok = q.lasttok) ∧
    (¬ (inside ∧ idle ∧ q.state ∈ [(2 : BitVec 8), 3]) → givesS s (.evict d a) 1 d 1) ∧
    (inside → idle → q.state ∈ [(2 : BitVec 8), 3] → logLets s s.cur.ctx o s1 → s1.req i = q → s1.me.cr.job = s.me.cr.job →
      exec (.evict d a) s = .next (gave ((s1.onChip fun c => { c with dems := c.dems ++ demotionOf s1 jn (readAtStep s1 jn i) }).mapReq i fun q =>
        { q with state := 4, slot := 0xFFFF })))

/-- R50, R73, R75, R88, R175 and R333: STEP waits while a launch of the current step has not completed; it then runs the batch former as one
action, fixes the live-row count, writes the step tables and opens the next step, whose instructions see the KV page tables and requests as they
then stand; under RECORD and REPLAY it takes its records in order as the ring lets it, blocked in between. A queued request whose demand fits is
admitted to the lowest free slot. The address space of a request is the low 13 bits of its ASID, and an unreadable page-table entry names an
absent page (log entries 53 and 54). -/
def Obligations.StepInstruction : Prop :=
  ∀ (s s1 : State) (z : StepRun) (i : Nat) (q : Req) (h : KvHeader) (pa : Nat) (e : Word),
    let jn := s.me.cr.job.toNat; let j := s.job jn; let r := j.reg 0x119; let f : Former := { reqs := z.reqs }
    let waits := fun (t : State) => t.mapMe fun c => { c with blocked := some .step }
    ((∃ x ∈ s.chip.launches, x.2.job = jn ∧ x.2.step = j.stepNo) ∨ j.diverged = true → exec .step s = .next (waits s)) ∧
    (∀ b, planStep s jn = .bad b → exec .step s = s.raise b) ∧
    (planStep s jn = .part s1 → exec .step s = .next (waits s1)) ∧
    (∀ b, planStep s jn = .diverge s1 b → exec .step s = .next (waits (formerDiverges s1 jn b)) ∧ ((formerDiverges s1 jn b).job jn).diverged = true) ∧
    (planStep s jn = .go s1 z → exec .step s = .next (openStep s1 jn z) ∧ (j.fmode = 0 → s1 = s)) ∧
    (planStep s jn = .go s z → j.fmode = 0 → ∃ t, exec .step s = .next t ∧ (t.job jn).stepNo = j.stepNo + 1 ∧
      (t.job jn).live.toNat = f.live j % 2 ^ 32 ∧ (t.job jn).steps = [] ∧ t.chip.reqs = z.reqs ∧ (t.job jn).snapMem = t.mem ∧
      (t.job jn).snapPoison = t.chip.poison ∧ (z.posts = [] → t.chip.ctxs = s.chip.ctxs) ∧
      (translate s j.asid j.stepbase .write = .ok (pa, e) → t.peek (pa + 0x8000) 4 = f.live j % 2 ^ 32 ∧
        t.peek (pa + 0x8004) 4 = (j.stepNo + 1).toNat ∧
        ∀ a, ¬ (pa ≤ a ∧ a < pa + 0x8040) → Cells.read t.mem a = Cells.read s.mem a) ∧
      (s.chip.reqs = [(i, q)] → bits r 15 0 ≤ i → i < bits r 15 0 + bits r 32 16 → i < 65536 → q.state = 1 → q.slot = 0xFFFF →
        kvHeader s q.space q.kvpt = .ok h → h.ok = true → 0 < bits (j.reg 0x10C) 11 0 →
        2 * h.nblk * h.nhead * ((q.pos.toNat + 448) / 448) ≤ bits (j.reg 0x10C) 63 32 → t.req i = { q with state := 2, slot := 0 }))

/-- R61, R205, R336 and R337: PREEMPT marks its job on the cores and its running and stopped contexts there for saving, PREEMPT.REL takes the mark
away; CTXRES lets a stopped context whose held record it names go on with the trapping slot or after it, CTXRES.KILL ends it; on a saved context
either is recorded. Each gives 0, or 1 with nothing changed where the issuer may not name the object or the record is another. That PREEMPT reads
its core mask without a region check is the model's choice (log entry 61). -/
def Obligations.PreemptAndResume : Prop :=
  ∀ (s : State) (d a b : SReg) (m : Nat) (pt : Resume) (h : Held) (f : Frame) (l : Launch),
    let n := bits (s.rS a) 5 0; let own := s.cur.ctx = 1024 ∨ n = s.me.cr.job.toNat; let read := readVaNum s (asidOf s s.cur.ctx) (s.rS b) 32
    let mask : BitVec 256 := BitVec.ofNat 256 m; let gave := fun (t : State) => t.result 1 (t.wS d 0)
    let g := (s.rS a).toNat; let c := s.ctx g; let seq := s.rS b
    let named := c.status ≠ .free ∧ (g < 1024 ∧ c.cr.job = s.me.cr.job ∨ s.cur.ctx = 1024 ∧ 1024 < g ∧ g < 1088)
    let cut := pt = .skip ∧ h.record.code ≠ 1
    ((¬ own ∨ ∃ e, read = .error e) → givesS s (.preempt d a b) 1 d 1 ∧ givesS s (.preemptRel d a b) 1 d 1) ∧
    (own → read = .ok m → exec (.preemptRel d a b) s = .next (gave (s.mapJob n fun j => { j with preempted := j.preempted &&& ~~~mask })) ∧
      ∃ t, exec (.preempt d a b) s = .next (gave t) ∧ t.chip.jobs = (s.mapJob n fun j => { j with preempted := j.preempted ||| mask }).chip.jobs ∧
        sameBytes s t ∧ ∀ k, t.ctx k = if k < 1024 ∧ mask.getLsbD (k / 4) = true ∧ (s.ctx k).cr.job.toNat = n ∧
          ((s.ctx k).status = .running ∨ (s.ctx k).status = .stopped) ∧ (s.ctx k).endi = false
          then { s.ctx k with preempting := true } else s.ctx k) ∧
    (¬ named → givesS s (.ctxres pt d a b) 1 d 1 ∧ givesS s (.ctxresKill d a b) 1 d 1) ∧
    (named → c.status = .saved → exec (.ctxres pt d a b) s =
        .next (gave (s.mapCtx g fun c => { c with atRestore := some (if pt = .skip then 1 else 0, seq) })) ∧
      exec (.ctxresKill d a b) s = .next (gave (s.mapCtx g fun c => { c with atRestore := some (2, seq) }))) ∧
    (named → c.status ≠ .saved → (c.status ≠ .stopped ∨ c.held = none ∨ c.held = some h ∧ h.seq ≠ some seq) →
      givesS s (.ctxres pt d a b) 1 d 1 ∧ givesS s (.ctxresKill d a b) 1 d 1) ∧
    (named → c.status = .stopped → c.held = some h → h.seq = some seq → h.record.code = 0x08 → givesS s (.ctxres .skip d a b) 1 d 1) ∧
    (named → c.status = .stopped → c.held = some h → h.seq = some seq → ¬ (pt = .skip ∧ h.record.code = 0x08) → h.frame = some f →
      exec (.ctxres pt d a b) s = .next (gave (s.mapCtx g fun c => { c with
        status := .running, held := none, wdCount := 0, blocked := none, stallPosted := false
        kept := some { f with rest := if cut then f.rest.filter fun x => Slot.tslot x.slot != h.record.tslot else f.rest } }))) ∧
    (named → c.status = .stopped → c.held = some h → h.seq = some seq → g < 1024 → s.chip.phasers = [] →
      (∀ y ∈ s.chip.launches, y.2.arrivals = []) → Tab.find s.chip.launches c.cr.launch.toNat = some l → ∃ t, exec (.ctxresKill d a b) s = .next (gave t) ∧
        ((t.ctx g).status = .free ∨ (t.ctx g).status = .reserved) ∧ (∀ k, (t.token k).state ≠ .held g) ∧
        ∃ x, Tab.find t.chip.launches c.cr.launch.toNat = some x ∧ x.cancelled = true ∧ x.count = l.count - 1)

/-- R61 to R64 and R217: a pre-empted context at its bundle boundary, with nothing in flight, is saved whole in its area; it is restored, where
its job is pre-empted no more on the core and nothing of a higher class waits for it, as it was saved; an area that does not verify kills it with
code 0x12. R38, R204, R210 and R211: a context whose bundle has stayed blocked for WDOG cycles on a cause other than budget that is still unmet
stops with code 0x02, the cause and its object in INFO and ADDR; with WDOG zero, before that, or once the cause has cleared, nothing happens. That
a restored context keeps its control registers and its held record, and that the saved registers stand beside memory, in the order of the area's
ciphertext, is the model's choice (log entry 40). -/
def Obligations.SaveRestoreWatchdog : Prop :=
  (∀ (s : State) (id : CtxId) (a : SaveArea), let g := id.toNat; let c := s.ctx g; let base := areaBase s g
     let ready := g < 1024 ∧ c.preempting = true ∧ c.endi = false ∧ c.cancelling = false ∧ c.doom = none ∧
       (c.status = .running ∨ c.status = .stopped) ∧ c.coming = [] ∧ c.reds = [] ∧ ∀ x ∈ (s.core (g / 4)).fly, x.ctx ≠ g
     (¬ ready → exec (.contextSave id) s = .next s) ∧
     (ready → areaPopulated s base = false → exec (.contextSave id) s = .fault (.noSuchAddress base)) ∧
     (ready → areaPopulated s base = true → ∃ t, exec (.contextSave id) s = .next t ∧ (t.ctx g).status = .saved ∧ (t.ctx g).cr = c.cr ∧
       (t.ctx g).pc = c.pc ∧ (t.ctx g).held = c.held ∧ (t.ctx g).saves = c.saves + 1 ∧ (∀ h, h ≠ g → t.ctx h = s.ctx h) ∧
       (∀ x, ¬ (base ≤ x ∧ x < base + 294912) → Cells.read t.mem x = Cells.read s.mem x) ∧
       ∃ y, Tab.find t.chip.areas g = some y ∧ y.base = base ∧ y.count = c.saves ∧ y.launch = c.cr.launch ∧ y.job = c.cr.job ∧
         y.ctx = { c with queued := unissued (s.core (g / 4)) g, preempting := false }) ∧
     (Tab.find s.chip.areas g = none → exec (.contextRestore id) s = .next s) ∧
     (Tab.find s.chip.areas g = some a →
       (restorable s g a = false → exec (.contextRestore id) s = .next s) ∧
       (restorable s g a = true ↔ c.status = .saved ∧ (s.job a.job.toNat).preempted.getLsbD (g / 4) = false ∧
         (s.level (g / 4 / 32)).power = .awake ∧ (s.core (g / 4)).resetting = false ∧ (s.core (g / 4)).mappedOut = false ∧
         ∀ y ∈ s.chip.launches, y.2.active = true → y.2.done = false → (∃ p q r, y.2.walk = some (p, q :: r)) →
           (s.job y.2.job).preempted.getLsbD (g / 4) = false → (coresOf s y.2).getLsbD (g / 4) = true →
           bits ((s.job y.2.job).reg 0x10F) 2 0 ≤ bits ((s.job a.job.toNat).reg 0x10F) 2 0) ∧
       (restorable s g a = true → areaVerifies s g a = true → c.atRestore = none → ∃ t, exec (.contextRestore id) s = .next t ∧
         Tab.find t.chip.areas g = none ∧ sameBytes s t ∧ (∀ h, h ≠ g → t.ctx h = s.ctx h) ∧
         t.ctx g = { a.ctx with status := if c.held.isSome then .stopped else .running, held := c.held, cr := c.cr, saves := c.saves
                                oreds := c.oreds, queued := [], preempting := false, atRestore := none }) ∧
       (restorable s g a = true → areaVerifies s g a = false → g < 1024 → s.chip.phasers = [] →
         (∀ y ∈ s.chip.launches, y.2.arrivals = []) → ∃ t, exec (.contextRestore id) s = .next t ∧
         Tab.find t.chip.areas g = none ∧ ((t.ctx g).status = .free ∨ (t.ctx g).status = .reserved) ∧
         ∃ w ∈ (t.job c.cr.job.toNat).waiting, w.record.code = 0x12 ∧ w.record.info = a.count ∧ w.own = some g))) ∧
  (∀ (s : State) (id : CtxId) (f : Frame) (sl : Slot) (x : Cause), let g := id.toNat; let c := s.ctx g
     ((c.status ≠ .running ∨ c.preempting = true ∨ c.cr.wdog = 0 ∨ c.wdCount < c.cr.wdog.toNat ∨ c.blocked = none ∨ c.blocked = some .budget ∨
       unmet s g = none) → exec (.watchdogTimeout id) s = .next s) ∧
     (c.status = .running → c.preempting = false → c.cr.wdog ≠ 0 → c.cr.wdog.toNat ≤ c.wdCount → c.blocked ≠ none → c.blocked ≠ some .budget →
       unmet s g = some (f, sl, x) → f.ctx = g → g < 1088 → ∃ t h, exec (.watchdogTimeout id) s = .next t ∧ (t.ctx g).status = .stopped ∧
         (t.ctx g).blocked = none ∧ (t.ctx g).held = some h ∧ h.record.code = 0x02 ∧ h.record.kind = 0 ∧ h.record.tslot = Slot.tslot sl ∧
         h.record.info = x.info ∧ h.record.pc = f.pc ∧ h.record.ctx.toNat = g ∧ sameBytes s t ∧ (∀ k, k ≠ g → t.ctx k = s.ctx k) ∧
         ∀ n, g ∉ (t.token n).waiters) ∧
     ((Cause.ring 2).info = 0x200000002 ∧ (Cause.phaser 7).info = 0x700000003 ∧ (Cause.engineFull .x).info = 0x10 ∧ Cause.step.info = 12 ∧
       Cause.message.info = 6 ∧ (Cause.flag 0x40).report.2.2.2 = 0x40))

/-- R341 to R347: AADD and AADDR give their sums one tick later; GSET, GADV and GIDX replace their fields of a stream register, which lands a tick
later with each position reduced modulo its count and bit 63 zero; GLOAD brings a 32-byte image under the same rule, and stops on a misaligned
address with the window's or the translation's code, the address of a scratch error being that of the window (log entry 46). -/
def Obligations.AddressInstructions : Prop :=
  ∀ (s s1 : State) (d a b : SReg) (imm : BitVec 23) (sh : BitVec 3) (f : GField) (lo w : Nat) (g : GReg) (scr : Bool) (bs : List Byte),
    let v := s.rS a; let x := s.rG g
    let count := fun (i : Nat) => bits x (195 + 12 * i) (184 + 12 * i) + 1
    let k := (bits x 231 220 + count 0 * (bits x 243 232 + count 1 * bits x 255 244) + v.toNat) % (count 0 * count 1 * count 2)
    let wa : Word := BitVec.ofNat 64 (0xFE * 2 ^ 40 + s.cur.core * 2 ^ 32 + v.toNat % 2 ^ 30)
    let lands := fun (i : Instr) (y : StreamBits) => ∃ z, fixedStream y z ∧ gives s i 1 [(.g g.toNat, z.toNat)] 0
    givesS s (.aadd d a imm) 1 d (mod64 (v.toInt + imm.toInt)) ∧
    givesS s (.aaddr d a b sh) 1 d ((v.toNat + (s.rS b).toNat * 2 ^ sh.toNat) % 2 ^ 64) ∧
    ((f, lo, w) ∈ [(GField.addr, 0, 56), (.fmt, 56, 4), (.blk, 64, 2), (.brot, 60, 3), (.sstr, 88, 24), (.str0, 112, 24), (.str1, 136, 24),
        (.str2, 160, 24), (.n0, 184, 12), (.n1, 196, 12), (.n2, 208, 12), (.pos, 220, 36)] →
      ∃ y : StreamBits, lands (.gset f g a) y ∧ y.toNat / 2 ^ lo % 2 ^ w = v.toNat % 2 ^ w ∧
        ∀ n, ¬ (lo ≤ n ∧ n < lo + w) → y.getLsbD n = x.getLsbD n) ∧
    (∃ y : StreamBits, lands (.gadv g a) y ∧ (∀ n, n < 220 → y.getLsbD n = x.getLsbD n) ∧ bits y 231 220 = k % count 0 ∧
      bits y 243 232 = k / count 0 % count 1 ∧ bits y 255 244 = k / (count 0 * count 1)) ∧
    (∃ y : StreamBits, lands (.gidx g a) y ∧ bits y 87 68 = bits v 21 2 ∧ y.getLsbD 67 = v.getLsbD 62 ∧ y.getLsbD 66 = v.getLsbD 63 ∧
      ∀ n, ¬ (66 ≤ n ∧ n < 88) → y.getLsbD n = x.getLsbD n) ∧
    (v.toNat % 32 ≠ 0 → exec (.gload scr g a) s = s.raise { code := if scr then 0x14 else 0x10, acc := 0, addr := if scr then wa else v }) ∧
    (v.toNat % 32 = 0 → (if scr then scrRead s s.cur.ctx v 32 else plainRead s s.cur.ctx v 32) = .ok (s1, bs) →
      ∃ z, fixedStream (BitVec.ofNat 256 (leNat bs)) z ∧ brings s s1 (.gload scr g a) [(.g g.toNat, z.toNat)]) ∧
    (∀ e, v.toNat % 32 = 0 → (if scr then scrRead s s.cur.ctx v 32 else plainRead s s.cur.ctx v 32) = .error e →
      exec (.gload scr g a) s = s.raise e)

/-- R344, R348 to R351 and R378: TLD and TST queue one command with the stream, the index entries, the row count and the tile's tag of issue, once
the whole footprint is checked, in a checked mode an address outside the address space being unbound, and ADV moves the stream on. A command that
still owes transfers to its job's HBM allowance waits for them (R36). At its completion TLD gives the tile the rows read along the row walk, the
rest zero, every RCW kept; TST stores the tile's rows in ascending order; a row that fails kills the context. The row walk is R344's. That a
command's effect is that of its completion is the model's reading (log entry 15). -/
def Obligations.TileLoadsAndStores : Prop :=
  ∀ (s s0 s1 : State) (h : Hint) (scr adv : Bool) (tr : TReg) (g : GReg) (a : SReg) (idx : List Nat) (core : BitVec 8) (c : Command)
    (i : Instr) (f : Fmt) (n : Nat) (w : Bool) (bs es : Nat → List Byte) (v : Nat → State) (p : State),
    let x := s.rG g; let me := s.cur.ctx; let tl := s.issueTile tr.toNat
    let whole := fun (k : Nat) => if a = 0 then k else min (s.rS a).toNat 64
    let steps := fun (st : State) (b : Bad) => exec i st = st.raise b
    let u := takeCommand s c; let y := c.cap; let old := (u.ctx c.ctx).tile tr.toNat
    let lf := (streamFmt y.g).1; let kept := c.tile u tr.toNat; let sf := (fmtRun kept.fmt).1
    let walk := fun (f : Fmt) (j : Nat) => c.step f scr j
    ((i, f, n, w) ∈ [(Instr.tld h scr adv tr g a, (streamFmt x).1, whole 64, false), (.tst h scr adv tr g a, (fmtRun tl.fmt).1, whole tl.live.toNat, true)] →
      (captureIndexes s me x n = .ok (s0, idx) → footprint s0 me scr (rowBytes f) w (walkSteps x f scr idx n) = .ok s1 →
        ∃ t, queued s1 t .a i { g := x, idx, count := n } ∧ exec i s = .next (if adv then t.result 1 [.g g (streamAt x n)] else t)) ∧
      (∀ b, captureIndexes s me x n = .error b → steps s b) ∧
      (∀ b, captureIndexes s me x n = .ok (s, idx) → footprint s me scr (rowBytes f) w (walkSteps x f scr idx n) = .error b → steps s b) ∧
      (indirect x = false → captureIndexes s me x n = .ok (s, [])) ∧
      (∀ l, modeOf s me = 0 → footprint s me scr (rowBytes f) w l = .ok s) ∧
      (∀ q l, modeOf s me ≠ 0 → scr = false → (q.row < 0 ∨ 2 ^ 56 ≤ q.row) → footprint s me scr (rowBytes f) w (q :: l) =
        .error { code := 0x04, acc := if w then 1 else 0, addr := wrap 64 q.row, info := 0xFFFF })) ∧
    (nextComplete s core.toNat .a = some c → payCommand s c = (0, p) → exec (.tileCommandComplete core) s = .next (finishTile c p)) ∧
    (∀ m, nextComplete s core.toNat .a = some c → payCommand s c = (m + 1, p) → exec (.tileCommandComplete core) s = .next p) ∧
    (nextComplete s core.toNat .a = some c → c.owed = 0 → c.instr = .tld h scr adv tr g a → rowsRead u c scr lf bs es →
      ∃ t, exec (.tileCommandComplete core) s = .next t ∧ sameBytes s t ∧ (∀ k, k ≠ c.ctx → t.ctx k = s.ctx k) ∧
        tileLoaded c scr lf bs es old ((t.ctx c.ctx).tile tr.toNat) ∧ ∀ k, k ≠ tr.toNat → (t.ctx c.ctx).tile k = (s.ctx c.ctx).tile k) ∧
    (∀ m b, nextComplete s core.toNat .a = some c → c.owed = 0 → c.instr = .tld h scr adv tr g a → m < y.count →
      (∀ j, j < m → (walk lf j).exp = none ∧ walkRead u c.ctx scr (walk lf j).rot (walk lf j).row (rowBytes lf) = .ok (u, bs j)) →
      walkRead u c.ctx scr (walk lf m).rot (walk lf m).row (rowBytes lf) = .error b →
      exec (.tileCommandComplete core) s = .next (killCmd u c b)) ∧
    (nextComplete s core.toNat .a = some c → c.owed = 0 → c.instr = .tst h scr adv tr g a → v 0 = u → rowsStored c scr sf kept v →
      exec (.tileCommandComplete core) s = .next ((v y.count).mapCtx c.ctx (·.orFlags (fmtRun kept.fmt).2))) ∧
    (nextComplete s core.toNat .a = none → exec (.tileCommandComplete core) s = .next s) ∧
    (∀ (q : StreamBits) (x2 j : Nat),
      let c0 := bits q 195 184 + 1; let c1 := bits q 207 196 + 1; let c2 := bits q 219 208 + 1
      let k := (bits q 231 220 + c0 * (bits q 243 232 + c1 * bits q 255 244) + j) % (c0 * c1 * c2)
      let p0 := k % c0; let p1 := k / c0 % c1; let xi := if q.getLsbD 66 then x2 else k / (c0 * c1)
      let base : Int := if scr then bits q 21 0 else bits q 55 0
      let p := walkStep q f scr x2 j; let nbf := f.code.toNat ≤ 6
      p.row = base + p0 * (q.extractLsb' 112 24).toInt + p1 * (q.extractLsb' 136 24).toInt + xi * (q.extractLsb' 160 24).toInt ∧
      p.rot = (if scr then p0 * bits q 62 60 % 16 * 64 else 0) ∧
      (¬ nbf → p.exp = none) ∧ (nbf → bits q 65 64 ≠ 1 → p.exp = some (p.row + 8 * (f.code.toNat + 2))) ∧
      (nbf → bits q 65 64 = 1 → p.exp = some (base + (q.extractLsb' 88 24).toInt + 4 * k)))

/-- R340, R352 and R353: SLD and VLDS bring the bytes at a scratch offset, extended or as 64 lanes, SST and VSTS write them; outside the share, or
a vector offset that is no multiple of 4, is a window error, at the window's address of the offset (log entry 46). Where the core maps nothing
there, a read gives the scratchpad's bytes, or consumes their poison, and a write replaces exactly them. R131 to R133, R155 and R354 to R356: RMAP
writes the lowest free map entry with its sectors INVALID and gives its index, or a status with nothing changed, of which 2 needs a range of some
bytes; RUNMAP region-checks and writes back an entry of the job and clears it; RWB, RINV and RFILL act on the DIRTY, the valid and the INVALID
sectors a range names and give their number. A sector written back stores its masked bytes and is CLEAN; one filled holds the memory's bytes and
is CLEAN. An offset S[a] + off is taken modulo 2^64, and of several statuses of RMAP the lowest is given, the model's choices (log entries 57 and
29). -/
def Obligations.ScratchAccesses : Prop :=
  (∀ (s s1 : State) (d a : SReg) (v : VReg) (off : BitVec 18) (bs : List Byte) (lz : LdSize) (sz : StSize) (n : Nat) (b : Bad),
     let x := s.at a off.toInt; let g := s.cur.ctx; let u := leNat bs; let core := coreOf g; let o := x.toNat
     let wa : Word := BitVec.ofNat 64 (0xFE * 2 ^ 40 + core * 2 ^ 32 + o % 2 ^ 30)
     let store := fun (i : Instr) (l : List Byte) => (scrWrite s g x l = .ok s1 → exec i s = .next s1) ∧
       (scrWrite s g x l = .error b → exec i s = s.raise b)
     ((lz, n) ∈ [(LdSize.b, 1), (.bu, 1), (.h, 2), (.hu, 2), (.w, 4), (.wu, 4), (.d, 8)] →
       (scrRead s g x n = .ok (s1, bs) → brings s s1 (.sld lz d a off)
         (s.scalarName d (mod64 (if lz = .b ∨ lz = .h ∨ lz = .w then (BitVec.ofNat (8 * n) u).toInt else u)))) ∧
       (scrRead s g x n = .error b → exec (.sld lz d a off) s = s.raise b)) ∧
     ((sz, n) ∈ [(StSize.b, 1), (.h, 2), (.w, 4), (.d, 8)] → store (.sst sz d a off) (leBytes n (s.rS d).toNat)) ∧
     (o % 4 ≠ 0 → exec (.vlds v a off) s = s.raise { code := 0x14, acc := 0, addr := wa } ∧
       exec (.vsts v a off) s = s.raise { code := 0x14, acc := 1, addr := wa }) ∧
     (o % 4 = 0 → (scrRead s g x 256 = .ok (s1, bs) → brings s s1 (.vlds v a off) (s.vectorName v (u % 2 ^ 2048))) ∧
       (scrRead s g x 256 = .error b → exec (.vlds v a off) s = s.raise b) ∧ store (.vsts v a off) (leBytes 256 (s.rV v).toNat)) ∧
     (let j := s.job (s.ctx g).cr.job.toNat; let inside := j.scrBase ≤ o ∧ o + n ≤ j.scrBase + j.scrLen
       (n ≠ 0 → ¬ inside → scrRead s g x n = .error { code := 0x14, acc := 0, addr := wa } ∧
         (bs.length = n → scrWrite s g x bs = .error { code := 0x14, acc := 1, addr := wa })) ∧
       (inside → (s.core core).entries = [] →
         (scrPoisoned s core o n = true → ∃ e, scrRead s g x n = .error e ∧ e.code = 0x11 ∧ e.addr = BitVec.ofNat 64 (0xFE * 2 ^ 40 + core * 2 ^ 32 + o)) ∧
         (scrPoisoned s core o n = false → scrRead s g x n = .ok (s, Cells.bytes s.scr (scrKey core o) n)) ∧
         (bs.length = n → ∃ t, scrWrite s g x bs = .ok t ∧ t.mem = s.mem ∧ t.rep = s.rep ∧ t.chip.ctxs = s.chip.ctxs ∧
           ∀ k, Cells.read t.scr k = if scrKey core o ≤ k ∧ k < scrKey core o + n then bs.getD (k - scrKey core o) 0 else Cells.read s.scr k)))) ∧
  (∀ (s s1 s2 : State) (d a b : SReg) (i k m pa : Nat) (e : MapEntry) (w : Word) (mask : BitVec 48) (bad : Bad),
     let x := s.rS a; let y := s.rS b; let cc := s.cur.core; let core := s.core cc; let j := s.job s.me.cr.job.toNat
     let va := x.toNat; let soff := bits y 21 0; let len := bits y 43 22
     let taken := fun (n : Nat) => ∃ q ∈ core.entries, q.1 = n
     let full := ∀ n, n < 64 → taken n
     let clash := len ≠ 0 ∧ ∃ q ∈ core.entries, soff < q.2.soff + q.2.len ∧ q.2.soff < soff + len
     let wrong := 2 ^ 56 ≤ va ∨ bits y 63 44 ≠ 0 ∨ len < 16 ∨ 3145728 < len ∨ va % 65536 % 48 ≠ 0 ∨ (va + len) % 65536 % 48 ≠ 0 ∨
       soff % 16 ≠ 0 ∨ ¬ (j.scrBase ≤ soff ∧ soff + len ≤ j.scrBase + j.scrLen)
     let mine := fun (q : Nat × MapEntry) => q ∈ core.entries ∧ j.scrBase ≤ q.2.soff ∧ q.2.soff + 1 ≤ j.scrBase + j.scrLen
     let named := (core.dirtySectors va).map fun y => (va, e, y.1)
     let dirtied := (s.named x y).filter fun q => (core.sector q.1 q.2.2).any (· != 0)
     let valid := (s.named x y).filter fun q => (core.sector q.1 q.2.2).isSome
     let invalid := (s.named x y).filter fun q => (core.sector q.1 q.2.2).isNone
     (full → givesS s (.rmap d a b) 1 d 1) ∧ (¬ full → clash → givesS s (.rmap d a b) 1 d 2) ∧
     (¬ full → ¬ clash → wrong → givesS s (.rmap d a b) 1 d 3) ∧
     (i < 64 → ¬ taken i → (∀ n, n < i → taken n) → ¬ clash → ¬ wrong → ∃ t x, exec (.rmap d a b) s =
         .next (t.result 1 (s.wS d (BitVec.ofNat 64 (256 * i)))) ∧ (let c := t.core cc
       Tab.find c.map i = some x ∧ MapEntry.read x = some ⟨va, len, soff, asidOf s s.cur.ctx % 8192⟩ ∧
       (∀ n, n ≠ i → Tab.find c.map n = Tab.find core.map n) ∧ (∀ n, n < 2 ^ 20 → c.sector i n = none) ∧
       (∀ n m, n ≠ i → m < 2 ^ 20 → c.sector n m = core.sector n m) ∧ c = { core with map := c.map, sect := c.sect }) ∧
       (∀ n, n ≠ cc → t.core n = s.core n) ∧ t.chip.ctxs = s.chip.ctxs ∧ sameBytes s t) ∧
     ((64 ≤ va ∨ ∀ q, mine q → q.1 ≠ va) → givesS s (.runmap d a) 1 d 1) ∧
     (va < 64 → mine (va, e) → (core.map.map Prod.fst).Nodup → 
       (checkSectors s true named = .ok s1 → writeBackEntry s1.cur.core s1 (va, e) = .ok s2 → exec (.runmap d a) s =
         .next ((clearEntry s2 s2.cur.core va).result 1 (s2.wS d 0))) ∧
       (checkSectors s true named = .error bad → exec (.runmap d a) s = s.raise bad) ∧
       (checkSectors s true named = .ok s1 → writeBackEntry s1.cur.core s1 (va, e) = .error bad → exec (.runmap d a) s = s1.raise bad)) ∧
     (exec (.rinv d a b) s = .next (let t := valid.foldl (fun t q => dropSector t t.cur.core q.1 q.2.2) s; t.result 1 (t.wS d (BitVec.ofNat 64 valid.length)))) ∧
     (checkSectors s true dirtied = .ok s1 →
       foldE (fun t q => writeBackSector t.cur.core q.1 q.2.1 t (q.2.2, ((t.core t.cur.core).sector q.1 q.2.2).getD 0)) s1 dirtied = .ok s2 →
       exec (.rwb d a b) s = .next (s2.result 1 (s2.wS d (BitVec.ofNat 64 dirtied.length)))) ∧
     (checkSectors s true dirtied = .error bad → exec (.rwb d a b) s = s.raise bad) ∧
     (checkSectors s false invalid = .ok s1 → foldE (fun t q => fillSector t t.cur.core q.1 q.2.2 q.2.1) s1 invalid = .ok s2 →
       exec (.rfill d a b) s = .next (s2.result 1 (s2.wS d (BitVec.ofNat 64 invalid.length)))) ∧
     (checkSectors s false invalid = .error bad → exec (.rfill d a b) s = s.raise bad) ∧
     (translate s e.asid (BitVec.ofNat 64 (e.sectVa m)) .write = .ok (pa, w) → ∃ t, writeBackSector i k e s (m, mask) = .ok t ∧
       (t.core i).sector k m = some 0 ∧ t.scr = s.scr ∧
       (∀ n, n < e.sectLen m → mask.getLsbD n = true → Cells.read t.mem (pa + n) = Cells.read s.scr (scrKey i (e.sectOff m) + n)) ∧
       ∀ n, (¬ (pa ≤ n ∧ n < pa + e.sectLen m) ∨ mask.getLsbD (n - pa) = false) → Cells.read t.mem n = Cells.read s.mem n) ∧
     (translate s e.asid (BitVec.ofNat 64 (e.sectVa m)) .read = .ok (pa, w) → w.getLsbD 63 = false → ∃ t, fillSector s i k m e = .ok t ∧
       (t.core i).sector k m = some 0 ∧ t.mem = s.mem ∧
       ∀ n, n < e.sectLen m → Cells.read t.scr (scrKey i (e.sectOff m) + n) = Cells.read s.mem (pa + n)))

/-- R358 to R361: QCFG writes a handle with HEAD and TAIL zero, or gives a status with nothing changed; QWAITF and QWAITE go on where the ring is
filled, or has room, to their count, block before, and stop with code 0x03 on a count above CAP; QADV.H and QADV.T land HEAD or TAIL advanced by
the smaller of their operand and what the ring holds, or lacks, and QADV.H sends the peer its credit. -/
def Obligations.Rings : Prop :=
  ∀ (s : State) (q : QReg) (d a b : SReg), let x := s.rS a; let y := s.rS b; let h := s.me.rQ q; let j := s.job s.me.cr.job.toNat
    let base := bits x 21 0; let size := (bits x 33 22 + 1) * (16 * (bits x 45 34 + 1)); let peer := bits y 10 0
    let one := base % 16 ≠ 0 ∨ ¬ (j.scrBase ≤ base ∧ base + size ≤ j.scrBase + j.scrLen) ∨ bits x 63 46 ≠ 0 ∨ bits y 63 14 ≠ 0
    let two := peer ≠ 0x7FF ∧ ¬ (peer < 1024 ∧ j.partition.getLsbD (peer / 4) = true)
    let n := bits x 31 0; let cap := bits h 60 49 + 1; let filled := (bits h 127 108 + 2 ^ 20 - bits h 107 88) % 2 ^ 20
    let blocked := s.mapMe fun c => { c with blocked := some (.ring (q.setWidth 32)) }
    let late := (s.me.advance 1).rQ q; let r := s.rQ q; let has := (bits r 127 108 + 2 ^ 20 - bits r 107 88) % 2 ^ 20
    let lacks := bits r 60 49 + 1 - has; let peer' := bits r 71 61
    let moved := fun (v : RingBits) (tail head : Nat) => bits v 127 108 = (bits late 127 108 + tail) % 2 ^ 20 ∧
      bits v 107 88 = (bits late 107 88 + head) % 2 ^ 20 ∧ bits v 87 75 = (bits v 127 108 + 2 ^ 20 - bits v 107 88) % 2 ^ 13 ∧
      bits v 74 19 = bits late 74 19 ∧ bits v 18 0 = 0
    (one → givesS s (.qcfg q d a b) 1 d 1) ∧ (¬ one → two → givesS s (.qcfg q d a b) 1 d 2) ∧
    (¬ one → ¬ two → ∃ v : RingBits, gives s (.qcfg q d a b) 1 ((.q q.toNat, v.toNat) :: s.scalarName d 0) 0 ∧ bits v 36 19 = base / 16 ∧
      bits v 48 37 = bits x 45 34 ∧ bits v 60 49 = bits x 33 22 ∧ bits v 71 61 = peer ∧ bits v 74 72 = bits y 13 11 ∧ bits v 127 75 = 0 ∧
      bits v 18 0 = 0) ∧
    (cap < n → exec (.qwaitf q a) s = s.raise { code := 0x03, info := BitVec.ofNat 64 (q.toNat + 2 ^ 8 * cap + 2 ^ 32 * n) } ∧
      exec (.qwaite q a) s = s.raise { code := 0x03, info := BitVec.ofNat 64 (q.toNat + 8 + 2 ^ 8 * cap + 2 ^ 32 * n) }) ∧
    (n ≤ cap → exec (.qwaitf q a) s = .next (if n ≤ filled then s else blocked) ∧
      exec (.qwaite q a) s = .next (if n ≤ cap - filled then s else blocked)) ∧
    (∃ v, gives s (.qadvT q a) 1 [(.q q.toNat, v.toNat)] 0 ∧ moved v (min n lacks) 0) ∧
    (peer' = 0x7FF → ∃ v, gives s (.qadvH q a) 1 [(.q q.toNat, v.toNat)] 0 ∧ moved v 0 (min n has)) ∧
    (peer' ≠ 0x7FF → exec (.qadvH q a) s = .next (inject (s.result 1 [.qadv q (BitVec.ofNat 20 (min n has)) 0]) s.cur.core
      [s.flit s.me.cr.job peer' (peer' / 4) 0 1 false (.credit (r.extractLsb' 72 3) (BitVec.ofNat 20 (min n has)))]))

/-- R108, R364, R366 and R367: the FP32 instructions compute each selected lane from its operands at issue, read and rounded once under the
pipeline mode, merge the others and gather the selected lanes' flags; any NaN operand gives 0x7FC0_0000; VABS and VNEG act on the sign. VCMP
writes the mask of selected lanes whose condition holds, IV for a signalling NaN and for any NaN under an ordering. IV of VFMA for zero times
infinity with a quiet NaN addend is the model's choice (log entry 58). -/
def Obligations.VectorFloat : Prop :=
  ∀ (s : State) (d a b : VReg) (k : KReg) (i : Instr) (n : Nat) (z : Nat → Lane × BitVec 8) (nan : Nat → Prop) (cn : Cond) (kd : KReg)
    (r : Nat → Prop), let ex := s.cur.exposed; let m := s.rK k
    let x := fun j => laneOf (s.rV a) j; let y := fun j => laneOf (s.rV b) j; let w := fun j => laneOf (s.rV d) j
    let two := fun (op : Val → Val → Val × BitVec 8) (j : Nat) => fp32Op2 ex op (x j) (y j)
    let one := fun (op : Val → Val × BitVec 8) (j : Nat) => fp32Op1 ex op (x j)
    let xn := fun j => laneNan (x j); let xyn := fun j => laneNan (x j) ∨ laneNan (y j)
    let flushed := fun (l : Lane) => ex = true ∧ laneSubnormal l
    ((i, n, z, nan) ∈ [(Instr.vadd d a b k, 4, two Val.add, xyn), (.vsub d a b k, 4, two (fun u v => u.add v.opp), xyn),
        (.vmul d a b k, 4, two Val.mul, xyn), (.vmax d a b k, 4, two (Val.pick true), xyn), (.vmin d a b k, 4, two (Val.pick false), xyn),
        (.vdiv d a b k, 14, two Val.div, xyn), (.vfma d a b k, 4, fun j => fp32Fma ex (x j) (y j) (w j), fun j => xyn j ∨ laneNan (w j)),
        (.vabs d a k, 1, one (fun u => (u.abs, 0)), xn), (.vneg d a k, 1, one (fun u => (u.opp, 0)), xn), (.vsqrt d a k, 14, one Val.sqrt, xn),
        (.vscale d a b k, 2, fun j => fp32Op1 ex (fun u => (u.scale (y j).toInt, 0)) (x j), xn),
        (.vexp2 d a k, 6, fun j => let u := fp32F.read ex (x j).toNat; ((exp2Val ex u.1).1, u.2 ||| (exp2Val ex u.1).2), xn)] →
      ∃ fl : BitVec 8, givesLanes s i n d (fun j => if m.getLsbD j then (z j).1.toNat else (w j).toNat) fl ∧
        (∀ e, e < 8 → (fl.getLsbD e = true ↔ anyLane m fun j => (z j).2.getLsbD e = true)) ∧
        (∀ j, nan j → (z j).1 = 0x7FC00000) ∧
        ∀ j, ¬ xn j → ¬ flushed (x j) → (i = .vabs d a k → (z j).1.toNat = (x j).toNat % 2 ^ 31) ∧
          (i = .vneg d a k → (z j).1.toNat = ((x j).toNat + 2 ^ 31) % 2 ^ 32)) ∧
    (let kx := fun j => floatKey ex (x j); let ky := fun j => floatKey ex (y j); let ok := fun j => ¬ xyn j
      (cn, r) ∈ [(Cond.eq, fun j => ok j ∧ kx j = ky j), (.ne, fun j => ¬ (ok j ∧ kx j = ky j)), (.lt, fun j => ok j ∧ kx j < ky j),
        (.le, fun j => ok j ∧ kx j ≤ ky j), (.gt, fun j => ok j ∧ ky j < kx j), (.ge, fun j => ok j ∧ ky j ≤ kx j), (.un, xyn)] →
      ∃ (v : Word) (fl : BitVec 8), givesK s (.vcmp cn kd a b k) 2 kd v fl ∧ (∀ j, j < 64 → (v.getLsbD j = true ↔ m.getLsbD j = true ∧ r j)) ∧
        (fl.getLsbD 0 = true ↔ anyLane m fun j => laneSignals (x j) ∨ laneSignals (y j) ∨ (cn ∈ [Cond.lt, .le, .gt, .ge] ∧ xyn j)) ∧
        (fl.getLsbD 5 = true ↔ anyLane m fun j => flushed (x j) ∨ flushed (y j)) ∧ ∀ e, e ≠ 0 → e ≠ 5 → fl.getLsbD e = false)

/-- R155 to R158 and R160: the region checker. In FREE nothing is checked. In the checked modes an access inside one sector is decided by the
first class that applies: the bound region that holds it, by its kind the rights of R156 and R157; a launch-private page, where a sector that
another iteration has written, or a write to one that another has read, is refused, and the access takes the sector's grant; a page that its
translation shows to be readable and not writable, for reads; else nothing. A refusal has code 0x04, the access kind, the address and INFO the
region's index, 0xFFFE or 0xFFFF, and nothing is translated or changed. A plain write to the flag word of a bound flag region is refused, in
STRICT of all but the producer (R179). An access over two sectors is refused by the first part that is. An acquire that observes PV or more lets a
context read the flag's region, and a release of the producer that writes PV or more publishes it. That the handler runs of a launch count as one
iteration is the model's choice (log entry 60). -/
def Obligations.RegionChecker : Prop :=
  ∀ (s : State) (g n m p ix k pa : Nat) (va : Word) (w : Bool) (r : Region) (l : Launch) (wr : Option Nat) (rds : List Nat) (e : Word) (z : Nat × Region)
    (b : Bad) (t : State),
    let c := s.ctx g; let jn := c.cr.job.toNat; let j := s.job jn; let a := va.toNat; let mode := modeOf s g; let chk := regionCheck s g va n w
    let me := c.cr.iterno.toNat; let no := fun (i : Nat) => chk = .error { code := 0x04, acc := if w then 1 else 0, addr := va, info := BitVec.ofNat 64 i }
    let hit := j.regions.find? fun y => decide (y.2.base ≤ a) && decide (a < y.2.base + y.2.len); let kind := bits r.ctl 5 4; let wpar := bits r.ctl 3 3
    let word := j.regions.find? fun y => decide (bits y.2.ctl 5 4 = 2 ∧ y.2.obj < a + n ∧ a < y.2.obj + 8 ∧ (mode ≠ 1 ∨ y.2.prod ≠ g))
    let inside := 0 < n ∧ a + n ≤ 2 ^ 64 ∧ sectorOf (a + n - 1) = sectorOf a; let clear := w = false ∨ word = none
    let slice := fun (y : Member) => y.ix < r.nslice ∧ r.base + y.ix * r.slen ≤ a ∧ a + n ≤ r.base + (y.ix + 1) * r.slen
    let windows := fun (y : Member) => y.sig = true ∧ y.sp = y.wp ∧
      (y.sp.toNat % 2 = wpar ∧ slice y ∨ y.waited = true ∧ y.sp.toNat % 2 ≠ wpar ∧ w = false)
    let rights := kind = 1 ∧ (s.token r.obj).state = .held g ∨
      kind = 2 ∧ (if r.prod = g then w = false ∨ r.published = false else w = false ∧ g ∈ r.seen) ∨
      kind ≠ 1 ∧ kind ≠ 2 ∧ ∃ y, (s.phaser r.obj).member g = some y ∧ windows y
    let priv := ∃ y ∈ l.priv, y.1 ≤ a ∧ a < y.1 + if y.2 = 0 then 0x10000 else 0x400000
    let mine := Tab.find s.chip.launches c.cr.launch.toNat; let clash := (∃ o, wr = some o ∧ o ≠ me) ∨ wr = none ∧ w = true ∧ ∃ o ∈ rds, o ≠ me
    let open_ := mine = none ∨ mine = some l ∧ ¬ priv; let pv := fun (y : Region) (i : Nat) => bits y.ctl 5 4 = 2 ∧ y.obj = i ∧ y.pv.toNat ≤ k
    (mode = 0 → chk = .ok s) ∧
    (mode ≠ 0 → w = true → word = some z → no z.1) ∧
    (mode ≠ 0 → clear → inside →
      (hit = some (ix, r) → (rights → chk = .ok s) ∧ (¬ rights → no ix)) ∧
      (hit = none → mine = some l → priv → Tab.get (none, []) l.grants (sectorOf a) = (wr, rds) → (clash → no 0xFFFE) ∧
        (¬ clash → ∃ u x, chk = .ok u ∧ sameBytes s u ∧ u.chip.ctxs = s.chip.ctxs ∧ Tab.find u.chip.launches c.cr.launch.toNat = some x ∧
          x = { l with grants := x.grants } ∧ (∀ i, i ≠ sectorOf a → Tab.get (none, []) x.grants i = Tab.get (none, []) l.grants i) ∧
          (w = true → Tab.get (none, []) x.grants (sectorOf a) = (some me, rds)) ∧
          (w = false → ∃ q, Tab.get (none, []) x.grants (sectorOf a) = (wr, q) ∧ ∀ i, i ∈ q ↔ i = me ∨ i ∈ rds))) ∧
      (hit = none → open_ →
        (lookup s (asidOf s g) va = .poison p → chk = .error { code := 0x11, acc := if w then 1 else 0, addr := va, info := BitVec.ofNat 64 p }) ∧
        (w = true → (∀ i, lookup s (asidOf s g) va ≠ .poison i) → no 0xFFFF) ∧
        (w = false → translate s (asidOf s g) va .read = .ok (pa, e) → if e.getLsbD 61 = true then no 0xFFFF else chk = .ok s) ∧
        (w = false → translate s (asidOf s g) va .read = .error b → b.code = 0x10 → no 0xFFFF))) ∧
    (mode ≠ 0 → clear → 0 < m → m < n → a + n < 2 ^ 64 → a + m = sectorBase (sectorOf a + 1) → sectorOf (a + n - 1) = sectorOf a + 1 →
      (regionCheck s g va m w = .error b → chk = .error b) ∧
      (regionCheck s g va m w = .ok t → regionCheck s g (va + BitVec.ofNat 64 m) (n - m) w = .error b → chk = .error b)) ∧
    (w = false → chk = .error b → plainRead s g va n = .error b) ∧
    (∀ bs, bs.length = n → w = true → chk = .error b → plainWrite s g va bs = .error b) ∧
    (Tab.find j.regions ix = some r → ∃ x y, Tab.find ((observeFlag s g a k).job jn).regions ix = some x ∧ x = { r with seen := x.seen } ∧
      (∀ i, i ∈ x.seen ↔ i ∈ r.seen ∨ i = g ∧ pv r a) ∧ Tab.find ((publishFlag s jn g a k).job jn).regions ix = some y ∧
      y = { r with published := y.published } ∧ (y.published = true ↔ r.published = true ∨ r.prod = g ∧ pv r a))

/-- R112, R364, R367 and R368: the integer vector instructions give each selected lane the value of R368's table and merge the others, with no
flag; VICMP writes the mask of selected lanes whose condition holds. R101, R365, R369, R376 and R377: the lane instructions move lanes as R369
says; the mask instructions combine, count and move masks; VRNG gives each selected lane its sixteen random bits of the context's head row and
moves RNGCTR on by one. -/
def Obligations.IntegerVectorsLanesRandom : Prop :=
  (∀ (s : State) (d a b : VReg) (k kd : KReg) (i : Instr) (n : Nat) (z : Nat → Nat) (cn : Cond) (r : Nat → Prop), let m := s.rK k
       let x := fun j => (laneOf (s.rV a) j).toNat; let y := fun j => (laneOf (s.rV b) j).toNat
       let sx := fun j => (laneOf (s.rV a) j).toInt; let sy := fun j => (laneOf (s.rV b) j).toInt
       let mod := fun (v : Int) => (v % 2 ^ 32).toNat
       ((i, n, z) ∈ [(Instr.viadd d a b k, 2, fun j => (x j + y j) % 2 ^ 32), (.visub d a b k, 2, fun j => mod (x j - y j)),
           (.vimul d a b k, 3, fun j => x j * y j % 2 ^ 32), (.vimin true d a b k, 2, fun j => min (x j) (y j)),
           (.vimax true d a b k, 2, fun j => max (x j) (y j)), (.vimin false d a b k, 2, fun j => mod (min (sx j) (sy j))),
           (.vimax false d a b k, 2, fun j => mod (max (sx j) (sy j))), (.vand d a b k, 2, fun j => Nat.land (x j) (y j)),
           (.vor d a b k, 2, fun j => Nat.lor (x j) (y j)), (.vxor d a b k, 2, fun j => Nat.xor (x j) (y j)),
           (.vshl d a b k, 2, fun j => x j * 2 ^ (y j % 32) % 2 ^ 32), (.vshr true d a b k, 2, fun j => x j / 2 ^ (y j % 32)),
           (.vshr false d a b k, 2, fun j => mod (sx j / 2 ^ (y j % 32)))] →
         givesLanes s i n d (fun j => if m.getLsbD j then z j else (laneOf (s.rV d) j).toNat) 0) ∧
       ((cn, r) ∈ [(Cond.eq, fun j => x j = y j), (.ne, fun j => x j ≠ y j), (.lt, fun j => sx j < sy j), (.le, fun j => sx j ≤ sy j),
           (.gt, fun j => sy j < sx j), (.ge, fun j => sy j ≤ sx j), (.ltu, fun j => x j < y j), (.leu, fun j => x j ≤ y j),
           (.gtu, fun j => y j < x j), (.geu, fun j => y j ≤ x j)] →
         ∃ v : Word, givesK s (.vicmp cn kd a b k) 2 kd v 0 ∧ ∀ j, j < 64 → (v.getLsbD j = true ↔ m.getLsbD j = true ∧ r j))) ∧
  (∀ (s : State) (d a b : VReg) (k ka kb kd : KReg) (sd sa : SReg) (lane : BitVec 6), let m := s.rK k; let ma := s.rK ka; let mb := s.rK kb
       let x := fun j => (laneOf (s.rV a) j).toNat; let y := fun j => (laneOf (s.rV b) j).toNat; let w := fun j => (laneOf (s.rV d) j).toNat
       let low := (s.rS sa).toNat % 2 ^ 32
       let merged := fun (z : Nat → Nat) (j : Nat) => if m.getLsbD j then z j else w j
       let row := randomRow s.me.cr.key0 s.me.cr.key1 s.me.cr.rngctr
       givesLanes s (.vsel d a b k) 1 d (fun j => if m.getLsbD j then x j else y j) 0 ∧
       givesLanes s (.vbcst d sa k) 1 d (merged fun _ => low) 0 ∧
       givesS s (.vgetl lane sd a) 2 sd (x lane.toNat) ∧
       givesLanes s (.vputl lane d sa k) 2 d (merged fun j => if j = lane.toNat then low else w j) 0 ∧
       givesLanes s (.vperm d a b k) 3 d (merged fun j => x (y j % 64)) 0 ∧
       givesLanes s (.viota d sa k) 1 d (merged fun j => ((s.rS sa).toNat + j) % 2 ^ 32) 0 ∧
       givesK s (.klog .and kd ka kb) 1 kd (BitVec.ofNat 64 (Nat.land ma.toNat mb.toNat)) 0 ∧
       givesK s (.klog .or kd ka kb) 1 kd (BitVec.ofNat 64 (Nat.lor ma.toNat mb.toNat)) 0 ∧
       givesK s (.klog .xor kd ka kb) 1 kd (BitVec.ofNat 64 (Nat.xor ma.toNat mb.toNat)) 0 ∧
       givesK s (.klog .andn kd ka kb) 1 kd (BitVec.ofNat 64 (Nat.land ma.toNat (2 ^ 64 - 1 - mb.toNat))) 0 ∧
       givesS s (.kpopc sd ka) 2 sd ((List.range 64).filter fun j => ma.getLsbD j).length ∧
       givesK s (.kmov kd ka) 1 kd ma 0 ∧ givesK s (.kmovS2k kd sa) 1 kd (s.rS sa) 0 ∧ givesS s (.kmovK2s sd ka) 1 sd ma.toNat ∧
       (s.advanceRng 1).me.cr.rngctr = s.me.cr.rngctr + 1 ∧ ∃ v : Vec, givesFrom s (s.advanceRng 1) (.vrng d k) 1
           (s.vectorName d v.toNat) 0 ∧ ∀ j, j < 64 → (laneOf v j).toNat = merged (fun j => (row.getD j 0).toNat) j)

/-- R103, R110, R111, R370 and R372 to R375: VCVT converts each selected lane; VTR brings the row, or the RCW column, of a tile that holds no
poison; VTW puts a row, or the column, on its way to a tile; VRED combines the lanes in a fixed tree, an excluded lane entering as the operation's
identity, and ARGMAX finds the lowest lane that none ranks above; VTOPK gives the greatest candidates in order. -/
def Obligations.ConvertTileReduce : Prop :=
  ∀ (s : State) (d a b : VReg) (k : KReg) (src dst : Fmt) (rm : Round) (t : TReg) (sb : SReg) (op : VRedOp) (unit : Lane)
    (f : Val → Val → Val × BitVec 8) (nm1 : BitVec 6), let ex := s.cur.exposed; let m := s.rK k
    let x := fun j => laneOf (s.rV a) j; let y := fun j => laneOf (s.rV b) j; let w := fun j => laneOf (s.rV d) j
    let s1 := if rm = .sr then s.advanceRng 1 else s
    let u := fun j => if rm = .sr then (randomRow s.me.cr.key0 s.me.cr.key1 s.me.cr.rngctr).getD j 0 else 0
    let conv := fun j => convertLane src dst rm (u j) ex (x j)
    let tl := s.me.tile t.toNat; let r := (s.rS sb).toNat % 64; let row := tl.row r; let tf := (fmtRun tl.fmt).1
    let val := fun j => (fp32F.read ex (x j).toNat).1
    let cand := fun j => (⟨val j, y j, j⟩ : Candidate)
    (∃ (v : Vec) (fl : BitVec 8), givesFrom s s1 (.vcvt src dst rm d a k) 3 (s.vectorName d v.toNat) fl ∧
      (∀ j, j < 64 → laneOf v j = if m.getLsbD j then (conv j).1 else w j) ∧
      (∀ e, e < 8 → (fl.getLsbD e = true ↔ anyLane m fun j => (conv j).2.getLsbD e = true))) ∧
    (∀ j, (src = .rcw ∨ dst = .rcw → conv j = (x j, 0)) ∧ (src = .i8 → dst = .i32 → conv j = (((x j).extractLsb' 0 8).signExtend 32, 0)) ∧
      (src = .i32 → dst = .i8 → rm = .rne → (conv j).1.toInt = max (-128) (min 127 (x j).toInt)) ∧
      (src = .bf16 → dst = .fp32 → ex = false → ¬ laneNan (x j <<< 16) → conv j = (x j <<< 16, 0))) ∧
    (row.poison = true → exec (.vtr rm false d t sb) s = s1.raise poisonedReg) ∧
    (row.poison = false → ∃ (v : Vec) (fl : BitVec 8), bringsFlagged s s1 (.vtr rm false d t sb) (s.vectorName d v.toNat) fl ∧
      (tf ∈ [Fmt.fp32, .i32, .rcw] → ∀ j, j < 64 → laneOf v j = if j < 32 then word32 row.data j else 0) ∧
      (tf = .i8 → ∀ j, j < 64 → laneOf v j = (byte8 row.data j).signExtend 32) ∧
      (tf = .i16 → ∀ j, j < 64 → laneOf v j = (half16 row.data j).signExtend 32) ∧
      (tf ∉ [Fmt.fp32, .i32, .rcw, .i8, .i16] → ∀ j, j < 64 → laneOf v j = (toLane .fp32 rm (u j) ex (elemVal tf ex row j).1).1)) ∧
    ((∀ q ∈ tl.rows, q.2.poison = false) → ∃ v : Vec, bringsFlagged s s (.vtr .rne true d t sb) (s.vectorName d v.toNat) (fmtRun tl.fmt).2 ∧
      ∀ j, j < 64 → laneOf v j = (tl.row j).rcw) ∧
    (∃ g : Coming, exec (.vtw .rne true t a sb) s = .next (s.mapMe fun c => { c with coming := c.coming ++ [g] }) ∧ ∀ (c : Ctx) (j : Nat),
      let z := (c.landComing g).tile t.toNat; let o := c.tile t.toNat
      z.fmt = o.fmt ∧ z.live = o.live ∧ z.row j = { o.row j with rcw := if j < 64 then x j &&& 0x3FFFFFFF else (o.row j).rcw }) ∧
    (∃ g : Coming, exec (.vtw rm false t a sb) s = .next (s1.mapMe fun c => { c with coming := c.coming ++ [g] }) ∧ ∀ (c : Ctx) (j : Nat),
      let z := (c.landComing g).tile t.toNat; let o := c.tile t.toNat
      z.fmt = o.fmt ∧ z.live = o.live ∧ (j ≠ r → z.row j = o.row j) ∧ (z.row r).rcw = (o.row r).rcw ∧ (z.row r).poison = false ∧
      (tf ∈ [Fmt.fp32, .i32, .rcw] → (z.row r).data = (s.rV a).extractLsb' 0 1024 ∧ (z.row r).e0 = 0 ∧ (z.row r).e1 = 0)) ∧
    ((op, unit, f) ∈ [(VRedOp.sum, 0x80000000, Val.add), (.max, 0xFF800000, Val.pick true), (.min, 0x7F800000, Val.pick false)] →
      ∃ (q : Nat → Nat → Lane) (fl : BitVec 8), (∀ j, j < 64 → q 0 j = if m.getLsbD j then x j else unit) ∧
        (∀ l j, l < 6 → j < 2 ^ (5 - l) → q (l + 1) j = (fp32Op2 ex f (q l (2 * j)) (q l (2 * j + 1))).1) ∧
        givesLanes s (.vred op d a k) 7 d (fun j => if j = 0 then (q 6 0).toNat else 0) fl) ∧
    (∃ fl, (m = 0 → givesLanes s (.vred .argmax d a k) 7 d (fun j => if j = 0 then 0xFF800000 else if j = 1 then 0xFFFFFFFF else 0) fl) ∧
      (m ≠ 0 → ∃ z, z < 64 ∧ m.getLsbD z = true ∧
        givesLanes s (.vred .argmax d a k) 7 d (fun j => if j = 0 then (fp32Of (val z)).toNat else if j = 1 then z else 0) fl ∧
        ∀ j, j < 64 → m.getLsbD j = true → argAbove (val j) (val z) = false ∧ (j < z → argAbove (val z) (val j) = true))) ∧
    (d ≠ b → ∃ (l : List Nat) (u v : Vec) (fl : BitVec 8), l.Nodup ∧ l.length = min (nm1.toNat + 1) ((List.range 64).filter fun j => m.getLsbD j).length ∧
      (∀ j ∈ l, j < 64 ∧ m.getLsbD j = true) ∧ l.Pairwise (fun j z => (cand j).before (cand z) = true) ∧
      (∀ j z, j ∈ l → z ∉ l → z < 64 → m.getLsbD z = true → (cand j).before (cand z) = true) ∧
      gives s (.vtopk nm1 d a b k) 12 (s.vectorName d u.toNat ++ s.vectorName b v.toNat) fl ∧
      ∀ j, j < 64 → (∀ z, l[j]? = some z → laneOf u j = fp32Of (val z) ∧ laneOf v j = y z) ∧
        (l.length ≤ j → j < nm1.toNat + 1 → laneOf u j = 0xFF800000 ∧ laneOf v j = 0xFFFFFFFF) ∧
        (l.length ≤ j → nm1.toNat + 1 ≤ j → laneOf u j = 0 ∧ laneOf v j = 0))

/-- R34, R61, R378, R383 and R411: every M instruction queues one command that holds the operands of issue: the copies, index entries and live
count of its tiles and streams once the streams' footprints are checked, or its scalar, and RNGCTR, which moves on by 64 where it rounds under SR.
The engine accepts the head of its queue, an FRECV to wait for rows, unless the context is being pre-empted with nothing behind it in flight, or a
PUT.H finds its launch's arrivals on the target core full; a memory command, and KVG, is charged to its job's HBM allowance then (R24, R36; log
entry 33), and a restored command that found no place takes the entry freed (log entry 49). -/
def Obligations.MatrixIssueAndAccept : Prop :=
  ∀ (s s0 s1 : State) (a : AReg) (l r x y : MatSrc) (m q t t2 : TReg) (f : Fmt) (rm rn : Round) (hi : Bool) (b : SReg) (g : GReg) (i : Instr)
    (nx n cnt : Nat) (sa : Word) (gx gy : StreamBits) (ix iy : List Nat) (core : BitVec 8) (e : Engine) (c : Command) (rest : List Command),
    let live := fun (z : MatSrc) => s.liveOf z; let cr := s.me.cr; let k := s.core core.toNat; let paid := chargeCommand s c
    ((i, x, nx, y, cnt) ∈ [(Instr.mma a l r, l, 64, r, live l), (.mmas a l r m, l, 64, r, live l), (.matt a q l r, l, 128, r, live (.tile q))] →
      (streamOperand s x nx = .ok (s0, gx, ix) → streamOperand s0 y 64 = .ok (s1, gy, iy) →
        ∃ u, exec i s = .next u ∧ queued s1 u .m i { g := gx, g2 := gy, idx := ix, idx2 := iy, count := cnt }) ∧
      (∀ bad, streamOperand s x nx = .error bad → exec i s = s.raise bad) ∧
      (∀ bad, streamOperand s x nx = .ok (s0, gx, ix) → streamOperand s0 y 64 = .error bad → exec i s = s0.raise bad)) ∧
    (streamOperand s (.tile t) n = .ok (s, 0, []) ∧ live (.tile t) = (s.issueTile t.toNat).live.toNat ∧
      (s.cur.ops = none → s.issueTile t.toNat = s.me.tile t.toNat) ∧ live (.stream g) = 64 ∧
      (indirect (s.rG g) = false → modeOf s s.cur.ctx = 0 → streamOperand s (.stream g) n = .ok (s, s.rG g, []))) ∧
    ((i, sa, rn) ∈ [(Instr.mattf f rm t a, 0, rm), (.aclr a b, s.rS b, .rne), (.acrd f rm hi t a, 0, rm), (.acld a t b, s.rS b, .rne),
        (.cmpr t t2 m, 0, .rne), (.mtrn t t2, 0, .rne), (.mzero t, 0, .rne), (.mcvt f rm t t2, 0, rm)] →
      ∃ u, queued s u .m i { sa, rngctr := cr.rngctr, key0 := cr.key0, key1 := cr.key1 } ∧
        exec i s = .next (if rn = .sr then u.advanceRng 64 else u) ∧
        (u.advanceRng 64).me.cr = { u.me.cr with rngctr := u.me.cr.rngctr + 64 }) ∧
    (k.queue e = [] → exec (.engineCommandAccept core e) s = .next s) ∧
    (k.queue e = c :: rest → acceptable s c = false → exec (.engineCommandAccept core e) s = .next s) ∧
    (k.queue e = c :: rest → acceptable s c = true → (∀ o t b, c.instr ≠ .frecv o t b) → exec (.engineCommandAccept core e) s =
      .next (paid.1.mapCore core.toNat fun z => let v := (z.setQueue e rest).fill; { v with fly := v.fly ++ [paid.2] })) ∧
    (∀ o t b, k.queue e = c :: rest → c.instr = .frecv o t b → acceptable s c = true → exec (.engineCommandAccept core e) s =
      .next (paid.1.mapCore core.toNat fun z => let v := (z.setQueue e rest).fill; { v with waitRows := v.waitRows ++ [paid.2] })) ∧
    (∃ n, paid.2 = { c with owed := n }) ∧ (chargedCommand c.instr = false → paid = (s, c)) ∧
    (chargedCommand c.instr = true ↔ memCommand c.instr = true ∨ ∃ hn v h t g a mq, c.instr = .kvg hn v h t g a mq) ∧ (k.late = [] → (k.setQueue e rest).fill = k.setQueue e rest) ∧
    ((s.ctx c.ctx).preempting = false → (∀ d h u v w, c.instr ≠ .put d (.handler h) u v w) → acceptable s c = true) ∧
    ((s.ctx c.ctx).preempting = true → (∀ z ∈ (s.core (coreOf c.ctx)).fly, z.ctx ≠ c.ctx) → acceptable s c = false) ∧
    (∀ d h u v w ln, c.instr = .put d (.handler h) u v w → Tab.find s.chip.launches c.launch.toNat = some ln →
      8 ≤ (ln.arrivals.filter fun z => z.core == bits c.cap.sd 39 32).length → acceptable s c = false)

/-- R36, R82, R104 to R107 and R378 to R390: what the first matrix command that may complete does to its context's tiles and accumulators, once it
owes its job's HBM allowance nothing: with the tags and live counts of its source tiles captured at issue, and the whole of those that its own
bundle writes (R243), the row groups of its captured or read live count are processed and the rest kept: products added lane by lane, attention
row by row, read-outs rounded once, clears, loads, compression, transposition and conversion; a poisoned row or lane it reads kills its context.
Which rows are looked at for poison, RC raised though a tag is invalid, and MATT over no keys leaving the accumulator are the model's choices (log
entry 30), and so is the random element of an FP32 read-out's high half, that of the accumulator lane (R378; log entry 61). -/
def Obligations.MatrixCommands : Prop :=
  ∀ (s u1 u2 : State) (core : BitVec 8) (c : Command) (a : AReg) (l r : MatSrc) (md : Option TReg) (t t2 m : TReg) (f lf rf : Fmt) (rm : Round)
    (hi : Bool) (b : SReg) (lt rt : Tile) (p : State), let g := c.ctx; let u := takeCommand s c; let y := c.cap; let ex := y.exposed
    let acc := (u.ctx g).acc a.toNat; let old := (u.ctx g).tile t.toNat; let src := c.tile u t2.toNat; let tl := c.tile u t.toNat
    let ends := fun (z : State) => exec (.matrixCommandComplete core) s = .next z
    let elem := fun (f : Fmt) (x : TileRow) (j : Nat) => (elemVal f ex x j).1
    let row := fun (f : Fmt) (x : TileRow) => (List.range 64).map (elem f x)
    (nextComplete s core.toNat .m = none → ends s) ∧
    (nextComplete s core.toNat .m = some c → payCommand s c = (0, p) → ends (finishMatrix c (takeCommand p c))) ∧
    (∀ n, nextComplete s core.toNat .m = some c → payCommand s c = (n + 1, p) → ends p) ∧
    (∀ n x, Tab.find y.olds n = some x → c.tile u n = x) ∧
    (∀ n x, Tab.find y.olds n = none → Tab.find y.tags n = some x → c.tile u n = { (u.ctx g).tile n with fmt := x.1, live := x.2 }) ∧
    (∀ n, Tab.find y.olds n = none → Tab.find y.tags n = none → c.tile u n = (u.ctx g).tile n) ∧
    (nextComplete s core.toNat .m = some c → c.owed = 0 →
      (c.instr = .aclr a b → ends (u.setAcc g a.toNat { alpha := y.sa.setWidth 12 })) ∧
      (c.instr = .mzero t → ∃ z, ends (u.setTile g t.toNat z) ∧ z.fmt = old.fmt ∧ z.live = 0 ∧ ∀ j, z.row j = {}) ∧
      ((md = none ∧ c.instr = .mma a l r ∨ md = some m ∧ c.instr = .mmas a l r m) → operand u c l y.g y.idx 64 = (u1, lt, none) →
        operand u1 c r y.g2 y.idx2 64 = (u2, rt, none) → u2.ctx g = u.ctx g →
        let mt := if md = none then ({} : Tile) else c.tile u m.toNat
        let n := 8 * ((y.count + 7) / 8)
        let bad := n ≠ 0 ∧ (anyPoison lt n = true ∨ anyPoison rt 64 = true ∨ anyPoison mt 64 = true ∨ acc.anyPoison n = true)
        let right := fun (k j : Nat) => if md = none then elem rf (rt.row k) j else ((expandRow (mt.row k) ((List.range 64).map (elemVal rf ex (rt.row k)))).getD j (.zero, 0)).1
        (bad → ends (killCmd u2 c poisonedReg)) ∧
        (¬ bad → engineTag lt.fmt = some lf → engineTag rt.fmt = some rf → ∃ z fl, ends ((u2.setAcc g a.toNat z).mapCtx g (·.orFlags fl)) ∧
          z.alpha = acc.alpha ∧ z.rc = BitVec.ofNat 7 (max acc.rc.toNat y.count) ∧ z.mu = acc.mu ∧ z.sum = acc.sum ∧
          ∀ i j, j < 64 → z.lane i j = if i < n then (acc.lane i j).dot acc.alpha.toInt (row lf (lt.row i)) ((List.range 64).map fun k => right k j)
            else acc.lane i j) ∧
        (¬ bad → engineTag lt.fmt = none ∨ engineTag rt.fmt = none → ∃ z, ends ((u2.setAcc g a.toNat z).mapCtx g (·.orFlags fIV)) ∧
          z.alpha = acc.alpha ∧ z.rc = BitVec.ofNat 7 (max acc.rc.toNat y.count) ∧
          ∀ i j, j < 64 → z.lane i j = if i < n then { acc.lane i j with nan := true } else acc.lane i j)) ∧
      (c.instr = .matt a t (.tile t2) (.tile m) → let vt := c.tile u m.toNat; let k1 := c.tile u (t2.toNat + 1)
        let q1 := c.tile u (t.toNat + 1); let n := 8 * ((y.count + 7) / 8)
        let js := (List.range 64).filter fun j => decide (j < src.live.toNat) && !(src.row j).rcw.getLsbD 27
        let bad := anyPoison tl n = true ∨ anyPoison q1 n = true ∨ acc.anyPoison n = true ∨
          ∃ j ∈ js, (src.row j).poison = true ∨ (k1.row j).poison = true ∨ (vt.row j).poison = true
        ((n = 0 ∨ js = []) → ∃ z, ends z ∧ sameBytes s z ∧ (z.ctx g).a = (u.ctx g).a ∧ (z.ctx g).t = (u.ctx g).t) ∧
        (n ≠ 0 → js ≠ [] → bad → ends (killCmd u c poisonedReg)) ∧
        (∀ f0 f1 k0 kf fv, n ≠ 0 → js ≠ [] → ¬ bad → engineTag tl.fmt = some f0 → engineTag q1.fmt = some f1 → engineTag src.fmt = some k0 →
          engineTag k1.fmt = some kf → engineTag vt.fmt = some fv → ∃ z fl, ends ((u.setAcc g a.toNat z).mapCtx g (·.orFlags fl)) ∧
          z.alpha = acc.alpha ∧ ∀ i, let mu := fun (z : Acc) => Tab.get 0xFF800000 z.mu i; let sum := fun (z : Acc) => Tab.get 0 z.sum i
            let kept := mu z = mu acc ∧ sum z = sum acc ∧ ∀ j, j < 64 → z.lane i j = acc.lane i j
            let seen := (attendRow ex (mu acc) (sum acc) (row f0 (tl.row i) ++ row f1 (q1.row i))
              (js.map fun j => (j, row k0 (src.row j) ++ row kf (k1.row j)))).1
            (n ≤ i → kept) ∧ (i < n → seen = none → kept) ∧
            ∀ hi' sm cf ws, i < n → seen = some (hi', sm, cf, ws) → z.rc.toNat = max acc.rc.toNat y.count % 128 ∧ mu z = hi' ∧ sum z = sm ∧
              ∀ j, j < 64 → z.lane i j = (ws.map fun w => ((fp32F.read false w.2.toNat).1, elem fv (vt.row w.1) j)).foldl
                (fun x w => x.add acc.alpha.toInt (contribution w.1 w.2)) ((acc.lane i j).rescale (fp32F.read false cf.toNat).1))) ∧
      (let n := 8 * ((acc.rc.toNat + 7) / 8)
        let val := fun (i j : Nat) => if c.instr = .mattf f rm t a then attnValue (acc.lane i j) acc.alpha.toInt (fp32F.read false (Tab.get 0 acc.sum i).toNat).1
          else (acc.lane i j).value acc.alpha.toInt
        let drop := if hi = true ∧ c.instr = .acrd f rm hi t a then 32 else 0
        let shown := fun (i : Nat) => let v := (List.range 64).map fun j => (val i j).1; if f = .fp32 then (v.drop drop).take 32 else v
        let u16 := fun (i : Nat) => if rm = .sr then randomRow y.key0 y.key1 (y.rngctr + BitVec.ofNat 64 i) else noRow
        c.instr ∈ [Instr.mattf f rm t a, .acrd f rm hi t a] →
          (acc.anyPoison n = true → ends (killCmd u c poisonedReg)) ∧
          (acc.anyPoison n = false → ∃ z fl, ends ((u.setTile g t.toNat z).mapCtx g (·.orFlags fl)) ∧ z.fmt = f.code ∧ z.live = acc.rc ∧
            ∀ i, z.row i = if i < n then { (rowOfVals f rm ((u16 i).drop drop) ex (shown i)).1 with rcw := (old.row i).rcw } else old.row i)) ∧
      (c.instr = .acld a t b → let n := 8 * ((tl.live.toNat + 7) / 8); let tf := (fmtRun tl.fmt).1; let alpha : BitVec 12 := y.sa.setWidth 12
        (anyPoison tl n = true → ends (killCmd u c poisonedReg)) ∧
        (anyPoison tl n = false → ∃ z fl, ends ((u.setAcc g a.toNat z).mapCtx g (·.orFlags fl)) ∧ z.alpha = alpha ∧ z.rc = tl.live ∧ z.mu = [] ∧
          z.sum = [] ∧ ∀ i j, j < 64 → z.lane i j = if i < n then loadedLane alpha.toInt (elem tf (tl.row i) j) else { acc.lane i j with cnt := 0 })) ∧
      (c.instr = .mtrn t t2 → src.live.toNat ≤ 64 → let n := 8 * ((src.live.toNat + 7) / 8)
        (anyPoison src n = true → ends (killCmd u c poisonedReg)) ∧
        (anyPoison src n = false → ∃ z fl, ends ((u.setTile g t.toNat z).mapCtx g (·.orFlags fl)) ∧ z.fmt = src.fmt ∧ z.live = 64 ∧
          (∀ i, i < 64 → (z.row i).rcw = (old.row i).rcw) ∧
          (engineTag src.fmt = some f → 6 < f.code.toNat → let w := if f = .i8 then 8 else 16
            ∀ i j, i < 64 → j < 64 → bits (z.row i).data (w * j + w - 1) (w * j) = if j < n then bits (src.row j).data (w * i + w - 1) (w * i) else 0) ∧
          (engineTag src.fmt = some f → f.code.toNat ≤ 6 → ∀ i, i < 64 → z.row i = { (rowOfVals f .rne noRow false ((List.range 64).map fun j =>
            if j < n then (elemVal f false (src.row j) i).1 else .zero)).1 with rcw := (old.row i).rcw }))) ∧
      (c.instr = .mcvt f rm t t2 → let n := 8 * ((src.live.toNat + 7) / 8); let sf := (fmtRun src.fmt).1
        let u16 := fun (i : Nat) => if rm = .sr then randomRow y.key0 y.key1 (y.rngctr + BitVec.ofNat 64 i) else noRow
        (anyPoison src 64 = true → ends (killCmd u c poisonedReg)) ∧
        (anyPoison src 64 = false → ∃ z fl, ends ((u.setTile g t.toNat z).mapCtx g (·.orFlags fl)) ∧ z.fmt = f.code ∧ z.live = src.live ∧
          ∀ i, i < 64 → (n ≤ i → z.row i = { old.row i with rcw := (src.row i).rcw }) ∧
            (i < n → sf = .rcw → z.row i = { rcw := (src.row i).rcw : TileRow }) ∧
            (i < n → sf ≠ .rcw → z.row i = { (rowOfVals f rm (u16 i) ex (row sf (src.row i))).1 with rcw := (src.row i).rcw }))) ∧
      (c.instr = .cmpr t t2 m → t ≠ m → (anyPoison src 64 = true → ends (killCmd u c poisonedReg)) ∧
        (anyPoison src 64 = false → engineTag src.fmt = some f → ∃ z w fl,
          ends (((u.setTile g t.toNat z).setTile g m.toNat w).mapCtx g (·.orFlags fl)) ∧ z.fmt = src.fmt ∧ z.live = src.live ∧ w.fmt = 10 ∧
          w.live = src.live ∧ ∀ i q, i < 64 → q < 16 → let x := src.row i; let bw := if f.code.toNat ≤ 6 then f.code.toNat + 2 else if f = .i8 then 8 else 16
            let at_ := fun (d : RowBits) (j : Nat) => bits d (bw * j + bw - 1) (bw * j); let p := 32 * (q / 8) + 2 * (q % 8)
            let above := fun (j k : Nat) => magAbove (elem f x (4 * q + j)) (elem f x (4 * q + k))
            (z.row i).e0 = x.e0 ∧ (z.row i).e1 = x.e1 ∧ (z.row i).rcw = x.rcw ∧ ∃ i0 i1, i0 < i1 ∧ i1 < 4 ∧
              at_ (z.row i).data p = at_ x.data (4 * q + i0) ∧ at_ (z.row i).data (p + 1) = at_ x.data (4 * q + i1) ∧
              bits (w.row i).data (4 * q + 1) (4 * q) = i0 ∧ bits (w.row i).data (4 * q + 3) (4 * q + 2) = i1 ∧
              ∀ j k, j = i0 ∨ j = i1 → k < 4 → k ≠ i0 → k ≠ i1 → above j k = true ∨ (above k j = false ∧ j < k))))

/-- R36, R76 to R81, R91, R216 and R392 to R399: the row-control instructions queue one command with their operands of issue and BLOCKNO, CWLD and
CWST after their alignment and footprint checks, EXNOTE after its notices of at most 27 slots each have entered the send queue. A command that
owes transfers to its job's HBM allowance pays first. At completion CWLD and CWST move the RCW column, CWUPD advances every row by R78, an exit
keeping its RCNT, CWCNT counts the live rows, COMPACT packs them and notes their places, RESTORE puts packed rows back in their places; a poisoned
row that one of them reads kills its context. A tile that the command's own bundle writes is read as it stood at issue (R243). That CWCNT,
COMPACT, RESTORE and CWUPD consume poison, and that RESTORE skips entries beyond its count, are the model's choices (log entry 31). -/
def Obligations.RowControl : Prop :=
  ∀ (s s1 u1 : State) (scr sh nl : Bool) (t d a : TReg) (b ds : SReg) (k : KReg) (km1 : BitVec 3) (i : Instr) (w : Bool) (core : BitVec 8)
    (c : Command) (rest : List Command) (bs : List Byte),
    let me := s.cur.ctx; let va := s.rS b; let blk := s.me.cr.blockno
    let puts := fun (i : Instr) (cap : Capture) => ∃ z, queued s z .x i { cap with blockno := blk } ∧ exec i s = .next z
    let flags := fun (v : Lane) => v.getLsbD 27 || v.getLsbD 28 || v.getLsbD 29
    let act := fun (v : Lane) => bits v 1 0; let cnt := fun (v : Lane) => if bits v 7 2 = 0 then 1 else bits v 7 2
    let live := fun (v : Lane) => !flags v && act v == (if sh then 3 else 0)
    let tl := s.issueTile t.toNat; let j := s.job s.me.cr.job.toNat
    let slots := ((List.range 64).filter fun r => let v := (tl.row r).rcw; !flags v && act v == 2 && bits v 15 8 == blk.toNat).map fun r => bits (tl.row r).rcw 26 16
    let g := c.ctx; let u := takeCommand s c; let y := c.cap; let old := (u.ctx g).tile t.toNat; let kept := c.tile u t.toNat; let n := km1.toNat + 1
    let ends := fun (z : State) => exec (.xCommandComplete core) s = .next z
    ((i, w) ∈ [(Instr.cwld scr t b, false), (.cwst scr t b, true)] →
      (scr = false → va.toNat % 4 ≠ 0 → exec i s = s.raise { code := 0x10, acc := if w then 1 else 0, addr := va }) ∧
      (scr = true ∨ va.toNat % 4 = 0 → (walkCheck s me scr 0 va.toNat 256 w = .ok s1 →
        ∃ z, queued s1 z .x i { sa := va, blockno := s1.me.cr.blockno } ∧ exec i s = .next z) ∧
        (∀ e, walkCheck s me scr 0 va.toNat 256 w = .error e → exec i s = s.raise e))) ∧
    puts (.cwupd sh nl t b k) { sa := va, mask := s.rK k } ∧ puts (.cwcnt sh ds t) { pd := physS s.cur.ages ds } ∧
    puts (.compact sh km1 d a) {} ∧ puts (.restore km1 d a) {} ∧
    (anyPoison tl 64 = true → exec (.exnote t) s = s.raise poisonedReg) ∧
    (anyPoison tl 64 = false → slots = [] → puts (.exnote t) {}) ∧
    (anyPoison tl 64 = false → slots ≠ [] → slots.length ≤ 27 → modeOf s me < 2 → ∃ q z, q.chip.ctxs = s.chip.ctxs ∧ q.cur = s.cur ∧ sameBytes s q ∧
      queued q z .x (.exnote t) { blockno := blk } ∧ exec (.exnote t) s = .next z ∧ ∃ x : Transfer,
        q.chip.shaft.queue = s.chip.shaft.queue ++ [x] ∧ x.ctx = me ∧ x.notice = true ∧ x.mask = BitVec.allOnes 64 ∧ x.entered = s.cyc ∧
        x.line = bits (j.reg 0x116) 13 0 + bits (j.reg 0x116) 30 16 - 64 + j.notices % 64 ∧
        x.payload.toNat = leNat (leBytes 2 s.me.cr.job.toNat ++ leBytes 2 blk.toNat ++ leBytes 4 j.stepNo.toNat ++ leBytes 2 slots.length ++
          (slots.flatMap (leBytes 2)) ++ List.replicate (54 - 2 * slots.length) 0xFF)) ∧
    (xReady s core.toNat = [] → ends s) ∧
    (∀ m p, xReady s core.toNat = c :: rest → c.owed ≠ 0 → payCommand s c = (m, p) → m ≠ c.owed → ends p) ∧
    (xReady s core.toNat = c :: rest → c.owed = 0 →
      (c.instr = .cwld scr t b → (walkRead u g scr 0 y.sa.toNat 256 = .ok (u1, bs) → ∃ z, ends (u1.setTile g t.toNat z) ∧
          let o := (u1.ctx g).tile t.toNat; z.fmt = o.fmt ∧ z.live = o.live ∧
          ∀ r, r < 64 → z.row r = { o.row r with rcw := BitVec.ofNat 32 (leNat ((bs.drop (4 * r)).take 4) % 2 ^ 30) }) ∧
        (∀ e, walkRead u g scr 0 y.sa.toNat 256 = .error e → ends (killCmd u c e))) ∧
      (c.instr = .cwst scr t b → let l := (List.range 64).flatMap fun r => leBytes 4 (kept.row r).rcw.toNat
        (anyPoison kept 64 = true → ends (killCmd u c poisonedReg)) ∧
        (anyPoison kept 64 = false → (walkWrite u g scr 0 y.sa.toNat l = .ok u1 → ends u1) ∧
          ∀ e, walkWrite u g scr 0 y.sa.toNat l = .error e → ends (killCmd u c e))) ∧
      (c.instr = .cwupd sh nl t b k → anyPoison kept 64 = true → ends (killCmd u c poisonedReg)) ∧
      (c.instr = .cwupd sh nl t b k → anyPoison kept 64 = false → ∃ z, ends (u.setTile g t.toNat z) ∧ z.fmt = old.fmt ∧ z.live = old.live ∧ ∀ r, r < 64 →
        let o := (kept.row r).rcw; let v := (z.row r).rcw; let pol := bits y.sa 1 0; let m := if bits y.sa 7 2 = 0 then 1 else bits y.sa 7 2
        let down := fun (x : BitVec 8) => v = if cnt o = 1 then rcwSet o x 0 0 else rcwSet o x (cnt o - 1) (act o)
        z.row r = { old.row r with rcw := v } ∧
        (flags o = true ∨ (nl = true ∧ live o = true) → v = o) ∧
        (flags o = false → sh = true → nl = false → act o = 3 → down y.blockno) ∧ (flags o = false → sh = true → act o ≠ 3 → v = o) ∧
        (flags o = false → sh = false → act o = 1 → down (o.extractLsb' 8 8)) ∧ (flags o = false → sh = false → 2 ≤ act o → v = o) ∧
        (flags o = false → sh = false → nl = false → act o = 0 → y.mask.getLsbD r = true → pol ≠ 0 →
          v = rcwSet o y.blockno (if pol = 2 then bits o 7 2 else m) pol) ∧
        (flags o = false → sh = false → nl = false → act o = 0 → (y.mask.getLsbD r = false ∨ pol = 0) →
          v = rcwSet o y.blockno (bits o 7 2) 0)) ∧
      (c.instr = .cwcnt sh ds t → anyPoison kept 64 = true → ends (killCmd u c poisonedReg)) ∧
      (c.instr = .cwcnt sh ds t → anyPoison kept 64 = false → let m := ((List.range 64).filter fun r => live (kept.row r).rcw).length
        ∃ x, ends (u.mapCtx g fun _ => x) ∧ x.lr.toNat = m ∧ x.t = (u.ctx g).t ∧ x.pc = (u.ctx g).pc ∧
          (ds ≠ 0 → x.regNat (.s y.pd.toNat) = m) ∧ ∀ r, r ≠ .lr → (ds = 0 ∨ r ≠ .s y.pd.toNat) → x.regNat r = (u.ctx g).regNat r) ∧
      (c.instr = .compact sh km1 d a → let ts := (List.range n).map fun m => c.tile u (a.toNat + m)
        let l := ts.zipIdx.flatMap fun x => (List.range 64).filterMap fun r => if live (x.1.row r).rcw then some (x.2, r, x.1.row r) else none
        ((∃ x ∈ ts, anyPoison x 64 = true) → ends (killCmd u c poisonedReg)) ∧ ((∀ x ∈ ts, anyPoison x 64 = false) →
        ∃ z, ends z ∧ sameBytes s z ∧ (∀ q, q ≠ g → z.ctx q = s.ctx q) ∧ (z.ctx g).lr.toNat = l.length ∧
          (∀ e, Tab.find (z.ctx g).perm e = (l[e]?).map fun x => BitVec.ofNat 16 (0x8000 + 64 * x.1 + x.2.1)) ∧
          (∀ m, m < n → let o := (z.ctx g).tile (d.toNat + m); o.fmt = (c.tile u a.toNat).fmt ∧
            o.live.toNat = min 64 (l.length - 64 * m) ∧ ∀ r, r < 64 → o.row r = ((l[64 * m + r]?).map fun x => x.2.2).getD { rcw := 0x08000000 }) ∧
          ∀ m, (m < d.toNat ∨ d.toNat + n ≤ m) → (z.ctx g).tile m = (u.ctx g).tile m)) ∧
      (c.instr = .restore km1 d a → let names := fun (e : Nat × BitVec 16) => e ∈ (u.ctx g).perm ∧ e.2.getLsbD 15 = true ∧ bits e.2 8 6 < n ∧ e.1 / 64 < n
        let packed := fun (e : Nat × BitVec 16) => (c.tile u (a.toNat + e.1 / 64)).row (e.1 % 64)
        let bad := ∃ e, names e ∧ (packed e).poison = true
        (bad → ends (killCmd u c poisonedReg)) ∧ (¬ bad →
        ∃ z, ends z ∧ sameBytes s z ∧ (∀ q, q ≠ g → z.ctx q = s.ctx q) ∧ ∀ m r, let o := (z.ctx g).tile (d.toNat + m); let p := (u.ctx g).tile (d.toNat + m)
          o.fmt = p.fmt ∧ o.live = p.live ∧
          ((∀ e, names e → ¬ (bits e.2 8 6 = m ∧ bits e.2 5 0 = r)) → o.row r = p.row r) ∧
          ∀ e, names e → bits e.2 8 6 = m → bits e.2 5 0 = r → (∀ f, names f → bits f.2 8 0 = bits e.2 8 0 → f = e) →
            o.row r = packed e)))

/-- R69, R71, R84 to R90 and R400 to R404: a KV instruction resolves its positions through the page table, and its poison, as the step opened,
poison of the named page or of the entry it reads first, changes the requests that a deferral or a fault names and reports each to the foreman,
and queues one command. At completion KVAPP writes each entry with its META, its bitmap bit and the trailer, and leaves a present entry that it
would fill; KVG gives its two tiles; KVSCAN stores the gaps and their count; KVEXS writes a chunk of each entry, its header with zero in the other
hardware fields, and VALID with the last chunk. A write to a page that migrates fails before its tier is looked at (R89, R122, R141). The address
space of a request is the low 13 bits of its ASID (log entry 53); that ADDR is zero where no page is named, that an entry's poison comes before
its V bit, which requests KVG resolves (log entry 31), and in REPLAY which KV instruction a deferral record belongs to (log entry 61), are the
model's choices. -/
def Obligations.KvInstructions : Prop :=
  ∀ (s s1 : State) (v f : Bool) (h : BitVec 6) (t : TReg) (d a b : SReg) (g : GReg) (hint : Hint) (mq : Option TReg) (i : Instr)
    (plan : Except Bad KvPlan) (p : KvPlan) (cap : Capture) (e : Bad) (ix : Nat) (code : BitVec 8) (va : Word) (core : BitVec 8) (c : Command)
    (rest : List Command) (k : KvSlot) (hd : KvHeader) (blk hh kind pos pa way site : Nat) (en : Nat) (x : Word) (rd : KvReads) (z1 z2 z3 : State),
    let mark : Word := (p.ends.foldl (fun (m : Lane) x => m ||| if x.2.1 = 0x0B then 0x20000000 else 0x10000000) 0).setWidth 64
    let me := s.cur.ctx; let jn := s.me.cr.job.toNat; let u := takeCommand s c; let y := c.cap; let gg := c.ctx
    let tile := fun (m : Nat) => c.tile u (t.toNat + m)
    let ends := fun (z : State) => exec (.xCommandComplete core) s = .next z
    let nbf8 := (c.tile u t.toNat).fmt = 6 ∧ (c.tile u (t.toNat + 1)).fmt = 6
    ((i, plan, cap) ∈ [(Instr.kvapp v f h t b, kvappPlan v f h t b s, { kv := p.rows }),
        (.kvg hint v h t g a mq, kvgPlan v h g a s, { tiles := p.tiles, count := bits (s.rS a) 10 0, sd := mark }),
        (.kvscan v h d a b, kvscanPlan v h a b s, { pd := physS s.cur.ages d, sb := s.rS b, idx := p.gaps.take 512, count := p.gaps.length }),
        (.kvexs t a, kvexsPlan t a s, { kv := p.rows, count := bits (s.rS a) 7 0 })] →
      (plan = .error e → exec i s = s.raise e) ∧
      (plan = .ok p → kvReady plan = .go → logManyDone p.s me p.records = .ok s1 → let s2 := p.ends.foldl kvEnd s1;
        ∃ z, queued s2 z .x i { cap with blockno := s2.me.cr.blockno } ∧ exec i s = .next z) ∧
      (plan = .ok p → modeOf p.s p.s.cur.ctx < 2 → kvReady plan = .go) ∧
      (∀ w, plan = .ok p → p.hold = .wait w → exec i s = .next (s.mapMe fun c => { c with blocked := some w })) ∧
      (plan = .ok p → p.hold = .bad e → exec i s = s.raise e) ∧
      (modeOf p.s me < 2 → logManyDone p.s me p.records = .ok p.s)) ∧
    (me < 1024 → (let l := (s.job jn).waiting; (l.filter fun w => w.own.isNone).length < 256) → let q := s.req ix; let r := (kvEnd s (ix, code, va, site)).req ix
      let w := ((kvEnd s (ix, code, va, site)).job jn).waiting
      (∀ o, o ≠ ix → (kvEnd s (ix, code, va, site)).req o = s.req o) ∧ (kvEnd s (ix, code, va, site)).chip.ctxs = s.chip.ctxs ∧
      r = (if code = 0x0B ∧ q.state = 2 then { q with state := 3 }
        else if code ≠ 0x0B ∧ (q.state = 2 ∨ q.state = 3) then { q with state := 5, fltcode := code.setWidth 32 } else q) ∧
      ∃ m, w = (s.job jn).waiting ++ [m] ∧ m.own = none ∧ m.record.kind = 3 ∧ m.record.code = code ∧ m.record.addr = va ∧
        m.record.info = BitVec.ofNat 64 (ix + 2 ^ 16 * (if code = 0x0B then 3 else 5)) ∧ m.record.ctx.toNat = me) ∧
    (let o := { s with mem := (s.job jn).snapMem, chip := { s.chip with poison := (s.job jn).snapPoison } }
      let find := kvFind s k blk hh kind pos f rd false; let m := pa + 144 * (pos % 448)
      kvHeader o k.snap.space k.snap.kvpt = .ok hd →
      ((hd.nblk ≤ blk ∨ hd.nhead ≤ hh ∨ hd.npg ≤ pos / 448) → find = .ok (.fault 0x10 0 0)) ∧
      (blk < hd.nblk → hh < hd.nhead → pos / 448 < hd.npg → readVaNum o k.snap.space
          (k.snap.kvpt + BitVec.ofNat 64 (64 + 8 * (((blk * hd.nhead + hh) * 2 + kind) * hd.npg + pos / 448))) 8 = .ok en →
        let pg : Word := BitVec.ofNat 64 (en / 65536 % 2 ^ 40 * 65536)
        let poisoned := x.getLsbD 59 = true ∨ (rd ≠ .none ∧ (firstPoison s (m + 0x88) 8).isSome = true) ∨
          (rd = .whole ∧ s.peek (m + 0x88) 1 % 2 = 1 ∧ (firstPoison s m 144).isSome = true)
        let may := if f then x.getLsbD 61 else x.getLsbD 60
        (lookup s k.snap.space pg = .miss → find = .ok (.fault 0x10 (if en % 2 = 0 then 0 else pg) 0)) ∧
        (lookup s k.snap.space pg = .poison site → find = .ok (.fault 0x11 pg site)) ∧
        (lookup s k.snap.space pg = .hit x pa way → (poisoned → ∃ p, find = .ok (.fault 0x11 pg p)) ∧
          (¬ poisoned → (en % 2 = 0 → find = .ok (.fault 0x10 0 0)) ∧ (en % 2 = 1 → may = false → find = .ok (.fault 0x10 pg 0)) ∧
            (en % 2 = 1 → may = true → let migrates := f = true ∧ (x.getLsbD 57 = true ∨ codeBlocked s pa = true)
              (migrates → find = .error { code := 0x10, acc := 1, addr := pg }) ∧
              (¬ migrates → en / 2 % 2 = 1 → find = .ok (.deferred pg)) ∧ (¬ migrates → en / 2 % 2 = 0 → find = .ok (.page pg pa))))))) ∧
    (xReady s core.toNat = c :: rest → c.owed = 0 →
      (c.instr = .kvapp v f h t b → (¬ nbf8 → ends (u.mapCtx gg (·.orFlags fIV))) ∧
        (nbf8 → y.kv = [⟨ix, pos, en, .page pa, 0, 0, 0⟩] → ((tile 0).row ix).poison = false → ((tile 1).row ix).poison = false →
          let q := pos % 448; let m := pa + 144 * q; let r0 := (tile 0).row ix; let r1 := (tile 1).row ix
          let old := Cells.read s.mem (pa + 0xFC00 + q / 8);
          (f = true → s.peek (m + 0x88) 1 % 2 = 1 → ends u) ∧
          (f = false ∨ s.peek (m + 0x88) 1 % 2 = 0 → ∃ z, ends z ∧ z.chip.ctxs = u.chip.ctxs ∧ z.scr = s.scr ∧ z.rep = s.rep ∧
            Cells.bytes z.mem m 64 = leBytes 64 r0.data.toNat ∧ Cells.bytes z.mem (m + 64) 64 = leBytes 64 r1.data.toNat ∧
            Cells.bytes z.mem (m + 128) 8 = leBytes 2 r0.e0.toNat ++ leBytes 2 r0.e1.toNat ++ leBytes 2 r1.e0.toNat ++ leBytes 2 r1.e1.toNat ∧
            z.peek (m + 0x88) 8 = pos % 2 ^ 32 * 2 ^ 16 + y.blockno.toNat * 2 ^ 8 + (if f then 3 else 1) ∧
            Cells.read z.mem (pa + 0xFC00 + q / 8) = old ||| 1 <<< (q % 8) ∧
            Cells.bytes z.mem (pa + 0xFC38) 4 = [y.blockno, if v then 1 else 0] ++ leBytes 2 h.toNat ∧
            ∀ o, ¬ (m ≤ o ∧ o < m + 144) → o ≠ pa + 0xFC00 + q / 8 → ¬ (pa + 0xFC38 ≤ o ∧ o < pa + 0xFC3C) →
              Cells.read z.mem o = Cells.read s.mem o))) ∧
      (c.instr = .kvg hint v h t g a none → ends ((u.setTile gg t.toNat (y.tiles.getD 0 {})).setTile gg (t.toNat + 1) (y.tiles.getD 1 {}))) ∧
      (∀ m : TReg, c.instr = .kvg hint v h t g a (some m) → m.toNat ≠ t.toNat → m.toNat ≠ t.toNat + 1 →
        ∃ z, ends (((u.setTile gg t.toNat (y.tiles.getD 0 {})).setTile gg (t.toNat + 1) (y.tiles.getD 1 {})).setTile gg m.toNat z) ∧
        let o := (u.ctx gg).tile m.toNat; z.fmt = o.fmt ∧ z.live = o.live ∧ ∀ r, r < 64 → let w := ((c.tile u m.toNat).row r).rcw
          z.row r = { o.row r with rcw := if bits w 26 16 = y.count then w ||| y.sd.setWidth 32 else w }) ∧
      (c.instr = .kvscan v h d a b → (scrStore u (coreOf gg) y.sb.toNat (y.idx.flatMap (leBytes 4)) = .ok s1 → ∃ q, ends (s1.mapCtx gg fun _ => q) ∧
          q.lr.toNat = min y.count 512 ∧ q.t = (s1.ctx gg).t ∧ (d ≠ 0 → q.regNat (.s y.pd.toNat) = y.count % 2 ^ 64) ∧
          ∀ r, r ≠ .lr → (d = 0 ∨ r ≠ .s y.pd.toNat) → q.regNat r = (s1.ctx gg).regNat r) ∧
        (∀ e, scrStore u (coreOf gg) y.sb.toNat (y.idx.flatMap (leBytes 4)) = .error e → ends (killCmd u c e))) ∧
      (c.instr = .kvexs t a → ((c.tile u t.toNat).fmt ≠ 7 → ends (u.mapCtx gg (·.orFlags fIV))) ∧
        (∀ r ∈ y.kv, (c.tile u t.toNat).fmt = 7 → ((tile 0).row r.row).poison = true → ends (killCmd u c poisonedReg)) ∧
        (∀ r : KvRow, (c.tile u t.toNat).fmt = 7 → y.kv = [r] → ((tile 0).row r.row).poison = false →
          let put := fun (z : State) (o : Nat) (bs : List Byte) => writeVa z r.asid (BitVec.ofNat 64 (r.va + o)) bs;
          put u (64 + 128 * y.count) (leBytes (2 * min 64 (r.dim - 64 * y.count)) ((tile 0).row r.row).data.toNat) = .ok z1 →
          put z1 1 (y.blockno :: ([0, 0] ++ leBytes 4 r.pos ++ List.replicate 56 0)) = .ok z2 →
          (y.count + 1 ≠ (r.dim + 63) / 64 → ends z2) ∧
          (y.count + 1 = (r.dim + 63) / 64 → put z2 0 [1] = .ok z3 → ends z3))))

/-- R126 to R128, R238 and R405 to R409, the exchange instructions at issue: GATH and SCAT queue their command in the local form after the
footprint check and for a known peer, are fatal on any other S[a], and are refused with a delivery fault for an unknown one; PUT and GET check
lengths, window, with its mapped bytes as the sender's accesses, and local bytes; FSEND reads its descriptor and payload, a notice's boundary
being its payload's BLK; the address of a scratch error is the window's (log entry 46); FRECV queues, but stops in STRICT without a source. That
FSEND reads its descriptor and payload at issue, and how far a window access reaches, are the model's choices (log entry 32). -/
def Obligations.ExchangeIssue : Prop :=
  ∀ (s s0 s1 : State) (h : Hint) (ds pri : Bool) (t : TReg) (g : GReg) (d a b : SReg) (e : PutEnd) (src : Option SReg) (i : Instr) (f : Fmt) (n : Nat)
    (w : Bool) (p : Nat) (idx : List Nat) (bs pl : List Byte) (bad : Bad) (it : FabItem),
    let me := s.cur.ctx; let jn := s.me.cr.job.toNat; let j := s.job jn; let x := s.rG g; let sa := s.rS a; let sb := s.rS b; let sd := s.rS d
    let tl := s.issueTile t.toNat; let own := s.me.tile t.toNat; let T := (bits x 195 184 + 1) * (bits x 207 196 + 1) * (bits x 219 208 + 1); let known := Tab.find s.chip.fab.peers p
    let into := fun (z : State) (i : Instr) (cap : Capture) => ∃ q, queued z q .x i { cap with blockno := z.me.cr.blockno } ∧ exec i s = .next q
    let window := fun (v m : Word) => bits v 63 40 = 0xFE ∧ j.partition.getLsbD (bits v 39 32) = true ∧
      windowOk s jn (bits v 39 32) (bits v 31 0) m.toNat = true
    let fits := fun (l : List Word) => 16 ≤ sb.toNat ∧ sb.toNat ≤ 65536 ∧ ∀ v ∈ l, v.toNat % 16 = 0
    let wa := fun (v : Word) => BitVec.ofNat 64 (0xFE * 2 ^ 40 + s.cur.core * 2 ^ 32 + v.toNat % 2 ^ 30)
    let at_ := fun (o k : Nat) => leNat ((bs.drop o).take k)
    ((i, f, n, w) ∈ [(Instr.gath h t g a, (streamFmt x).1, min T 64, false), (.scat h t g a, (fmtRun tl.fmt).1, min T tl.live.toNat, true)] →
      let here := sa = 0; let peer := 2 ^ 63 ≤ sa.toNat ∧ sa.toNat = 2 ^ 63 + p ∧ p < 2 ^ 18
      (¬ here → (sa.toNat < 2 ^ 63 ∨ 2 ^ 63 + 2 ^ 18 ≤ sa.toNat) → exec i s = s.raise { code := 0x10, acc := if w then 1 else 0, addr := sa }) ∧
      (here → captureIndexes s me x n = .ok (s0, idx) → footprint s0 me false (rowBytes f) w (walkSteps x f false idx n) = .ok s1 →
        into s1 i { sa, g := x, idx, count := n }) ∧
      (peer → known.isSome = true → captureIndexes s me x n = .ok (s0, idx) → into s0 i { sa := s0.rS a, g := x, idx, count := n }) ∧
      ((here ∨ peer ∧ known.isSome = true) → captureIndexes s me x n = .error bad → exec i s = s.raise bad) ∧
      (peer → known = none → me < 1024 → j.waiting = [] → ∃ z q, exec i s = .next z ∧ (z.job jn).waiting = [q] ∧ q.record.code = 0x0A ∧
        q.record.addr.toNat = p ∧ q.record.kind = (if w then 4 else 2) ∧ sameBytes s z ∧ (w = true → z.chip.ctxs = s.chip.ctxs) ∧
        (w = false → let o := (z.ctx me).tile t.toNat; o.live = 0 ∧ ∀ r, o.row r = { rcw := (own.row r).rcw }))) ∧
    ((∀ q, e ≠ .ring q) → (¬ fits [sa, sd] → exec (.put ds e d a b) s =
        s.raise (if sa.toNat % 16 = 0 then { code := 0x14, acc := 1, addr := sd } else { code := 0x14, acc := 0, addr := wa sa })) ∧
      (fits [sa, sd] → ¬ window sd sb → exec (.put ds e d a b) s = s.raise { code := 0x14, acc := 1, addr := sd }) ∧
      (fits [sa, sd] → window sd sb → (windowChecked s sd sb.toNat true = .error bad → exec (.put ds e d a b) s = s.raise bad) ∧
        (windowChecked s sd sb.toNat true = .ok s0 → (scrCheck s0 s0.cur.ctx sa sb.toNat false = .ok s1 → into s1 (.put ds e d a b) { sa, sb, sd }) ∧
          (scrCheck s0 s0.cur.ctx sa sb.toNat false = .error bad → exec (.put ds e d a b) s = s0.raise bad)))) ∧
    (∀ v m w, modeOf s me = 0 → window v m → windowChecked s v m.toNat w = .ok s) ∧
    (∀ q, e = .ring q → (¬ fits [sa] → exec (.put ds e d a b) s = s.raise { code := 0x14, acc := 0, addr := wa sa }) ∧
      (fits [sa] → scrCheck s me sa sb.toNat false = .ok s1 → into s1 (.put ds e d a b) { sa, sb, sd })) ∧
    (¬ (fits [sd, sa] ∧ window sa sb) → exec (.get ds d a b) s =
      s.raise (if sd.toNat % 16 = 0 ∨ fits [sd, sa] then { code := 0x14, acc := 0, addr := sa } else { code := 0x14, acc := 1, addr := wa sd })) ∧
    (fits [sd, sa] → window sa sb → (windowChecked s sa sb.toNat false = .error bad → exec (.get ds d a b) s = s.raise bad) ∧
      (windowChecked s sa sb.toNat false = .ok s0 → scrCheck s0 s0.cur.ctx sd sb.toNat true = .ok s1 → into s1 (.get ds d a b) { sa, sb, sd })) ∧
    (∀ o core, o < 2 ^ 30 → (windowOk s jn core o n = true ↔ j.scrBase ≤ o ∧ o + n ≤ j.scrBase + j.scrLen)) ∧
    (sa.toNat % 32 ≠ 0 → exec (.fsend ds pri a b) s = s.raise { code := 0x14, acc := 0, addr := wa sa }) ∧
    (sa.toNat % 32 = 0 → scrRead s me sa 32 = .ok (s0, bs) → s0.cur = s.cur → s0.me = s.me →
      (sendItem s0 ds pri bs = none → exec (.fsend ds pri a b) s = s0.raise { code := 0x14, acc := 0, addr := wa sa }) ∧
      (sendItem s0 ds pri bs = some (it, n) → (Tab.find s0.chip.fab.peers it.dst.toNat).isSome = true → scrRead s0 me sb n = .ok (s1, pl) →
        (it.kind ≠ .notice → into s1 (.fsend ds pri a b) { items := [{ it with payload := pl }] }) ∧
        (it.kind = .notice → into s1 (.fsend ds pri a b) { items := [{ it with payload := pl, bnd := BitVec.ofNat 16 (leNat ((pl.drop 2).take 2)) }] })) ∧
      (sendItem s0 ds pri bs = some (it, n) → it.dst.toNat < 2 ^ 18 ∧ it.dst.toNat = at_ 0 8 ∧ it.job = s0.me.cr.job ∧ it.priority = pri ∧ it.ds = ds ∧
        it.launch = s0.me.cr.launch ∧ it.rva.toNat = at_ 0x18 8 ∧
        ((it.kind = .store ∧ at_ 9 1 = 0 ∧ pri = false ∧ 16 ≤ n ∧ n ≤ 4096 ∧ n % 16 = 0 ∧ n = at_ 0x10 2 ∧ at_ 0x18 8 % 16 = 0) ∨
          (it.kind = .rows ∧ at_ 9 1 = 1 ∧ pri = false ∧ n = 136 * at_ 0x10 2 ∧ 1 ≤ at_ 0x10 2 ∧ at_ 0x10 2 ≤ 64 ∧ it.queue.toNat = at_ 0x0A 1 ∧
            it.fmt.toNat = at_ 0x0B 1 ∧ it.fmt.toNat ≤ 12 ∧ it.bnd.toNat = at_ 0x12 2 ∧ it.stepn.toNat = at_ 0x14 4 ∧ at_ 0x18 8 = 0) ∨
          (it.kind = .notice ∧ at_ 9 1 = 2 ∧ pri = true ∧ n = 64 ∧ at_ 0x10 2 = 64 ∧ at_ 0x18 8 = 0 ∧ it.stepn.toNat = at_ 0x14 4)))) ∧
    (modeOf s me = 1 → exec (.frecv none t a) s = s.raise { code := 0x06, info := 0x11 }) ∧
    ((modeOf s me ≠ 1 ∨ src ≠ none) → into s (.frecv src t a) { sa, sb := (src.map s.rS).getD 0 })

/-- R24, R59, R126 to R128, R132, R155, R192, R195, R349, R350, R362 and R405 to R409, the exchange commands as they go on and the packets as they
are written: a local gather or scatter acts as a tile load or store; a peer one hands its items over as the allowance lets it, and a gather's tile
holds the replies; PUT's packets leave in order; GET sends its request and stores the replies; FSEND hands its item over; FRECV takes one, a row
that a notice names having RCNT 0 (log entry 56); PUT_DELIVERY writes a window or a ring's slot, its mapped bytes as an access of the sender
(R155), starts a handler, and answers or takes a GET; a ring's packets for a saved context, or behind others in its overflow store, wait there
(R195). What a peer gather asks for and what a scatter stores, a handler's launch being the sender's (log entry 32), and a PUT without a target
being sunk (log entry 61), are the model's choices. -/
def Obligations.ExchangeCommands : Prop :=
  ∀ (s u1 : State) (h : Hint) (ds pri : Bool) (t : TReg) (g : GReg) (d a b : SReg) (e : PutEnd) (src : Option SReg) (core : BitVec 8) (c : Command)
    (rest : List Command) (bs es : Nat → List Byte) (v : Nat → State) (it : FabItem) (p : Nat) (pl : List Byte) (dl : Delivered) (dls : List Delivered)
    (q : QReg) (l : Launch) (st : State),
    let gg := c.ctx; let u := takeCommand s c; let y := c.cap; let k := core.toNat; let jn := (u.ctx gg).cr.job.toNat; let old := (u.ctx gg).tile t.toNat; let kept := c.tile u t.toNat
    let ends := fun (z : State) => exec (.xCommandComplete core) s = .next z; let room := fun (z : State) (n : Nat) => fabRoom z jn n = true
    let lf := (streamFmt y.g).1; let replies := repliesOf s c; let peer := 2 ^ 63 ≤ y.sa.toNat ∧ y.sa.toNat = 2 ^ 63 + p ∧ p < 2 ^ 18
    let sent := fun (z : State) (x : FabItem) => ∃ m, z.chip.fab.sent = s.chip.fab.sent ++ [m] ∧ m.kind = x.kind ∧ m.dst = x.dst ∧ m.rva = x.rva ∧
      m.payload = x.payload ∧ m.src = s.chip.host.pkgid ∧ m.sourceSeq = BitVec.ofNat 32 (Tab.get 0 s.chip.fab.sourceSeq x.dst.toNat) ∧
      m.sendTick = BitVec.ofNat 64 s.chip.fab.tick ∧ (z.job x.job.toNat).fabUsed = (s.job x.job.toNat).fabUsed + x.payload.length + 64 ∧
      sameBytes s z ∧ z.chip.ctxs = s.chip.ctxs
    let box := fun (z : State) (core : Nat) => Tab.get [] z.chip.net.inject (stopKey (coreLevel core) (coreStop core))
    let heads := fun (l : List Flit) => (l.filter fun x => x.ix == 0).map Flit.cargo
    (xReady s k = c :: rest → c.owed = 0 →
      (c.instr = .gath h t g a → y.sa = 0 → rowsRead u c false lf bs es → ∃ z, ends z ∧ sameBytes s z ∧
        (∀ n, n ≠ gg → z.ctx n = s.ctx n) ∧ tileLoaded c false lf bs es old ((z.ctx gg).tile t.toNat)) ∧
      (c.instr = .scat h t g a → y.sa = 0 → v 0 = u → rowsStored c false (fmtRun kept.fmt).1 kept v →
        ends ((v y.count).mapCtx gg (·.orFlags (fmtRun kept.fmt).2))) ∧
      (c.instr = .gath h t g a → peer → (∀ m ∈ replies, m.bnd = 0) → y.base < y.count → let x := c.step lf false y.base; let n := if x.exp.isSome then 72 else 64
        room s n → ∃ z m, ends z ∧ sent z m ∧ m.kind = .gathRequest ∧ m.dst.toNat = p ∧ m.rva = wrap 64 x.row ∧ m.stepn.toNat = y.base % 2 ^ 32 ∧
          m.job = (s.ctx gg).cr.job ∧ m.ctx.toNat = gg % 2048) ∧
      (c.instr = .gath h t g a → peer → y.count ≤ y.base → y.count ≤ replies.length → (∀ m ∈ replies, m.bnd = 0) → ∃ z, ends z ∧ sameBytes s z ∧
        let o := (z.ctx gg).tile t.toNat; o.fmt = lf.code ∧ o.live = BitVec.ofNat 7 y.count ∧ ∀ r, r < 64 →
          ((∀ m ∈ replies, m.stepn.toNat ≠ r) → o.row r = { rcw := (old.row r).rcw }) ∧
          ∀ m, replies.find? (fun m => m.stepn.toNat == r) = some m → (o.row r).rcw = (old.row r).rcw ∧ (o.row r).poison = false ∧
            (o.row r).data = BitVec.ofNat 1024 (leNat (m.payload.take (rowBytes lf)))) ∧
      (c.instr = .gath h t g a → peer → (∃ m ∈ replies, m.bnd ≠ 0) → ∃ z m, m ∈ replies ∧ m.bnd ≠ 0 ∧
        ends (killCmd z c { code := m.bnd.setWidth 8, acc := 0, addr := m.rva, info := BitVec.ofNat 64 (leNat (m.payload.take 8)) }) ∧ z.chip.ctxs = u.chip.ctxs ∧ sameBytes s z) ∧
      (c.instr = .scat h t g a → peer → y.count ≤ y.base → ends (u.mapCtx gg (·.orFlags (fmtRun kept.fmt).2))) ∧
      (c.instr = .scat h t g a → peer → y.base < y.count → (kept.row y.base).poison = true → ends (killCmd u c poisonedReg)) ∧
      (c.instr = .scat h t g a → peer → y.base < y.count → (kept.row y.base).poison = false → let f := (fmtRun kept.fmt).1; let x := c.step f false y.base
        x.exp = none → room s (rowBytes f + 64) → ∃ z m, ends z ∧ sent z m ∧ m.kind = .store ∧ m.dst.toNat = p ∧ m.rva = wrap 64 x.row ∧
          m.payload = leBytes (rowBytes f) (kept.row y.base).data.toNat) ∧
      (c.instr = .put ds e d a b → (∀ n, e ≠ .ring n) → scrFetch u (coreOf gg) y.sa.toNat y.sb.toNat = .ok (u1, pl) → ∃ z fs, ends z ∧ sameBytes u1 z ∧
        z.chip.ctxs = u1.chip.ctxs ∧ box z (coreOf gg) = box u1 (coreOf gg) ++ fs ∧ (∀ x ∈ fs, x.target = bits y.sd 39 32 ∧ x.part = (u1.ctx gg).cr.job ∧
          x.sender.toNat = gg % 2048 ∧ x.ds = ds ∧ x.launch = c.launch) ∧
        heads fs = (List.range ((pl.length + 127) / 128)).map fun n => .put (BitVec.ofNat 64 (bits y.sd 31 0 + 128 * n)) ((pl.drop (128 * n)).take 128)
          (decide (128 * n + ((pl.drop (128 * n)).take 128).length = pl.length)) e y.sd) ∧
      (∀ n, c.instr = .put ds (.ring n) d a b → scrFetch u (coreOf gg) y.sa.toNat y.sb.toNat = .ok (u1, pl) → let dst := bits y.sd 10 0
        dst < 1024 → (u1.job (u1.ctx gg).cr.job.toNat).partition.getLsbD (dst / 4) = true → ∃ z fs, ends z ∧ sameBytes u1 z ∧ z.chip.ctxs = u1.chip.ctxs ∧
          box z (coreOf gg) = box u1 (coreOf gg) ++ fs ∧ (∀ x ∈ fs, x.target = dst ∧ x.sender.toNat = gg % 2048 ∧ x.ds = ds) ∧
          heads fs = (List.range ((pl.length + 127) / 128)).map fun m => .put (BitVec.ofNat 64 (128 * m)) ((pl.drop (128 * m)).take 128)
            (decide (128 * m + ((pl.drop (128 * m)).take 128).length = pl.length)) (.ring n) y.sd) ∧
      (∀ bad, c.instr = .put ds e d a b → scrFetch u (coreOf gg) y.sa.toNat y.sb.toNat = .error bad → ends (killCmd u c bad)) ∧
      (c.instr = .get ds d a b → y.base = 0 → ∃ z f, ends z ∧ box z (coreOf gg) = box s (coreOf gg) ++ [f] ∧ f.target = bits y.sa 39 32 ∧
        f.cargo = .getRequest (BitVec.ofNat 64 (bits y.sa 31 0)) y.sb.toNat y.sd.toNat c.serial ∧ sameBytes s z ∧ z.chip.ctxs = s.chip.ctxs) ∧
      (c.instr = .get ds d a b → 2 < y.base → ends u) ∧
      (c.instr = .get ds d a b → y.base = 2 → scrStore u (coreOf gg) y.sd.toNat (y.idx.map (BitVec.ofNat 8)) = .ok u1 → ends u1) ∧
      (c.instr = .fsend ds pri a b → y.items = [it] → fabRoom s it.job.toNat (it.payload.length + 64) = true → ∃ z, ends z ∧ sent z it) ∧
      (c.instr = .frecv src t a → frecvItem s c src = some it → ∃ z, ends z ∧ sameBytes s z ∧ let o := (z.ctx gg).tile t.toNat; let n := it.payload.length / 136
        let j := s.job jn; o.fmt = it.fmt ∧ o.live = BitVec.ofNat 7 n ∧ ∀ r, r < 64 → let rec_ := (it.payload.drop (136 * r)).take 136
          let w : Lane := BitVec.ofNat 32 (leNat (rec_.drop 132) % 2 ^ 30)
          (n ≤ r → o.row r = { rcw := 0x08000000 }) ∧
          (r < n → namedBy j it (bits w 26 16) = true → o.row r = { rcw := rcwSet w (it.bnd.setWidth 8) 0 2 }) ∧
          (r < n → namedBy j it (bits w 26 16) = false → (o.row r).data = BitVec.ofNat 1024 (leNat (rec_.take 128)) ∧ (o.row r).rcw = w))) ∧
    (nextDelivery s k [] s.chip.net.ready = none → exec (.putDelivery core) s = .next s) ∧
    (nextDelivery s k [] s.chip.net.ready = some dl → let f := dl.flit; let one := takeReady s [dl]; let gives := fun (z : State) => exec (.putDelivery core) s = .next z
      (∀ off last sd, f.cargo = .put off pl last e sd → (∀ n, e ≠ .ring n) → windowOk one f.part.toNat k off.toNat pl.length = true →
        (windowWrite one k off.toNat pl = .ok u1 → (e = .plain ∨ last = false → gives u1) ∧
          ∀ x, e = .handler x → last = true → Tab.find u1.chip.launches f.launch.toNat = some l → l.active = true → x.toNat < recHandlers l.image →
            gives (startHandler (u1.mapLaunch f.launch.toNat fun l => { l with arrivals := l.arrivals ++
              [{ core := k, handler := x.toNat, off := BitVec.ofNat 64 (bits sd 29 0), sender := f.sender }] }) f.launch.toNat k)) ∧
        (off.toNat < 2 ^ 30 → windowWrite one k off.toNat pl = scrStore one k off.toNat pl)) ∧
      (∀ off last sd, f.cargo = .put off pl last e sd → (∀ n, e ≠ .ring n) → windowOk one f.part.toNat k off.toNat pl.length = false →
        gives (sinkFlit one (coreLevel k) f .noRoute)) ∧
      (∀ off last sd, f.cargo = .put off pl last (.ring q) sd → ringPackets f q s.chip.net.ready = some dls → let z := takeReady s dls; let x := z.ctx f.target
        let hq := x.rQ q; let w := dls.flatMap fun m => m.flit.bytes; let cap := bits hq 60 49 + 1; let filled := (bits hq 127 108 + 2 ^ 20 - bits hq 107 88) % 2 ^ 20
        let waits := ∃ y ∈ Tab.get [] s.chip.net.overflow (levelOf f.target), y.target = f.target ∧ y.isMessage = false
        let place := 16 * bits hq 36 19 + w.length * (bits hq 127 108 % cap); let by_ := f.sender.toNat; let sc := z.ctx by_
        let stands := sc.status ≠ .free ∧ sc.status ≠ .reserved ∧ (1024 ≤ by_ ∨ sc.cr.launch = f.launch)
        let check := checkMapped z by_ (coreOf f.target) place w.length true
        (f.isMessage = false → x.status ≠ .free → (x.status = .saved ∨ waits) →
          gives (dls.foldl (fun z m => toOverflow z (levelOf f.target) m.flit) z)) ∧ (x.status ≠ .free → x.status ≠ .saved → ¬ waits → x.cr.job = f.part →
        ((w.length ≠ 16 * (bits hq 48 37 + 1) ∨ cap ≤ filled) → gives (dls.foldl (fun z m => sinkFlit z (levelOf f.target) m.flit .noRoute) z)) ∧
        (∀ bad, w.length = 16 * (bits hq 48 37 + 1) → filled < cap → stands → check = .error bad →
          gives (windowFails z by_ f.launch true (windowOf (f.target / 4) 0) bad)) ∧
        (∀ zc, w.length = 16 * (bits hq 48 37 + 1) → filled < cap → (stands ∧ check = .ok zc ∨ ¬ stands ∧ zc = z) →
          scrStore zc (coreOf f.target) place w = .ok st → st.ctx f.target = x → ∃ o, gives o ∧ sameBytes st o ∧ (∀ n, n ≠ f.target → o.ctx n = st.ctx n) ∧ let r := (o.ctx f.target).rQ q
            bits r 127 108 = (bits hq 127 108 + 1) % 2 ^ 20 ∧ bits r 107 88 = bits hq 107 88 ∧ bits r 74 19 = bits hq 74 19))) ∧
      (∀ off n dst ser, f.cargo = .getRequest off n dst ser → windowOk one f.part.toNat k off.toNat n = true → windowRead one k off.toNat n = .ok (u1, pl) →
        ∃ z fs, gives z ∧ sameBytes u1 z ∧ box z k = box u1 k ++ fs ∧ (∀ x ∈ fs, x.target = f.sender.toNat) ∧
          heads fs = (List.range ((pl.length + 127) / 128)).map fun m => .getReply (dst + 128 * m) ((pl.drop (128 * m)).take 128)
            (decide (128 * m + ((pl.drop (128 * m)).take 128).length = pl.length)) ser) ∧
      (∀ dst last ser, f.cargo = .getReply dst pl last ser → ∃ z, gives z ∧ sameBytes s z ∧ z.chip.ctxs = s.chip.ctxs ∧
        (z.core (coreOf f.target)).fly = (s.core (coreOf f.target)).fly.map fun x => if x.ctx = f.target ∧ x.serial = ser then
          { x with cap := { x.cap with idx := x.cap.idx ++ pl.map BitVec.toNat, base := if last then 2 else x.cap.base } } else x))

/-- R187 to R191 and R195: in the first cycle of a frame a committed slot table comes into force; the owner of the current slot, a level that
freezes or sleeps being none, sends, of the transfers that their job's allowance and log let go, those of one job in the order they entered, the
one that entered first; eight cycles later the transfer is applied under its byte mask at the master and at every replica in service; the golden
stop is that of the package cycle. -/
def Obligations.ShaftSteps : Prop :=
  ∀ (s : State) (o : Nat) (tb : BitVec 256) (x y : Transfer) (c : Nat) (r : List (Nat × Transfer)),
    let shaft := fun (f : Shaft → Shaft) => s.onChip fun k => { k with shaft := f k.shaft }; let h := s.chip.shaft
    let own := bits h.table (4 * (s.cyc % 64) + 3) (4 * (s.cyc % 64)); let serves := fun (g : Nat) => if 1024 ≤ g then 8 else g / 128
    let open_ := fun (t : Transfer) => (s.job t.job).shfUsed < (s.job t.job).alw.shf.toNat ∧ modeOf s t.ctx < 2
    let sent := fun (u : State) (t : Transfer) (q : List Transfer) => u.chip.shaft.flight = h.flight ++ [(s.cyc, t)] ∧ u.chip.shaft.queue = q ∧
      (u.job t.job).shfUsed = (s.job t.job).shfUsed + 1 ∧ u.chip.ctxs = s.chip.ctxs ∧ sameBytes s u
    let live := fun (l : Nat) => l = 8 ∨ l < 8 ∧ (s.level l).mappedOut = false ∧ (s.level l).power ∈ [Power.awake, .draining]
    ((s.cyc % 64 ≠ 0 ∨ h.commit = none) → exec .frameBoundary s = .next s) ∧
    (s.cyc % 64 = 0 → h.commit = some tb → exec .frameBoundary s = .next (shaft fun h => { h with table := tb, commit := none })) ∧
    ((8 < own ∨ own < 8 ∧ ((s.level own).power ∈ [Power.asleep, .freezing] ∨ (s.level own).mappedOut = true) ∨ s.once 1 = none) → exec .shaftSlotSend s = .next s) ∧
    (own = o → o ≤ 8 → (o < 8 → (s.level o).power ∉ [Power.asleep, .freezing] ∧ (s.level o).mappedOut = false) → s.once 1 ≠ none →
      (h.queue = [x] → serves x.ctx = o → x.ctx < 1088 → open_ x → ∃ u, exec .shaftSlotSend s = .next u ∧ sent u x []) ∧
      (h.queue = [x] → serves x.ctx = o → (s.job x.job).alw.shf.toNat ≤ (s.job x.job).shfUsed → ∃ u, exec .shaftSlotSend s = .next u ∧
        u.chip.shaft = h ∧ u.chip.ctxs = s.chip.ctxs ∧ sameBytes s u) ∧
      (h.queue = [y, x] → serves x.ctx = o → serves y.ctx = o → x.ctx < 1088 → y.ctx < 1088 → x.ctx ≠ y.ctx → open_ x →
        (x.entered < y.entered ∨ x.entered = y.entered ∧ x.ctx < y.ctx) → ∃ u, exec .shaftSlotSend s = .next u ∧ sent u x [y]) ∧
      (h.queue = [y, x] → serves x.ctx = o → serves y.ctx = o → x.ctx < 1088 → y.ctx < 1088 → x.job ≠ y.job → open_ x →
        (s.job y.job).alw.shf.toNat ≤ (s.job y.job).shfUsed → ∃ u, exec .shaftSlotSend s = .next u ∧ sent u x [y])) ∧
    ((h.flight = [] ∨ h.flight = (c, x) :: r ∧ s.cyc < c + 8) → exec .shaftTransferApply s = .next s) ∧
    (h.flight = (c, x) :: r → c + 8 ≤ s.cyc → x.line < 16384 → ∃ u, exec .shaftTransferApply s = .next u ∧ u.chip.shaft.flight = r ∧
      u.chip.ctxs = s.chip.ctxs ∧ u.mem = s.mem ∧ u.scr = s.scr ∧ ∀ l i, l ≤ 8 → i < 0x100000 → Cells.read u.rep (l * 0x100000 + i) =
        if live l ∧ 64 * x.line ≤ i ∧ i < 64 * x.line + 64 ∧ x.mask.getLsbD (i - 64 * x.line) = true
        then BitVec.ofNat 8 (x.payload.toNat / 256 ^ (i - 64 * x.line)) else Cells.read s.rep (l * 0x100000 + i)) ∧
    (h.flight = (c, x) :: r → c + 8 ≤ s.cyc → ∃ u, exec .shaftTransferApply s = .next u ∧ ∀ l, l < 8 →
      (u.level l).buffered = if (s.level l).power = .refilling then (s.level l).buffered ++ [x] else (s.level l).buffered) ∧
    (∃ u, exec .goldenStopAdvance s = .next u ∧ u.chip.net.golden = s.cyc / 2048 % 12 ∧ u.chip.ctxs = s.chip.ctxs ∧ sameBytes s u)

/-- R192 to R196, R199 and R324: the flit at the head of a stop's buffer takes the empty position of the viaduct that its route names unless the
golden stop waits for that viaduct, or unless the level's tables are being swapped and no flit of its packet has left before it; a stop's port
takes one flit, of two rivals the golden source's, else that of the higher circuit count, else the eastbound; what ACT 0 names is delivered to its
receiver, ACT 3 and 4 cross a winze in eight cycles and are looked up anew, a packet of several flits waiting there until it is whole before it is
injected in the order of its flits; a message whose queue is full goes to the overflow store, or stays on its viaduct where that has no room; and
a flit with no route, for another stop, a free context, a core in reset or a sleeping level is sunk, its record written in the level's ring. A
viaduct's flit counts its circuits; an overflow store passes its flits on. The model's choices, not the spec's: ACT 0 at a wrong stop has reason
0, a circuit counts on whichever level, a packet is sunk whole and a packet begun before a swap goes on (log entry 28); the sink rings' base
address (log entry 45). -/
def Obligations.ViaductSteps : Prop :=
  ∀ (s : State) (level : BitVec 3) (stop : BitVec 4) (f y : Flit) (rest : List Flit) (d : Nat) (up : Bool) (c st : Nat) (r : List (Nat × Nat × Flit))
    (p : BitVec 256) (why : SinkReason),
    let lvl := level.toNat; let q := stop.toNat; let n := s.chip.net; let k := stopKey lvl q; let act := lookupRoute n lvl q f
    let buf := Tab.get [] n.inject k; let swap := n.swap.any fun lv => lv.getLsbD lvl; let bound := swap = true ∧ f.ix = 0
    let pos := fun (dir : Nat) => lvl * 24 + dir * 12 + q; let net := fun (f : Net → Net) => s.onNet f; let inj := exec (.flitInject level stop) s
    let alone := n.inject = [] ∧ n.winze = [] ∧ n.asm = [] ∧ n.parts = [] ∧ n.pos = [(pos d, f)] ∧ n.ejected = [] ∧ d < 2 ∧ q < 12 ∧ f.ix = 0 ∧ f.len = 1
    let mine := f.dlvl = level ∧ f.dstop = stop; let x := s.ctx f.target
    let up_ := (s.core (f.target / 4)).resetting = false ∧ (s.core (f.target / 4)).mappedOut = false ∧ (s.level lvl).mappedOut = false
    let sunk := fun (u : State) (why : SinkReason) => u.chip.net.pos = [] ∧ u.chip.ctxs = s.chip.ctxs ∧ (u.level lvl).sunk = (s.level lvl).sunk + 1 ∧
      u.chip.net.sunk = n.sunk + 1 ∧
      storesWord s u (s.chip.sup.sinkBase + 0x8000 * lvl + 32 * ((s.level lvl).sunk % 1024)) 32 (sinkRecord f why s.cyc).toNat
    let ej := fun (u : State) => exec (.flitEject level stop) s = .next u
    let wk := 2 * lvl + if up then 0 else 1; let l2 := if up then lvl + 1 else lvl - 1; let w := exec (.winzeArrival level up) s
    let hop := lookupRoute n l2 st f; let dr := exec (.overflowStoreDrain level) s; let store := Tab.get [] n.overflow lvl
    let kept := (store.map Flit.len).sum; let a := 8 * f.pseq + l2; let whole := Tab.get [] n.asm a ++ [f]; let away := x.status = .saved ∨ x.status ≠ .free ∧ 16 ≤ x.recv.length
    ((buf = [] ∨ 12 ≤ q ∨ buf = f :: rest ∧ bound) → inj = .next s) ∧
    (buf = f :: rest → q < 12 → ¬ bound → d < 2 → act = some (1 + d) →
      ((Tab.find n.pos (pos d)).isSome = true → inj = .next s) ∧
      (n.golden ≠ q → headViaduct n lvl n.golden = some d → inj = .next s) ∧
      (Tab.find n.pos (pos d) = none → (n.golden = q ∨ headViaduct n lvl n.golden ≠ some d) →
        inj = .next (net fun n => { n with inject := Tab.set n.inject k rest, pos := Tab.set n.pos (pos d) f }))) ∧
    ((12 ≤ q ∨ n.ejected.contains k = true ∨ leaving s lvl 0 q = none ∧ leaving s lvl 1 q = none) → ej s) ∧
    (alone → (act = some 1 ∨ act = some 2) → ej s) ∧
    (alone → act = some 0 → mine → up_ → (s.level lvl).power ≠ .asleep → f.cargo = .message p → (∀ z ∈ store, z.target ≠ f.target) → levelOf f.target = lvl →
      x.status ≠ .free → x.status ≠ .saved → x.recv.length < 16 → ∃ u, ej u ∧ u.chip.net.pos = [] ∧ u.chip.net.parts = [] ∧ sameBytes s u ∧
        u.ctx f.target = { x with recv := x.recv ++ [⟨f.sender, p⟩] } ∧ ∀ g, g ≠ f.target → u.ctx g = s.ctx g) ∧
    (alone → act = some 0 → mine → up_ → (s.level lvl).power ≠ .asleep → f.cargo = .message p → levelOf f.target = lvl →
      away → kept + 1 ≤ 256 → ∃ u, ej u ∧ u.chip.net.pos = [] ∧ u.chip.ctxs = s.chip.ctxs ∧
        Tab.get [] u.chip.net.overflow lvl = store ++ [f]) ∧
    (alone → act = some 0 → f.cargo = .message p → levelOf f.target = lvl → away → 256 ≤ kept → ej s) ∧
    (alone → f.ds = false → f.cargo = .message p → (act = some 0 → queueTakes s f = true) → levelOf f.target = lvl →
      (((act = none ∨ act = some 5) ∧ why = .noRoute ∨ act = some 0 ∧ ¬ mine ∧ why = .noRoute ∨ act = some 0 ∧ mine ∧ ¬ up_ ∧ why = .coreReset ∨
        act = some 0 ∧ mine ∧ up_ ∧ (s.level lvl).power = .asleep ∧ why = .asleep ∨
        act = some 0 ∧ mine ∧ up_ ∧ (s.level lvl).power ≠ .asleep ∧ x.status = .free ∧ why = .noRoute) → ∃ u, ej u ∧ sunk u why)) ∧
    (alone → (act = some 3 ∧ up = true ∧ lvl < 7 ∨ act = some 4 ∧ up = false ∧ 0 < lvl) → q % 3 = 2 → ∃ u, ej u ∧ u.chip.net.pos = [] ∧
      Tab.get [] u.chip.net.winze wk = [(s.cyc + 8, q, f)] ∧ u.chip.ctxs = s.chip.ctxs) ∧
    (leaving s lvl 0 q = some (0, f) → leaving s lvl 1 q = some (1, y) → f.pseq ≠ y.pseq → q < 12 → n.ejected.contains k = false →
      let first := if (f.sstop.toNat = n.golden) = (y.sstop.toNat = n.golden) then ¬ f.circuit.toNat < y.circuit.toNat else f.sstop.toNat = n.golden
      ∃ u, ej u ∧ (first → Tab.find u.chip.net.pos (pos 1) = some y ∧ Tab.find u.chip.net.pos (pos 0) = none) ∧
        (¬ first → Tab.find u.chip.net.pos (pos 0) = some f ∧ Tab.find u.chip.net.pos (pos 1) = none)) ∧
    (alone → let to_ := if d = 0 then (q + 1) % 12 else (q + 11) % 12; let z := if f.sstop.toNat = to_ then { f with circuit := f.circuit + 1 } else f
      z.circuit ≠ 15 → (moveViaducts s).chip.net.pos = [(lvl * 24 + d * 12 + to_, z)]) ∧
    (Tab.get [] n.winze wk = [] → w = .next s) ∧
    (Tab.get [] n.winze wk = (c, st, f) :: r → (s.cyc < c → w = .next s) ∧
      (c ≤ s.cyc → (hop = some 1 ∨ hop = some 2) →
        (whole.length < f.len → w = .next (net fun n => { n with winze := Tab.set n.winze wk r, asm := Tab.set n.asm a whole })) ∧
        (f.len ≤ whole.length → ∃ l, l.Perm whole ∧ l.Pairwise (fun x y => x.ix ≤ y.ix) ∧ w = .next (net fun n => { n with
          winze := Tab.set n.winze wk r, asm := Tab.del n.asm a, inject := Tab.set n.inject (stopKey l2 st) (Tab.get [] n.inject (stopKey l2 st) ++ l) }))) ∧
      (c ≤ s.cyc → n.winze = [(wk, (c, st, f) :: r)] → n.parts = [] → (hop = some 3 ∧ l2 < 7 ∧ up = true ∨ hop = some 4 ∧ 0 < l2 ∧ up = false) → st % 3 = 2 →
        ∃ u, w = .next u ∧ Tab.get [] u.chip.net.winze wk = r ∧ Tab.get [] u.chip.net.winze (2 * l2 + if up then 0 else 1) = [(s.cyc + 8, st, f)])) ∧
    (store = [] → ∃ u, dr = .next u ∧ Tab.get [] u.chip.net.overflow lvl = [] ∧ u.chip.ctxs = s.chip.ctxs ∧ sameBytes s u) ∧
    (store = [f] → f.cargo = .message p → x.status ≠ .saved → x.status ≠ .free → x.recv.length < 16 → ∃ u, dr = .next u ∧
      Tab.get [] u.chip.net.overflow lvl = [] ∧ u.ctx f.target = { x with recv := x.recv ++ [⟨f.sender, p⟩] } ∧ sameBytes s u) ∧
    (store = [f] → f.cargo = .message p → (x.status = .saved ∨ x.status ≠ .free ∧ 16 ≤ x.recv.length) → ∃ u, dr = .next u ∧
      Tab.get [] u.chip.net.overflow lvl = [f] ∧ u.chip.ctxs = s.chip.ctxs)

/-- R24, R92, R168, R184, R185, R220, R229, R238, R240 and R408: an item from a known peer for this package waits for its boundary; at a tick
boundary the allowances are whole again and every item whose time has come is delivered, a late one counted; an item not acknowledged 256 ticks
after its send is abandoned and reported; retransmissions are recorded; the clock advances and is slewed by at most 100 parts per million. The
room of a receive queue is a constant the spec leaves open (log entry 4). The model's choices (log entry 24): when an item counts as late, ROWS
withheld and dropped, items from peers alone, KIND 2 of a late notice, time that advances only in READY and slews by the time elapsed. -/
def Obligations.FabricAndClock : Prop :=
  ∀ (s : State) (it : FabItem) (n cnt : BitVec 16) (port : BitVec 5) (elapsed : BitVec 64) (master : Word) (m pa ix : Nat) (e : Word) (r : Region),
    let f := s.chip.fab; let up := s.chip.host.state = 5; let jn := it.job.toNat; let j := s.job jn; let k := f.tick + 1
    let due := it.sendTick.toNat + if it.priority = true ∧ 1 < f.dist then f.dist - 1 else f.dist
    let tickAt := f.t0.toNat + k * (1000 * f.tickus) ≤ f.time.toNat; let tb := exec .tickBoundary s; let ab := exec (.fabricItemAbandon n) s
    let one := f.inbox = [(m, it)] ∧ j.started = true ∧ j.fmode < 2 ∧ due ≤ k ∧ 0 < jn
    let plain : Int := f.time.toNat + elapsed.toNat; let most : Int := elapsed.toNat / 10000
    let told := fun (u : State) (kind : BitVec 4) (addr info : Word) => ∃ q, (u.job jn).waiting = [q] ∧ q.record.code = 0x0A ∧ q.record.kind = kind ∧
      q.record.ctx = 0x7F2 ∧ q.record.addr = addr ∧ q.record.info = info ∧ q.record.launch = it.launch
    ((it.dst ≠ s.chip.host.pkgid ∨ Tab.find f.peers it.src.toNat = none) → exec (.fabricItemReceive it) s = .next s) ∧
    (it.dst = s.chip.host.pkgid → Tab.find f.peers it.src.toNat ≠ none →
      exec (.fabricItemReceive it) s = .next (s.onFab fun x => { x with inbox := x.inbox ++ [(x.tick, it)] })) ∧
    ((¬ up ∨ ¬ tickAt) → tb = .next s) ∧
    (up → tickAt → ∃ u, tb = .next u ∧ u.chip.fab.time = f.time ∧ (f.inbox = [] → u.chip.fab.tick = k ∧ sameBytes s u ∧ ∀ i, (u.job i).fabUsed = 0)) ∧
    (up → tickAt → one → (it.kind ≠ .rows → it.kind ≠ .gathRequest → it.kind ≠ .gathReply → ∃ u, tb = .next u ∧ u.chip.fab.tick = k ∧
        u.chip.fab.inbox = [] ∧ (it.kind = .store → u.chip.fab.overruns = f.overruns + if due ≤ m then 1 else 0)) ∧
      (it.kind = .store → it.payload ≠ [] → it.rva.toNat % 65536 + it.payload.length ≤ 65536 → translate s j.asid it.rva .write = .ok (pa, e) →
        ∃ u, tb = .next u ∧ u.scr = s.scr ∧ u.rep = s.rep ∧ ∀ a, Cells.read u.mem a =
          if pa ≤ a ∧ a < pa + it.payload.length then it.payload.getD (a - pa) 0 else Cells.read s.mem a) ∧
      (it.kind = .rows → k < it.sendTick.toNat + 256 → (j.queueOf it.queue.toNat).length < Config.rowsQueue → ∃ u, tb = .next u ∧ sameBytes s u ∧
        u.chip.fab.inbox = [] ∧ (u.job jn).queueOf it.queue.toNat = j.queueOf it.queue.toNat ++ [it] ∧
        (it.stepn.toNat, it.bnd.toNat) ∈ (u.job jn).rowsSeen) ∧
      (it.kind = .rows → k < it.sendTick.toNat + 256 → Config.rowsQueue ≤ (j.queueOf it.queue.toNat).length → ∃ u, tb = .next u ∧
        u.chip.fab.inbox = [(m, it)] ∧ u.chip.fab.overruns = f.overruns) ∧
      (it.kind = .notice → (it.stepn.toNat, it.bnd.toNat) ∉ j.rowsSeen → j.noticeStore = [] → ∃ u, tb = .next u ∧ (u.job jn).noticeStore = [it]) ∧
      (it.kind = .notice → (it.stepn.toNat, it.bnd.toNat) ∈ j.rowsSeen → j.waiting = [] → ∃ u q, tb = .next u ∧ (u.job jn).waiting = [q] ∧
        q.record.code = 0x0A ∧ q.record.kind = 2 ∧ q.record.ctx = 0x7F2 ∧ (u.job jn).noticeStore = j.noticeStore)) ∧
    (j.regions = [(ix, r)] → (storeHitsFlag s jn it = some ix ↔ 2 ≤ j.fmode ∧ r.kind = 2 ∧ r.obj < it.rva.toNat + it.payload.length ∧ it.rva.toNat < r.obj + 8)) ∧
    (storeHitsFlag s jn it = some ix → ix < 2 ^ 64 → j.waiting = [] → jn < 64 → let u := deliverStore s jn it
      sameBytes s u ∧ u.chip.ctxs = s.chip.ctxs ∧ ∃ q, (u.job jn).waiting = [q] ∧ q.record.code = 0x04 ∧ q.record.kind = 4 ∧ q.record.ctx = 0x7F2 ∧
        q.record.acc = 1 ∧ q.record.addr = it.rva ∧ q.record.info.toNat = ix) ∧
    (up → tickAt → f.inbox = [(m, it)] → j.started = true → k < due → it.kind ≠ .rows → ∃ u, tb = .next u ∧ u.chip.fab.inbox = [(m, it)] ∧ sameBytes s u) ∧
    ((f.sent[n.toNat]? = none ∨ f.sent[n.toNat]? = some it ∧ f.tick < it.sendTick.toNat + 256) → ab = .next s) ∧
    (f.sent[n.toNat]? = some it → it.sendTick.toNat + 256 ≤ f.tick → ∃ u, ab = .next u ∧ u.chip.fab.sent = f.sent.eraseIdx n.toNat ∧ sameBytes s u ∧
      u.chip.ctxs = s.chip.ctxs ∧ let d : Word := it.dst.setWidth 64
        (j.waiting = [] → it.kind = .store → told u 4 d (it.launch ++ (0 : BitVec 14) ++ it.dst)) ∧
        (j.waiting = [] → it.kind ∈ [ItemKind.rows, .notice] → it.ds = true → told u 2 d d) ∧
        (it.kind ∈ [ItemKind.rows, .notice] → it.ds = false → u.chip.jobs = s.chip.jobs) ∧
        (it.kind = .gathRequest → ∃ y, u.chip.fab.replies = f.replies ++ [y] ∧ y.kind = .gathReply ∧ y.bnd = 0x10 ∧ y.ctx = it.ctx ∧
          y.queueSeq = it.queueSeq ∧ y.stepn = it.stepn)) ∧
    exec (.linkRetransmit port cnt) s = .next (s.cerRecord { type := 9, cls := 11, unit := port.toNat, detail := cnt.toNat }) ∧
    (¬ up → exec (.ptpTimeSync elapsed master) s = .next s) ∧
    (up → plain + most < 2 ^ 64 → ∃ u, exec (.ptpTimeSync elapsed master) s = .next u ∧ sameBytes s u ∧ u.chip.ctxs = s.chip.ctxs ∧
      (u.chip.fab.time.toNat : Int) ≤ plain + most ∧ plain - most ≤ u.chip.fab.time.toNat ∧ u.chip.fab.offset = u.chip.fab.time - master ∧
      (plain - most ≤ master.toNat → (master.toNat : Int) ≤ plain + most → u.chip.fab.time = master) ∧
      (plain + most ≤ master.toNat → (u.chip.fab.time.toNat : Int) = plain + most))

/-- R207, R208, R209 and R414: the first waiting record of a job that can be written is: to its queue's next place while RD read again leaves
room, with its number, WR and LOST, and then it is off the list; a full queue keeps it; a freed context 3 whose record is written can be reserved
again; the supervisor's own record goes to the host's fault window once that is free. A record's fields lie where R208 puts them. Which waiting
record is written first, and when LOST is written, are the model's readings (log entry 23). -/
def Obligations.TrapRecords : Prop :=
  ∀ (s s1 s2 : State) (job : BitVec 6) (w : Waiting) (rd : Nat) (r : TrapRec) (q : Word),
    let jn := job.toNat; let j := s.job jn; let tq := j.reg 0x108; let lg := bits tq 4 0; let base : Word := BitVec.ofNat 64 (bits tq 55 12 * 4096)
    let cap := (2 ^ lg - 128) / 128; let place := base + BitVec.ofNat 64 (128 + 128 * (j.tqSeq.toNat % cap)); let x := exec (.trapRecordWrite job) s
    let idle := fun (z : State) => ∀ y ∈ z.chip.launches, y.2.arrivals = []
    let lost := fun (z : State) => readVaNum z j.asid (base + 16) 8 = .ok j.lost.toNat
    (j.waiting = [] → lg = 0 ∨ lost s → x = .next s) ∧
    (j.waiting = [w] → w.record.ctx ≠ 1024 → lg = 0 → x = .next s) ∧
    (j.waiting = [w] → w.record.ctx ≠ 1024 → 13 ≤ lg → lg ≤ 24 → readVaNum s j.asid base 8 = .ok rd →
      (rd + cap ≤ j.tqSeq.toNat → lost s → x = .next s) ∧
      (j.tqSeq.toNat < rd + cap → writeVa s j.asid place (leBytes 128 (w.record.image j.tqSeq).toNat) = .ok s1 →
        writeVa s1 j.asid (base + 8) (leBytes 8 (j.tqSeq + 1).toNat ++ leBytes 8 j.lost.toNat) = .ok s2 → idle s2 → ∃ t, x = .next t ∧ t.mem = s2.mem ∧
          t.scr = s2.scr ∧ t.rep = s2.rep ∧ (t.job jn).waiting = [] ∧ (t.job jn).tqSeq = j.tqSeq + 1 ∧
          (w.own = none → t.chip.ctxs = s2.chip.ctxs) ∧
          (∀ g h, w.own = some g → (s2.ctx g).held = some h → h.seq = none → (s2.ctx g).status ≠ .free → (t.ctx g).held = some { h with seq := some j.tqSeq }) ∧
          ∀ g, w.own = some g → g < 1024 → g % 4 = 3 → (s2.ctx g).status = .free → s2.chip.jobs = [(jn, j)] → (s2.core (g / 4)).resetting = false →
            (s2.core (g / 4)).mappedOut = false → (s2.level (coreLevel (g / 4))).power = .awake →
            (t.ctx g).status = if (claimant s2 (g / 4)).isSome = true then .reserved else .free)) ∧
    (j.waiting = [w] → w.record.ctx = 1024 → s.chip.host.fvalid = true → lg = 0 → x = .next s) ∧
    (j.waiting = [w] → w.record.ctx = 1024 → (∀ g, w.own = some g → 1024 ≤ g) → s.chip.host.fvalid = false → ∃ t, x = .next t ∧ (t.job jn).waiting = [] ∧ t.chip.host.fvalid = true ∧
      t.chip.host.fault = w.record.image s.chip.host.faultSeq ∧ t.chip.host.faultSeq = s.chip.host.faultSeq + 1 ∧ sameBytes s t ∧
      t.chip.host.msix = s.chip.host.msix + 1) ∧
    (let i := r.image q; bits i 7 0 = r.code.toNat ∧ bits i 11 8 = r.kind.toNat ∧ bits i 14 12 = r.tslot.toNat ∧ bits i 15 15 = 0 ∧
      bits i 20 16 = r.done.toNat ∧ bits i 23 21 = r.acc.toNat ∧ bits i 34 24 = r.ctx.toNat ∧ bits i 40 35 = r.job.toNat ∧ bits i 63 41 = 0 ∧
      bits i 127 64 = r.pc.toNat ∧ bits i 191 128 = r.addr.toNat ∧ bits i 223 192 = r.launch.toNat ∧ bits i 255 224 = r.ord.toNat ∧
      bits i 319 256 = r.info.toNat ∧ bits i 383 320 = q.toNat ∧ bits i 511 384 = 0 ∧ bits i 767 512 = r.exp.toNat ∧ bits i 1023 768 = r.act.toNat)

/-- R214, R215, R219, R220, R222 and R237: a corrected error is recorded and changes nothing else; one of two bits poisons its unit, the sector of
memory where a cache holds it, a sector of scratch, a tile row, a lane or a line of a replica, and is recorded; a register whose parity fails is
restored where the operand log holds it, else its context is killed with code 0x13; a scrub pass and a lost expander are recorded. A record of the
log with space for it takes the next number and the fields of R220. Syndromes are free values (log entry 4); which bytes an error of a cache
poisons is log entry 25, the class of a queue and of an instruction cache log entry 50, the class numbers of registers log entry 47. -/
def Obligations.BitErrors : Prop :=
  ∀ (s : State) (site : EccSite) (id : CtxId) (cls num : BitVec 8) (port : BitVec 3) (pa : BitVec 52) (core : BitVec 8) (off : BitVec 22)
    (t : BitVec 4) (row : BitVec 6) (k9 : BitVec 9) (sl : BitVec 7) (ac : BitVec 1) (lane : BitVec 12) (lv : BitVec 4) (ro : BitVec 20) (ei : Nat) (me : MapEntry) (c : Cer) (e : CerEvent) (boot : Nat) (time : Word),
    let ctx := fun (e : CerEvent) (g : Nat) => { e with ctx := g, job := (s.ctx g).cr.job.toNat, launch := (s.ctx g).cr.launch.toNat : CerEvent }
    let logs := fun (z u : State) (e : Nat → CerEvent) => ∃ d, u.chip.cer = (z.cerRecord (e d)).chip.cer
    let x := s.ctx id.toNat; let n := cls.toNat + 256 * num.toNat; let par := exec (.registerParityFail id cls num) s; let p := port.toNat
    let held := (⟨cls.toNat, num.toNat⟩ : LogWrite) ∈ x.oplog
    let sec := (s.core core.toNat).scrSector off.toNat; let classOf := fun (st : EccSite) => (siteEvent 2 0 s st).cls
    let dbl := fun (site : EccSite) (u : State) => exec (.eccDoubleBit site) s = .next u ∧ sameBytes s u ∧ logs s u (fun d => siteEvent 4 d s site)
    (∃ u, exec (.eccSingleBit site) s = .next u ∧ sameBytes s u ∧ u.chip.ctxs = s.chip.ctxs ∧ u.chip.poison = s.chip.poison ∧
      u.chip.scrPoison = s.chip.scrPoison ∧ u.chip.repPoison = s.chip.repPoison ∧ logs s u (fun d => siteEvent 2 d s site)) ∧
    (∃ u, dbl site u) ∧
    (populated s pa.toNat = true → ∀ st ∈ [EccSite.hbm pa, .saveArea id pa, .l1 k9 pa, .icache k9 pa, .l2 sl pa, .l3 pa, .tcache k9 pa], ∃ u, dbl st u ∧
      (∀ k, k ∈ u.chip.poison ↔ k ∈ s.chip.poison ∨ k = sectorOf pa.toNat) ∧ u.chip.ctxs = s.chip.ctxs) ∧
    (∃ u, dbl (.scratch core off) u ∧ u.chip.ctxs = s.chip.ctxs ∧ ∀ o n, scrPoisoned u core.toNat o n =
      (scrPoisoned s core.toNat o n || (decide (sec.1 < o + n) && decide (o < sec.1 + sec.2)))) ∧
    ((s.core core.toNat).entries = [] → sec = (sectorBase (sectorOf off.toNat), sectorLen (sectorOf off.toNat))) ∧
    ((s.core core.toNat).entries = [(ei, me)] → me.overlaps off.toNat 1 = true → let k := sectorOf (me.va + (off.toNat - me.soff)) - sectorOf me.va
      sec = (me.sectOff k, me.sectLen k)) ∧
    (∃ u, dbl (.replica lv ro) u ∧ u.chip.ctxs = s.chip.ctxs ∧ ∀ k, k ∈ u.chip.repPoison ↔ k ∈ s.chip.repPoison ∨ k = lv.toNat * 0x4000 + ro.toNat / 64) ∧
    (∃ u, dbl (.acc id ac lane) u ∧ (Tab.get {} ((u.ctx id.toNat).acc ac.toNat).lanes lane.toNat).poison = true) ∧
    (∃ u, dbl (.queue k9) u ∧ u.chip.ctxs = s.chip.ctxs ∧ u.chip.poison = s.chip.poison ∧ u.chip.scrPoison = s.chip.scrPoison ∧ u.chip.repPoison = s.chip.repPoison) ∧
    (classOf (.hbm pa) = 0 ∧ classOf (.scratch core off) = 1 ∧ classOf (.l1 k9 pa) = 2 ∧ classOf (.l2 sl pa) = 3 ∧ classOf (.l3 pa) = 4 ∧
      classOf (.tile id t row) = 5 ∧ classOf (.acc id ac lane) = 5 ∧ classOf (.replica lv ro) = 7 ∧ classOf (.tcache k9 pa) = 8 ∧ classOf (.saveArea id pa) = 9) ∧
    (∃ u, dbl (.tile id t row) u ∧ (((u.ctx id.toNat).tile t.toNat).row row.toNat).poison = true ∧
      ∀ r, r ≠ row.toNat → ((u.ctx id.toNat).tile t.toNat).row r = ((s.ctx id.toNat).tile t.toNat).row r) ∧
    ((x.status ∉ [Status.running, .stopped] ∨ x.killed = true) → par = .next s) ∧
    (x.status ∈ [Status.running, .stopped] → x.killed = false → held →
      par = .next (s.cerRecord (ctx { type := 3, cls := 6, unit := id.toNat, detail := n } id.toNat))) ∧
    (x.status ∈ [Status.running, .stopped] → x.killed = false → ¬ held → x.regValue cls.toNat num.toNat ≠ (startOf s id.toNat).regValue cls.toNat num.toNat →
      id.toNat < 1024 → s.chip.phasers = [] → (∀ y ∈ s.chip.launches, y.2.arrivals = []) → ∃ u, par = .next u ∧ ((u.ctx id.toNat).status = .free ∨ (u.ctx id.toNat).status = .reserved) ∧
        ∃ w ∈ (u.job x.cr.job.toNat).waiting, w.record.code = 0x13 ∧ w.record.kind = 1 ∧ w.record.info.toNat = n ∧ w.own = some id.toNat) ∧
    (∃ u, exec .patrolScrubPass s = .next u ∧ u.chip.cer.pass = s.chip.cer.pass + 1 ∧ u.chip.ctxs = s.chip.ctxs ∧ sameBytes s u ∧
      u.chip.cer = ((s.onCer fun c => { c with pass := c.pass + 1 }).cerRecord { type := 0x0D, cls := 0, detail := (s.chip.cer.pass + 1).toNat }).chip.cer) ∧
    ((p ∈ s.chip.sup.dropped ∨ ∀ y ∈ s.chip.sup.expanders, y.1 ≠ p) → exec (.expanderLinkDrop port) s = .next s) ∧
    (p ∉ s.chip.sup.dropped → (∃ y ∈ s.chip.sup.expanders, y.1 = p) → ∃ u, exec (.expanderLinkDrop port) s = .next u ∧ sameBytes s u ∧
      (∀ k, k ∈ u.chip.sup.dropped ↔ k ∈ s.chip.sup.dropped ∨ k = p) ∧ u.chip.ctxs = s.chip.ctxs ∧
      logs s u (fun d => { type := 4, cls := 11, unit := p, detail := d })) ∧
    (c.gaps = [] → c.sinceCkp < 4095 → c.hasRoom 1 = true → c.hasBlock = true → 0 < c.recBlocks → let z := c.record boot time e
      z.next = c.next + 1 ∧ ∃ v, z.recordAt c.next = some v ∧ bits v 63 0 = c.next % 2 ^ 64 ∧ bits v 127 64 = max c.lastTime.toNat time.toNat ∧
        bits v 135 128 = e.type % 256 ∧ bits v 143 136 = e.cls % 256 ∧ bits v 159 144 = e.unit % 65536 ∧ bits v 191 160 = 0 ∧
        bits v 255 192 = e.addr % 2 ^ 64 ∧ bits v 319 256 = e.detail % 2 ^ 64 ∧ bits v 351 320 = e.launch % 2 ^ 32 ∧
        bits v 383 352 = e.ctx % 2 ^ 11 + 2 ^ 11 * (e.job % 64) ∧ bits v 511 384 = 0)

/-- R140 and R338: PMIG reads its descriptor and, where the page is mapped and not migrating and the destination is aligned, populated and in the
other tier, sets MIG in the page's way, notes the migration and gives 0; else it gives 1 and changes nothing. R121, R140, R142, R144, R145, R210
and R237: a migration that ends copies the page's bytes, names the destination in the source's translation with MIG taken away and TIER set for
its tier, writes TIER in the KV entry it names and reports; a poisoned source stops it and marks the translation poisoned, a destination that
cannot be written leaves it as it was; a page of a demotion moves where the pool offers a second-tier page, an unfit entry is marked failed and
passed over, and an entry taken for a page that cannot move is marked failed with it. That a failed entry is passed over and fails with its page
is the model's choice (log entry 54); so are PMIG's unchecked descriptor, a table entry that cannot be read and the poison of the ring (log entry
61). -/
def Obligations.TierSteps : Prop :=
  (∀ (s : State) (d a : SReg) (bs : List Byte) (e : Word) (pa way : Nat),
     let f := fun (o n : Nat) => leNat ((bs.drop o).take n); let asid := f 0x18 2 % 8192; let va : Word := BitVec.ofNat 64 (f 0 8); let dst := f 8 8
     let big := s.peek way 8 / 2 ^ 62 % 2 = 1; let len := if big then 0x400000 else 0x10000; let src := pa / len * len
     let fits := dst % len = 0 ∧ pagePopulated s dst len = true ∧ inTier2 src ≠ inTier2 dst
     let m : Migration := { job := s.me.cr.job.toNat, asid, va, src, dst, big := decide big, way, kve := BitVec.ofNat 64 (f 0x10 8), pool := none }
     ((∃ b, readVa s (asidOf s s.cur.ctx) (s.rS a) 32 = .error b) → givesS s (.pmig d a) 1 d 1) ∧
     (readVa s (asidOf s s.cur.ctx) (s.rS a) 32 = .ok bs →
       ((∀ x y z, lookup s asid va ≠ .hit x y z) → givesS s (.pmig d a) 1 d 1) ∧
       (lookup s asid va = .hit e pa way → (e.getLsbD 57 = true ∨ ¬ fits) → givesS s (.pmig d a) 1 d 1) ∧
       (lookup s asid va = .hit e pa way → e.getLsbD 57 = false → fits → ∃ t, exec (.pmig d a) s = .next t ∧
         storesWord s t (way + 8) 8 (e ||| 1 <<< 57).toNat ∧ t.chip.migs = s.chip.migs ++ [m] ∧
         t.chip.ctxs = (s.result 1 (s.wS d 0)).chip.ctxs))) ∧
  (∀ (s : State) (n : BitVec 8) (m : Migration) (p pa kve tail st page : Nat) (job : BitVec 6) (d : Demotion) (x y head : Nat) (w2 e2 : Word),
     let len := if m.big = true then 0x400000 else 0x10000; let mc := exec (.migrationComplete n) s; let e : Word := BitVec.ofNat 64 (s.peek (m.way + 8) 8)
     let good := pagePopulated s m.dst len = true ∧ droppedAt s m.dst = false; let apart := m.way + 16 ≤ m.dst ∨ m.dst + len ≤ m.way + 8
     let moved := fun (u : State) (w : Word) (k : Nat) => ∀ a, Cells.read u.mem a = if m.way + 8 ≤ a ∧ a < m.way + 16 then BitVec.ofNat 8 (w.toNat / 256 ^ (a - m.way - 8))
       else if m.dst ≤ a ∧ a < m.dst + k then Cells.read s.mem (m.src + (a - m.dst)) else Cells.read s.mem a
     let told := fun (u : State) (code : Word) => ∃ q, (u.job (m.job % 64)).waiting = (s.job (m.job % 64)).waiting ++ [q] ∧ q.record.code = 0 ∧
       q.record.kind = 5 ∧ q.record.ctx = 0x7F3 ∧ q.record.addr = m.va ∧ q.record.info = code
     let entry := fun (w : Word) (f : Nat → Bool) => ∀ i, i < 64 → w.getLsbD i = f i
     let j := job.toNat; let dm := exec (.demotionPage job) s; let reg := (s.job j).reg 0x10D; let lg := bits reg 4 0; let base := bits reg 51 12 * 4096
     let cap := (2 ^ lg - 64) / 8; let slot := base + 64 + 8 * (head % cap); let kv := d.kvpt + BitVec.ofNat 64 (64 + 8 * d.next)
     let after : List Demotion := if d.next + 1 < d.total then [{ d with next := d.next + 1 }] else []
     let stays := ∀ a b y, lookup s d.asid (kvPageVa kve) = .hit a b y → s.peek y 8 / 2 ^ 62 % 2 = 1 ∨ a.getLsbD 57 = true ∨ inTier2 (b / 65536 * 65536) = true
     let on := (∀ q ∈ s.chip.migs, ¬ (q.job = j ∧ q.pool.isSome = true)) ∧ s.chip.dems = [d] ∧ d.job = j;
     (s.chip.migs[n.toNat]? = none → mc = .next s) ∧
     (s.chip.migs[n.toNat]? = some m → (∃ u, mc = .next u ∧ u.chip.migs = s.chip.migs.eraseIdx n.toNat) ∧
       (m.kve = 0 → m.pool = none → ((s.job (m.job % 64)).waiting.filter fun w => w.own.isNone).length < 256 → apart →
         (firstPoison s m.src len = none → good → ∃ u w, mc = .next u ∧ moved u w len ∧ told u 0 ∧ entry w fun i =>
           if i < 36 then (m.dst / 65536).testBit i else if i = 57 then false else if i = 58 then inTier2 m.dst else e.getLsbD i) ∧
         (firstPoison s m.src len = some p → good → ∃ u w, mc = .next u ∧ moved u w (p - m.src) ∧ told u 1 ∧ entry w fun i =>
           if i = 57 then false else if i = 59 then true else e.getLsbD i) ∧
         (firstPoison s m.src len = none → ¬ good → ∃ u w, mc = .next u ∧ moved u w 0 ∧ told u 2 ∧ entry w fun i =>
           if i = 57 then false else e.getLsbD i))) ∧
     ((m.kve = 0 ∨ (∃ b, translateAll s m.asid .write (pieces m.kve.toNat 8) = .error b) → writeKvTier s m = s) ∧
       (m.kve ≠ 0 → m.kve.toNat % 65536 + 8 ≤ 65536 → translate s m.asid m.kve .write = .ok (pa, e2) → let z := writeKvTier s m
         (firstPoison s pa 8 = some p → z = s) ∧ (firstPoison s pa 8 = none → z.chip.ctxs = s.chip.ctxs ∧
           storesWord s z pa 8 ((BitVec.ofNat 64 (s.peek pa 8) &&& ~~~2) ||| (if inTier2 m.dst then 2 else 0) : Word).toNat))) ∧
     (s.chip.migs[n.toNat]? = some m → firstPoison s m.src len = none → good → apart → ∃ u v, moved u v len ∧ u.chip.sup = s.chip.sup ∧
       (m.pool = none → ∃ t, mc = .next t ∧ t.mem = (writeKvTier u m).mem)) ∧
     (((∃ q ∈ s.chip.migs, q.job = j ∧ q.pool.isSome = true) ∨ ∀ q ∈ s.chip.dems, q.job ≠ j) → dm = .next s) ∧
     (on → (d.total ≤ d.next → dm = .next (s.onChip fun c => { c with dems := [] })) ∧
       ((∃ b, readVaNum s d.asid kv 8 = .error b) → d.next < d.total → dm = .next (s.onChip fun c => { c with dems := after })) ∧
       (d.next < d.total → readVaNum s d.asid kv 8 = .ok kve →
         (kve % 2 = 0 ∨ lg = 0 → dm = .next (s.onChip fun c => { c with dems := after })) ∧
         (kve % 2 = 1 → lg ≠ 0 → populated s base = true → populated s (base + 2 ^ lg - 1) = true → s.peek base 8 = head →
           s.peek (base + 8) 8 = tail →
           (head = tail → dm = .next (s.onChip fun c => { c with dems := after })) ∧
           (tail = head + 1 → 0 < cap → s.peek slot 8 = page * 65536 + st → st < 4 → page < 2 ^ 36 →
             (st = 0 → inTier2 (page * 65536) = true → pagePopulated s (page * 65536) 0x10000 = true → lookup s d.asid (kvPageVa kve) = .hit w2 x y →
               s.peek y 8 / 2 ^ 62 % 2 = 0 → w2.getLsbD 57 = false → inTier2 (x / 65536 * 65536) = false →
               ∃ t, dm = .next t ∧ t.chip.dems = after ∧ storesWord s t (y + 8) 8 (w2 ||| 1 <<< 57).toNat ∧ t.chip.migs = s.chip.migs ++
                 [{ job := j, asid := d.asid, va := kvPageVa kve, src := x / 65536 * 65536, dst := page * 65536, big := false, way := y, kve := kv, pool := some head }]) ∧
             ((st ≠ 0 ∨ inTier2 (page * 65536) = false ∨ pagePopulated s (page * 65536) 0x10000 = false ∨ stays) → ∃ t, dm = .next t ∧ t.chip.dems = after ∧ t.chip.migs = s.chip.migs ∧
               t.peek base 8 = head + 1 ∧ t.peek slot 8 = page * 65536 + 2))))))

/-- R221 and R222: a checkpoint that is due and has space puts its block, the signed chain with its number, time and epoch, in the next place and
records it; with signatures spent a key epoch comes first; one not due, or without space, writes nothing. R27, R205, R220, R222, R234 and R236:
RESGO with go resumes the stopped supervisor that RESSEQ names at the point given and frees the window; CERIDX, CKPIDX and CKPDATA select and
stream, CERACK acknowledges what lies below it, never less than before and at most to the next number; a repair puts the unused spare of a
sleeping level in a strip's place, and without one maps the strip out, either recorded; MSTAT, FVALID, CERSTAT, CERDATA and two counters of TELEM
read as they stand (R223, R224, R235). The model's readings: CKPIDX names a block by SEQ, and a block that is no more reads as zero (log entry
35); a repair needs its level asleep (log entry 36). -/
def Obligations.CheckpointsAndHostWindow : Prop :=
  (∀ (s : State), let c := s.chip.cer; let boot := s.chip.host.cells; let x := exec .cerCheckpoint s; let k := c.ckpNext % c.ckpBlocks
     let due := 4095 ≤ c.sinceCkp ∨ c.wanted = true
     let sig := leBytes 48 c.chain.toNat ++ leBytes 8 c.next ++
       leBytes 8 (max c.lastTime.toNat s.chip.fab.time.toNat) ++ leBytes 4 c.epoch ++ leBytes 4 0;
     (¬ due → x = .next s) ∧
     (due → c.gaps = [] → (c.hasRoom 1 = false ∨ c.hasBlock = false) → x = .next s) ∧
     (due → c.gaps = [] → c.hasRoom 1 = true → c.hasBlock = true → c.spent < 0x100000 → 0 < c.recBlocks → ∃ u, x = .next u ∧ sameBytes s u ∧
       u.chip.ctxs = s.chip.ctxs ∧ let z := u.chip.cer
       z.next = c.next + 1 ∧ z.sinceCkp = 0 ∧ z.wanted = false ∧ z.spent = c.spent + 1 ∧ z.ckpNext = c.ckpNext + 1 ∧ Tab.find z.ckpSeqs k = some c.next ∧
       Tab.find z.ckps k = some (sig ++ leBytes 96 (Config.ecSig (epochKey boot c.epoch) sig).toNat ++
         leBytes 1772 (Config.lmsSig (epochKey boot c.epoch) c.spent sig).toNat) ∧
       ∃ v, z.recordAt c.next = some v ∧ bits v 135 128 = 0x0B ∧ bits v 319 256 = 4096 * (c.recBlocks + k) % 2 ^ 64) ∧
     (due → c.gaps = [] → c.hasRoom 2 = true → c.hasBlock = true → 0x100000 ≤ c.spent → ∃ u, x = .next u ∧ u.chip.cer.epoch = c.epoch + 1 ∧
       u.chip.cer.spent = 1 ∧ u.chip.cer.next = c.next + 2)) ∧
  (∀ (s : State) (seq v : Word) (q : Held) (f : Frame) (n : Nat) (bs : List Byte) (level : BitVec 3) (slice : Bool) (strip : BitVec 3),
     let h := s.chip.host; let c := s.chip.cer; let x := s.ctx 1024; let go := exec (.resgo seq v) s; let skip := v.getLsbD 0
     let named := s.onHost fun h => { h with resseq := seq }; let cut := skip = true ∧ q.record.code ≠ 1
     let l := level.toNat; let k := strip.toNat; let y := s.level l; let fix := exec (.stripRepair level slice strip) s
     let at_ := y.power = .asleep ∧ y.mappedOut = false ∧ (slice = true → k < 4); let used := (if slice = true then y.spareSlice else y.spareCore) = true
     let event := fun (d : Nat) => { type := 8, cls := if slice = true then 3 else 10, unit := (if slice = true then 4 else 8) * l + k, detail := d : CerEvent };
     ((v.getLsbD 1 = false ∨ h.fvalid = false ∨ x.status ≠ .stopped ∧ x.status ≠ .saved ∨ x.status = .stopped ∧ x.held = some q ∧ q.seq ≠ some seq) →
       go = .next named) ∧
     (v.getLsbD 1 = true → h.fvalid = true → x.status = .stopped → x.held = some q → q.seq = some seq → q.frame = some f →
       ¬ (skip = true ∧ q.record.code = 0x08) → ∃ u, go = .next u ∧ u.chip.host.fvalid = false ∧ sameBytes s u ∧ (u.ctx 1024).status = .running ∧
         (u.ctx 1024).held = none ∧ (∀ g, g ≠ 1024 → u.ctx g = s.ctx g) ∧ 
         (u.ctx 1024).kept = some { f with rest := if cut then f.rest.filter fun x => Slot.tslot x.slot != q.record.tslot else f.rest }) ∧
     exec (.ceridx v) s = .next (s.onCer fun c => { c with cerix := v }) ∧
     exec (.ckpidx v) s = .next (s.onCer fun c => { c with ckpix := v, ckpPos := 0 }) ∧
     (c.ckpSeqs = [(n, c.ckpix.toNat)] → Tab.find c.ckps n = some bs → ∃ u, exec .ckpdataRead s = .next u ∧ sameBytes s u ∧
       u.chip.cer.ckpWord.toNat = leNat ((bs.drop (8 * c.ckpPos)).take 8) ∧ u.chip.cer.ckpPos = (c.ckpPos + 1) % 512) ∧
     ((∀ z ∈ c.ckpSeqs, z.2 ≠ c.ckpix.toNat) → ∃ u, exec .ckpdataRead s = .next u ∧ u.chip.cer.ckpWord = 0 ∧ u.chip.cer.ckpPos = (c.ckpPos + 1) % 512) ∧
     (v.toNat < c.cerack.toNat → exec (.cerack v) s = .next s) ∧
     (c.cerack.toNat ≤ v.toNat → ∃ u, exec (.cerack v) s = .next u ∧ u.chip.cer.ack = min v.toNat c.next ∧
       u.chip.cer.cerack.toNat = min v.toNat c.next % 2 ^ 64 ∧ sameBytes s u ∧ u.chip.ctxs = s.chip.ctxs ∧ (c.gaps = [] → u.chip.cer.records = c.records)) ∧
     (¬ at_ → fix = .next s) ∧
     (at_ → used → ∃ u, fix = .next u ∧ sameBytes s u ∧ (slice = false → ∀ i, i < 4 → (u.core (32 * l + 4 * k + i)).mappedOut = true) ∧
       (slice = true → k ∈ (u.level l).slicesOut) ∧ u.chip.cer = (s.cerRecord (event (if slice = true then 1 else 0))).chip.cer) ∧
     (at_ → ¬ used → ∃ u, fix = .next u ∧ (u.level l).spareSlice = (y.spareSlice || slice) ∧ (u.level l).spareCore = (y.spareCore || !slice) ∧ sameBytes s u ∧
       (slice = false → ∀ i, i < 4 → (u.core (32 * l + 4 * k + i)).resetting = false) ∧ u.chip.cer =
         (s.cerRecord (event (if slice = true then 17 else 16))).chip.cer) ∧
     ((barRead s 0).toNat = h.state.toNat + 2 ^ 14 * h.pkgid.toNat + 2 ^ 32 * h.failcode.toNat ∧ barRead s 0x3080 = (if h.fvalid = true then 1 else 0) ∧
       barRead s 0x5008 = (if (c.recordAt c.cerix.toNat).isSome = true then 1 else 0) ∧ barRead s 0x4008 = s.chip.net.sunk ∧ barRead s 0x4018 = BitVec.ofNat 64 c.next) ∧
     (∀ i w, i < 8 → c.recordAt c.cerix.toNat = some w → barRead s (0x5040 + 8 * i) = BitVec.ofNat 64 (bits w (64 * i + 63) (64 * i))))

/-- R223 to R228 and R232: a reset in any state discards everything but what outlives it; RESET ends in AWAIT with the next boot cell programmed,
or fails with 7, 8 or 9; the doorbell of AWAIT starts the fetch; the images' checks lead to INIT or fail with the code of the first that fails;
INIT applies the configuration and starts the supervisor, or fails with 6 or 8. The code of a bad header, what outlives a reset and where INIT
places the job are the model's choices (log entries 9, 11 and 26). -/
def Obligations.BootSteps : Prop :=
  ∀ (s z : State) (v desc time : Word) (fail : Option (BitVec 8)) (fw cfg : List Byte) (memOk : Bool) (cxl : BitVec 8) (port : BitVec 32)
    (cap : List (BitVec 52)),
    let h := s.chip.host; let goes := fun (z : State) (st : BitVec 3) (c : BitVec 8) => z.onChip fun k =>
      { k with host := { k.host with state := st, failcode := c, msix := k.host.msix + 1 } }
    let fresh : State := { State.reset with chip := { State.reset.chip with
      host := { State.reset.chip.host with cells := h.cells, keySerial := h.keySerial, msix := h.msix + 1 }
      run := { State.reset.chip.run with agenda := s.chip.run.agenda, turn := s.chip.run.turn, free := s.chip.run.free } } }
    let cell := s.onHost fun h => { h with cells := h.cells + 1 }
    let got := fun (fw cfg : List Byte) => exec (.bootVerify (some fw) (some cfg)) s; let fwOk := headerOk fw 0x4638474E 0x10000 0x4000000 = true
    let cfgOk := headerOk cfg 0x4338474E 0x800 0x100000 = true; let b := h.cfg.drop 0x800; let num := fun (o n : Nat) => leNat ((b.drop o).take n)
    let init := exec (.bootInit memOk cxl port cap time) s; let w := applyLinks (bootRecord (applyFixed s b time)) b cxl port cap
    let ok := configOk b (h.fw.drop 0x800).length = true
    exec .pcieFundamentalReset s = .next fresh ∧ exec (.rstctl 0xA501) s = .next fresh ∧ (v ≠ 0xA501 → exec (.rstctl v) s = .next s) ∧
    (h.state ≠ 1 → exec (.moduleReset fail) s = .next s) ∧
    (h.state = 1 → 32768 ≤ h.cells → exec (.moduleReset fail) s = .next (goes s 6 9)) ∧
    (h.state = 1 → h.cells < 32768 → exec (.moduleReset none) s = .next (goes cell 2 0) ∧ exec (.moduleReset (some 8)) s = .next (goes cell 6 8) ∧
      exec (.moduleReset (some 7)) s = .next (goes cell 6 7)) ∧
    ((h.state ≠ 2 ∨ v ≠ 1) → exec (.bootdb desc v) s = .next (s.onHost fun h => { h with bootdesc := desc })) ∧
    (h.state = 2 → exec (.bootdb desc 1) s = .next (goes (s.onHost fun h => { h with bootdesc := desc }) 3 0)) ∧
    (h.state ≠ 3 → ∀ x y, exec (.bootVerify x y) s = .next s) ∧
    (h.state = 3 → exec (.bootVerify none (some cfg)) s = .next (goes s 6 1) ∧ exec (.bootVerify (some fw) none) s = .next (goes s 6 1) ∧
      exec (.bootVerify none none) s = .next (goes s 6 1) ∧ (¬ fwOk → got fw cfg = .next (goes s 6 1)) ∧
      (fwOk → ecVerifies fw = false → got fw cfg = .next (goes s 6 2)) ∧
      (fwOk → ecVerifies fw = true → lmsVerifies fw = false → got fw cfg = .next (goes s 6 3)) ∧
      (fwOk → ecVerifies fw = true → lmsVerifies fw = true → (¬ cfgOk → got fw cfg = .next (goes s 6 6)) ∧
        (cfgOk → ecVerifies cfg = false → got fw cfg = .next (goes s 6 4)) ∧
        (cfgOk → ecVerifies cfg = true → lmsVerifies cfg = false → got fw cfg = .next (goes s 6 5)) ∧
        (cfgOk → ecVerifies cfg = true → lmsVerifies cfg = true → got fw cfg = .next (goes (s.onHost fun h => { h with fw, cfg, pkgid := BitVec.ofNat 18 (leNat ((cfg.drop 0x800).take 4)) }) 4 0)))) ∧
    (h.state ≠ 4 → init = .next s) ∧
    (h.state = 4 → (¬ ok → init = .next (goes s 6 6)) ∧ (ok → memOk = false → init = .next (goes (applyFixed s b time) 6 8)) ∧
      (ok → memOk = true → startSupervisor w = none → init = .next (goes w 6 6)) ∧
      (ok → memOk = true → startSupervisor w = some z → ∃ t, init = .next t ∧ t.chip.host.state = 5 ∧ t.chip.host.pkgid.toNat = num 0 4 % 2 ^ 18 ∧
        t.chip.fab.time = time ∧ t.chip.fab.t0.toNat = num 8 8 ∧ t.chip.fab.tickus = num 0x10 2 ∧ t.chip.fab.dist = num 0x12 1 ∧
        (t.ctx 1024).status = .running ∧ (t.ctx 1024).cr.job = 0 ∧ (t.ctx 1024).pc = BitVec.ofNat 64 (num (num 0x44 4 + 8) 8) &&& ~~~31 ∧
        (t.job 0).started = true ∧ (t.job 0).key = true ∧ t.chip.shaft.table.toNat = num (num 0x40 4) 32))

/-- R221, R223, R230 to R232: commands are published while the ring has room and taken one at a time while the module serves and a response slot
is free; each is answered with its code, tag, status and job; CREATE starts the job it makes, END cancels its job and answers once its foreman is
freed and it is removed, SETREG writes as the supervisor's SETC, QUERY, CKPT and ATTEST do what they say, and a refused command changes nothing.
The layout of QUERY's payload and which modes and counts refuse a CREATE are the model's choices (log entries 10, 26 and 48), and so are when
commands are taken, when an unknown code is answered, which ENDs are refused and that CREATE waits for a code scan (log entry 27). -/
def Obligations.MailboxCommands : Prop :=
  ∀ (s t : State) (v : Word) (slot c : BitVec 512) (j : Nat),
    let h := s.chip.host; let quiet := h.state = 5 ∧ (s.ctx 1024).status = .running ∧ h.endTag = none ∧ h.rspwr.toNat < h.rsprd.toNat + 32
    let shut := h.state ≠ 5 ∨ (s.ctx 1024).status ≠ .running ∨ h.endTag.isSome = true ∨ h.cmdwr.toNat ≤ h.cmdrd.toNat ∨ h.rsprd.toNat + 32 ≤ h.rspwr.toNat
    let code := bits c 7 0; let jn := bits c 39 32; let byte := fun (o n : Nat) => bits c (8 * (o + n) - 1) (8 * o)
    let one := quiet ∧ h.cmdwr.toNat = h.cmdrd.toNat + 1 ∧ Tab.get 0 h.cmd (h.cmdrd.toNat % 32) = c ∧ h.rspwr.toNat + 1 < 2 ^ 64
    let answers := fun (i : Instr) (z : State) (st jb pay : Nat) => ∃ u w, exec i s = .next u ∧ sameBytes z u ∧ u.chip.ctxs = z.chip.ctxs ∧
      u.chip.jobs = z.chip.jobs ∧ u.chip.sup = z.chip.sup ∧ u.chip.host.rspwr = h.rspwr + 1 ∧ u.chip.host.cmdrd = h.cmdrd + 1 ∧
      u.chip.host.msix = z.chip.host.msix + 1 ∧ Tab.find u.chip.host.rsp (h.rspwr.toNat % 32) = some w ∧ bits w 7 0 = code ∧ bits w 15 8 = st ∧
      bits w 31 16 = bits c 31 16 ∧ bits w 39 32 = jb ∧ bits w 63 40 = 0 ∧ bits w 511 64 = pay % 2 ^ 448
    let ow := (s.job j).owner j; let none_ := endedJob s = none; let ix := exec .endJob s
    (h.state ≠ 5 → exec (.cmdwr [slot]) s = .next (if h.cmdwr.toNat - h.cmdrd.toNat < 32 then s.onHost fun h =>
      { h with cmd := Tab.set h.cmd (h.cmdwr.toNat % 32) slot, cmdwr := h.cmdwr + 1 } else s)) ∧
    (quiet → h.cmdwr = h.cmdrd → h.cmdwr.toNat + 1 < 2 ^ 64 → h.rspwr.toNat + 1 < 2 ^ 64 → (code = 0 ∨ 6 < code) → answers (.cmdwr [c]) s 2 jn 0) ∧
    (quiet → h.cmdwr = h.cmdrd → h.cmdwr.toNat + 1 < 2 ^ 64 → 1 ≤ code → code ≤ 6 → exec (.cmdwr [c]) s = .next (s.onHost fun h =>
      { h with cmd := Tab.set h.cmd (h.cmdwr.toNat % 32) c, cmdwr := h.cmdwr + 1 })) ∧
    (¬ (h.rsprd.toNat ≤ v.toNat ∧ v.toNat ≤ h.rspwr.toNat) → exec (.rsprd v) s = .next s) ∧
    (h.rsprd.toNat ≤ v.toNat → v.toNat ≤ h.rspwr.toNat → h.state ≠ 5 → exec (.rsprd v) s = .next (s.onHost fun h => { h with rsprd := v })) ∧
    (shut → none_ → ∀ i ∈ [Instr.create, .endJob, .setreg, .query, .ckpt, .attest], exec i s = .next s) ∧
    (one → code = 1 → (s.chip.scan ≠ none → exec .create s = .next s) ∧ (s.chip.scan = none →
      (createJob s c = none → answers .create s 1 jn 0) ∧ (createJob s c = some (j, t) → answers .create t 0 j 0))) ∧
    (createJob s c = some (j, t) → 1 ≤ j ∧ j ≤ 63 ∧ (s.job j).started = false ∧ (t.job j).started = true ∧ (t.job j).key = true ∧
      (∀ i, 1 ≤ i → i < j → (s.job i).started = true ∨ (s.job i).ending = true) ∧ (t.ctx ((t.job j).owner j)).status = .running ∧
      (t.ctx ((t.job j).owner j)).cr.job.toNat = j ∧ (t.ctx ((t.job j).owner j)).cr.mode.toNat = (t.job j).fmode ∧ ((t.job j).fmode = byte 0x29 1 ∨
        2 ≤ byte 0x29 1 ∧ (t.job j).fmode = (s.job j).fmode)) ∧
    ((8 ≤ byte 0x28 1 ∨ 4 ≤ byte 0x29 1 ∨ byte 0x29 1 = 1 ∨ byte 0x2A 2 = 0 ∨ 128 < byte 0x2A 2 ∨ byte 0x30 4 = 0 ∨ 65536 < byte 0x30 4) → createJob s c = none) ∧
    (one → code = 2 → none_ → (jn = 0 ∨ 63 < jn ∨ (s.job jn).started = false ∨ (s.job jn).ending = true → answers .endJob s 1 jn 0) ∧
      (0 < jn → jn ≤ 63 → (s.job jn).started = true → (s.job jn).ending = false → ∃ u, ix = .next u ∧ (u.job jn).ending = true ∧
        u.chip.host.endTag = some c ∧ u.chip.host.cmdrd = h.cmdrd)) ∧
    (endedJob s = some j → (s.job j).ending = true ∧ (∀ x ∈ s.chip.launches, x.2.job ≠ j) ∧ (∀ m ∈ s.chip.migs, m.job ≠ j) ∧
      (∀ x ∈ s.chip.fab.sent, x.job.toNat ≠ j) ∧ ((s.ctx ow).status ≠ .free → (s.ctx ow).killed = true → ix = .next s) ∧
      ((s.ctx ow).status = .free ∨ (s.ctx ow).killed = false ∧ s.chip.phasers = [] →
      ∃ u, ix = .next u ∧ (u.ctx ow).status = .free ∧ Tab.find u.chip.jobs j = none ∧ (∀ x ∈ u.chip.areas, x.2.job.toNat ≠ j) ∧ (h.endTag = none → u.chip.host.rspwr = h.rspwr))) ∧
    (one → code = 3 → (63 < jn → answers .setreg s 1 jn 0) ∧
      (jn ≤ 63 → answers .setreg (supervisorSet s jn (byte 8 8) (BitVec.ofNat 64 (byte 0x10 8))) 0 jn 0)) ∧
    (one → code = 4 → (63 < jn ∨ (s.job jn).started = false → answers .query s 1 jn 0) ∧
      (jn ≤ 63 → (s.job jn).started = true → answers .query s 0 jn ((s.job jn).stepNo.toNat + 2 ^ 64 * ((s.job jn).window.head?.map Prod.snd).getD 0))) ∧
    (one → code = 5 → answers .ckpt s 0 jn 0 ∧ ∃ u, exec .ckpt s = .next u ∧ u.chip.cer.wanted = true) ∧
    (one → code = 6 → (0x100000 ≤ h.attests → answers .attest s 1 jn 0) ∧ (h.attests < 0x100000 → answers .attest s 0 jn 0 ∧ ∃ u, exec .attest s = .next u ∧
      u.chip.host.attests = h.attests + 1 ∧ u.chip.host.attest.take 32 = leBytes 32 (byte 8 32) ∧ (16 ≤ h.fw.length → 16 ≤ h.cfg.length → u.chip.host.attest.length = 4096)))

/-- R151, R308, R314 to R323, R330 and R331, in FREE mode: where the spec says when these synchronisation instructions and steps execute normally,
each answers a next state: RED and ORED of a readable word or block and their steps, a result that lands in its turn, PROBE of a page that passes,
LOGMARK, the phaser instructions of a member that is in its turn, TKACQ of a token that is free and in turn, TKREL of its holder, BAR of a
released generation and the release of one, FENCE, RBIND of a descriptor with status 0, RUNBIND, and FLWAIT of a flag that has its value. An
address S[a] + off is taken modulo 2^64, the model's choice (log entry 57). -/
def Obligations.SyncCompletion : Prop :=
  ∀ (s : State) (dbl sig ix tk nf : Bool) (op : RedOp) (sc : Scope) (k : ProbeKind) (d a b : SReg) (pd : PReg) (off : BitVec 18) (tag : BitVec 3)
    (id : CtxId) (j : BitVec 6) (n i c pa : Nat) (e : Word) (r : Reduction) (rest : List Reduction) (x : Coming) (m : Member) (g : Region)
    (bs bs' : List Byte) (s1 s2 : State),
    let me := s.cur.ctx; let va := s.rS a; let asid := asidOf s me; let h := id.toNat; let y := s.ctx h; let core := s.core (coreOf h)
    let job := s.job s.me.cr.job.toNat; let w := s.rS b; let entry : Word := BitVec.ofNat 64 (bits (job.reg 0x10A) 55 16 * 0x10000 + 64 * w.toNat)
    let p := s.phaser n; let z := s.barrier tag.toNat; let conf := z.set && z.job == s.me.cr.job.toNat && z.mask.getLsbD s.cur.core && decide (s.cur.core < 256)
    let range := job.reg 0x117; let inside := bits range 11 0 ≤ n ∧ n < bits range 11 0 + bits range 24 12 ∧ va.toNat = n ∧ n < 2 ^ 12
    let goes := fun (i : Instr) (Q : State → Prop) => ∃ t, exec i s = .next t ∧ Q t
    (modeOf s me = 0 → va.toNat % (if dbl then 8 else 4) = 0 → translate s asid va .atomic = .ok (pa, e) → firstPoison s pa (if dbl then 8 else 4) = none →
      goes (.red op dbl a b) fun t => t.me.reds.length = s.me.reds.length + 1 ∧ t.mem = s.mem) ∧
    (y.reds = r :: rest → r.instr = .red op dbl a b → firstPoison s r.pa (if dbl then 8 else 4) = none →
      goes (.redPerform id) fun t => (t.ctx h).reds = rest) ∧
    (oredPlan s va = .ok r → goes (.ored a) fun t => t.me.oreds.length = s.me.oreds.length + 1) ∧
    (y.oreds = r :: rest → (∀ q ∈ core.commands, q.ctx ≠ h) → y.reds = [] → putsOut s.chip.net h = false → r.mode = 0 →
      releaseFor s r.job (coreOf h) 2 r.va.toNat = .ok s1 → goes (.oredCompletion id) fun t => (t.ctx h).oreds = rest) ∧
    (y.coming[j.toNat]? = some x → x.owed = 0 → (∀ v, x.res ≠ .dq v) →
      goes (.scoreboardResultLand id j) fun t => (t.ctx h).coming = y.coming.eraseIdx j.toNat) ∧
    (probeStatus s (s.at a off.toInt) k = .ok i → (nf = true ∨ i = 0 ∨ i = 4) → goes (.probe k nf d a off) fun t => t.mem = s.mem) ∧
    (modeOf s me = 0 → exec (.logmark a) s = .next s) ∧
    (inside → modeOf s me = 0 → (∃ q, p.member me = some q) ∨ p.member me = none ∧ (if ix = true then ∀ q ∈ p.members, q.ix ≠ w.toNat % 65536
        else ∃ f < 1024, ∀ q ∈ p.members, q.ix ≠ f) ∧ (ix = true → w.toNat % 65536 < 1024) →
      goes (.phreg sig ix d a b) fun t => ∃ q, (t.phaser n).member me = some q) ∧
    (inside → modeOf s me = 0 → goes (.phdrop a) fun t => (t.phaser n).member me = none) ∧
    (inside → p.member me = some m →
      (m.sig = true → m.sp ≠ p.k + 1 → releaseOn s me 0 n = .ok s1 →
        goes (.phsig sc a) fun t => ∃ q, (t.phaser n).member me = some q ∧ q.sp = m.sp + 1) ∧
      (p.k ≠ m.wp → goes (.phwait sc a) fun t => ∃ q, (t.phaser n).member me = some q ∧ q.wp = m.wp + 1) ∧
      (s.me.signalled = true → p.k ≠ m.wp → goes (.phsw sc a) fun t => t.me.signalled = false ∧ ∃ q, (t.phaser n).member me = some q ∧ q.wp = m.wp + 1)) ∧
    (modeOf s me = 0 → syncNumber s me va true = .ok n → (∀ f, (s.token n).state ≠ .held f) → (s.token n).waiters = [] →
      goes (.tkacq sc tk pd a b) fun t => (t.token n).state = .held me) ∧
    (syncNumber s me va true = .ok n → (s.token n).state = .held me → releaseOn s me 1 n = .ok s1 →
      goes (.tkrel sc a) fun t => (t.token n).state = .free) ∧
    (conf = true → s.me.arrived = some i → i < z.gen → goes (.bar tag) fun t => t.me.arrived = none) ∧
    (z.releaseAt = some c → c ≤ s.cyc → goes (.barrierRelease tag) fun t => (t.barrier tag.toNat).gen = z.gen + 1) ∧
    (goes (.fence sc) fun t => 1 ≤ t.me.fencing) ∧
    (va.toNat % 64 = 0 → readVa s asid va 64 = .ok bs → bindStatus s job w (regionOf bs) = 0 → readVa s asid entry 64 = .ok bs' →
      writeBackCore asid (regionOf bs).base (regionOf bs).len s s.cur.core = .ok s1 → writeVa s1 asid entry (regionOf bs).image = .ok s2 →
      goes (.rbind d a b) fun t => Tab.find (t.job s.me.cr.job.toNat).regions w.toNat = some (regionOf bs)) ∧
    (w.toNat < 4096 → Tab.find job.regions w.toNat = some g → readVa s asid entry 64 = .ok bs →
      foldE (writeBackCore asid g.base g.len) s (s.chip.cores.map Prod.fst) = .ok s1 → writeVa s1 asid (entry + 16) [0] = .ok s2 →
      goes (.runbind d b) fun t => Tab.find (t.job s.me.cr.job.toNat).regions w.toNat = none) ∧
    (flagWord s me va .read = .ok pa → firstPoison s pa 8 = none → w.toNat ≤ s.peek pa 8 → goes (.flwait sc a b) fun t => t.mem = s.mem)

/-- R41 to R49, R52, R198, R200, R201, R218, R255, R257, R258 and R332: where the spec says when these launch, level and containment instructions
and steps execute normally, each answers a next state: LAUNCH and GLAUNCH of accepted records, LAUNCH_COMPLETE, DISPATCH and ITERATION_ASSIGN
where a candidate and a context are there and, in RECORD and REPLAY, the foreman's ring lets the decision go (R175, R180, R181), a level's way to
sleep and back, ROUTESWAP and its completion, BARCFG, the start and end of a core's containment, and a write of CTXLOGBASE or CTXLOGSIZE to a free
context of the partition. -/
def Obligations.SystemCompletion : Prop :=
  ∀ (s u : State) (d a b : SReg) (id : BitVec 32) (x l : Launch) (rs : List (BitVec 2048 × List (Nat × Nat))) (j lid g : Nat) (post idx bs : List Nat)
    (level : BitVec 3) (lv : BitVec 8) (core : BitVec 8) (size : Bool),
    let jn := s.me.cr.job.toNat; let used := (s.chip.launches.filter fun y => y.2.job == jn).length; let n := (s.rS b).toNat; let v := s.rS a
    let k := level.toNat; let y := s.level k; let mine := fun (h : Nat) => 128 * k ≤ h ∧ h < 128 * k + 128; let c := core.toNat
    let bad := ∃ e ∈ s.chip.net.shadow, v.getLsbD (e.1 / 768) = true ∧ e.1 / 768 < 8 ∧ 6 ≤ bits e.2 2 0; let q := s.barrier (bits v 2 0)
    let drained := (∀ e ∈ s.chip.net.pos, lv.getLsbD (e.1 / 24) = false) ∧ (∀ e ∈ s.chip.net.asm, lv.getLsbD (e.1 % 8) = false) ∧
      (∀ e ∈ s.chip.net.inject, lv.getLsbD (e.1 / 12) = true → ∀ f, e.2.head? = some f → f.ix = 0) ∧ ∀ e ∈ s.chip.net.winze, e.2 = []
    let sj := if s.cur.ctx = 1024 then s.chip.sup.jobsel.toNat else jn; let cg := bits ((s.job sj).reg 0x101) 10 0
    let goes := fun (i : Instr) (Q : State → Prop) => ∃ t, exec i s = .next t ∧ Q t
    (used < 16 → readRecords s jn false v 0 1 = .ok rs → goes (.launch d a) fun t => t.chip.nextLid ≠ s.chip.nextLid) ∧
    (1 ≤ n → n ≤ 16 → used + n ≤ 16 → readRecords s jn true v 0 n = .ok rs → goes (.glaunch d a b) fun t => t.chip.nextLid ≠ s.chip.nextLid) ∧
    (Tab.find s.chip.launches id.toNat = some x → x.active = true → x.done = true → x.count = 0 → (∀ e ∈ s.chip.launches, e.2.preds = [] ∧ e.2.arrivals = []) →
      goes (.launchComplete id) fun t => Tab.find t.chip.launches id.toNat = none) ∧
    (s.hasTaken 2 = false → j < 64 → (candidate s j).isSome = true →
      (∀ i h w, candidate s i = some (h, w) → ∃ u, agentOp (zeroCount s i (countKey 6 w.seq)) i (dispRecord w 0 0) h = .go u) →
      goes .dispatch fun t => t.hasTaken 2 = true ∧ t.chip.dispatched = s.chip.dispatched + 1) ∧
    (s.hasTaken 3 = false → walkerOrder s = lid :: post → bringWalk s lid = s → Tab.find s.chip.launches lid = some l → l.walk = some (idx, bs) →
      idx.length = recNdim l.image → bs ≠ [] → agentOp s l.job (dispRecord l 1 (BitVec.ofNat 64 g)) lid = .go u →
      ((s.job l.job).fmode ≠ 3 ∧ pickCtx s l = some g ∨ (s.job l.job).fmode = 3 ∧ usable s l.job g = true ∧ (coresOf s l).getLsbD (g / 4) = true ∧
        g < 1024 ∧ ∃ r, peekRecord s ((s.job l.job).owner l.job) 0 = .record r true ∧ recMatches r (dispRecord l 1 0) = true ∧ bits (recVal r) 10 0 = g) →
      goes .iterationAssign fun t => t.hasTaken 3 = true ∧ (t.ctx g).status = .running) ∧
    (y.mappedOut = false → y.power = .awake → (∀ h, mine h → (s.ctx h).status = .free ∨ (s.ctx h).status = .saved) →
      goes (.levelSleepRequest level) fun t => (t.level k).power = .draining) ∧
    (y.power = .draining → s.cyc % 64 = 0 → y.asked < s.cyc → (∀ t ∈ s.chip.shaft.queue, ¬ mine t.ctx) →
      (∀ e ∈ s.chip.shaft.flight, e.1 = s.cyc → ¬ mine e.2.ctx) → (∀ h, mine h → memberships s h = []) →
      goes (.levelSleepFreeze level) fun t => (t.level k).power = .asleep) ∧
    (y.mappedOut = false → y.power = .asleep → goes (.levelWakeRequest level) fun t => (t.level k).power = .waking) ∧
    (y.power = .waking → s.cyc % 64 = 0 → y.asked < s.cyc → goes (.wakeReplicaCopy level) fun t => (t.level k).power = .refilling) ∧
    (y.power = .refilling → s.chip.launches = [] → goes (.wakeComplete level) fun t => (t.level k).power = .awake) ∧
    (s.cur.ctx = 1024 → s.chip.net.swap = none → ¬ bad → goes (.routeswap a) fun t => t.chip.net.swap = some (v.setWidth 8)) ∧
    (s.chip.net.swap = some lv → drained → goes .routeSwapComplete fun t => t.chip.net.swap = none) ∧
    (s.cur.ctx = 1024 → v.getLsbD 11 = true → q.arrivals = [] → q.releaseAt = none →
      goes (.barcfg a) fun t => (t.barrier (bits v 2 0)).set = true ∧ (t.barrier (bits v 2 0)).job = bits v 8 3) ∧
    (s.cur.ctx = 1024 → bits v 7 0 = c → (s.core c).resetting = false → goes (.contain a) fun t => (t.core c).resetting = true) ∧
    ((s.core c).resetting = false → goes (.coreLogicUncorrectable core) fun t => (t.core c).resetting = true) ∧
    ((s.core c).resetting = true → (∀ h, h / 4 = c → h < 1024 → (s.ctx h).status = .free ∨ (s.ctx h).status = .saved) →
      goes (.containmentComplete core) fun t => (t.core c).resetting = false) ∧
    (1024 ≤ s.cur.ctx → cg < 1024 → (s.job sj).partition.getLsbD (cg / 4) = true → (s.ctx cg).status = .free → goes (.ctxlogWrite size a) fun t =>
      (size = true → (t.ctx cg).cr.logsize = v.setWidth 6) ∧ (size = false → (t.ctx cg).cr.logbase = v &&& 0x00FFFFFFFFFFFFFF))
end

