-- ==== Sys2Proof/Laws/State.lean ====
section
/-! SUPPORT. One lemma for each field under each update of the state, and reading back what an update wrote. -/

namespace Sys2Proof.Machine

theorem Tab.get_set_same {β : Type} (d : β) (t : Tab β) (n : Nat) (v : β) : Tab.get d (Tab.set t n v) n = v := by
  induction t with
  | nil => simp [Tab.set, Tab.get, Tab.find]
  | cons x r ih =>
    obtain ⟨k, w⟩ := x
    simp only [Tab.set]
    split
    · simp [Tab.get, Tab.find]
    · split
      · simp [Tab.get, Tab.find]
      · have : k ≠ n := fun h => ‹¬ n = k› h.symm
        simpa [Tab.get, Tab.find, this] using ih

theorem Tab.get_set_other {β : Type} (d : β) (t : Tab β) {n m : Nat} (h : m ≠ n) (v : β) :
    Tab.get d (Tab.set t n v) m = Tab.get d t m := by
  induction t with
  | nil => simp [Tab.set, Tab.get, Tab.find, h.symm]
  | cons x r ih =>
    obtain ⟨k, w⟩ := x
    simp only [Tab.set]
    split
    · simp [Tab.get, Tab.find, h.symm]
    · split
      · rename_i h1 h2
        subst h2
        simp [Tab.get, Tab.find, h.symm]
      · simp only [Tab.get, Tab.find] at ih ⊢
        split <;> simp_all

@[simp] theorem State.onChip_mem (s : State) (f : Chip → Chip) : (s.onChip f).mem = s.mem := rfl
@[simp] theorem State.onChip_scr (s : State) (f : Chip → Chip) : (s.onChip f).scr = s.scr := rfl
@[simp] theorem State.onChip_rep (s : State) (f : Chip → Chip) : (s.onChip f).rep = s.rep := rfl
@[simp] theorem State.onChip_chip (s : State) (f : Chip → Chip) : (s.onChip f).chip = f s.chip := rfl

@[simp] theorem State.mapCtx_mem (s : State) (g : Nat) (f : Ctx → Ctx) : (s.mapCtx g f).mem = s.mem := rfl
@[simp] theorem State.mapCtx_scr (s : State) (g : Nat) (f : Ctx → Ctx) : (s.mapCtx g f).scr = s.scr := rfl
@[simp] theorem State.mapCtx_rep (s : State) (g : Nat) (f : Ctx → Ctx) : (s.mapCtx g f).rep = s.rep := rfl
@[simp] theorem State.mapCtx_cores (s : State) (g : Nat) (f : Ctx → Ctx) : (s.mapCtx g f).chip.cores = s.chip.cores := rfl
@[simp] theorem State.mapCtx_jobs (s : State) (g : Nat) (f : Ctx → Ctx) : (s.mapCtx g f).chip.jobs = s.chip.jobs := rfl
@[simp] theorem State.mapCtx_launches (s : State) (g : Nat) (f : Ctx → Ctx) : (s.mapCtx g f).chip.launches = s.chip.launches := rfl
@[simp] theorem State.mapCtx_nextLid (s : State) (g : Nat) (f : Ctx → Ctx) : (s.mapCtx g f).chip.nextLid = s.chip.nextLid := rfl
@[simp] theorem State.mapCtx_wrapped (s : State) (g : Nat) (f : Ctx → Ctx) : (s.mapCtx g f).chip.wrapped = s.chip.wrapped := rfl
@[simp] theorem State.mapCtx_lastLid (s : State) (g : Nat) (f : Ctx → Ctx) : (s.mapCtx g f).chip.lastLid = s.chip.lastLid := rfl
@[simp] theorem State.mapCtx_lastJob (s : State) (g : Nat) (f : Ctx → Ctx) : (s.mapCtx g f).chip.lastJob = s.chip.lastJob := rfl
@[simp] theorem State.mapCtx_dispatched (s : State) (g : Nat) (f : Ctx → Ctx) : (s.mapCtx g f).chip.dispatched = s.chip.dispatched := rfl
@[simp] theorem State.mapCtx_reqs (s : State) (g : Nat) (f : Ctx → Ctx) : (s.mapCtx g f).chip.reqs = s.chip.reqs := rfl
@[simp] theorem State.mapCtx_phasers (s : State) (g : Nat) (f : Ctx → Ctx) : (s.mapCtx g f).chip.phasers = s.chip.phasers := rfl
@[simp] theorem State.mapCtx_tokens (s : State) (g : Nat) (f : Ctx → Ctx) : (s.mapCtx g f).chip.tokens = s.chip.tokens := rfl
@[simp] theorem State.mapCtx_barriers (s : State) (g : Nat) (f : Ctx → Ctx) : (s.mapCtx g f).chip.barriers = s.chip.barriers := rfl
@[simp] theorem State.mapCtx_apops (s : State) (g : Nat) (f : Ctx → Ctx) : (s.mapCtx g f).chip.apops = s.chip.apops := rfl
@[simp] theorem State.mapCtx_shaft (s : State) (g : Nat) (f : Ctx → Ctx) : (s.mapCtx g f).chip.shaft = s.chip.shaft := rfl
@[simp] theorem State.mapCtx_net (s : State) (g : Nat) (f : Ctx → Ctx) : (s.mapCtx g f).chip.net = s.chip.net := rfl
@[simp] theorem State.mapCtx_levels (s : State) (g : Nat) (f : Ctx → Ctx) : (s.mapCtx g f).chip.levels = s.chip.levels := rfl
@[simp] theorem State.mapCtx_code (s : State) (g : Nat) (f : Ctx → Ctx) : (s.mapCtx g f).chip.code = s.chip.code := rfl
@[simp] theorem State.mapCtx_scan (s : State) (g : Nat) (f : Ctx → Ctx) : (s.mapCtx g f).chip.scan = s.chip.scan := rfl
@[simp] theorem State.mapCtx_poison (s : State) (g : Nat) (f : Ctx → Ctx) : (s.mapCtx g f).chip.poison = s.chip.poison := rfl
@[simp] theorem State.mapCtx_scrPoison (s : State) (g : Nat) (f : Ctx → Ctx) : (s.mapCtx g f).chip.scrPoison = s.chip.scrPoison := rfl
@[simp] theorem State.mapCtx_repPoison (s : State) (g : Nat) (f : Ctx → Ctx) : (s.mapCtx g f).chip.repPoison = s.chip.repPoison := rfl
@[simp] theorem State.mapCtx_areas (s : State) (g : Nat) (f : Ctx → Ctx) : (s.mapCtx g f).chip.areas = s.chip.areas := rfl
@[simp] theorem State.mapCtx_migs (s : State) (g : Nat) (f : Ctx → Ctx) : (s.mapCtx g f).chip.migs = s.chip.migs := rfl
@[simp] theorem State.mapCtx_dems (s : State) (g : Nat) (f : Ctx → Ctx) : (s.mapCtx g f).chip.dems = s.chip.dems := rfl
@[simp] theorem State.mapCtx_cer (s : State) (g : Nat) (f : Ctx → Ctx) : (s.mapCtx g f).chip.cer = s.chip.cer := rfl
@[simp] theorem State.mapCtx_fab (s : State) (g : Nat) (f : Ctx → Ctx) : (s.mapCtx g f).chip.fab = s.chip.fab := rfl
@[simp] theorem State.mapCtx_host (s : State) (g : Nat) (f : Ctx → Ctx) : (s.mapCtx g f).chip.host = s.chip.host := rfl
@[simp] theorem State.mapCtx_sup (s : State) (g : Nat) (f : Ctx → Ctx) : (s.mapCtx g f).chip.sup = s.chip.sup := rfl
@[simp] theorem State.mapCtx_run (s : State) (g : Nat) (f : Ctx → Ctx) : (s.mapCtx g f).chip.run = s.chip.run := rfl
@[simp] theorem State.mapCtx_core (s : State) (g : Nat) (f : Ctx → Ctx) (m : Nat) : (s.mapCtx g f).core m = s.core m := rfl
@[simp] theorem State.mapCtx_job (s : State) (g : Nat) (f : Ctx → Ctx) (m : Nat) : (s.mapCtx g f).job m = s.job m := rfl
@[simp] theorem State.mapCtx_level (s : State) (g : Nat) (f : Ctx → Ctx) (m : Nat) : (s.mapCtx g f).level m = s.level m := rfl
@[simp] theorem State.mapCtx_cur (s : State) (g : Nat) (f : Ctx → Ctx) : (s.mapCtx g f).cur = s.cur := rfl

@[simp] theorem State.mapCore_mem (s : State) (n : Nat) (f : Core → Core) : (s.mapCore n f).mem = s.mem := rfl
@[simp] theorem State.mapCore_scr (s : State) (n : Nat) (f : Core → Core) : (s.mapCore n f).scr = s.scr := rfl
@[simp] theorem State.mapCore_rep (s : State) (n : Nat) (f : Core → Core) : (s.mapCore n f).rep = s.rep := rfl
@[simp] theorem State.mapCore_ctxs (s : State) (n : Nat) (f : Core → Core) : (s.mapCore n f).chip.ctxs = s.chip.ctxs := rfl
@[simp] theorem State.mapCore_jobs (s : State) (n : Nat) (f : Core → Core) : (s.mapCore n f).chip.jobs = s.chip.jobs := rfl
@[simp] theorem State.mapCore_launches (s : State) (n : Nat) (f : Core → Core) : (s.mapCore n f).chip.launches = s.chip.launches := rfl
@[simp] theorem State.mapCore_nextLid (s : State) (n : Nat) (f : Core → Core) : (s.mapCore n f).chip.nextLid = s.chip.nextLid := rfl
@[simp] theorem State.mapCore_wrapped (s : State) (n : Nat) (f : Core → Core) : (s.mapCore n f).chip.wrapped = s.chip.wrapped := rfl
@[simp] theorem State.mapCore_lastLid (s : State) (n : Nat) (f : Core → Core) : (s.mapCore n f).chip.lastLid = s.chip.lastLid := rfl
@[simp] theorem State.mapCore_lastJob (s : State) (n : Nat) (f : Core → Core) : (s.mapCore n f).chip.lastJob = s.chip.lastJob := rfl
@[simp] theorem State.mapCore_dispatched (s : State) (n : Nat) (f : Core → Core) : (s.mapCore n f).chip.dispatched = s.chip.dispatched := rfl
@[simp] theorem State.mapCore_reqs (s : State) (n : Nat) (f : Core → Core) : (s.mapCore n f).chip.reqs = s.chip.reqs := rfl
@[simp] theorem State.mapCore_phasers (s : State) (n : Nat) (f : Core → Core) : (s.mapCore n f).chip.phasers = s.chip.phasers := rfl
@[simp] theorem State.mapCore_tokens (s : State) (n : Nat) (f : Core → Core) : (s.mapCore n f).chip.tokens = s.chip.tokens := rfl
@[simp] theorem State.mapCore_barriers (s : State) (n : Nat) (f : Core → Core) : (s.mapCore n f).chip.barriers = s.chip.barriers := rfl
@[simp] theorem State.mapCore_apops (s : State) (n : Nat) (f : Core → Core) : (s.mapCore n f).chip.apops = s.chip.apops := rfl
@[simp] theorem State.mapCore_shaft (s : State) (n : Nat) (f : Core → Core) : (s.mapCore n f).chip.shaft = s.chip.shaft := rfl
@[simp] theorem State.mapCore_net (s : State) (n : Nat) (f : Core → Core) : (s.mapCore n f).chip.net = s.chip.net := rfl
@[simp] theorem State.mapCore_levels (s : State) (n : Nat) (f : Core → Core) : (s.mapCore n f).chip.levels = s.chip.levels := rfl
@[simp] theorem State.mapCore_code (s : State) (n : Nat) (f : Core → Core) : (s.mapCore n f).chip.code = s.chip.code := rfl
@[simp] theorem State.mapCore_scan (s : State) (n : Nat) (f : Core → Core) : (s.mapCore n f).chip.scan = s.chip.scan := rfl
@[simp] theorem State.mapCore_poison (s : State) (n : Nat) (f : Core → Core) : (s.mapCore n f).chip.poison = s.chip.poison := rfl
@[simp] theorem State.mapCore_scrPoison (s : State) (n : Nat) (f : Core → Core) : (s.mapCore n f).chip.scrPoison = s.chip.scrPoison := rfl
@[simp] theorem State.mapCore_repPoison (s : State) (n : Nat) (f : Core → Core) : (s.mapCore n f).chip.repPoison = s.chip.repPoison := rfl
@[simp] theorem State.mapCore_areas (s : State) (n : Nat) (f : Core → Core) : (s.mapCore n f).chip.areas = s.chip.areas := rfl
@[simp] theorem State.mapCore_migs (s : State) (n : Nat) (f : Core → Core) : (s.mapCore n f).chip.migs = s.chip.migs := rfl
@[simp] theorem State.mapCore_dems (s : State) (n : Nat) (f : Core → Core) : (s.mapCore n f).chip.dems = s.chip.dems := rfl
@[simp] theorem State.mapCore_cer (s : State) (n : Nat) (f : Core → Core) : (s.mapCore n f).chip.cer = s.chip.cer := rfl
@[simp] theorem State.mapCore_fab (s : State) (n : Nat) (f : Core → Core) : (s.mapCore n f).chip.fab = s.chip.fab := rfl
@[simp] theorem State.mapCore_host (s : State) (n : Nat) (f : Core → Core) : (s.mapCore n f).chip.host = s.chip.host := rfl
@[simp] theorem State.mapCore_sup (s : State) (n : Nat) (f : Core → Core) : (s.mapCore n f).chip.sup = s.chip.sup := rfl
@[simp] theorem State.mapCore_run (s : State) (n : Nat) (f : Core → Core) : (s.mapCore n f).chip.run = s.chip.run := rfl
@[simp] theorem State.mapCore_ctx (s : State) (n : Nat) (f : Core → Core) (m : Nat) : (s.mapCore n f).ctx m = s.ctx m := rfl
@[simp] theorem State.mapCore_job (s : State) (n : Nat) (f : Core → Core) (m : Nat) : (s.mapCore n f).job m = s.job m := rfl
@[simp] theorem State.mapCore_level (s : State) (n : Nat) (f : Core → Core) (m : Nat) : (s.mapCore n f).level m = s.level m := rfl
@[simp] theorem State.mapCore_cur (s : State) (n : Nat) (f : Core → Core) : (s.mapCore n f).cur = s.cur := rfl
@[simp] theorem State.mapCore_me (s : State) (n : Nat) (f : Core → Core) : (s.mapCore n f).me = s.me := rfl

@[simp] theorem State.mapJob_mem (s : State) (n : Nat) (f : Job → Job) : (s.mapJob n f).mem = s.mem := rfl
@[simp] theorem State.mapJob_scr (s : State) (n : Nat) (f : Job → Job) : (s.mapJob n f).scr = s.scr := rfl
@[simp] theorem State.mapJob_rep (s : State) (n : Nat) (f : Job → Job) : (s.mapJob n f).rep = s.rep := rfl
@[simp] theorem State.mapJob_ctxs (s : State) (n : Nat) (f : Job → Job) : (s.mapJob n f).chip.ctxs = s.chip.ctxs := rfl
@[simp] theorem State.mapJob_cores (s : State) (n : Nat) (f : Job → Job) : (s.mapJob n f).chip.cores = s.chip.cores := rfl
@[simp] theorem State.mapJob_launches (s : State) (n : Nat) (f : Job → Job) : (s.mapJob n f).chip.launches = s.chip.launches := rfl
@[simp] theorem State.mapJob_nextLid (s : State) (n : Nat) (f : Job → Job) : (s.mapJob n f).chip.nextLid = s.chip.nextLid := rfl
@[simp] theorem State.mapJob_wrapped (s : State) (n : Nat) (f : Job → Job) : (s.mapJob n f).chip.wrapped = s.chip.wrapped := rfl
@[simp] theorem State.mapJob_lastLid (s : State) (n : Nat) (f : Job → Job) : (s.mapJob n f).chip.lastLid = s.chip.lastLid := rfl
@[simp] theorem State.mapJob_lastJob (s : State) (n : Nat) (f : Job → Job) : (s.mapJob n f).chip.lastJob = s.chip.lastJob := rfl
@[simp] theorem State.mapJob_dispatched (s : State) (n : Nat) (f : Job → Job) : (s.mapJob n f).chip.dispatched = s.chip.dispatched := rfl
@[simp] theorem State.mapJob_reqs (s : State) (n : Nat) (f : Job → Job) : (s.mapJob n f).chip.reqs = s.chip.reqs := rfl
@[simp] theorem State.mapJob_phasers (s : State) (n : Nat) (f : Job → Job) : (s.mapJob n f).chip.phasers = s.chip.phasers := rfl
@[simp] theorem State.mapJob_tokens (s : State) (n : Nat) (f : Job → Job) : (s.mapJob n f).chip.tokens = s.chip.tokens := rfl
@[simp] theorem State.mapJob_barriers (s : State) (n : Nat) (f : Job → Job) : (s.mapJob n f).chip.barriers = s.chip.barriers := rfl
@[simp] theorem State.mapJob_apops (s : State) (n : Nat) (f : Job → Job) : (s.mapJob n f).chip.apops = s.chip.apops := rfl
@[simp] theorem State.mapJob_shaft (s : State) (n : Nat) (f : Job → Job) : (s.mapJob n f).chip.shaft = s.chip.shaft := rfl
@[simp] theorem State.mapJob_net (s : State) (n : Nat) (f : Job → Job) : (s.mapJob n f).chip.net = s.chip.net := rfl
@[simp] theorem State.mapJob_levels (s : State) (n : Nat) (f : Job → Job) : (s.mapJob n f).chip.levels = s.chip.levels := rfl
@[simp] theorem State.mapJob_code (s : State) (n : Nat) (f : Job → Job) : (s.mapJob n f).chip.code = s.chip.code := rfl
@[simp] theorem State.mapJob_scan (s : State) (n : Nat) (f : Job → Job) : (s.mapJob n f).chip.scan = s.chip.scan := rfl
@[simp] theorem State.mapJob_poison (s : State) (n : Nat) (f : Job → Job) : (s.mapJob n f).chip.poison = s.chip.poison := rfl
@[simp] theorem State.mapJob_scrPoison (s : State) (n : Nat) (f : Job → Job) : (s.mapJob n f).chip.scrPoison = s.chip.scrPoison := rfl
@[simp] theorem State.mapJob_repPoison (s : State) (n : Nat) (f : Job → Job) : (s.mapJob n f).chip.repPoison = s.chip.repPoison := rfl
@[simp] theorem State.mapJob_areas (s : State) (n : Nat) (f : Job → Job) : (s.mapJob n f).chip.areas = s.chip.areas := rfl
@[simp] theorem State.mapJob_migs (s : State) (n : Nat) (f : Job → Job) : (s.mapJob n f).chip.migs = s.chip.migs := rfl
@[simp] theorem State.mapJob_dems (s : State) (n : Nat) (f : Job → Job) : (s.mapJob n f).chip.dems = s.chip.dems := rfl
@[simp] theorem State.mapJob_cer (s : State) (n : Nat) (f : Job → Job) : (s.mapJob n f).chip.cer = s.chip.cer := rfl
@[simp] theorem State.mapJob_fab (s : State) (n : Nat) (f : Job → Job) : (s.mapJob n f).chip.fab = s.chip.fab := rfl
@[simp] theorem State.mapJob_host (s : State) (n : Nat) (f : Job → Job) : (s.mapJob n f).chip.host = s.chip.host := rfl
@[simp] theorem State.mapJob_sup (s : State) (n : Nat) (f : Job → Job) : (s.mapJob n f).chip.sup = s.chip.sup := rfl
@[simp] theorem State.mapJob_run (s : State) (n : Nat) (f : Job → Job) : (s.mapJob n f).chip.run = s.chip.run := rfl
@[simp] theorem State.mapJob_ctx (s : State) (n : Nat) (f : Job → Job) (m : Nat) : (s.mapJob n f).ctx m = s.ctx m := rfl
@[simp] theorem State.mapJob_core (s : State) (n : Nat) (f : Job → Job) (m : Nat) : (s.mapJob n f).core m = s.core m := rfl
@[simp] theorem State.mapJob_level (s : State) (n : Nat) (f : Job → Job) (m : Nat) : (s.mapJob n f).level m = s.level m := rfl
@[simp] theorem State.mapJob_cur (s : State) (n : Nat) (f : Job → Job) : (s.mapJob n f).cur = s.cur := rfl
@[simp] theorem State.mapJob_me (s : State) (n : Nat) (f : Job → Job) : (s.mapJob n f).me = s.me := rfl

@[simp] theorem State.mapLevel_mem (s : State) (n : Nat) (f : Level → Level) : (s.mapLevel n f).mem = s.mem := rfl
@[simp] theorem State.mapLevel_scr (s : State) (n : Nat) (f : Level → Level) : (s.mapLevel n f).scr = s.scr := rfl
@[simp] theorem State.mapLevel_rep (s : State) (n : Nat) (f : Level → Level) : (s.mapLevel n f).rep = s.rep := rfl
@[simp] theorem State.mapLevel_ctxs (s : State) (n : Nat) (f : Level → Level) : (s.mapLevel n f).chip.ctxs = s.chip.ctxs := rfl
@[simp] theorem State.mapLevel_cores (s : State) (n : Nat) (f : Level → Level) : (s.mapLevel n f).chip.cores = s.chip.cores := rfl
@[simp] theorem State.mapLevel_jobs (s : State) (n : Nat) (f : Level → Level) : (s.mapLevel n f).chip.jobs = s.chip.jobs := rfl
@[simp] theorem State.mapLevel_launches (s : State) (n : Nat) (f : Level → Level) : (s.mapLevel n f).chip.launches = s.chip.launches := rfl
@[simp] theorem State.mapLevel_nextLid (s : State) (n : Nat) (f : Level → Level) : (s.mapLevel n f).chip.nextLid = s.chip.nextLid := rfl
@[simp] theorem State.mapLevel_wrapped (s : State) (n : Nat) (f : Level → Level) : (s.mapLevel n f).chip.wrapped = s.chip.wrapped := rfl
@[simp] theorem State.mapLevel_lastLid (s : State) (n : Nat) (f : Level → Level) : (s.mapLevel n f).chip.lastLid = s.chip.lastLid := rfl
@[simp] theorem State.mapLevel_lastJob (s : State) (n : Nat) (f : Level → Level) : (s.mapLevel n f).chip.lastJob = s.chip.lastJob := rfl
@[simp] theorem State.mapLevel_dispatched (s : State) (n : Nat) (f : Level → Level) : (s.mapLevel n f).chip.dispatched = s.chip.dispatched := rfl
@[simp] theorem State.mapLevel_reqs (s : State) (n : Nat) (f : Level → Level) : (s.mapLevel n f).chip.reqs = s.chip.reqs := rfl
@[simp] theorem State.mapLevel_phasers (s : State) (n : Nat) (f : Level → Level) : (s.mapLevel n f).chip.phasers = s.chip.phasers := rfl
@[simp] theorem State.mapLevel_tokens (s : State) (n : Nat) (f : Level → Level) : (s.mapLevel n f).chip.tokens = s.chip.tokens := rfl
@[simp] theorem State.mapLevel_barriers (s : State) (n : Nat) (f : Level → Level) : (s.mapLevel n f).chip.barriers = s.chip.barriers := rfl
@[simp] theorem State.mapLevel_apops (s : State) (n : Nat) (f : Level → Level) : (s.mapLevel n f).chip.apops = s.chip.apops := rfl
@[simp] theorem State.mapLevel_shaft (s : State) (n : Nat) (f : Level → Level) : (s.mapLevel n f).chip.shaft = s.chip.shaft := rfl
@[simp] theorem State.mapLevel_net (s : State) (n : Nat) (f : Level → Level) : (s.mapLevel n f).chip.net = s.chip.net := rfl
@[simp] theorem State.mapLevel_code (s : State) (n : Nat) (f : Level → Level) : (s.mapLevel n f).chip.code = s.chip.code := rfl
@[simp] theorem State.mapLevel_scan (s : State) (n : Nat) (f : Level → Level) : (s.mapLevel n f).chip.scan = s.chip.scan := rfl
@[simp] theorem State.mapLevel_poison (s : State) (n : Nat) (f : Level → Level) : (s.mapLevel n f).chip.poison = s.chip.poison := rfl
@[simp] theorem State.mapLevel_scrPoison (s : State) (n : Nat) (f : Level → Level) : (s.mapLevel n f).chip.scrPoison = s.chip.scrPoison := rfl
@[simp] theorem State.mapLevel_repPoison (s : State) (n : Nat) (f : Level → Level) : (s.mapLevel n f).chip.repPoison = s.chip.repPoison := rfl
@[simp] theorem State.mapLevel_areas (s : State) (n : Nat) (f : Level → Level) : (s.mapLevel n f).chip.areas = s.chip.areas := rfl
@[simp] theorem State.mapLevel_migs (s : State) (n : Nat) (f : Level → Level) : (s.mapLevel n f).chip.migs = s.chip.migs := rfl
@[simp] theorem State.mapLevel_dems (s : State) (n : Nat) (f : Level → Level) : (s.mapLevel n f).chip.dems = s.chip.dems := rfl
@[simp] theorem State.mapLevel_cer (s : State) (n : Nat) (f : Level → Level) : (s.mapLevel n f).chip.cer = s.chip.cer := rfl
@[simp] theorem State.mapLevel_fab (s : State) (n : Nat) (f : Level → Level) : (s.mapLevel n f).chip.fab = s.chip.fab := rfl
@[simp] theorem State.mapLevel_host (s : State) (n : Nat) (f : Level → Level) : (s.mapLevel n f).chip.host = s.chip.host := rfl
@[simp] theorem State.mapLevel_sup (s : State) (n : Nat) (f : Level → Level) : (s.mapLevel n f).chip.sup = s.chip.sup := rfl
@[simp] theorem State.mapLevel_run (s : State) (n : Nat) (f : Level → Level) : (s.mapLevel n f).chip.run = s.chip.run := rfl
@[simp] theorem State.mapLevel_ctx (s : State) (n : Nat) (f : Level → Level) (m : Nat) : (s.mapLevel n f).ctx m = s.ctx m := rfl
@[simp] theorem State.mapLevel_core (s : State) (n : Nat) (f : Level → Level) (m : Nat) : (s.mapLevel n f).core m = s.core m := rfl
@[simp] theorem State.mapLevel_job (s : State) (n : Nat) (f : Level → Level) (m : Nat) : (s.mapLevel n f).job m = s.job m := rfl
@[simp] theorem State.mapLevel_cur (s : State) (n : Nat) (f : Level → Level) : (s.mapLevel n f).cur = s.cur := rfl
@[simp] theorem State.mapLevel_me (s : State) (n : Nat) (f : Level → Level) : (s.mapLevel n f).me = s.me := rfl

@[simp] theorem State.onRun_mem (s : State) (f : Run → Run) : (s.onRun f).mem = s.mem := rfl
@[simp] theorem State.onRun_scr (s : State) (f : Run → Run) : (s.onRun f).scr = s.scr := rfl
@[simp] theorem State.onRun_rep (s : State) (f : Run → Run) : (s.onRun f).rep = s.rep := rfl
@[simp] theorem State.onRun_ctxs (s : State) (f : Run → Run) : (s.onRun f).chip.ctxs = s.chip.ctxs := rfl
@[simp] theorem State.onRun_cores (s : State) (f : Run → Run) : (s.onRun f).chip.cores = s.chip.cores := rfl
@[simp] theorem State.onRun_jobs (s : State) (f : Run → Run) : (s.onRun f).chip.jobs = s.chip.jobs := rfl
@[simp] theorem State.onRun_launches (s : State) (f : Run → Run) : (s.onRun f).chip.launches = s.chip.launches := rfl
@[simp] theorem State.onRun_nextLid (s : State) (f : Run → Run) : (s.onRun f).chip.nextLid = s.chip.nextLid := rfl
@[simp] theorem State.onRun_wrapped (s : State) (f : Run → Run) : (s.onRun f).chip.wrapped = s.chip.wrapped := rfl
@[simp] theorem State.onRun_lastLid (s : State) (f : Run → Run) : (s.onRun f).chip.lastLid = s.chip.lastLid := rfl
@[simp] theorem State.onRun_lastJob (s : State) (f : Run → Run) : (s.onRun f).chip.lastJob = s.chip.lastJob := rfl
@[simp] theorem State.onRun_dispatched (s : State) (f : Run → Run) : (s.onRun f).chip.dispatched = s.chip.dispatched := rfl
@[simp] theorem State.onRun_reqs (s : State) (f : Run → Run) : (s.onRun f).chip.reqs = s.chip.reqs := rfl
@[simp] theorem State.onRun_phasers (s : State) (f : Run → Run) : (s.onRun f).chip.phasers = s.chip.phasers := rfl
@[simp] theorem State.onRun_tokens (s : State) (f : Run → Run) : (s.onRun f).chip.tokens = s.chip.tokens := rfl
@[simp] theorem State.onRun_barriers (s : State) (f : Run → Run) : (s.onRun f).chip.barriers = s.chip.barriers := rfl
@[simp] theorem State.onRun_apops (s : State) (f : Run → Run) : (s.onRun f).chip.apops = s.chip.apops := rfl
@[simp] theorem State.onRun_shaft (s : State) (f : Run → Run) : (s.onRun f).chip.shaft = s.chip.shaft := rfl
@[simp] theorem State.onRun_net (s : State) (f : Run → Run) : (s.onRun f).chip.net = s.chip.net := rfl
@[simp] theorem State.onRun_levels (s : State) (f : Run → Run) : (s.onRun f).chip.levels = s.chip.levels := rfl
@[simp] theorem State.onRun_code (s : State) (f : Run → Run) : (s.onRun f).chip.code = s.chip.code := rfl
@[simp] theorem State.onRun_scan (s : State) (f : Run → Run) : (s.onRun f).chip.scan = s.chip.scan := rfl
@[simp] theorem State.onRun_poison (s : State) (f : Run → Run) : (s.onRun f).chip.poison = s.chip.poison := rfl
@[simp] theorem State.onRun_scrPoison (s : State) (f : Run → Run) : (s.onRun f).chip.scrPoison = s.chip.scrPoison := rfl
@[simp] theorem State.onRun_repPoison (s : State) (f : Run → Run) : (s.onRun f).chip.repPoison = s.chip.repPoison := rfl
@[simp] theorem State.onRun_areas (s : State) (f : Run → Run) : (s.onRun f).chip.areas = s.chip.areas := rfl
@[simp] theorem State.onRun_migs (s : State) (f : Run → Run) : (s.onRun f).chip.migs = s.chip.migs := rfl
@[simp] theorem State.onRun_dems (s : State) (f : Run → Run) : (s.onRun f).chip.dems = s.chip.dems := rfl
@[simp] theorem State.onRun_cer (s : State) (f : Run → Run) : (s.onRun f).chip.cer = s.chip.cer := rfl
@[simp] theorem State.onRun_fab (s : State) (f : Run → Run) : (s.onRun f).chip.fab = s.chip.fab := rfl
@[simp] theorem State.onRun_host (s : State) (f : Run → Run) : (s.onRun f).chip.host = s.chip.host := rfl
@[simp] theorem State.onRun_sup (s : State) (f : Run → Run) : (s.onRun f).chip.sup = s.chip.sup := rfl
@[simp] theorem State.onRun_ctx (s : State) (f : Run → Run) (m : Nat) : (s.onRun f).ctx m = s.ctx m := rfl
@[simp] theorem State.onRun_core (s : State) (f : Run → Run) (m : Nat) : (s.onRun f).core m = s.core m := rfl
@[simp] theorem State.onRun_job (s : State) (f : Run → Run) (m : Nat) : (s.onRun f).job m = s.job m := rfl
@[simp] theorem State.onRun_level (s : State) (f : Run → Run) (m : Nat) : (s.onRun f).level m = s.level m := rfl

@[simp] theorem State.onCur_mem (s : State) (f : Frame → Frame) : (s.onCur f).mem = s.mem := rfl
@[simp] theorem State.onCur_scr (s : State) (f : Frame → Frame) : (s.onCur f).scr = s.scr := rfl
@[simp] theorem State.onCur_rep (s : State) (f : Frame → Frame) : (s.onCur f).rep = s.rep := rfl
@[simp] theorem State.onCur_ctxs (s : State) (f : Frame → Frame) : (s.onCur f).chip.ctxs = s.chip.ctxs := rfl
@[simp] theorem State.onCur_cores (s : State) (f : Frame → Frame) : (s.onCur f).chip.cores = s.chip.cores := rfl
@[simp] theorem State.onCur_jobs (s : State) (f : Frame → Frame) : (s.onCur f).chip.jobs = s.chip.jobs := rfl
@[simp] theorem State.onCur_launches (s : State) (f : Frame → Frame) : (s.onCur f).chip.launches = s.chip.launches := rfl
@[simp] theorem State.onCur_nextLid (s : State) (f : Frame → Frame) : (s.onCur f).chip.nextLid = s.chip.nextLid := rfl
@[simp] theorem State.onCur_wrapped (s : State) (f : Frame → Frame) : (s.onCur f).chip.wrapped = s.chip.wrapped := rfl
@[simp] theorem State.onCur_lastLid (s : State) (f : Frame → Frame) : (s.onCur f).chip.lastLid = s.chip.lastLid := rfl
@[simp] theorem State.onCur_lastJob (s : State) (f : Frame → Frame) : (s.onCur f).chip.lastJob = s.chip.lastJob := rfl
@[simp] theorem State.onCur_dispatched (s : State) (f : Frame → Frame) : (s.onCur f).chip.dispatched = s.chip.dispatched := rfl
@[simp] theorem State.onCur_reqs (s : State) (f : Frame → Frame) : (s.onCur f).chip.reqs = s.chip.reqs := rfl
@[simp] theorem State.onCur_phasers (s : State) (f : Frame → Frame) : (s.onCur f).chip.phasers = s.chip.phasers := rfl
@[simp] theorem State.onCur_tokens (s : State) (f : Frame → Frame) : (s.onCur f).chip.tokens = s.chip.tokens := rfl
@[simp] theorem State.onCur_barriers (s : State) (f : Frame → Frame) : (s.onCur f).chip.barriers = s.chip.barriers := rfl
@[simp] theorem State.onCur_apops (s : State) (f : Frame → Frame) : (s.onCur f).chip.apops = s.chip.apops := rfl
@[simp] theorem State.onCur_shaft (s : State) (f : Frame → Frame) : (s.onCur f).chip.shaft = s.chip.shaft := rfl
@[simp] theorem State.onCur_net (s : State) (f : Frame → Frame) : (s.onCur f).chip.net = s.chip.net := rfl
@[simp] theorem State.onCur_levels (s : State) (f : Frame → Frame) : (s.onCur f).chip.levels = s.chip.levels := rfl
@[simp] theorem State.onCur_code (s : State) (f : Frame → Frame) : (s.onCur f).chip.code = s.chip.code := rfl
@[simp] theorem State.onCur_scan (s : State) (f : Frame → Frame) : (s.onCur f).chip.scan = s.chip.scan := rfl
@[simp] theorem State.onCur_poison (s : State) (f : Frame → Frame) : (s.onCur f).chip.poison = s.chip.poison := rfl
@[simp] theorem State.onCur_scrPoison (s : State) (f : Frame → Frame) : (s.onCur f).chip.scrPoison = s.chip.scrPoison := rfl
@[simp] theorem State.onCur_repPoison (s : State) (f : Frame → Frame) : (s.onCur f).chip.repPoison = s.chip.repPoison := rfl
@[simp] theorem State.onCur_areas (s : State) (f : Frame → Frame) : (s.onCur f).chip.areas = s.chip.areas := rfl
@[simp] theorem State.onCur_migs (s : State) (f : Frame → Frame) : (s.onCur f).chip.migs = s.chip.migs := rfl
@[simp] theorem State.onCur_dems (s : State) (f : Frame → Frame) : (s.onCur f).chip.dems = s.chip.dems := rfl
@[simp] theorem State.onCur_cer (s : State) (f : Frame → Frame) : (s.onCur f).chip.cer = s.chip.cer := rfl
@[simp] theorem State.onCur_fab (s : State) (f : Frame → Frame) : (s.onCur f).chip.fab = s.chip.fab := rfl
@[simp] theorem State.onCur_host (s : State) (f : Frame → Frame) : (s.onCur f).chip.host = s.chip.host := rfl
@[simp] theorem State.onCur_sup (s : State) (f : Frame → Frame) : (s.onCur f).chip.sup = s.chip.sup := rfl
@[simp] theorem State.onCur_ctx (s : State) (f : Frame → Frame) (m : Nat) : (s.onCur f).ctx m = s.ctx m := rfl
@[simp] theorem State.onCur_core (s : State) (f : Frame → Frame) (m : Nat) : (s.onCur f).core m = s.core m := rfl
@[simp] theorem State.onCur_job (s : State) (f : Frame → Frame) (m : Nat) : (s.onCur f).job m = s.job m := rfl
@[simp] theorem State.onCur_level (s : State) (f : Frame → Frame) (m : Nat) : (s.onCur f).level m = s.level m := rfl

@[simp] theorem State.mapMe_mem (s : State) (f : Ctx → Ctx) : (s.mapMe f).mem = s.mem := rfl
@[simp] theorem State.mapMe_scr (s : State) (f : Ctx → Ctx) : (s.mapMe f).scr = s.scr := rfl
@[simp] theorem State.mapMe_rep (s : State) (f : Ctx → Ctx) : (s.mapMe f).rep = s.rep := rfl
@[simp] theorem State.mapMe_cores (s : State) (f : Ctx → Ctx) : (s.mapMe f).chip.cores = s.chip.cores := rfl
@[simp] theorem State.mapMe_jobs (s : State) (f : Ctx → Ctx) : (s.mapMe f).chip.jobs = s.chip.jobs := rfl
@[simp] theorem State.mapMe_launches (s : State) (f : Ctx → Ctx) : (s.mapMe f).chip.launches = s.chip.launches := rfl
@[simp] theorem State.mapMe_nextLid (s : State) (f : Ctx → Ctx) : (s.mapMe f).chip.nextLid = s.chip.nextLid := rfl
@[simp] theorem State.mapMe_wrapped (s : State) (f : Ctx → Ctx) : (s.mapMe f).chip.wrapped = s.chip.wrapped := rfl
@[simp] theorem State.mapMe_lastLid (s : State) (f : Ctx → Ctx) : (s.mapMe f).chip.lastLid = s.chip.lastLid := rfl
@[simp] theorem State.mapMe_lastJob (s : State) (f : Ctx → Ctx) : (s.mapMe f).chip.lastJob = s.chip.lastJob := rfl
@[simp] theorem State.mapMe_dispatched (s : State) (f : Ctx → Ctx) : (s.mapMe f).chip.dispatched = s.chip.dispatched := rfl
@[simp] theorem State.mapMe_reqs (s : State) (f : Ctx → Ctx) : (s.mapMe f).chip.reqs = s.chip.reqs := rfl
@[simp] theorem State.mapMe_phasers (s : State) (f : Ctx → Ctx) : (s.mapMe f).chip.phasers = s.chip.phasers := rfl
@[simp] theorem State.mapMe_tokens (s : State) (f : Ctx → Ctx) : (s.mapMe f).chip.tokens = s.chip.tokens := rfl
@[simp] theorem State.mapMe_barriers (s : State) (f : Ctx → Ctx) : (s.mapMe f).chip.barriers = s.chip.barriers := rfl
@[simp] theorem State.mapMe_apops (s : State) (f : Ctx → Ctx) : (s.mapMe f).chip.apops = s.chip.apops := rfl
@[simp] theorem State.mapMe_shaft (s : State) (f : Ctx → Ctx) : (s.mapMe f).chip.shaft = s.chip.shaft := rfl
@[simp] theorem State.mapMe_net (s : State) (f : Ctx → Ctx) : (s.mapMe f).chip.net = s.chip.net := rfl
@[simp] theorem State.mapMe_levels (s : State) (f : Ctx → Ctx) : (s.mapMe f).chip.levels = s.chip.levels := rfl
@[simp] theorem State.mapMe_code (s : State) (f : Ctx → Ctx) : (s.mapMe f).chip.code = s.chip.code := rfl
@[simp] theorem State.mapMe_scan (s : State) (f : Ctx → Ctx) : (s.mapMe f).chip.scan = s.chip.scan := rfl
@[simp] theorem State.mapMe_poison (s : State) (f : Ctx → Ctx) : (s.mapMe f).chip.poison = s.chip.poison := rfl
@[simp] theorem State.mapMe_scrPoison (s : State) (f : Ctx → Ctx) : (s.mapMe f).chip.scrPoison = s.chip.scrPoison := rfl
@[simp] theorem State.mapMe_repPoison (s : State) (f : Ctx → Ctx) : (s.mapMe f).chip.repPoison = s.chip.repPoison := rfl
@[simp] theorem State.mapMe_areas (s : State) (f : Ctx → Ctx) : (s.mapMe f).chip.areas = s.chip.areas := rfl
@[simp] theorem State.mapMe_migs (s : State) (f : Ctx → Ctx) : (s.mapMe f).chip.migs = s.chip.migs := rfl
@[simp] theorem State.mapMe_dems (s : State) (f : Ctx → Ctx) : (s.mapMe f).chip.dems = s.chip.dems := rfl
@[simp] theorem State.mapMe_cer (s : State) (f : Ctx → Ctx) : (s.mapMe f).chip.cer = s.chip.cer := rfl
@[simp] theorem State.mapMe_fab (s : State) (f : Ctx → Ctx) : (s.mapMe f).chip.fab = s.chip.fab := rfl
@[simp] theorem State.mapMe_host (s : State) (f : Ctx → Ctx) : (s.mapMe f).chip.host = s.chip.host := rfl
@[simp] theorem State.mapMe_sup (s : State) (f : Ctx → Ctx) : (s.mapMe f).chip.sup = s.chip.sup := rfl
@[simp] theorem State.mapMe_run (s : State) (f : Ctx → Ctx) : (s.mapMe f).chip.run = s.chip.run := rfl
@[simp] theorem State.mapMe_core (s : State) (f : Ctx → Ctx) (m : Nat) : (s.mapMe f).core m = s.core m := rfl
@[simp] theorem State.mapMe_job (s : State) (f : Ctx → Ctx) (m : Nat) : (s.mapMe f).job m = s.job m := rfl
@[simp] theorem State.mapMe_level (s : State) (f : Ctx → Ctx) (m : Nat) : (s.mapMe f).level m = s.level m := rfl
@[simp] theorem State.mapMe_cur (s : State) (f : Ctx → Ctx) : (s.mapMe f).cur = s.cur := rfl

@[simp] theorem State.mapCtx_ctx (s : State) (n : Nat) (f : Ctx → Ctx) : (s.mapCtx n f).ctx n = f (s.ctx n) := by
  simp [State.mapCtx, State.ctx, State.onChip, Tab.get_set_same]
theorem State.mapCtx_ctx_other (s : State) {n m : Nat} (h : m ≠ n) (f : Ctx → Ctx) : (s.mapCtx n f).ctx m = s.ctx m := by
  simp [State.mapCtx, State.ctx, State.onChip, Tab.get_set_other _ _ h]

@[simp] theorem State.mapCore_core (s : State) (n : Nat) (f : Core → Core) : (s.mapCore n f).core n = f (s.core n) := by
  simp [State.mapCore, State.core, State.onChip, Tab.get_set_same]
theorem State.mapCore_core_other (s : State) {n m : Nat} (h : m ≠ n) (f : Core → Core) : (s.mapCore n f).core m = s.core m := by
  simp [State.mapCore, State.core, State.onChip, Tab.get_set_other _ _ h]

@[simp] theorem State.mapJob_job (s : State) (n : Nat) (f : Job → Job) : (s.mapJob n f).job n = f (s.job n) := by
  simp [State.mapJob, State.job, State.onChip, Tab.get_set_same]
theorem State.mapJob_job_other (s : State) {n m : Nat} (h : m ≠ n) (f : Job → Job) : (s.mapJob n f).job m = s.job m := by
  simp [State.mapJob, State.job, State.onChip, Tab.get_set_other _ _ h]

@[simp] theorem State.mapLevel_level (s : State) (n : Nat) (f : Level → Level) : (s.mapLevel n f).level n = f (s.level n) := by
  simp [State.mapLevel, State.level, State.onChip, Tab.get_set_same]
theorem State.mapLevel_level_other (s : State) {n m : Nat} (h : m ≠ n) (f : Level → Level) : (s.mapLevel n f).level m = s.level m := by
  simp [State.mapLevel, State.level, State.onChip, Tab.get_set_other _ _ h]

@[simp] theorem State.mapMe_me (s : State) (f : Ctx → Ctx) : (s.mapMe f).me = f s.me := by simp [State.mapMe, State.me]
theorem State.mapMe_ctx_other (s : State) {g : Nat} (h : g ≠ s.cur.ctx) (f : Ctx → Ctx) : (s.mapMe f).ctx g = s.ctx g :=
  State.mapCtx_ctx_other s h f

@[simp] theorem State.onRun_run (s : State) (f : Run → Run) : (s.onRun f).chip.run = f s.chip.run := rfl
@[simp] theorem State.onCur_cur (s : State) (f : Frame → Frame) : (s.onCur f).cur = f s.cur := rfl

end Sys2Proof.Machine
end

