-- ==== Sys2Proof/Laws/Landing.lean ====
section
/-! SUPPORT. The landing of pending writes: what a fixed-latency result shows and when (R114, R260). -/

namespace Sys2Proof.Machine

/-- A context with other pending writes. -/
def Ctx.setPend (c : Ctx) (p : List Pending) : Ctx := { c with pend := p }

/-- A tick that brings a pending write nearer. -/
def Pending.nearer (p : Pending) : Pending := { p with left := p.left - 1 }

/-- The clock a tick later. -/
def Ctx.tickClk (c : Ctx) : Ctx := { c with clk := c.clk + 1 }

/-- One tick of the bundle clock. -/
def Ctx.tick1 (c : Ctx) : Ctx := (c.tickClk.setPend (c.pend.map Pending.nearer)).landDue

theorem Ctx.advance_succ (c : Ctx) (n : Nat) : c.advance (n + 1) = c.tick1.advance n := rfl

/-- The writes of several entries landed. -/
def Ctx.landAll (c : Ctx) (l : List Pending) : Ctx := l.foldl (fun c p => c.landWrites p.writes) c
/-- The flags of several entries ORed in. -/
def Ctx.flagAll (c : Ctx) (l : List Pending) : Ctx := l.foldl (fun c p => c.orFlags p.flags) c

theorem Ctx.landDue_setPend (c : Ctx) (l : List Pending) :
    (c.setPend l).landDue = ((c.setPend (l.filter fun p => p.left != 0)).landAll (l.filter fun p => p.left == 0)).flagAll
      (l.filter fun p => p.left == 0) := rfl

/-- A write of anything but a control register. -/
def RegWrite.plain : RegWrite → Bool
  | .ctl _ _ => false
  | _ => true

theorem Ctx.landWrite_pend (c : Ctx) (p : List Pending) (w : RegWrite) :
    (c.setPend p).landWrite w = (c.landWrite w).setPend p := by
  cases w
  case ctl n v => simp only [Ctx.landWrite, Ctx.setPend]; split <;> rfl
  all_goals rfl

theorem Ctx.landWrites_pend (c : Ctx) (p : List Pending) (l : List RegWrite) :
    (c.setPend p).landWrites l = (c.landWrites l).setPend p := by
  induction l generalizing c with
  | nil => rfl
  | cons w r ih => simp only [Ctx.landWrites, List.foldl_cons] at ih ⊢; rw [Ctx.landWrite_pend, ih]

theorem Ctx.landAll_setPend (l : List Pending) (c : Ctx) (p : List Pending) : (c.setPend p).landAll l = (c.landAll l).setPend p := by
  induction l generalizing c with
  | nil => rfl
  | cons x r ih => simp only [Ctx.landAll, List.foldl_cons] at ih ⊢; rw [Ctx.landWrites_pend, ih]

theorem Ctx.flagAll_setPend (l : List Pending) (c : Ctx) (p : List Pending) : (c.setPend p).flagAll l = (c.flagAll l).setPend p := by
  induction l generalizing c with
  | nil => rfl
  | cons x r ih =>
    have e : (c.setPend p).orFlags x.flags = (c.orFlags x.flags).setPend p := by unfold Ctx.orFlags Ctx.setPend; split <;> rfl
    simp only [Ctx.flagAll, List.foldl_cons] at ih ⊢; rw [← ih, e]

/-- A context without the log of its latest register writes (R214): flags that land with writes enter it after them all. -/
def Ctx.forget (c : Ctx) : Ctx := { c with oplog := [] }

theorem Ctx.landWrite_forget (c : Ctx) (w : RegWrite) : (c.forget.landWrite w).forget = (c.landWrite w).forget := by
  cases w
  case ctl n v => simp only [Ctx.landWrite, Ctx.forget]; split <;> rfl
  all_goals rfl

theorem Ctx.landWrites_forget (c : Ctx) (l : List RegWrite) : (c.forget.landWrites l).forget = (c.landWrites l).forget := by
  induction l generalizing c with
  | nil => rfl
  | cons w r ih =>
    simp only [Ctx.landWrites, List.foldl_cons] at ih ⊢
    rw [← ih, Ctx.landWrite_forget, ih]

theorem Ctx.regNat_forget (c : Ctx) (x : RegName) : c.forget.regNat x = c.regNat x := by
  cases x <;> rfl

theorem Ctx.setPend_setPend (c : Ctx) (p q : List Pending) : (c.setPend p).setPend q = c.setPend q := rfl
theorem Ctx.setPend_pend (c : Ctx) (p : List Pending) : (c.setPend p).pend = p := rfl

/-- FPSTAT replaced. -/
def Ctx.withFlags (c : Ctx) (f : BitVec 8) : Ctx := { c with cr := { c.cr with fpstat := f } }

theorem Ctx.landWrite_withFlags (c : Ctx) (f : BitVec 8) (w : RegWrite) (h : w.plain = true) :
    (c.withFlags f).landWrite w = (c.landWrite w).withFlags f := by
  cases w <;> first | rfl | (simp [RegWrite.plain] at h)

theorem Ctx.landWrites_withFlags (c : Ctx) (f : BitVec 8) (l : List RegWrite) (h : l.all RegWrite.plain = true) :
    (c.withFlags f).landWrites l = (c.landWrites l).withFlags f := by
  induction l generalizing c with
  | nil => rfl
  | cons w r ih =>
    simp only [List.all_cons, Bool.and_eq_true] at h
    simp only [Ctx.landWrites, List.foldl_cons] at ih ⊢
    rw [Ctx.landWrite_withFlags _ _ _ h.1, ih _ h.2]

theorem Ctx.landWrite_fpstat (c : Ctx) (w : RegWrite) (h : w.plain = true) : (c.landWrite w).cr = c.cr := by
  cases w <;> first | rfl | (simp [RegWrite.plain] at h)

theorem Ctx.landWrites_cr (c : Ctx) (l : List RegWrite) (h : l.all RegWrite.plain = true) : (c.landWrites l).cr = c.cr := by
  induction l generalizing c with
  | nil => rfl
  | cons w r ih =>
    simp only [List.all_cons, Bool.and_eq_true] at h
    simp only [Ctx.landWrites, List.foldl_cons] at ih ⊢
    rw [ih _ h.2, Ctx.landWrite_fpstat _ _ h.1]

theorem Ctx.orFlags_eq (c : Ctx) (f : BitVec 8) : (c.orFlags f).forget = (c.withFlags (c.cr.fpstat ||| f)).forget := by
  unfold Ctx.orFlags; split <;> rfl

theorem Ctx.orFlags_forget (c : Ctx) (f : BitVec 8) : (c.forget.orFlags f).forget = (c.orFlags f).forget := by
  rw [Ctx.orFlags_eq, Ctx.orFlags_eq]; rfl

theorem Ctx.orFlags_landWrites (c : Ctx) (f : BitVec 8) (l : List RegWrite) (h : l.all RegWrite.plain = true) :
    ((c.orFlags f).landWrites l).forget = ((c.landWrites l).orFlags f).forget := by
  rw [← Ctx.landWrites_forget, Ctx.orFlags_eq, Ctx.landWrites_forget, Ctx.landWrites_withFlags _ _ _ h, Ctx.orFlags_eq,
    Ctx.landWrites_cr _ _ h]

theorem Ctx.flagAll_forget (l : List Pending) (c : Ctx) : (c.forget.flagAll l).forget = (c.flagAll l).forget := by
  induction l generalizing c with
  | nil => rfl
  | cons x r ih =>
    simp only [Ctx.flagAll, List.foldl_cons] at ih ⊢
    rw [← ih, Ctx.orFlags_forget, ih]

theorem Ctx.flagAll_landWrites (l : List Pending) (c : Ctx) (w : List RegWrite) (h : w.all RegWrite.plain = true) :
    ((c.landWrites w).flagAll l).forget = ((c.flagAll l).landWrites w).forget := by
  induction l generalizing c with
  | nil => rfl
  | cons x r ih =>
    have e : (((c.landWrites w).orFlags x.flags).flagAll r).forget = (((c.orFlags x.flags).landWrites w).flagAll r).forget := by
      rw [← Ctx.flagAll_forget, ← Ctx.orFlags_landWrites _ _ _ h, Ctx.flagAll_forget]
    exact e.trans (ih _)

theorem Ctx.tick1_eq (c : Ctx) : c.tick1 =
    ((Ctx.landAll c.tickClk ((c.pend.map Pending.nearer).filter fun p => p.left == 0)).flagAll
      ((c.pend.map Pending.nearer).filter fun p => p.left == 0)).setPend ((c.pend.map Pending.nearer).filter fun p => p.left != 0) := by
  rw [Ctx.tick1, Ctx.landDue_setPend, Ctx.landAll_setPend, Ctx.flagAll_setPend]

theorem Ctx.tickClk_setPend (c : Ctx) (p : List Pending) : (c.setPend p).tickClk = c.tickClk.setPend p := rfl

/-- A pending write more that is not due in the next tick passes through it. -/
theorem Ctx.tick1_append_later (c : Ctx) (e : Pending) (h : 2 ≤ e.left) :
    (c.setPend (c.pend ++ [e])).tick1 = c.tick1.setPend (c.tick1.pend ++ [e.nearer]) := by
  have h1 : (e.nearer.left == 0) = false := by simp [Pending.nearer]; omega
  have h2 : (e.nearer.left != 0) = true := by simp [Pending.nearer]; omega
  rw [Ctx.tick1_eq, Ctx.tick1_eq]
  simp only [Ctx.setPend_pend, List.map_append, List.map_cons, List.map_nil, List.filter_append, List.filter_cons, h1, h2, List.filter_nil,
    if_true, Bool.false_eq_true, if_false, List.append_nil, Ctx.setPend_setPend]
  rw [Ctx.tickClk_setPend, Ctx.landAll_setPend, Ctx.flagAll_setPend, Ctx.setPend_setPend]

/-- A pending write more that is due in the next tick lands after all that land there. -/
theorem Ctx.tick1_append_due (c : Ctx) (e : Pending) (h : e.left = 1) (hw : e.writes.all RegWrite.plain = true) :
    (c.setPend (c.pend ++ [e])).tick1.forget = ((c.tick1.landWrites e.writes).orFlags e.flags).forget := by
  have h1 : (e.nearer.left == 0) = true := by simp [Pending.nearer, h]
  have h2 : (e.nearer.left != 0) = false := by simp [Pending.nearer, h]
  have e0 : ∀ (x y : Ctx) (p : List Pending), x.forget = y.forget → (x.setPend p).forget = (y.setPend p).forget :=
    fun x y p he => congrArg (fun z : Ctx => z.setPend p) he
  have e2 : ∀ (x : Ctx) (p : List Pending), (x.setPend p).orFlags e.flags = (x.orFlags e.flags).setPend p := by
    intro x p; unfold Ctx.orFlags Ctx.setPend; split <;> rfl
  rw [Ctx.tick1_eq, Ctx.tick1_eq]
  simp only [Ctx.setPend_pend, List.map_append, List.map_cons, List.map_nil, List.filter_append, List.filter_cons, h1, h2, List.filter_nil,
    if_true, Bool.false_eq_true, if_false, List.append_nil]
  rw [Ctx.tickClk_setPend, Ctx.landAll_setPend, Ctx.flagAll_setPend, Ctx.setPend_setPend, Ctx.landWrites_pend, e2]
  refine e0 _ _ _ ?_
  have e1 := Ctx.flagAll_landWrites (((c.pend.map Pending.nearer).filter fun p => p.left == 0))
    (Ctx.landAll c.tickClk ((c.pend.map Pending.nearer).filter fun p => p.left == 0)) e.writes hw
  rw [← Ctx.orFlags_forget, ← e1, Ctx.orFlags_forget]
  simp only [Ctx.landAll, Ctx.flagAll, List.foldl_append, List.foldl_cons, List.foldl_nil]
  rfl

theorem Ctx.advance_append_lt (m : Nat) (c : Ctx) (e : Pending) (h : m < e.left) :
    (c.setPend (c.pend ++ [e])).advance m = (c.advance m).setPend ((c.advance m).pend ++ [{ e with left := e.left - m }]) := by
  induction m generalizing c e with
  | zero => rfl
  | succ m ih =>
    rw [Ctx.advance_succ, Ctx.advance_succ, Ctx.tick1_append_later _ _ (by omega), ih _ _ (by simp [Pending.nearer]; omega)]
    simp only [Pending.nearer, Nat.sub_sub, Nat.add_comm 1 m]

theorem Ctx.advance_add (n m : Nat) (c : Ctx) : c.advance (n + m) = (c.advance n).advance m := by
  induction n generalizing c with
  | zero => simp [Ctx.advance]
  | succ n ih => rw [Nat.succ_add, Ctx.advance_succ, Ctx.advance_succ, ih]

/-- A pending write of latency n, read n ticks later: it has landed over everything that was pending. -/
theorem Ctx.advance_append (n : Nat) (c : Ctx) (e : Pending) (h : e.left = n + 1) (hw : e.writes.all RegWrite.plain = true) :
    ((c.setPend (c.pend ++ [e])).advance (n + 1)).forget = (((c.advance (n + 1)).landWrites e.writes).orFlags e.flags).forget := by
  rw [Ctx.advance_add n 1, Ctx.advance_append_lt _ _ _ (by omega), Ctx.advance_add n 1 c]
  exact Ctx.tick1_append_due _ { e with left := e.left - n } (by simp; omega) hw

theorem Ctx.regNat_pend (c : Ctx) (p : List Pending) (x : RegName) : (c.setPend p).regNat x = c.regNat x := by
  cases x <;> rfl

theorem State.result_me (s : State) (n : Nat) (w : List RegWrite) (fl : BitVec 8) (cost : Nat) (fg : Bool) :
    (s.result n w fl cost fg).me = s.me.setPend (s.me.pend ++ [⟨n, w, fl, cost, fg⟩]) := by simp [State.result, Ctx.setPend]

/-- What a fixed-latency result gives, from what its writes do to a context's registers. -/
theorem gives_result {s : State} {i : Instr} {n : Nat} {l : List (RegName × Nat)} {w : List RegWrite} {fl : BitVec 8} {cost : Nat} {fg : Bool}
    (he : exec i s = .next (s.result (n + 1) w fl cost fg)) (hp : w.all RegWrite.plain = true)
    (hw : ∀ (c : Ctx) x, ((c.landWrites w).orFlags fl).regNat x =
      match l.lookup x with
      | some v => v
      | none => if x = .ctl 0x010 then (c.cr.fpstat ||| fl).toNat else c.regNat x) : gives s i (n + 1) l fl := by
  refine ⟨_, he, ?_, fun m hm x => ?_, fun x => ?_⟩
  · simp only [onlyPending, State.result_me, Ctx.setPend_pend]; rfl
  · rw [State.result_me, Ctx.advance_append_lt _ _ _ (by exact hm), Ctx.regNat_pend]
  · rw [State.result_me, ← Ctx.regNat_forget, Ctx.advance_append n s.me ⟨n + 1, w, fl, cost, fg⟩ rfl hp, Ctx.regNat_forget]; exact hw _ x

theorem Ctx.regNat_orFlags (c : Ctx) (fl : BitVec 8) (x : RegName) :
    (c.orFlags fl).regNat x = if x = .ctl 0x010 then (c.cr.fpstat ||| fl).toNat else c.regNat x := by
  rw [← Ctx.regNat_forget, Ctx.orFlags_eq, Ctx.regNat_forget]
  split
  · subst x; rfl
  · cases x <;> try rfl
    rename_i k h
    simp only [Ctx.regNat, CtxRegs.num, Ctx.withFlags]
    split <;> first | rfl | simp_all

theorem Ctx.regNat_ctl (c d : Ctx) (h : c.cr = d.cr) (n : Nat) : c.regNat (.ctl n) = d.regNat (.ctl n) := by
  simp only [Ctx.regNat, h]

theorem Ctx.regNat_landS (c : Ctx) (n : BitVec 6) (v : Word) (x : RegName) :
    (c.landWrite (.s n v)).regNat x = if x = .s n.toNat then v.toNat else c.regNat x := by
  split
  · subst x; simp [Ctx.landWrite, Ctx.noting, Ctx.regNat, Tab.get_set_same]
  · cases x <;> try first | rfl | exact Ctx.regNat_ctl _ _ rfl _
    rename_i k h
    have : k ≠ n.toNat := fun e => h (by rw [e])
    simp [Ctx.landWrite, Ctx.noting, Ctx.regNat, Tab.get_set_other _ _ this]

theorem Ctx.regNat_landV (c : Ctx) (n : BitVec 5) (v : Vec) (x : RegName) :
    (c.landWrite (.v n v)).regNat x = if x = .v n.toNat then v.toNat else c.regNat x := by
  split
  · subst x; simp [Ctx.landWrite, Ctx.noting, Ctx.regNat, Tab.get_set_same]
  · cases x <;> try first | rfl | exact Ctx.regNat_ctl _ _ rfl _
    rename_i k h
    have : k ≠ n.toNat := fun e => h (by rw [e])
    simp [Ctx.landWrite, Ctx.noting, Ctx.regNat, Tab.get_set_other _ _ this]

theorem Ctx.regNat_landK (c : Ctx) (n : BitVec 3) (v : Word) (x : RegName) :
    (c.landWrite (.k n v)).regNat x = if x = .k n.toNat then v.toNat else c.regNat x := by
  split
  · subst x; simp [Ctx.landWrite, Ctx.noting, Ctx.regNat, Tab.get_set_same]
  · cases x <;> try first | rfl | exact Ctx.regNat_ctl _ _ rfl _
    rename_i k h
    have : k ≠ n.toNat := fun e => h (by rw [e])
    simp [Ctx.landWrite, Ctx.noting, Ctx.regNat, Tab.get_set_other _ _ this]

theorem Ctx.landWrite_cr_s (c : Ctx) (n : BitVec 6) (v : Word) : (c.landWrite (.s n v)).cr = c.cr := rfl
theorem Ctx.landWrite_cr_v (c : Ctx) (n : BitVec 5) (v : Vec) : (c.landWrite (.v n v)).cr = c.cr := rfl
theorem Ctx.landWrite_cr_k (c : Ctx) (n : BitVec 3) (v : Word) : (c.landWrite (.k n v)).cr = c.cr := rfl

/-- A scalar result gives its scalar and nothing else; none where the destination is s0 (R8). -/
theorem givesS_result {s : State} {i : Instr} {n : Nat} {d : SReg} {v : Word} {cost : Nat} {fg : Bool}
    (he : exec i s = .next (s.result (n + 1) (s.wS d v) 0 cost fg)) : givesS s i (n + 1) d v.toNat := by
  unfold givesS State.scalarName
  by_cases h : d = 0
  · subst h
    refine gives_result he rfl fun c x => ?_
    simp [State.wS, Ctx.landWrites, Ctx.regNat_orFlags]
  · refine gives_result he (by simp [State.wS, RegWrite.plain]) fun c x => ?_
    simp only [State.wS, h, if_false, Ctx.landWrites, List.foldl_cons, List.foldl_nil, Ctx.regNat_orFlags, Ctx.regNat_landS,
      Ctx.landWrite_cr_s, List.lookup]
    by_cases e : x = RegName.s (physS s.cur.ages d).toNat
    · subst e; simp
    · simp [e, show (x == RegName.s (physS s.cur.ages d).toNat) = false by simpa using e]

/-- A vector result gives its vector and its flags and nothing else. -/
theorem givesV_result {s : State} {i : Instr} {n : Nat} {d : VReg} {v : Vec} {fl : BitVec 8} {cost : Nat} {fg : Bool}
    (he : exec i s = .next (s.result (n + 1) (s.wV d v) fl cost fg)) : givesV s i (n + 1) d v fl := by
  unfold givesV State.vectorName
  refine gives_result he rfl fun c x => ?_
  simp only [State.wV, Ctx.landWrites, List.foldl_cons, List.foldl_nil, Ctx.regNat_orFlags, Ctx.regNat_landV, Ctx.landWrite_cr_v, List.lookup]
  by_cases e : x = RegName.v (physV s.cur.agev d).toNat
  · subst e; simp
  · simp [e, show (x == RegName.v (physV s.cur.agev d).toNat) = false by simpa using e]

/-- A mask result gives its mask and its flags and nothing else; no mask where the destination is k0 (R8). -/
theorem givesK_result {s : State} {i : Instr} {n : Nat} {d : KReg} {v : Word} {fl : BitVec 8} {cost : Nat} {fg : Bool}
    (he : exec i s = .next (s.result (n + 1) (wK d v) fl cost fg)) : givesK s i (n + 1) d v fl := by
  unfold givesK maskName
  by_cases h : d = 0
  · subst h
    refine gives_result he rfl fun c x => ?_
    simp [wK, Ctx.landWrites, Ctx.regNat_orFlags]
  · refine gives_result he (by simp [wK, RegWrite.plain]) fun c x => ?_
    simp only [wK, h, if_false, Ctx.landWrites, List.foldl_cons, List.foldl_nil, Ctx.regNat_orFlags, Ctx.regNat_landK, Ctx.landWrite_cr_k,
      List.lookup]
    by_cases e : x = RegName.k d.toNat
    · subst e; simp
    · simp [e, show (x == RegName.k d.toNat) = false by simpa using e]

end Sys2Proof.Machine
end

