-- ==== Sys2Proof/Laws/Memory.lean ====
section
/-! SUPPORT. The memories: reading back what was stored, and the canonical form every store keeps. -/

namespace Sys2Proof.Machine

/-- Every key of a memory lies in a range. -/
def Cells.within (lo hi : Nat) (m : List Host.Cell) : Prop := ∀ c ∈ m, lo ≤ c.1 ∧ c.1 < hi

theorem Cells.read_none {m : List Host.Cell} {a : Nat} (h : ∀ c ∈ m, c.1 ≠ a) : Cells.read m a = 0 := by
  induction m with
  | nil => rfl
  | cons c r ih =>
    obtain ⟨k, v⟩ := c
    simp only [Cells.read]
    rw [if_neg (h _ (List.mem_cons_self ..)), ih fun c hc => h c (List.mem_cons_of_mem _ hc)]

theorem Cells.read_append_left {m n : List Host.Cell} {a : Nat} (h : ∀ c ∈ n, c.1 ≠ a) : Cells.read (m ++ n) a = Cells.read m a := by
  induction m with
  | nil => exact Cells.read_none h
  | cons c r ih => obtain ⟨k, v⟩ := c; simp only [List.cons_append, Cells.read, ih]

theorem Cells.read_append_right {m n : List Host.Cell} {a : Nat} (h : ∀ c ∈ m, c.1 ≠ a) : Cells.read (m ++ n) a = Cells.read n a := by
  induction m with
  | nil => rfl
  | cons c r ih =>
    obtain ⟨k, v⟩ := c
    simp only [List.cons_append, Cells.read]
    rw [if_neg (h _ (List.mem_cons_self ..)), ih fun c hc => h c (List.mem_cons_of_mem _ hc)]

theorem Cells.read_filter {m : List Host.Cell} {a : Nat} {p : Host.Cell → Bool} (h : ∀ v, p (a, v) = true) :
    Cells.read (m.filter p) a = Cells.read m a := by
  induction m with
  | nil => rfl
  | cons c r ih =>
    obtain ⟨k, v⟩ := c
    simp only [List.filter_cons, Cells.read]
    split
    · simp only [Cells.read, ih]
    · by_cases e : k = a
      · subst e; simp_all
      · rw [if_neg e, ih]

theorem Cells.listed_keys {a : Nat} {bs : List Byte} : ∀ c ∈ Cells.listed a bs, a ≤ c.1 ∧ c.1 < a + bs.length := by
  induction bs generalizing a with
  | nil => simp [Cells.listed]
  | cons b r ih =>
    intro c hc
    simp only [Cells.listed] at hc
    simp only [List.length_cons]
    split at hc
    · have := ih c hc; omega
    · rcases List.mem_cons.mp hc with rfl | h
      · simp
      · have := ih c h; omega

theorem Cells.read_listed (a x : Nat) (bs : List Byte) (h : a ≤ x) : Cells.read (Cells.listed a bs) x = bs.getD (x - a) 0 := by
  induction bs generalizing a with
  | nil => simp [Cells.listed, Cells.read]
  | cons b r ih =>
    simp only [Cells.listed]
    by_cases e : a = x
    · subst e
      split
      · rw [Cells.read_none fun c hc => by have := Cells.listed_keys c hc; omega]; simp [*]
      · simp [Cells.read]
    · have hx : x - a = x - (a + 1) + 1 := by omega
      rw [hx, List.getD_cons_succ, ← ih (a + 1) (by omega)]
      split
      · rfl
      · simp [Cells.read, e]

/-- What reads after a store: the stored bytes in their range, every other byte as before. -/
theorem Cells.read_put (m : List Host.Cell) (a x : Nat) (bs : List Byte) :
    Cells.read (Cells.put m a bs) x = if a ≤ x ∧ x < a + bs.length then bs.getD (x - a) 0 else Cells.read m x := by
  unfold Cells.put
  by_cases h1 : x < a
  · rw [if_neg (by omega), List.append_assoc, Cells.read_append_left, Cells.read_filter (by simp [h1])]
    intro c hc
    rcases List.mem_append.mp hc with h | h
    · have := Cells.listed_keys c h; omega
    · simp at h; omega
  · by_cases h2 : x < a + bs.length
    · rw [if_pos (by omega), Cells.read_append_left (by intro c hc; simp at hc; omega),
        Cells.read_append_right (by intro c hc; simp at hc; omega), Cells.read_listed _ _ _ (by omega)]
    · rw [if_neg (by omega), Cells.read_append_right, Cells.read_filter (by simp; omega)]
      intro c hc
      rcases List.mem_append.mp hc with h | h
      · simp at h; omega
      · have := Cells.listed_keys c h; omega

theorem Cells.bytes_length (m : List Host.Cell) (a n : Nat) : (Cells.bytes m a n).length = n := by
  induction n generalizing a with
  | zero => rfl
  | succ n ih => simp [Cells.bytes, ih]

theorem Cells.bytes_getD (m : List Host.Cell) (a n i : Nat) (h : i < n) : (Cells.bytes m a n).getD i 0 = Cells.read m (a + i) := by
  induction n generalizing a i with
  | zero => omega
  | succ n ih =>
    cases i with
    | zero => simp [Cells.bytes]
    | succ i => simp only [Cells.bytes, List.getD_cons_succ]; rw [ih (a + 1) i (by omega)]; congr 1; omega

theorem Cells.bytes_congr {m m' : List Host.Cell} {a n : Nat} (h : ∀ i, i < n → Cells.read m' (a + i) = Cells.read m (a + i)) :
    Cells.bytes m' a n = Cells.bytes m a n := by
  induction n generalizing a with
  | zero => rfl
  | succ n ih =>
    simp only [Cells.bytes]
    rw [ih fun i hi => by have := h (i + 1) (by omega); rwa [show a + 1 + i = a + (i + 1) by omega]]
    congr 1
    exact h 0 (by omega)

/-- The bytes stored read back. -/
theorem Cells.bytes_put_same (m : List Host.Cell) (a : Nat) (bs : List Byte) : Cells.bytes (Cells.put m a bs) a bs.length = bs := by
  apply List.ext_getElem (Cells.bytes_length ..)
  intro i h1 h2
  have h3 := Cells.bytes_getD (Cells.put m a bs) a bs.length i h2
  rw [Cells.read_put, if_pos (by omega), show a + i - a = i by omega] at h3
  rw [List.getD_eq_getElem _ _ h1, List.getD_eq_getElem _ _ h2] at h3
  exact h3

/-- Bytes apart from those stored read as before. -/
theorem Cells.bytes_put_other (m : List Host.Cell) {a b n : Nat} (bs : List Byte) (h : b + n ≤ a ∨ a + bs.length ≤ b) :
    Cells.bytes (Cells.put m a bs) b n = Cells.bytes m b n :=
  Cells.bytes_congr fun i hi => by rw [Cells.read_put, if_neg (by omega)]

theorem leBytes_length (n v : Nat) : (leBytes n v).length = n := by
  induction n generalizing v with
  | zero => rfl
  | succ n ih => simp [leBytes, ih]

theorem leNat_leBytes (n v : Nat) : leNat (leBytes n v) = v % 256 ^ n := by
  induction n generalizing v with
  | zero => simp [leBytes, leNat, Nat.mod_one]
  | succ n ih =>
    simp only [leBytes, leNat, ih]
    rw [BitVec.toNat_ofNat, Nat.pow_succ' (n := n) (m := 256), Nat.mod_mul]

/-! ## The canonical form -/

theorem Cells.wfFrom_mono {m : List Host.Cell} {n n' : Nat} (h : n' ≤ n) (w : Cells.wfFrom n m = true) : Cells.wfFrom n' m = true := by
  cases m with
  | nil => rfl
  | cons c r => obtain ⟨k, v⟩ := c; simp only [Cells.wfFrom, Bool.and_eq_true, decide_eq_true_eq] at w ⊢; exact ⟨⟨by omega, w.1.2⟩, w.2⟩

theorem Cells.wfFrom_keys {m : List Host.Cell} {n : Nat} (w : Cells.wfFrom n m = true) : ∀ c ∈ m, n ≤ c.1 := by
  induction m generalizing n with
  | nil => simp
  | cons c r ih =>
    obtain ⟨k, v⟩ := c
    simp only [Cells.wfFrom, Bool.and_eq_true, decide_eq_true_eq] at w
    intro d hd
    rcases List.mem_cons.mp hd with rfl | h
    · exact w.1.1
    · have := ih w.2 d h; omega

theorem Cells.wfFrom_raise {m : List Host.Cell} {n n' : Nat} (w : Cells.wfFrom n m = true) (h : ∀ c ∈ m, n' ≤ c.1) :
    Cells.wfFrom n' m = true := by
  cases m with
  | nil => rfl
  | cons c r =>
    obtain ⟨k, v⟩ := c
    simp only [Cells.wfFrom, Bool.and_eq_true, decide_eq_true_eq] at w ⊢
    exact ⟨⟨h _ (List.mem_cons_self ..), w.1.2⟩, w.2⟩

theorem Cells.wfFrom_filter {m : List Host.Cell} {n : Nat} (p : Host.Cell → Bool) (w : Cells.wfFrom n m = true) :
    Cells.wfFrom n (m.filter p) = true := by
  induction m generalizing n with
  | nil => rfl
  | cons c r ih =>
    obtain ⟨k, v⟩ := c
    simp only [Cells.wfFrom, Bool.and_eq_true, decide_eq_true_eq] at w
    simp only [List.filter_cons]
    split
    · simp only [Cells.wfFrom, Bool.and_eq_true, decide_eq_true_eq]; exact ⟨w.1, ih w.2⟩
    · exact Cells.wfFrom_mono (by omega) (ih w.2)

theorem Cells.wfFrom_append {m r : List Host.Cell} {n b : Nat} (w : Cells.wfFrom n m = true) (k : ∀ c ∈ m, c.1 < b) (nb : n ≤ b)
    (w2 : Cells.wfFrom b r = true) : Cells.wfFrom n (m ++ r) = true := by
  induction m generalizing n with
  | nil => exact Cells.wfFrom_mono nb w2
  | cons c t ih =>
    obtain ⟨x, v⟩ := c
    simp only [Cells.wfFrom, Bool.and_eq_true, decide_eq_true_eq, List.cons_append] at w ⊢
    have := k (x, v) (List.mem_cons_self ..)
    exact ⟨w.1, ih w.2 (fun c hc => k c (List.mem_cons_of_mem _ hc)) (by simp at this; omega)⟩

theorem Cells.wfFrom_listed (a : Nat) (bs : List Byte) : Cells.wfFrom a (Cells.listed a bs) = true := by
  induction bs generalizing a with
  | nil => rfl
  | cons b r ih =>
    simp only [Cells.listed]
    split
    · exact Cells.wfFrom_mono (by omega) (ih (a + 1))
    · simp only [Cells.wfFrom, Nat.le_refl, decide_true, Bool.true_and, Bool.and_eq_true, bne_iff_ne]; exact ⟨‹_›, ih (a + 1)⟩

/-- A store keeps the canonical form. -/
theorem Memory.wf_put {m : List Host.Cell} (a : Nat) (bs : List Byte) (h : Memory.wf m = true) : Memory.wf (Cells.put m a bs) = true := by
  unfold Memory.wf at h ⊢
  unfold Cells.put
  rw [List.append_assoc]
  refine Cells.wfFrom_append (b := a) (Cells.wfFrom_filter _ h) (by intro c hc; simp at hc; omega) (by omega) ?_
  refine Cells.wfFrom_append (b := a + bs.length) (Cells.wfFrom_listed a bs) (fun c hc => (Cells.listed_keys c hc).2) (by omega) ?_
  exact Cells.wfFrom_raise (Cells.wfFrom_filter _ h) (by intro c hc; simp at hc; omega)

/-- Cells kept by a choice of addresses keep the canonical form. -/
theorem Memory.wf_filter {m : List Host.Cell} (p : Host.Cell → Bool) (h : Memory.wf m = true) : Memory.wf (m.filter p) = true :=
  Cells.wfFrom_filter p h

/-- Two memories in canonical form that read alike are equal data. -/
theorem Memory.ext {m m' : List Host.Cell} (h : Memory.wf m = true) (h' : Memory.wf m' = true)
    (e : ∀ a, Cells.read m a = Cells.read m' a) : m = m' := by
  suffices ∀ n, Cells.wfFrom n m = true → Cells.wfFrom n m' = true → (∀ a, Cells.read m a = Cells.read m' a) → m = m' from
    this 0 h h' e
  clear h h' e
  induction m generalizing m' with
  | nil =>
    intro n _ w' e
    cases m' with
    | nil => rfl
    | cons c r =>
      obtain ⟨k, v⟩ := c
      have := e k
      simp [Cells.read, Cells.wfFrom] at this w'
      exact absurd this.symm w'.1.2
  | cons c r ih =>
    intro n w w' e
    obtain ⟨k, v⟩ := c
    cases m' with
    | nil =>
      have := e k
      simp [Cells.read, Cells.wfFrom] at this w
      exact absurd this w.1.2
    | cons c' r' =>
      obtain ⟨k', v'⟩ := c'
      simp only [Cells.wfFrom, Bool.and_eq_true, decide_eq_true_eq, bne_iff_ne] at w w'
      have hr : ∀ a, a ≤ k → Cells.read r a = 0 := fun a ha =>
        Cells.read_none fun c hc => by have := Cells.wfFrom_keys w.2 c hc; omega
      have hr' : ∀ a, a ≤ k' → Cells.read r' a = 0 := fun a ha =>
        Cells.read_none fun c hc => by have := Cells.wfFrom_keys w'.2 c hc; omega
      have hk : k = k' := by
        rcases Nat.lt_trichotomy k k' with l | l | l
        · have := e k; simp [Cells.read, show k' ≠ k by omega, hr' k (by omega)] at this; exact absurd this w.1.2
        · exact l
        · have := e k'; simp [Cells.read, show k ≠ k' by omega, hr k' (by omega)] at this; exact absurd this.symm w'.1.2
      subst hk
      have hv : v = v' := by have := e k; simpa [Cells.read] using this
      subst hv
      congr 1
      refine ih (k + 1) w.2 w'.2 fun a => ?_
      by_cases ha : a ≤ k
      · rw [hr a ha, hr' a ha]
      · have := e a; simpa [Cells.read, show k ≠ a by omega] using this

/-! ## The named stores -/

theorem State.poke_read (s : State) (pa x : Nat) (bs : List Byte) :
    Cells.read (s.poke pa bs).mem x = if pa ≤ x ∧ x < pa + bs.length then bs.getD (x - pa) 0 else Cells.read s.mem x :=
  Cells.read_put s.mem pa x bs

@[simp] theorem State.poke_scr (s : State) (pa : Nat) (bs : List Byte) : (s.poke pa bs).scr = s.scr := rfl
@[simp] theorem State.poke_rep (s : State) (pa : Nat) (bs : List Byte) : (s.poke pa bs).rep = s.rep := rfl
@[simp] theorem State.poke_ctx (s : State) (pa : Nat) (bs : List Byte) (g : Nat) : (s.poke pa bs).ctx g = s.ctx g := rfl
@[simp] theorem State.poke_job (s : State) (pa : Nat) (bs : List Byte) (j : Nat) : (s.poke pa bs).job j = s.job j := rfl
@[simp] theorem State.poke_cur (s : State) (pa : Nat) (bs : List Byte) : (s.poke pa bs).cur = s.cur := rfl

/-- The value stored reads back (R1). -/
theorem State.peek_pokeNum (s : State) (pa n v : Nat) : (s.pokeNum pa n v).peek pa n = v % 256 ^ n := by
  have h := Cells.bytes_put_same s.mem pa (leBytes n v)
  rw [leBytes_length] at h
  change leNat (Cells.bytes (Cells.put s.mem pa (leBytes n v)) pa n) = _
  rw [h, leNat_leBytes]

/-- Bytes apart from a store read as before. -/
theorem State.peek_poke_other (s : State) {pa b n : Nat} (bs : List Byte) (h : b + n ≤ pa ∨ pa + bs.length ≤ b) :
    (s.poke pa bs).peek b n = s.peek b n := congrArg leNat (Cells.bytes_put_other s.mem bs h)

@[simp] theorem State.scrPut_mem (s : State) (c o : Nat) (bs : List Byte) : (s.scrPut c o bs).mem = s.mem := rfl
@[simp] theorem State.scrPut_rep (s : State) (c o : Nat) (bs : List Byte) : (s.scrPut c o bs).rep = s.rep := rfl
@[simp] theorem State.scrPut_ctx (s : State) (c o : Nat) (bs : List Byte) (g : Nat) : (s.scrPut c o bs).ctx g = s.ctx g := rfl

/-- Scratch bytes stored read back. -/
theorem State.scrBytes_scrPut (s : State) (c o : Nat) (bs : List Byte) : (s.scrPut c o bs).scrBytes c o bs.length = bs :=
  Cells.bytes_put_same s.scr (scrKey c o) bs

theorem State.memoryWf_iff (s : State) :
    s.memoryWf = true ↔ Memory.wf s.mem = true ∧ Memory.wf s.scr = true ∧ Memory.wf s.rep = true := by
  simp [State.memoryWf, and_assoc]

theorem State.memoryWf_of_same {s t : State} (h : s.memoryWf = true) (hm : t.mem = s.mem) (hs : t.scr = s.scr) (hr : t.rep = s.rep) :
    t.memoryWf = true := by simpa [State.memoryWf, hm, hs, hr] using h

theorem State.memoryWf_poke {s : State} (pa : Nat) (bs : List Byte) (h : s.memoryWf = true) : (s.poke pa bs).memoryWf = true := by
  rw [State.memoryWf_iff] at h ⊢
  exact ⟨Memory.wf_put pa bs h.1, h.2⟩

theorem State.memoryWf_pokeNum {s : State} (pa n v : Nat) (h : s.memoryWf = true) : (s.pokeNum pa n v).memoryWf = true :=
  State.memoryWf_poke pa _ h

theorem State.memoryWf_scrPut {s : State} (c o : Nat) (bs : List Byte) (h : s.memoryWf = true) : (s.scrPut c o bs).memoryWf = true := by
  rw [State.memoryWf_iff] at h ⊢
  exact ⟨h.1, Memory.wf_put _ bs h.2.1, h.2.2⟩

theorem memoryWf_applyLine {s : State} (l n : Nat) (k : Word) (bs : List Byte) (h : s.memoryWf = true) :
    (applyLine s l n k bs).memoryWf = true := by
  rw [State.memoryWf_iff] at h ⊢
  exact ⟨h.1, h.2.1, Memory.wf_put _ _ h.2.2⟩

@[simp] theorem State.memoryWf_onChip (s : State) (f : Chip → Chip) : (s.onChip f).memoryWf = s.memoryWf := rfl
@[simp] theorem State.memoryWf_mapCtx (s : State) (g : Nat) (f : Ctx → Ctx) : (s.mapCtx g f).memoryWf = s.memoryWf := rfl
@[simp] theorem State.memoryWf_mapCore (s : State) (n : Nat) (f : Core → Core) : (s.mapCore n f).memoryWf = s.memoryWf := rfl
@[simp] theorem State.memoryWf_mapJob (s : State) (n : Nat) (f : Job → Job) : (s.mapJob n f).memoryWf = s.memoryWf := rfl
@[simp] theorem State.memoryWf_mapLevel (s : State) (n : Nat) (f : Level → Level) : (s.mapLevel n f).memoryWf = s.memoryWf := rfl
@[simp] theorem State.memoryWf_onRun (s : State) (f : Run → Run) : (s.onRun f).memoryWf = s.memoryWf := rfl
@[simp] theorem State.memoryWf_onCur (s : State) (f : Frame → Frame) : (s.onCur f).memoryWf = s.memoryWf := rfl
@[simp] theorem State.memoryWf_mapMe (s : State) (f : Ctx → Ctx) : (s.mapMe f).memoryWf = s.memoryWf := rfl

theorem State.memoryWf_reset : State.reset.memoryWf = true := rfl

end Sys2Proof.Machine
end

