-- ==== Sys2Proof/Laws/Ops.lean ====
section
/-! SUPPORT. What each shared operation can do: readiness and failure, records and traps, the log outside its modes, accesses by virtual
address and to the scratchpads, the queues of engines, network and fabric. -/

namespace Sys2Proof.Machine

/-! ## Carrying on (R34, R203) -/

@[simp] theorem State.when_go (s : State) (f : State → Out) : s.when .go f = f s := rfl
@[simp] theorem State.when_wait (s : State) (c : Cause) (f : State → Out) : s.when (.wait c) f = s.block c := rfl
@[simp] theorem State.when_bad (s : State) (b : Bad) (f : State → Out) : s.when (.bad b) f = s.raise b := rfl
@[simp] theorem State.try_ok {α : Type} (s : State) (x : α) (f : α → Out) : s.try (.ok x) f = f x := rfl
@[simp] theorem State.try_error {α : Type} (s : State) (b : Bad) (f : α → Out) : s.try (.error b) f = s.raise b := rfl

/-- The two ends of a readiness that is no go: a block or a failure. -/
theorem State.when_cases (s : State) (r : Ready) (f : State → Out) :
    (r = .go ∧ s.when r f = f s) ∨ (∃ c, r = .wait c ∧ s.when r f = s.block c) ∨ ∃ b, r = .bad b ∧ s.when r f = s.raise b := by
  cases r <;> simp [State.when]

/-! ## Records (R207 to R209) -/

@[simp] theorem State.msix_mem (s : State) : s.msix.mem = s.mem := rfl
@[simp] theorem State.msix_scr (s : State) : s.msix.scr = s.scr := rfl
@[simp] theorem State.msix_rep (s : State) : s.msix.rep = s.rep := rfl
@[simp] theorem State.msix_ctx (s : State) (g : Nat) : s.msix.ctx g = s.ctx g := rfl
@[simp] theorem State.msix_job (s : State) (j : Nat) : s.msix.job j = s.job j := rfl

@[simp] theorem State.faultWindow_mem (s : State) (r : TrapRec) : (s.faultWindow r).mem = s.mem := rfl
@[simp] theorem State.faultWindow_scr (s : State) (r : TrapRec) : (s.faultWindow r).scr = s.scr := rfl
@[simp] theorem State.faultWindow_rep (s : State) (r : TrapRec) : (s.faultWindow r).rep = s.rep := rfl
@[simp] theorem State.faultWindow_jobs (s : State) (r : TrapRec) : (s.faultWindow r).chip.jobs = s.chip.jobs := rfl

/-- The window holds the record under the next number and is taken. -/
theorem State.faultWindow_host (s : State) (r : TrapRec) : (s.faultWindow r).chip.host = { s.chip.host with
    fault := r.image s.chip.host.faultSeq, fvalid := true, faultSeq := s.chip.host.faultSeq + 1, msix := s.chip.host.msix + 1 } := rfl

theorem State.faultWindow_ctx_other (s : State) (r : TrapRec) {g : Nat} (h : g ≠ 1024) : (s.faultWindow r).ctx g = s.ctx g :=
  Tab.get_set_other _ _ h _

/-- A record that is not the supervisor's own, or finds the window taken, goes to a job: nothing but that job differs. -/
theorem State.post_queued (s : State) (r : TrapRec) (h : r.ctx ≠ 1024 ∨ s.chip.host.fvalid = true) :
    ∃ f, s.post r = s.mapJob (if 1024 ≤ r.ctx.toNat ∧ r.ctx.toNat < 1088 then 0 else r.job.toNat) f := by
  have h' : (decide (r.ctx.toNat = 1024) && !s.chip.host.fvalid) = false := by
    rcases h with h | h
    · have : r.ctx.toNat ≠ 1024 := fun e => h (BitVec.eq_of_toNat_eq (by simpa using e))
      simp [this]
    · simp [h]
  unfold State.post
  dsimp only
  rw [if_neg (by rw [h']; exact Bool.false_ne_true)]
  exact ⟨_, rfl⟩

/-- A record posted touches no memory. -/
theorem State.post_memories (s : State) (r : TrapRec) :
    (s.post r).mem = s.mem ∧ (s.post r).scr = s.scr ∧ (s.post r).rep = s.rep := by
  unfold State.post
  dsimp only
  split <;> exact ⟨rfl, rfl, rfl⟩

@[simp] theorem State.post_mem (s : State) (r : TrapRec) : (s.post r).mem = s.mem := (s.post_memories r).1
@[simp] theorem State.post_scr (s : State) (r : TrapRec) : (s.post r).scr = s.scr := (s.post_memories r).2.1
@[simp] theorem State.post_rep (s : State) (r : TrapRec) : (s.post r).rep = s.rep := (s.post_memories r).2.2

/-- A record posted changes no context but the supervisor's. -/
theorem State.post_ctx_other (s : State) (r : TrapRec) {g : Nat} (h : g ≠ 1024) : (s.post r).ctx g = s.ctx g := by
  unfold State.post
  dsimp only
  split
  · exact s.faultWindow_ctx_other r h
  · rfl

/-- A record of a kernel context or an agent changes no context at all. -/
theorem State.post_ctxs (s : State) (r : TrapRec) (h : r.ctx ≠ 1024) : (s.post r).chip.ctxs = s.chip.ctxs := by
  obtain ⟨f, e⟩ := s.post_queued r (.inl h)
  rw [e]; rfl

/-- A stop or fatal record that goes to a job is listed there last and never dropped (R209). -/
theorem State.post_own (s : State) (r : TrapRec) (h : r.ctx ≠ 1024) (k : r.kind.toNat ≤ 1) :
    ((s.post r).job (if 1024 ≤ r.ctx.toNat ∧ r.ctx.toNat < 1088 then 0 else r.job.toNat)).waiting =
      (s.job (if 1024 ≤ r.ctx.toNat ∧ r.ctx.toNat < 1088 then 0 else r.job.toNat)).waiting ++ [⟨r, some r.ctx.toNat⟩] := by
  have h' : r.ctx.toNat ≠ 1024 := fun e => h (BitVec.eq_of_toNat_eq (by simpa using e))
  simp [State.post, h', k]

/-- A notice or fault that goes to a job with fewer than 256 of them waiting is listed there last (R209). -/
theorem State.post_other (s : State) (r : TrapRec) (h : r.ctx ≠ 1024) (k : ¬ r.kind.toNat ≤ 1)
    (n : ((s.job (if 1024 ≤ r.ctx.toNat ∧ r.ctx.toNat < 1088 then 0 else r.job.toNat)).waiting.filter fun w => w.own.isNone).length < 256) :
    ((s.post r).job (if 1024 ≤ r.ctx.toNat ∧ r.ctx.toNat < 1088 then 0 else r.job.toNat)).waiting =
      (s.job (if 1024 ≤ r.ctx.toNat ∧ r.ctx.toNat < 1088 then 0 else r.job.toNat)).waiting ++ [⟨r, none⟩] := by
  have h' : r.ctx.toNat ≠ 1024 := fun e => h (BitVec.eq_of_toNat_eq (by simpa using e))
  simp [State.post, h', k, Nat.not_le.mpr n]

/-! ## Traps, fatal errors, blocks (R34, R204, R206) -/

@[simp] theorem State.stopWith_mem (s : State) (r : TrapRec) (x : Bool) : (s.stopWith r x).mem = s.mem := State.post_mem _ r
@[simp] theorem State.stopWith_scr (s : State) (r : TrapRec) (x : Bool) : (s.stopWith r x).scr = s.scr := State.post_scr _ r
@[simp] theorem State.stopWith_rep (s : State) (r : TrapRec) (x : Bool) : (s.stopWith r x).rep = s.rep := State.post_rep _ r

/-- A failure taken is a next state that keeps every memory and every context but the one that failed and the supervisor's. -/
theorem State.raise_next (s : State) (b : Bad) : ∃ t, s.raise b = .next t ∧ t.mem = s.mem ∧ t.scr = s.scr ∧ t.rep = s.rep ∧
    ∀ g, g ≠ s.cur.ctx → g ≠ 1024 → t.ctx g = s.ctx g := by
  unfold State.raise
  dsimp only
  split
  · refine ⟨_, rfl, State.stopWith_mem .., State.stopWith_scr .., State.stopWith_rep .., fun g h h' => ?_⟩
    exact (State.post_ctx_other _ _ h').trans (s.mapMe_ctx_other h _)
  · exact ⟨_, rfl, rfl, rfl, rfl, fun g h _ => s.mapMe_ctx_other h _⟩

/-- A fatal failure only marks the context; the kill is taken at its bundle boundary (R206). -/
theorem State.raise_fatal (s : State) (b : Bad) (h : b.stops = false) : ∃ r, s.raise b = .next (s.mapMe fun c => { c with
    doom := some (c.doom.getD r) }) := ⟨_, by simp only [State.raise, h]; rfl⟩

/-- A block is a next state in which only the cause is noted. -/
theorem State.block_next (s : State) (c : Cause) : s.block c = .next (s.mapMe fun x => { x with blocked := some c }) := rfl

/-! ## The error log (R219 to R222) -/

@[simp] theorem State.cerRecord_mem (s : State) (e : CerEvent) : (s.cerRecord e).mem = s.mem := rfl
@[simp] theorem State.cerRecord_scr (s : State) (e : CerEvent) : (s.cerRecord e).scr = s.scr := rfl
@[simp] theorem State.cerRecord_rep (s : State) (e : CerEvent) : (s.cerRecord e).rep = s.rep := rfl

/-- Recording an error changes the log and nothing else. -/
theorem State.cerRecord_chip (s : State) (e : CerEvent) :
    (s.cerRecord e).chip = { s.chip with cer := s.chip.cer.record s.chip.host.cells s.chip.fab.time e } := rfl

@[simp] theorem State.cerRecord_ctx (s : State) (e : CerEvent) (g : Nat) : (s.cerRecord e).ctx g = s.ctx g := rfl
@[simp] theorem State.cerRecord_core (s : State) (e : CerEvent) (n : Nat) : (s.cerRecord e).core n = s.core n := rfl
@[simp] theorem State.cerRecord_job (s : State) (e : CerEvent) (j : Nat) : (s.cerRecord e).job j = s.job j := rfl
@[simp] theorem State.cerRecord_level (s : State) (e : CerEvent) (l : Nat) : (s.cerRecord e).level l = s.level l := rfl

/-! ## The order log outside RECORD and REPLAY (R169, R175) -/

/-- In FREE and STRICT every operation goes on, the state as it was. -/
theorem logReady_free {s : State} {g : Nat} (o : Logged) (h : modeOf s g < 2) : logReady s g o = .go s := by
  unfold logReady
  split <;> first | omega | rfl

/-- In FREE and STRICT an operation performed leaves no record. -/
theorem logDone_free {s : State} {g : Nat} (o : Logged) (h : modeOf s g < 2) : logDone s g o = .ok s := by
  unfold logDone
  split <;> first | omega | rfl

/-- An agent of a job in FREE or STRICT goes ahead at once. -/
theorem agentOp_free {s : State} {j : Nat} (o : Logged) (h : (s.job j).fmode < 2) : agentOp s j o = .go s := by
  unfold agentOp
  dsimp only
  split <;> first | omega | rfl

/-! ## Accesses by virtual address (R121, R305) -/

/-- Within one 64 KiB unit an access is one piece. -/
theorem pieces_one {va n : Nat} (h : n ≠ 0) (k : va % 65536 + n ≤ 65536) : pieces va n = [(va, n)] := by
  have : n ≤ 0x10000 - va % 0x10000 := by omega
  simp [pieces, h, this]

/-- Nothing accessed is no piece. -/
@[simp] theorem pieces_none (va : Nat) : pieces va 0 = [] := rfl

/-- A write within one 64 KiB unit stores its bytes at the physical address. -/
theorem writeVa_one {s : State} {asid pa : Nat} {va e : Word} {bs : List Byte} (h : bs ≠ []) (k : va.toNat % 65536 + bs.length ≤ 65536)
    (t : translate s asid va .write = .ok (pa, e)) : writeVa s asid va bs = .ok (s.poke pa bs) := by
  have n : bs.length ≠ 0 := by simpa using h
  have z : ¬ 2 ^ 64 ≤ va.toNat := by have := va.isLt; omega
  have v : BitVec.ofNat 64 va.toNat = va := by simp
  simp only [writeVa, pieces_one n k, translateAll, if_neg z, v, t, writePieces, List.take_length]

/-- A read within one 64 KiB unit of no poisoned sector gives the bytes at the physical address. -/
theorem readVa_one {s : State} {asid pa n : Nat} {va e : Word} (h : n ≠ 0) (k : va.toNat % 65536 + n ≤ 65536)
    (t : translate s asid va .read = .ok (pa, e)) (p : firstPoison s pa n = none) : readVa s asid va n = .ok (Cells.bytes s.mem pa n) := by
  have z : ¬ 2 ^ 64 ≤ va.toNat := by have := va.isLt; omega
  have v : BitVec.ofNat 64 va.toNat = va := by simp
  simp only [readVa, pieces_one h k, translateAll, if_neg z, v, t, readPieces, p, List.append_nil]

/-- Pieces written change main memory and the poison of its sectors only. -/
theorem writePieces_frame (l : List (Nat × Nat × Nat)) (s : State) (bs : List Byte) : ∃ m p, writePieces s l bs =
    { s with mem := m, chip := { s.chip with poison := p } } := by
  induction l generalizing s bs with
  | nil => exact ⟨_, _, rfl⟩
  | cons x r ih =>
    obtain ⟨pa, n, va⟩ := x
    obtain ⟨m, p, h⟩ := ih (s.poke pa (bs.take n)) (bs.drop n)
    exact ⟨m, p, h⟩

/-- A write by virtual address changes main memory and the poison of its sectors only. -/
theorem writeVa_frame {s t : State} {asid : Nat} {va : Word} {bs : List Byte} (h : writeVa s asid va bs = .ok t) :
    ∃ m p, t = { s with mem := m, chip := { s.chip with poison := p } } := by
  unfold writeVa at h
  split at h
  · cases h
  · cases h
    exact writePieces_frame _ _ _

theorem memoryWf_writePieces (l : List (Nat × Nat × Nat)) (s : State) (bs : List Byte) (h : s.memoryWf = true) :
    (writePieces s l bs).memoryWf = true := by
  induction l generalizing s bs with
  | nil => exact h
  | cons x r ih => exact ih _ _ (State.memoryWf_poke x.1 _ h)

theorem memoryWf_writeVa {s t : State} {asid : Nat} {va : Word} {bs : List Byte} (h : writeVa s asid va bs = .ok t) (w : s.memoryWf = true) :
    t.memoryWf = true := by
  unfold writeVa at h
  split at h
  · cases h
  · cases h
    exact memoryWf_writePieces _ _ _ w

/-! ## Folds -/

/-- A property that every step of a fold keeps holds at its end. -/
theorem foldl_keeps {α β : Type} {P : β → Prop} {f : β → α → β} (h : ∀ b a, P b → P (f b a)) (l : List α) (b : β) (p : P b) :
    P (l.foldl f b) := by
  induction l generalizing b with
  | nil => exact p
  | cons a r ih => exact ih _ (h b a p)

/-- A property that every step of a fold that can fail keeps holds at its end. -/
theorem foldE_keeps {α β : Type} {P : β → Prop} {f : β → α → Except Bad β} (h : ∀ b a c, P b → f b a = .ok c → P c) (l : List α) (b c : β)
    (p : P b) (e : foldE f b l = .ok c) : P c := by
  induction l generalizing b with
  | nil => cases e; exact p
  | cons a r ih =>
    simp only [foldE] at e
    split at e
    · cases e
    · rename_i d hd
      exact ih d (h b a d p hd) e

/-! ## Scratchpads (R132) -/

theorem memoryWf_fillSector {s t : State} {core i j : Nat} {e : MapEntry} (h : fillSector s core i j e = .ok t) (w : s.memoryWf = true) :
    t.memoryWf = true := by
  unfold fillSector at h
  dsimp only at h
  split at h
  · cases h
  · split at h
    · cases h
    · cases h
      simp only [setSector, State.memoryWf_mapCore]
      split
      · exact State.memoryWf_scrPut _ _ _ w
      · exact State.memoryWf_scrPut _ _ _ w

theorem memoryWf_touch {s t : State} {core off n : Nat} (h : touch s core off n = .ok t) (w : s.memoryWf = true) : t.memoryWf = true := by
  refine foldE_keeps (P := fun s : State => s.memoryWf = true) (fun b a c p q => ?_) _ _ _ w h
  obtain ⟨i, e⟩ := a
  dsimp only at q
  split at q
  · refine foldE_keeps (P := fun s : State => s.memoryWf = true) (fun b j c p q => ?_) _ _ _ p q
    unfold touchSector at q
    split at q
    · exact memoryWf_fillSector q p
    · cases q; exact p
  · cases q; exact p

theorem memoryWf_dirty (s : State) (core off n : Nat) (w : s.memoryWf = true) : (dirty s core off n).memoryWf = true := by
  refine foldl_keeps (P := fun s : State => s.memoryWf = true) (fun b a p => ?_) _ _ w
  obtain ⟨i, e⟩ := a
  dsimp only
  split
  · refine foldl_keeps (P := fun s : State => s.memoryWf = true) (fun b j p => ?_) _ _ p
    exact p
  · exact p

theorem memoryWf_scrStore {s t : State} {core off : Nat} {bs : List Byte} (h : scrStore s core off bs = .ok t) (w : s.memoryWf = true) :
    t.memoryWf = true := by
  unfold scrStore at h
  split at h
  · cases h
  · rename_i u hu
    cases h
    exact memoryWf_dirty _ _ _ _ (State.memoryWf_scrPut _ _ _ (memoryWf_touch hu w))

theorem memoryWf_scrFetch {s t : State} {core off n : Nat} {bs : List Byte} (h : scrFetch s core off n = .ok (t, bs)) (w : s.memoryWf = true) :
    t.memoryWf = true := by
  unfold scrFetch at h
  split at h
  · cases h
  · rename_i u hu
    split at h
    · cases h
    · cases h
      exact memoryWf_touch hu w

/-! ## The queues of engines, network and fabric (R34, R192, R238, R392) -/

@[simp] theorem State.onNet_mem (s : State) (f : Net → Net) : (s.onNet f).mem = s.mem := rfl
@[simp] theorem State.onNet_scr (s : State) (f : Net → Net) : (s.onNet f).scr = s.scr := rfl
@[simp] theorem State.onNet_rep (s : State) (f : Net → Net) : (s.onNet f).rep = s.rep := rfl
@[simp] theorem State.onNet_ctx (s : State) (f : Net → Net) (g : Nat) : (s.onNet f).ctx g = s.ctx g := rfl
@[simp] theorem State.onNet_job (s : State) (f : Net → Net) (j : Nat) : (s.onNet f).job j = s.job j := rfl
@[simp] theorem State.onNet_core (s : State) (f : Net → Net) (n : Nat) : (s.onNet f).core n = s.core n := rfl
@[simp] theorem State.onNet_level (s : State) (f : Net → Net) (l : Nat) : (s.onNet f).level l = s.level l := rfl
@[simp] theorem State.onNet_net (s : State) (f : Net → Net) : (s.onNet f).chip.net = f s.chip.net := rfl
@[simp] theorem State.onFab_mem (s : State) (f : Fabric → Fabric) : (s.onFab f).mem = s.mem := rfl
@[simp] theorem State.onFab_scr (s : State) (f : Fabric → Fabric) : (s.onFab f).scr = s.scr := rfl
@[simp] theorem State.onFab_rep (s : State) (f : Fabric → Fabric) : (s.onFab f).rep = s.rep := rfl
@[simp] theorem State.onFab_ctx (s : State) (f : Fabric → Fabric) (g : Nat) : (s.onFab f).ctx g = s.ctx g := rfl
@[simp] theorem State.onFab_job (s : State) (f : Fabric → Fabric) (j : Nat) : (s.onFab f).job j = s.job j := rfl
@[simp] theorem State.onFab_fab (s : State) (f : Fabric → Fabric) : (s.onFab f).chip.fab = f s.chip.fab := rfl

/-- A charge touches no memory, no context, no core and no launch: a job's use of its allowance, and the count of free values. -/
theorem State.chargeWrite_frame (s : State) (j n : Nat) : (s.chargeWrite j n).mem = s.mem ∧ (s.chargeWrite j n).scr = s.scr ∧
    (s.chargeWrite j n).rep = s.rep ∧ (s.chargeWrite j n).chip.ctxs = s.chip.ctxs ∧ (s.chargeWrite j n).chip.cores = s.chip.cores ∧
    (s.chargeWrite j n).chip.launches = s.chip.launches ∧ (s.chargeWrite j n).chip.net = s.chip.net ∧
    (s.chargeWrite j n).chip.phasers = s.chip.phasers := by
  unfold State.chargeWrite
  split <;> exact ⟨rfl, rfl, rfl, rfl, rfl, rfl, rfl, rfl⟩

theorem State.memoryWf_chargeWrite {s : State} (j n : Nat) (w : s.memoryWf = true) : (s.chargeWrite j n).memoryWf = true :=
  let h := s.chargeWrite_frame j n
  State.memoryWf_of_same w h.1 h.2.1 h.2.2.1

/-- Keeping a tile for the commands that read it changes commands of one core only. -/
theorem State.keepTile_frame (s : State) (g n : Nat) : (s.keepTile g n).mem = s.mem ∧ (s.keepTile g n).scr = s.scr ∧
    (s.keepTile g n).rep = s.rep ∧ (s.keepTile g n).chip.ctxs = s.chip.ctxs ∧ (s.keepTile g n).chip.jobs = s.chip.jobs :=
  ⟨rfl, rfl, rfl, rfl, rfl⟩

/-- A command queued: one entry more in its engine's queue and a serial number used. -/
theorem State.enqueue_eq (s : State) (e : Engine) (i : Instr) (cap : Capture) : ∃ c : Command,
    s.enqueue e i cap = s.nextSerial.mapCore s.cur.core (fun k => k.setQueue e (k.queue e ++ [c])) ∧ c.ctx = s.cur.ctx ∧ c.instr = i ∧
      c.cap = { cap with exposed := s.cur.exposed, tags := s.tags i, olds := s.oldTiles i } ∧ c.serial = s.me.serial ∧ c.pc = s.cur.pc ∧ c.launch = s.me.cr.launch :=
  ⟨_, rfl, rfl, rfl, rfl, rfl, rfl, rfl⟩

/-- A packet buffered: its flits at the end of its stop's buffer, the next sequence number taken. -/
theorem inject_eq (s : State) (core : Nat) (fs : List Flit) : inject s core fs = s.onNet fun n => { n with
    inject := Tab.set n.inject (stopKey (coreLevel core) (coreStop core)) (Tab.get [] n.inject (stopKey (coreLevel core) (coreStop core)) ++ fs)
    pseq := n.pseq + 1 } := rfl

/-- Ending a GET touches the commands in flight of one core only. -/
theorem sunkGet_memories (s : State) (f : Flit) : (sunkGet s f).mem = s.mem ∧ (sunkGet s f).scr = s.scr ∧ (sunkGet s f).rep = s.rep ∧
    (sunkGet s f).chip.ctxs = s.chip.ctxs ∧ (sunkGet s f).chip.jobs = s.chip.jobs := by
  unfold sunkGet
  split <;> exact ⟨rfl, rfl, rfl, rfl, rfl⟩

/-- A flit sunk writes its record to its level's ring, and no other memory. -/
theorem sinkFlit_memories (s : State) (lvl : Nat) (f : Flit) (why : SinkReason) :
    (sinkFlit s lvl f why).mem = (s.pokeNum (sinkAt s lvl) 32 (sinkRecord f why s.cyc).toNat).mem ∧ (sinkFlit s lvl f why).scr = s.scr ∧
      (sinkFlit s lvl f why).rep = s.rep := by
  have h := fun z => sunkGet_memories z f
  unfold sinkFlit deliveryFault
  dsimp only
  split
  · simp only [State.post_mem, State.post_scr, State.post_rep]
    exact ⟨(h _).1, (h _).2.1, (h _).2.2.1⟩
  · exact ⟨(h _).1, (h _).2.1, (h _).2.2.1⟩

theorem memoryWf_sinkFlit {s : State} (lvl : Nat) (f : Flit) (why : SinkReason) (w : s.memoryWf = true) :
    (sinkFlit s lvl f why).memoryWf = true :=
  let h := sinkFlit_memories s lvl f why
  State.memoryWf_of_same (State.memoryWf_pokeNum _ 32 _ w) h.1 h.2.1 h.2.2

theorem memoryWf_post {s : State} (r : TrapRec) (w : s.memoryWf = true) : (s.post r).memoryWf = true :=
  State.memoryWf_of_same w (s.post_mem r) (s.post_scr r) (s.post_rep r)

/-- An item handed over touches no memory and no context. -/
theorem handOver_frame (s : State) (i : FabItem) : (handOver s i).mem = s.mem ∧ (handOver s i).scr = s.scr ∧ (handOver s i).rep = s.rep ∧
    (handOver s i).chip.ctxs = s.chip.ctxs := ⟨rfl, rfl, rfl, rfl⟩

end Sys2Proof.Machine
end

