-- ==== Sys2Proof/Tests/Slice0.lean ====
section
/-! SUPPORT. Small tests of the model: words written out from the spec's encodings, ill-formed instructions refused, and for the statements'
hypotheses a concrete state that meets them. Expected values come from the spec's worked examples and tables or by hand from its rules. -/

namespace Sys2Proof.Tests

set_option Elab.async false

open Sys2Proof Sys2Proof.Machine

/-! ## Helpers -/

/-- Context g running a bundle at 0x1000, its registers changed by f. -/
def inBundle (g : Nat) (f : Ctx → Ctx) : State :=
  (State.reset.withFrame { ctx := g, core := coreOf g, pc := 0x1000 }).mapCtx g fun c => f { c with status := .running }

/-- Kernel context 0 in a bundle with scalars 5 and 6 as given. -/
def with56 (a b : Word) : State := inBundle 0 fun c => { c with s := Tab.set (Tab.set [] 5 a) 6 b }

/-- The virtual page of va in address space 0 mapped to a page, with the flag byte of its entry (R121). -/
def mapPage (s : State) (va page flags : Nat) : State :=
  let way := setAt s 0 va 0
  (s.pokeNum way 8 (tagOf 0 va 0)).pokeNum (way + 8) 8 (flags * 2 ^ 56 + page)

/-- Context 0 with S[5] = 0x40000 + o, that page readable, writable and memory-side at physical 0x300000, a word there. -/
def withWord (o w : Nat) (b : Word) : State := (mapPage (with56 (BitVec.ofNat 64 (0x40000 + o)) b) 0x40000 0x30 0xB0).pokeNum (0x300000 + o / 8 * 8) 8 w

/-- The outcome is a next state. -/
def isNext (o : Out) : Bool := match o with | .next _ => true | _ => false
/-- A register n ticks after an outcome. -/
def seen (o : Out) (n : Nat) (r : RegName) : Option Nat := match o with | .next t => some ((t.me.advance n).regNat r) | _ => none
/-- A property of the next state. -/
def after (o : Out) (p : State → Bool) : Bool := match o with | .next t => p t | _ => false
/-- A register once the one result of an outcome has landed. -/
def landed (o : Out) (r : RegName) : Option Nat :=
  match o with
  | .next t => (t.me.coming.getLast?).map fun x => (t.me.landComing x).regNat r
  | _ => none
/-- The result of an access is a value. -/
def ok {α β : Type} (r : Except α β) : Bool := match r with | .ok _ => true | .error _ => false
/-- The code of a failure. -/
def codeOf {α : Type} (r : Except Bad α) : Option (BitVec 8) := match r with | .ok _ => none | .error b => some b.code

/-- A launch record of one dimension of n iterations on core 0, its entry at 0x50000 (R39, R40). -/
def record (n : Nat) : BitVec 2048 :=
  BitVec.ofNat 2048 (0x50000 + 2 ^ (8 * 0x12) + n * 2 ^ (8 * 0x28) + 2 ^ (8 * 0x60))
/-- A launch of job 1 as it stands before its dispatch. -/
def waiting (n : Nat) : Launch :=
  { job := 1, seq := 0, step := 0, graph := 1, image := record n, preds := [], active := false, order := 0, cursor := 255, walk := none, done := false, ord := 0, count := 0, cancelled := false, failed := false, overflow := false, depfail := false, priv := [], grants := [], holds := [], arrivals := [] }
/-- An item of job 0 from peer 7. -/
def someItem (k : ItemKind) : FabItem :=
  { dst := 0, src := 7, job := 0, priority := false, kind := k, sourceSeq := 0, queue := 0, queueSeq := 4, sendTick := 0, rva := 0x40000, stepn := 0, bnd := 0, fmt := 9, ds := false, launch := 0, ctx := 0, payload := [] }
/-- A reduction queued by context 0. -/
def someRed (serial : Nat) : Reduction := { instr := .red .add true 5 6, job := 0, mode := 0, exposed := false, serial, va := 0x40000, pa := 0x300000 }

/-! ## Ill-formed instructions: one refused term for each check (R213, R242 to R244) -/

theorem smoke_fields : ([.cmp .un .set 1 2 3 4, .cmpi .un .set 1 2 3 4, .loop .inherit 3 0, .loopr .inherit 17 1, .loopp .inherit 3 1 0,
    .iterationEnd 1088, .red .fadd true 1 2, .redPerform 1088, .oredCompletion 1088, .phreg false false 1 2 3, .tkacq .pkg false 1 2 3,
    .msend false 61 1, .mrecv 61 1, .shput 57 1 2, .shget 57 1, .getc 1 0x030, .getc 1 0x004, .setc 0x010 1, .rngControlWrite 3 1,
    .probe .r false 1 2 0, .cancel .step 1 2, .waitc .iter 1 2, .waitc .job 1 2, .tld .st true false 1 1 1, .tst .st true false 1 1 1] : List Instr).all
    (fun i => !wfFields i) = true := by decide +kernel

theorem smoke_fields_more : ([.vcmp .ltu 1 1 1 1, .vicmp .un 1 1 1 1, .vcvt .nbf4 .fp32 .rne 1 1 1, .vcvt .rcw .fp32 .rne 1 1 1, .vtr .sr true 1 1 1,
    .vtw .sr true 1 1 1, .matt 0 1 (.tile 2) (.tile 4), .matt 0 2 (.tile 3) (.tile 4), .mattf .i8 .rne 1 0, .acrd .i32 .rne false 1 0,
    .acrd .bf16 .rne true 1 0, .mcvt .fp32 .rne 1 2, .compact false 7 9 0, .restore 7 0 9, .kvapp false false 0 1 2, .kvapp false true 0 1 2,
    .kvg .df false 0 1 0 1 none, .scoreboardResultLand 1088 0, .contextSave 1024, .contextRestore 1024, .watchdogTimeout 1088, .flitInject 0 12,
    .flitEject 0 12, .registerParityFail 1088 0 0] : List Instr).all (fun i => !wfFields i) = true := by decide +kernel

theorem smoke_writes : ([.cmp .eq .set 1 1 3 4, .cmpi .eq .set 2 2 3 4, .tbit true .set 3 3 1 (.imm 0), .mrecv 4 7, .vtopk 1 2 3 2 0, .cmpr 2 1 2,
    .kvg .df false 0 2 0 1 (some 3)] : List Instr).all (fun i => wfFields i && !wfWrites i) = true := by decide +kernel

/-! ## Words written out from the spec's encodings (R242 to R246, R271 to R288, R345, R363, R382, R393) -/

/-- ADD s4, s5, s6 in slot S, and the bundle of R269's chapter that holds it. -/
theorem word_add : decodeSlot .s 0x0100828C0000 = .ok ⟨.s, 0, false, .add 4 5 6⟩ := by decide +kernel
theorem word_aadd : decodeSlot .a 0x0100E38000C0 = .ok ⟨.a, 0, false, .aadd 7 7 192⟩ := by decide +kernel
theorem word_ldacq : decodeSlot .s 0x4029221E0040 = .ok ⟨.s, 2, true, .ldAcq .pkg 9 4 64⟩ := by decide +kernel
theorem word_amo : decodeSlot .s 0x4800020A1000 = .ok ⟨.s, 0, false, .amo .add true 4 5⟩ := by decide +kernel
theorem word_cmpi : decodeSlot .s 0x2911A161FFFE = .ok ⟨.s, 1, false, .cmpi .ltu .setz 3 4 7 (-2)⟩ := by decide +kernel
theorem word_loop : decodeSlot .s 0x350004800060 = .ok ⟨.s, 0, false, .loop .inherit 9 3⟩ := by decide +kernel
theorem word_loopr : decodeSlot .s 0x3600000C0200 = .ok ⟨.s, 0, false, .loopr .inherit 6 16⟩ := by decide +kernel
theorem word_tkacq : decodeSlot .s 0x5500630E0180 = .ok ⟨.s, 0, false, .tkacq .pkg true 3 6 7⟩ := by decide +kernel
theorem word_pmig : decodeSlot .s 0x8211E7000000 = .ok ⟨.s, 1, false, .pmig 15 14⟩ := by decide +kernel
theorem word_tld : decodeSlot .a 0x10019000A009 = .ok ⟨.a, 0, false, .tld .df true true 3 2 5⟩ := by decide +kernel
theorem word_gidx : decodeSlot .a 0x0B001002A000 = .ok ⟨.a, 0, false, .gidx 2 21⟩ := by decide +kernel
theorem word_vfma : decodeSlot .v 0x040060840000 = .ok ⟨.v, 0, false, .vfma 3 1 2 0⟩ := by decide +kernel
theorem word_vcvt : decodeSlot .v 0x2800A3000BCA = .ok ⟨.v, 0, false, .vcvt .fp32 .bf16 .sr 5 6 2⟩ := by decide +kernel
theorem word_vtopk : decodeSlot .v 0x310102120019 = .ok ⟨.v, 0, false, .vtopk 3 8 4 9 1⟩ := by decide +kernel
theorem word_vtw : decodeSlot .v 0x2B0043920000 = .ok ⟨.v, 0, false, .vtw .rne false 2 7 9⟩ := by decide +kernel
theorem word_mma : decodeSlot .m 0x010081000000 = .ok ⟨.m, 0, false, .mma 0 (.tile 1) (.tile 2)⟩ := by decide +kernel
theorem word_matt : decodeSlot .m 0x040203010001 = .ok ⟨.m, 0, false, .matt 1 4 (.tile 6) (.tile 8)⟩ := by decide +kernel
theorem word_mattf : decodeSlot .m 0x05040000001C = .ok ⟨.m, 0, false, .mattf .bf16 .rne 8 0⟩ := by decide +kernel
theorem word_aclr : decodeSlot .m 0x060000012000 = .ok ⟨.m, 0, false, .aclr 0 9⟩ := by decide +kernel
theorem word_kvapp : decodeSlot .x 0x0801401C1020 = .ok ⟨.x, 0, false, .kvapp true true 0 10 14⟩ := by decide +kernel
theorem word_kvg : decodeSlot .x 0x09021800C011 = .ok ⟨.x, 0, false, .kvg .df true 2 4 3 6 none⟩ := by decide +kernel
theorem word_kvscan : decodeSlot .x 0x0A01A49C0000 = .ok ⟨.x, 0, false, .kvscan false 0 13 9 14⟩ := by decide +kernel
theorem word_compact : decodeSlot .x 0x050100000020 = .ok ⟨.x, 0, false, .compact false 1 8 0⟩ := by decide +kernel
theorem word_restore : decodeSlot .x 0x060004000020 = .ok ⟨.x, 0, false, .restore 1 0 8⟩ := by decide +kernel
theorem word_cwupd : decodeSlot .x 0x030105820000 = .ok ⟨.x, 0, false, .cwupd false false 8 11 1⟩ := by decide +kernel
theorem word_put : decodeSlot .x 0x0E0145980460 = .ok ⟨.x, 0, false, .put false (.handler 3) 10 11 12⟩ := by decide +kernel

/-! ## Statements over every instruction -/

/-- DecodeEncodeAgree: an instruction with its fields in range and its word, and the slot of zeros. -/
theorem witness_decode_encode : wfFields (.ldAcq .pkg 9 4 64) = true ∧ encodeSlot 2 true (.ldAcq .pkg 9 4 64) = some (.s, 0x4029221E0040) ∧
    decodeSlot .m 0 = .ok ⟨.m, 0, false, .nop⟩ := by decide +kernel

/-- StepKeepsMemoryCanonical and StepRunsDecoded: the worked bundle placed after reset. -/
theorem witness_step : let s := State.reset.withFetchWord 256 0x0100828C00002010; s.memoryWf = true ∧ isNext (step s) = true := by
  decide +kernel

/-- The bundle of one ADD, its test true or false, placed after reset: everything StepRunsDecoded asks for. -/
def runsOne (x : SlotInstr) (w : BitVec 256) : Bool :=
  let s := State.reset.withFetchWord 256 w.toNat
  let s0 := s.onRun fun r => { r with turn := 1 }
  let c := s0.ctx 0
  let f : Frame := Frame.refresh { core := 0, ctx := 0, pc := c.pc, le := false, sc := 0, rest := [x] } c
  let s1 := arriveAll (s0.withFrame f)
  s.chip.run.agenda.isEmpty && s.chip.run.turn == 0 && coreServes s0 0 && !(s.core 0).left && (s.core 0).cur == 0 && runnable s0 0 &&
  c.blocked.isNone && c.kept.isNone && c.fencing == 0 && (match fetchBytes s0 0 c.pc with | .ok bs => bs == leBytes 32 w.toNat | _ => false) &&
  decide (decodeBundle (some (pageKindOf 0)) (BitVec.ofNat 256 (leNat (leBytes 32 w.toNat))) = .ok { le := false, sc := 0, slots := [x] }) &&
  (holdOf (s0.withFrame f)).isNone && (blockOf s1).isNone && pays s1 0 1 && decide (s1.cur = f)

theorem witness_step_runs : runsOne ⟨.s, 0, false, .add 4 5 6⟩ 0x0100828C00002010 = true := by decide +kernel
theorem witness_step_nullified : runsOne ⟨.s, 1, false, .add 4 5 6⟩ 0x0110828C00002010 = true ∧
    ({ } : Frame).qualify ⟨.s, 1, false, .add 4 5 6⟩ = false := by decide +kernel

/-- BundleHeader: a bundle that decodes, and one for each refusal. -/
theorem witness_bundle_header : ok (decodeBundle none 0x0100828C00002010) = true ∧
    decodeBundle none 0x0100828C00000010 = .error .version ∧ decodeBundle none 0x0100828C00003010 = .error .headerReserved ∧
    decodeBundle none 0x0100828C00002000 = .error .absentNotZero := by decide +kernel

/-! ## Scalar instructions -/

theorem test_add_wraps : seen (exec (.add 4 5 6) (with56 (BitVec.allOnes 64) 2)) 1 (.s 4) = some 1 := by decide +kernel
theorem test_s0_discards : seen (exec (.add 0 5 6) (with56 1 2)) 1 (.s 0) = some 0 := by decide +kernel
theorem test_mulh_signed : seen (exec (.mulh false 4 5 6) (with56 (BitVec.allOnes 64) 2)) 3 (.s 4) = some (2 ^ 64 - 1) := by decide +kernel
theorem test_div_by_zero : seen (exec (.div false 4 5 6) (with56 7 0)) 18 (.s 4) = some (2 ^ 64 - 1) := by decide +kernel
theorem test_rem_sign : seen (exec (.rem false 4 5 6) (with56 (-7) 2)) 18 (.s 4) = some (2 ^ 64 - 1) := by decide +kernel
/-- IntegerArithmetic: the operands of the one quotient that does not fit (R112). -/
theorem witness_div_overflow : let s := with56 (1 <<< 63) (-1)
    (s.rS 5).toInt = -2 ^ 63 ∧ (s.rS 6).toInt = -1 ∧ seen (exec (.div false 4 5 6) s) 18 (.s 4) = some (2 ^ 63) := by decide +kernel
theorem test_ctz_clz : seen (exec (.clz 4 5) (with56 1 0)) 1 (.s 4) = some 63 ∧ seen (exec (.ctz 4 6) (with56 1 0)) 1 (.s 4) = some 64 := by
  decide +kernel
/-- IntegerArithmetic: words whose fn bits or unused operand are not zero. -/
theorem witness_reserved_fields : decodeSlot .s 0x0100828C0002 = .error .field ∧ decodeSlot .s 0x0100828C0001 = .error .field ∧
    decodeSlot .s 0x180082820000 = .error .field := by decide +kernel
/-- The worked example of R291: eight bits from 60, sign-extended. -/
theorem test_bfx : seen (exec (.bfx true 4 5 60 7) (with56 0xF000000000000000 0)) 1 (.s 4) = some 0xF := by decide +kernel
/-- ImmediatesComparesPredicates: a compare whose test holds, and one whose test fails under SETZ. -/
theorem witness_compare : let s := with56 3 3
    ((1 : PReg) = 0 ∨ (1 : PReg) ≠ 2) ∧ s.cur.q = true ∧ (s.rS 5 = s.rS 6) ∧ seen (exec (.cmp .eq .set 1 2 5 6) s) 1 (.p 1) = some 1 := by decide +kernel
theorem witness_compare_setz : let s := ((with56 3 3).onCur fun f => { f with q := false }).mapMe fun c => { c with p := 0xFF }
    s.cur.q = false ∧ seen (exec (.cmp .eq .setz 1 2 5 6) s) 1 (.p 1) = some 0 ∧ seen (exec (.cmp .eq .set 1 2 5 6) s) 1 (.p 1) = some 1 := by
  decide +kernel

/-! ## Control -/

theorem test_branch_leaves_loop : let s := inBundle 0 fun c => { c with loops := [⟨.loop, 0x1000, 0x1020, .inherit, 3, 0, 4, 0, 0⟩] }
    after (exec (.br 4) s) (fun t => t.me.loops.isEmpty && t.cur.target == some 0x1080) = true := by decide +kernel
/-- Loops: no trips, one entry, and the first pass of a pipelined loop (R252, R300). -/
theorem witness_loops : let s := with56 0 2
    after (exec (.loop .inherit 5 3) s) (fun t => t.cur.target == some 0x1080) = true ∧
    after (exec (.loopp .inherit 6 2 3) s) (fun t => t.me.p == 0x0100 && (t.me.loops.head?.map LoopEntry.st) == some 3) = true := by decide +kernel
/-- The pass table of R301's example, n = 2 and st = 3: stage predicates of passes 0 to 3, then the loop ends. -/
theorem witness_loop_back : let e := fun (m : BitVec 33) => ({ kind := .loopp, start := 0x20, stop := 0x40, pmode := .inherit, lc := 1, ec := 3, n := 2, st := 3, pass := m } : LoopEntry)
    let p := fun (m : BitVec 33) => (({ loops := [e m] } : Ctx).loopBack.1.p).toNat / 256
    p 0 = 3 ∧ p 1 = 6 ∧ p 2 = 4 ∧ ({ loops := [e 3] } : Ctx).loopBack.2 = none ∧ ({ loops := [e 3] } : Ctx).loopBack.1.loops = [] := by decide +kernel
/-- BundleEndNopEndiHalt: a loop that goes back, one that ends, a taken branch, and ENDI of a member whose log has no room. -/
theorem witness_bundle_end : let e : LoopEntry := { kind := .loop, start := 0x20, stop := 0x1000, pmode := .inherit, lc := 1, ec := 0, n := 2, st := 0, pass := 0 }
    let f : Frame := { pc := 0x1000, le := true }
    (({ loops := [e] } : Ctx).endBundle f).pc = 0x20 ∧ (({ loops := [{ e with lc := 0 }] } : Ctx).endBundle f).pc = 0x1020 ∧
    (({ loops := [e] } : Ctx).endBundle { f with taken := true, target := some 0x80 }).pc = 0x80 := by decide +kernel

/-! ## Traps -/

/-- TrapsAndStops: the header of a record as R208's worked example prints it. -/
theorem test_trap_header : let s := (inBundle 700 fun c => { c with cr := { c.cr with job := 3 } }).onCur fun f => { f with slot := .a, done := 1 }
    (s.recordHere 0x04 0 6 0 0).hdr.toNat / 2 ^ 24 % 2 ^ 11 = 700 ∧ after (exec (.trap 9) s) (fun t => t.me.status == .stopped) = true := by decide +kernel
theorem witness_stop_supervisor : let s := inBundle 1024 id; let r := s.recordHere 0x04 0 7 0 0
    s.cur.ctx < 1088 ∧ r.ctx.toNat = s.cur.ctx ∧ r.kind = 0 ∧ s.chip.host.fvalid = false ∧ (s.stopWith r false).chip.host.fvalid = true := by
  decide +kernel
theorem witness_stop_kernel : let s := inBundle 5 id; let r := s.recordHere 0x04 0 7 0 0
    s.cur.ctx < 1088 ∧ r.ctx.toNat = s.cur.ctx ∧ s.cur.ctx ≠ 1024 ∧ ((s.stopWith r false).job 0).waiting.length = 1 := by decide +kernel

/-! ## Control registers -/

theorem witness_getc : let s := inBundle 700 id; s.cur.ctx < 1024 ∧ seen (exec (.getc 4 0x000) s) 2 (.s 4) = some 700 ∧
    seen (exec (.getc 4 0x100) s) 2 (.s 4) = some 0 := by decide +kernel
theorem witness_dq : let s := inBundle 0 fun c => { c with dq := [7, 8] }
    s.me.dq = [7, 8] ∧ seen (exec (.dqPop 4) s) 2 (.s 4) = some 7 ∧ seen (exec (.dqPop 4) (inBundle 0 id)) 2 (.s 4) = some 0 := by decide +kernel
theorem witness_setc : let s := with56 7 0; s.me.pend = [] ∧ seen (exec (.setc 0x008 5) s) 1 (.ctl 0x008) = some 4 ∧
    after (exec (.setc 0x140 5) s) (fun t => t.chip.sup.tsbase == 0) = true := by decide +kernel
theorem witness_supervisor_registers : let s := inBundle 1024 fun c => { c with s := Tab.set [] 5 0x12345678 }
    s.cur.ctx = 1024 ∧ (s.job 0).started = false ∧ after (exec (.setc 0x10A 5) s) (fun t => (t.job 0).reg 0x10A == 0x12340000) = true ∧
    bits (s.rS 6) 11 0 = 0 ∧ bits (s.rS 5) 4 0 = 24 ∧ after (exec (.setc 0x141 5) s) (fun t => t.chip.sup.tscfg == 10) = true := by decide +kernel

/-! ## Memory -/

/-- ScalarMemory and TranslationLookup: a word mapped and readable, one that is not mapped. -/
theorem witness_reaches : let s := withWord 0 0x8877665544332211 0
    translate s 0 0x40000 .read = .ok (0x300000, 0xB000000000000030) ∧ firstPoison s 0x300000 8 = none ∧ modeOf s 0 = 0 ∧
    landed (exec (.ld .d .df 4 5 0) s) (.s 4) = some 0x8877665544332211 ∧ landed (exec (.ld .b .df 4 5 3) s) (.s 4) = some 0x44 ∧
    codeOf (translate s 0 0x50000 .read) = some 0x10 := by decide +kernel
theorem witness_load_poison : let s := (withWord 0 1 0).onChip fun c => { c with poison := [sectorOf 0x300000] }
    firstPoison s 0x300000 8 = some 0x300000 ∧ codeOf (plainRead s 0 0x40000 8) = some 0x11 := by decide +kernel
theorem witness_store : let s := withWord 0 0 0xAABB
    ok (regionCheck s 0 0x40000 2 true) = true ∧ ok (translate s 0 0x40000 .write) = true ∧
    after (exec (.st .h .df 6 5 0) s) (fun t => t.peek 0x300000 8 == 0xAABB) = true ∧ codeOf (plainWrite s 0 0x50000 [1]) = some 0x10 := by decide +kernel

/-- R122's worked lookup: ASID 5, k = 16, va 0x12_3456_789A lies in set 0x3441. -/
theorem test_set_number : setOf 16 5 (0x123456789A / 0x10000) 0 = 0x3441 := by decide +kernel
/-- TranslationLookup: a hit of each kind of access, one that fails, a miss of an address too high, and a way in a poisoned sector. -/
theorem witness_lookup : let s := withWord 0 0 0; let way := setAt s 0 0x40000 0
    lookup s 0 0x40000 = .hit 0xB000000000000030 0x300000 way ∧ lookup s 0 0x100000000000000 = .miss ∧
    ok (translate s 0 0x40000 .atomic) = true ∧ codeOf (translate s 0 0x40000 .exec) = some 0x10 ∧
    codeOf (translate (mapPage s 0x40000 0x30 0x30) 0 0x40000 .atomic) = some 0x05 ∧
    lookup (s.onChip fun c => { c with poison := [sectorOf way] }) 0 0x40000 = .poison (sectorBase (sectorOf way)) := by decide +kernel

/-- AcquireRelease: LD.ACQ of a memory-side word in FREE, misaligned, and in STRICT; ST.REL of it. -/
theorem witness_acquire : let s := withWord 0 77 5
    modeOf s 0 = 0 ∧ landed (exec (.ldAcq .pkg 4 5 0) s) (.s 4) = some 77 ∧
    after (exec (.ldAcq .pkg 4 5 1) s) (fun t => t.me.doom.any fun r => r.code == 0x10) = true ∧
    after (exec (.ldAcq .pkg 4 5 0) (s.mapMe fun c => { c with cr := { c.cr with mode := 1 } })) (fun t => t.me.held.any fun h => h.record.code == 0x06) = true := by
  decide +kernel
theorem witness_release : let s := withWord 0 77 5
    (match stRelReady 6 5 0 s with | .go => true | _ => false) = true ∧ ok (releaseOn s 0 2 0x40000) = true ∧ ok (stRelPlan s 0x40000 5) = true ∧
    after (exec (.stRel .pkg 6 5 0) s) (fun t => t.peek 0x300000 8 == 5) = true := by decide +kernel

/-- Atomics: AMO.ADD.D of an aligned word, one misaligned, APOP of a word of one and of a word of zero. -/
theorem witness_amo : let s := withWord 0 77 5
    modeOf s 0 = 0 ∧ firstPoison s 0x300000 8 = none ∧
    after (exec (.amo .add true 5 6) s) (fun t => t.peek 0x300000 8 == 82 && t.me.dqComing == 1) = true ∧
    after (exec (.acas true 4 5 6) s) (fun t => t.peek 0x300000 8 == 77) = true ∧
    after (exec (.amo .add true 5 6) (withWord 4 0 5)) (fun t => t.me.doom.any fun r => r.code == 0x10) = true := by decide +kernel
theorem witness_apop : let s := withWord 0 1 0
    (Tab.get [] s.chip.apops 0x300000).headD 0 = 0 ∧ landed (exec (.apop true 4 5) s) (.s 4) = some 1 ∧
    after (exec (.apop true 4 5) s) (fun t => t.peek 0x300000 8 == 0) = true ∧
    after (exec (.apop true 4 5) (withWord 0 0 0)) (fun t => t.me.blocked == some (.apop 0x40000)) = true := by decide +kernel

/-- Reductions: a RED queued and performed; ORED of one element and two sources, its block in the same page, complete; a result for dq that lands. -/
theorem witness_red : let s := withWord 0 77 5
    after (exec (.red .add true 5 6) s) (fun t => decide ((t.ctx 0).reds.length = 1) && after (exec (.redPerform 0) t) (fun u =>
      u.peek 0x300000 8 == 82 && (u.ctx 0).reds.isEmpty)) = true ∧ after (exec (.redPerform 0) s) (fun t => decide (t = s)) = true ∧
    after (exec (.red .fadd false 5 6) (withWord 0 0x3F800000 0x40000000)) (fun t => after (exec (.redPerform 0) t) fun u => u.peek 0x300000 8 == 0x40400000) = true ∧
    after (exec (.red .fadd false 5 6) (s.mapMe fun c => { c with cr := { c.cr with mode := 1 } })) (fun t => t.me.held.any fun h => h.record.code == 6) = true := by
  decide +kernel
/-- Reductions: one on a poisoned word. -/
theorem witness_red_poison : after (exec (.red .add true 5 6) (withWord 0 77 5)) (fun t =>
    let u := t.onChip fun c => { c with poison := [sectorOf 0x300000] }
    (firstPoison u 0x300000 8 == some 0x300000) && (memberships u 0).isEmpty && after (exec (.redPerform 0) u) (fun v => (v.ctx 0).status == .free)) = true := by
  decide +kernel

/-! ## Synchronisation -/

/-- Context 0 of job 0 whose phasers 0 to 3 and tokens 0 to 3 are allotted, with scalars 5 and 6. -/
def inJob (a b : Word) : State := (with56 a b).mapJob 0 fun j => j.setReg 0x117 (BitVec.ofNat 64 (4 * 2 ^ 12 + 4 * 2 ^ 39))

/-- Reductions: an ORED of op 3 over two sources of one element, its block, table, destination and flag in one page, issued and completed. -/
def withOred : State :=
  let s := withWord 0x100 0 0
  let s := s.pokeNum 0x300000 8 0
  let b := [(0x300100, 0x40200), (0x300108, 0x40208), (0x300110, 9), (0x300118, 0x40300), (0x300120, 0x0000000100030002), (0x300300, 0x40400),
    (0x300308, 0x40408), (0x300400, 5), (0x300408, 6)]
  b.foldl (fun s x => s.pokeNum x.1 8 x.2) s
theorem witness_ored : ok (oredPlan withOred 0x40100) = true ∧ codeOf (oredPlan withOred 0x40101) = some 0x10 ∧
    after (exec (.ored 5) withOred) (fun t => ((t.ctx 0).oreds.head?.map fun r => (r.op, r.count, r.dst, r.srcs.length)) == some (3, 1, [(0x300200, 4)], 2) &&
      after (exec (.oredCompletion 0) t) (fun u => u.peek 0x300200 4 == 11 && u.peek 0x300208 8 == 9 && (u.ctx 0).oreds.isEmpty)) = true := by decide +kernel
/-- Reductions: an ORED of op 0 over three floating-point sources, one that a younger RED does not hold and an older one does. -/
theorem witness_ored_sum : let s := ((((withOred.pokeNum 0x300120 8 0x0000000100000003).pokeNum 0x300310 8 0x40410).pokeNum 0x300400 4 0x3F800000).pokeNum
      0x300408 4 0x40000000).pokeNum 0x300410 4 0x40400000
    after (exec (.ored 5) s) (fun t => ok (releaseFor t 0 0 2 0x40208) && after (exec (.oredCompletion 0) t) (fun u => u.peek 0x300200 4 == 0x40C00000) &&
      after (exec (.oredCompletion 0) (t.mapMe fun c => { c with reds := [someRed 0], oreds := c.oreds.map fun r => { r with serial := 1 } }))
        (fun u => decide ((u.ctx 0).oreds.length = 1))) = true := by decide +kernel
theorem witness_landing : let s := inBundle 0 fun c => { c with coming := [⟨.dq 7, 0, 0⟩, ⟨.dq 8, 0, 0⟩, ⟨.regs [.s 4 9], 1, 0⟩] , dqComing := 2 }
    after (exec (.scoreboardResultLand 0 1) s) (fun t => decide (t = s)) = true ∧
    after (exec (.scoreboardResultLand 0 0) s) (fun t => (t.ctx 0).dq == [7] && (t.ctx 0).dqComing == 1) = true ∧
    after (exec (.scoreboardResultLand 0 2) s) (fun t => (t.ctx 0).regNat (.s 4) == 9 && (t.ctx 0).cr.fpstat == 1) = true ∧
    after (exec (.scoreboardResultLand 0 0) (s.mapMe fun c => { c with dq := List.replicate 8 3 })) (fun t => (t.ctx 0).dq == List.replicate 7 3 ++ [7]) = true ∧
    after (exec (.scoreboardResultLand 0 0) (inBundle 0 fun c => { c with coming := [⟨.row 3 2 false { data := 5 } [], 0, 0⟩] })) (fun t =>
      (((t.ctx 0).tile 3).row 2).data == 5) = true ∧ (State.reset.job 0).hbmLeft < 9 ∧
    after (exec (.scoreboardResultLand 0 0) (inBundle 0 fun c => { c with coming := [⟨.regs [.s 4 9], 0, 9⟩] })) (fun t =>
      (t.ctx 0).coming.map Coming.owed == [9 - (State.reset.job 0).hbmLeft]) = true := by decide +kernel

/-- ProbeAndMark: an address that answers 0, one that answers 1, one that answers 4. -/
theorem witness_probe : let s := withWord 0 0 0
    (match probeStatus s 0x40000 .r with | .ok st => st == 0 | _ => false) = true ∧ lookup s 0 0x50000 = .miss ∧
    seen (exec (.probe .r true 4 5 0) s) 1 (.s 4) = some 0 ∧
    seen (exec (.probe .r true 4 5 0) (mapPage s 0x40000 0x30 0x38)) 1 (.s 4) = some 4 ∧
    after (exec (.probe .r false 4 6 0) s) (fun t => t.me.status == .stopped) = true ∧
    seen (exec (.probe .w true 4 5 0) (mapPage s 0x40000 0x30 0x90)) 1 (.s 4) = some 2 ∧
    seen (exec (.probe .a true 4 5 0) (mapPage s 0x40000 0x30 0x30)) 1 (.s 4) = some 3 ∧
    seen (exec (.probe .w true 4 5 0) (mapPage s 0x40000 0x30 0xB2)) 1 (.s 4) = some 5 ∧
    seen (exec (.probe .x true 4 5 0) (mapPage s 0x40000 0x30 0xD0)) 1 (.s 4) = some 2 ∧
    slotHolds (s.mapMe fun c => { c with reds := [someRed 0] }) (.probe .r true 4 5 0) = true ∧ slotHolds s (.probe .r true 4 5 0) = false ∧
    after (exec (.logmark 5) s) (fun t => decide (t = s)) = true := by decide +kernel
theorem witness_probe_poison : let s := withWord 0 0 0; let way := setAt s 0 0x40000 0; let s := s.onChip fun c => { c with poison := [sectorOf way] }
    lookup s 0 0x40000 = .poison (sectorBase (sectorOf way)) ∧ after (exec (.probe .r true 4 5 0) s) (fun t => t.me.doom.any fun r => r.code == 0x11) = true := by
  decide +kernel

/-- Phasers: one that is joined, joined again by index, left, full, and a number outside the range. -/
theorem witness_phreg : let s := inJob 2 7
    (match syncNumber s 0 2 false with | .ok n => n == 2 | _ => false) = true ∧ (s.phaser 2).member 0 = none ∧ modeOf s 0 = 0 ∧
    after (exec (.phreg true false 4 5 6) s) (fun t => ((t.phaser 2).member 0).any (fun m => m.ix == 0) &&
      after (exec (.phdrop 5) t) (fun u => ((u.phaser 2).member 0).isNone)) = true ∧
    after (exec (.phreg true true 4 5 6) s) (fun t => ((t.phaser 2).member 0).any fun m => m.ix == 7) = true ∧
    after (exec (.phdrop 5) (inJob 4 0)) (fun t => t.me.held.any fun h => h.record.code == 4) = true ∧
    after (exec (.phdrop 5) s) (fun t => decide (t = s)) = true := by decide +kernel
/-- Phasers: every index of a phaser in use, by other contexts. -/
theorem witness_phreg_full : let p : Phaser := { members := (List.range 1024).map fun i => ⟨i + 1, i, true, 0, 0, false⟩ }
    (∀ k, k < 1024 → (p.members.any fun m => m.ix == k) = true) ∧ p.member 0 = none := by
  refine ⟨fun k hk => ?_, by decide +kernel⟩
  simpa using hk
/-- Context 0 a member of phaser 2. -/
def member (sig : Bool) (k sp wp : Lane) : State := (inJob 2 0).onChip fun c => { c with phasers := Tab.set [] 2 { k, members := [⟨0, 0, sig, sp, wp, false⟩] } }
theorem witness_phasers : ok (releaseOn (member true 0 0 0) 0 0 2) = true ∧
    after (exec (.phsig .pkg 5) (member true 0 0 0)) (fun t => (t.phaser 2).k == 1 && ((t.phaser 2).member 0).any fun m => m.sp == 1) = true ∧
    after (exec (.phsig .pkg 5) (member true 0 1 0)) (fun t => t.me.blocked.isSome) = true ∧
    after (exec (.phsig .pkg 5) (member false 0 0 0)) (fun t => t.me.status == .stopped) = true ∧
    after (exec (.phwait .pkg 5) (member true 1 1 0)) (fun t => ((t.phaser 2).member 0).any fun m => m.wp == 1) = true ∧
    after (exec (.phwait .pkg 5) (member true 0 1 0)) (fun t => t.me.blocked.isSome) = true ∧
    after (exec (.phsw .pkg 5) ((member true 1 1 0).mapMe fun c => { c with signalled := true })) (fun t => !t.me.signalled && t.me.blocked.isNone) = true ∧
    after (exec (.phsw .pkg 5) ((member true 0 1 0).mapMe fun c => { c with signalled := true })) (fun t => t.me.signalled && t.me.blocked.isSome) = true ∧
    after (exec (.phsw .pkg 5) (member true 0 0 0)) (fun t => !t.me.signalled && t.me.blocked.isNone && ((t.phaser 2).member 0).any fun m => m.wp == 1) = true ∧
    after (exec (.phsw .pkg 5) ((member true 0 0 0).mapPhaser 2 fun p => { p with members := p.members ++ [⟨9, 1, true, 0, 0, false⟩] })) (fun t =>
      t.me.signalled && t.me.blocked.isSome && (t.phaser 2).k == 0) = true ∧
    after (exec (.phsw .pkg 5) (member true 0 1 0)) (fun t => !t.me.signalled && t.me.blocked.isSome) = true ∧
    after (exec (.phsw .pkg 5) (member false 1 0 0)) (fun t => t.me.status == .stopped) = true ∧
    after (exec (.phwait .pkg 5) (inJob 2 0)) (fun t => t.me.status == .stopped) = true := by
  decide +kernel

/-- TokensAndBarriers: a token free, held elsewhere, held here; a barrier whose generation has released, and one due. -/
theorem witness_tokens : let s := inJob 2 0; let h := fun (g : Nat) => s.onChip fun c => { c with tokens := Tab.set [] 2 { state := .held g } }
    (match syncNumber s 0 2 true with | .ok n => n == 2 | _ => false) = true ∧
    after (exec (.tkacq .pkg false 3 5 0) s) (fun t => (t.token 2).state == .held 0 && (t.me.advance 1).regNat (.p 3) == 0) = true ∧
    after (exec (.tkacq .pkg false 3 5 0) (h 9)) (fun t => t.me.blocked.isSome) = true ∧
    after (exec (.tkacq .pkg false 3 5 0) (h 0)) (fun t => t.me.status == .stopped) = true ∧ ok (releaseOn (h 0) 0 1 2) = true ∧
    after (exec (.tkrel .pkg 5) (h 0)) (fun t => (t.token 2).state == .free) = true ∧
    after (exec (.tkrel .pkg 5) s) (fun t => t.me.status == .stopped) = true ∧
    after (exec (.tkacq .pkg true 3 5 6) (s.mapMe fun c => { c with cr := { c.cr with mode := 1 } })) (fun t => (t.token 2).strict) = true ∧
    after (exec (.tkacq .pkg false 3 5 0) (s.onChip fun c => { c with tokens := Tab.set [] 2 { state := .abandoned } })) (fun t =>
      (t.me.advance 1).regNat (.p 3) == 1) = true := by decide +kernel
theorem witness_barrier : let b : Barrier := { set := true, mask := 1, cnt := 1, gen := 4 }
    let s := fun (b : Barrier) => (inBundle 0 id).onChip fun c => { c with barriers := Tab.set [] 1 b }
    after (exec (.bar 1) ((s b).mapMe fun c => { c with arrived := some 3 })) (fun t => t.me.arrived.isNone && t.me.blocked.isNone) = true ∧
    after (exec (.bar 1) (s b)) (fun t => t.me.blocked.isSome && (t.barrier 1).releaseAt == some 40) = true ∧
    after (exec (.bar 1) (inBundle 0 id)) (fun t => t.me.status == .stopped) = true ∧
    after (exec (.barrierRelease 1) (s { b with releaseAt := some 0 })) (fun t => (t.barrier 1).gen == 5) = true ∧
    after (exec (.barrierRelease 1) (s { b with releaseAt := some 0, arrivals := [(0, [0, 7])] })) (fun t => (t.barrier 1).arrivals == [(0, [7])] &&
      (t.barrier 1).releaseAt == some 47) = true ∧
    after (exec (.barrierRelease 1) (s { b with releaseAt := some 1 })) (fun t => (t.barrier 1).gen == 4) = true ∧
    { b with arrivals := Tab.set [] 0 [7] }.lastArrival (s b) 1 = some 7 := by decide +kernel

/-- FenceRegionsFlagWait: a descriptor that binds, one that is refused, an index bound and taken away, a flag reached and one not reached. -/
def withRegion (len : Nat) : State :=
  let s := (withWord 0x40 0 0).mapJob 0 fun j => j.setReg 0x10A 0x50000
  let s := (mapPage s 0x50000 0x31 0x30).pokeNum 0x300040 8 0x60000
  (s.pokeNum 0x300048 8 len).pokeNum 0x300050 8 0x1100
theorem witness_rbind : let s := withRegion 48
    (match readVa s 0 0x40040 64 with | .ok bs => bindStatus s (s.job 0) 0 (regionOf bs) == 0 | _ => false) = true ∧ ok (readVa s 0 0x50000 64) = true ∧
    after (exec (.rbind 4 5 6) s) (fun t => (t.me.advance 1).regNat (.s 4) == 0 && t.peek 0x310010 1 == 1 && ((Tab.find (t.job 0).regions 0).isSome) &&
      after (exec (.runbind 4 6) t) (fun u => (Tab.find (u.job 0).regions 0).isNone && u.peek 0x310010 1 == 0)) = true ∧
    seen (exec (.rbind 4 5 6) (withRegion 47)) 1 (.s 4) = some 2 ∧ seen (exec (.runbind 4 6) s) 1 (.s 4) = some 1 := by decide +kernel
/-- FenceRegionsFlagWait: a table entry that cannot be read, one that cannot be written, and the other statuses of R322. -/
theorem witness_rbind_entry : let s := withRegion 48; let r : Region := regionOf (leBytes 8 0x60000 ++ leBytes 8 48 ++ leBytes 8 0x1100)
    let bound := s.mapJob 0 fun j => { j with regions := [(0, r)] }
    bindStatus s (s.job 0) 4096 r = 1 ∧ bindStatus bound (bound.job 0) 0 r = 1 ∧ bindStatus bound (bound.job 0) 1 r = 3 ∧
    bindStatus s (s.job 0) 0 { r with ctl := 0x31 } = 4 ∧ bindStatus s (s.job 0) 0 { r with ctl := 0x21, obj := 0x40001 } = 4 ∧
    bindStatus s (s.job 0) 0 { r with ctl := 1, nslice := 0 } = 4 ∧ bindStatus s (s.job 0) 0 r = 0 ∧
    after (exec (.rbind 4 5 6) ((withRegion 48).mapJob 0 fun j => j.setReg 0x10A 0x70000)) (fun t => t.me.doom.any fun d => d.code == 0x10 && d.addr == 0x70000) = true ∧
    after (exec (.rbind 4 5 6) (mapPage s 0x50000 0x31 0x10)) (fun t => t.me.doom.any fun d => d.code == 0x10 && d.addr == 0x50000) = true ∧
    after (exec (.runbind 4 6) (mapPage bound 0x50000 0x31 0x10)) (fun t => t.me.doom.any fun d => d.code == 0x10 && d.addr == 0x50000) = true := by decide +kernel
/-- FenceRegionsFlagWait: a fence with a reduction open, with a send open, and with nothing open. -/
theorem witness_fence : let s := withWord 0 5 5; let out := s.mapMe fun c => { c with fencing := 1, reds := [someRed 0] }
    let sent := (s.mapMe fun c => { c with fencing := 2 }).onChip fun c => { c with fab := { c.fab with sent := [{ someItem .store with ctx := 0 }] } }
    accessOpen out 0 = true ∧ slotHolds out (.ld .d .df 4 5 0) = true ∧ slotHolds out (.add 4 5 6) = false ∧ (clearFence out 0).me.fencing = 1 ∧
    sendOpen sent 0 = true ∧ slotHolds sent (.sst .d 4 5 0) = true ∧ slotHolds (sent.mapMe fun c => { c with fencing := 0 }) (.shsync .sys) = true ∧
    (clearFence (s.mapMe fun c => { c with fencing := 2 }) 0).me.fencing = 0 ∧ after (exec (.fence .sys) s) (fun t => t.me.fencing == 2) = true := by decide +kernel
theorem witness_flwait : let s := withWord 0 5 5
    (match flagWord s 0 0x40000 .read with | .ok pa => pa == 0x300000 | _ => false) = true ∧
    after (exec (.flwait .pkg 5 6) s) (fun t => t.me.blocked.isNone) = true ∧
    after (exec (.flwait .pkg 5 6) (withWord 0 4 5)) (fun t => t.me.blocked == some (.flag 0x40000)) = true := by decide +kernel

/-! ## Messages, the shaft, the supervisor -/

/-- A kernel context of a job whose partition is cores 0 and 1 and whose shaft window is 128 lines from 16. -/
def inPartition (a b : Word) : State := (with56 a b).mapJob 0 fun j => (j.setReg 0x11C 3).setReg 0x116 (16 + 128 * 0x10000)
theorem witness_messages : let s := inPartition 5 0
    (s.job 0).partition.getLsbD 1 = true ∧ after (exec (.msend false 4 5) s) (fun t => ((Tab.get [] t.chip.net.inject 0).map Flit.target) == [5]) = true ∧
    after (exec (.msend false 4 5) (inPartition 9 0)) (fun t => t.chip.net.sunk == 1) = true ∧
    landed (exec (.mrecv 4 9) (s.mapMe fun c => { c with recv := [⟨7, 0x55⟩] })) (.s 9) = some 7 ∧
    after (exec (.mrecv 4 9) s) (fun t => t.me.blocked == some .message) = true ∧ seen (exec (.mpoll 4) s) 1 (.s 4) = some 0 := by decide +kernel
theorem witness_shaft : let s := inPartition 63 0
    after (exec (.shput 8 5 6) s) (fun t => (t.chip.shaft.queue.map Transfer.line) == [79]) = true ∧
    after (exec (.shput 8 5 6) (inPartition 64 0)) (fun t => t.me.doom.any fun r => r.code == 0x14) = true ∧
    linePoisoned s 0 79 = false ∧ landed (exec (.shget 8 5) s) (.s 8) = some 0 ∧
    after (exec (.shget 8 5) (inPartition 128 0)) (fun t => t.me.doom.any fun r => r.code == 0x14) = true := by decide +kernel

/-- The supervisor in a bundle with S[5]. -/
def supervisor (a : Word) : State := inBundle 1024 fun c => { c with s := Tab.set [] 5 a }
theorem witness_supervisor : after (exec (.budcmt 5) (supervisor 1)) (fun t => (t.job 0).commit.isSome) = true ∧
    after (exec (.shaftgo 5) (supervisor 1)) (fun t => t.chip.shaft.commit.isSome) = true ∧
    after (exec (.shaftgo 5) ((supervisor 1).onChip fun c => { c with shaft := { c.shaft with staged := 9 } })) (fun t => t.chip.shaft.refused) = true ∧
    startRefused (supervisor 0x100) 0 0 = true ∧ after (exec (.jobstart 5) (supervisor 0x100)) (fun t => (t.job 0).startRefused) = true := by decide +kernel
theorem witness_jobstart :
    let s := ((supervisor 0x103).onChip fun c => { c with sup := { c.sup with jobsel := 2 }, code := [⟨0x300000, false, .foreman, true⟩] }).mapJob 2
      fun j => (j.setReg 0x108 13).setReg 0x11A 0x40000
    let s := mapPage s 0x40000 0x30 0x50
    bits (s.rS 5) 5 0 = 3 ∧ startRefused s 2 3 = false ∧ after (exec (.jobstart 5) s) (fun t => (t.job 2).started && (t.ctx 1027).status == .running) = true := by
  decide +kernel
theorem witness_refill : let s := State.reset.onChip fun c => { c with jobs := [(1, { commit := some {}, shfUsed := 3 })] }
    s.cyc % 8192 = 0 ∧ s.chip.run.once.contains 0 = false ∧ after (exec .budgetPeriodRefill s) (fun t => (t.job 1).shfUsed == 0 && (t.job 1).commit.isNone) = true ∧
    after (exec .budgetPeriodRefill (State.reset.onChip fun c => { c with jobs := [(1, { alw := { hbm := 3 }, hbmHeld := 5, hbmUsed := 3 })] })) (fun t =>
      (t.job 1).hbmUsed == 3 && (t.job 1).hbmHeld == 2) = true ∧
    after (exec .budgetPeriodRefill (s.onRun fun r => { r with once := [0] })) (fun t => (t.job 1).shfUsed == 3) = true := by
  decide +kernel

/-- CodeScanner: a submit, a scan of a page that is not populated, a release. -/
theorem witness_scanner : let p : CodePage := ⟨0x300000, false, .kernel, false⟩; let s := State.reset.onChip fun c => { c with scan := some p }
    after (exec (.codemapSubmit 0x300000) State.reset) (fun t => t.chip.scan == some p && codeBlocked t 0x30FFFF && !codeBlocked t 0x310000) = true ∧
    pagePopulated s 0x300000 0x10000 = true ∧ ok (decodeBundle (some .kernel) 0x2000) = true ∧
    decodeBundle (some .kernel) (BitVec.ofNat 256 (s.peek 0x300000 32)) = .error .version ∧
    after (exec (.codemapRelease 0x300000) s) (fun t => t.chip.scan.isNone) = true := by decide +kernel

/-- LevelPower: a level asked to sleep that is idle, one that is busy, one that freezes, wakes and is awake. -/
theorem witness_levels : let s := State.reset; let at_ := fun (p : Power) => (s.mapLevel 3 fun y => { y with power := p }).onRun fun r => { r with cyc := 64 }
    after (exec (.levelSleepRequest 3) s) (fun t => (t.level 3).power == .draining) = true ∧
    after (exec (.levelSleepRequest 0) (inBundle 5 id)) (fun t => t.chip.sup.levelRefused) = true ∧
    after (exec (.levelSleepFreeze 3) (at_ .draining)) (fun t => (t.level 3).power == .asleep) = true ∧
    after (exec (.levelWakeRequest 3) (at_ .asleep)) (fun t => (t.level 3).power == .waking) = true ∧
    after (exec (.wakeReplicaCopy 3) (at_ .waking)) (fun t => (t.level 3).power == .refilling) = true ∧
    after (exec (.wakeComplete 3) (at_ .refilling)) (fun t => (t.level 3).power == .awake) = true ∧
    after (exec (.levelSleepFreeze 3) (at_ .freezing)) (fun t => (t.level 3).power == .asleep) = true := by decide +kernel
/-- LevelPower: a frozen level whose saved context is a member of phaser 4. -/
theorem witness_freeze_member : let s := ((State.reset.mapLevel 3 fun y => { y with power := .draining }).onRun fun r => { r with cyc := 64 }).onChip fun c =>
      { c with phasers := [(4, { members := [⟨400, 0, true, 0, 0, false⟩, ⟨9, 1, true, 0, 0, false⟩] })] }
    s.cyc % 64 = 0 ∧ modeOf s 400 = 0 ∧ after (exec (.levelSleepFreeze 3) s) (fun t => (t.level 3).power == .asleep &&
      ((t.phaser 4).members.map fun m => m.ctx) == [9]) = true := by decide +kernel

/-- RoutingBarriersContainment: swaps, tags, containment, and the log registers of a free context. -/
theorem witness_routing : after (exec (.routeswap 5) (supervisor 3)) (fun t => t.chip.net.swap == some 3) = true ∧
    after (exec (.routeswap 5) ((supervisor 3).onNet fun n => { n with shadow := [(7, 6)] })) (fun t => t.chip.sup.routeRefused) = true ∧
    after (exec .routeSwapComplete (State.reset.onNet fun n => { n with swap := some 1, shadow := [(7, 2)], routes := [(8, 1)] })) (fun t =>
      t.chip.net.route 7 == 2 && t.chip.net.shadowAt 8 == 1 && t.chip.net.route 8 == 0) = true ∧
    after (exec (.barcfg 5) (supervisor 0x801)) (fun t => (t.barrier 1).set) = true ∧
    after (exec (.barcfg 5) ((supervisor 0x801).mapBarrier 1 fun b => { b with arrivals := [(0, [1])] })) (fun t => t.chip.sup.barRefused) = true ∧
    after (exec (.contain 5) (supervisor 9)) (fun t => (t.core 9).resetting) = true ∧
    after (exec (.containmentComplete 9) (State.reset.mapCore 9 fun k => { k with resetting := true })) (fun t => !(t.core 9).resetting) = true := by
  decide +kernel
/-- RoutingBarriersContainment: the one context in use on a core fails with its launch. -/
theorem witness_contain : let s := ((supervisor 9).mapCtx 36 fun c => { c with status := .running, cr := { c.cr with job := 1, launch := 5 } }).onChip fun c =>
      { c with launches := [(5, { waiting 1 with job := 1, count := 1, active := true })] }
    after (exec (.contain 5) s) (fun t => (t.ctx 36).status == .free && ((Tab.find t.chip.launches 5).any fun q => q.failed && q.done && q.count == 0) &&
      (t.job 1).waiting.any fun w => w.record.code == 0x1A && w.record.info == 9) = true := by decide +kernel
theorem witness_ctxlog : let s := ((supervisor 7).mapJob 0 fun j => j.setReg 0x101 9).mapJob 0 fun j => j.setReg 0x11C 4
    s.cur.ctx = 1024 ∧ (s.job 0).partition.getLsbD 2 = true ∧ after (exec (.ctxlogWrite true 5) s) (fun t => (t.ctx 9).cr.logsize == 7) = true := by decide +kernel

/-! ## Work -/

/-- The foreman of job 1 in a bundle, its job's partition core 0, a record of n iterations at S[5] + o, its code page accepted. -/
def foreman (n o : Nat) : State :=
  let s := (inBundle 1026 fun c => { c with s := Tab.set [] 5 (BitVec.ofNat 64 (0x40000 + o)), cr := { c.cr with job := 1 } }).mapJob 1 fun j => j.setReg 0x11C 1
  let s := mapPage (mapPage s 0x40000 0x30 0xB0) 0x50000 0x31 0x50
  (s.pokeNum 0x300000 256 (record n).toNat).onChip fun c => { c with code := [⟨0x310000, false, .kernel, true⟩] }
theorem witness_launch : let s := foreman 2 0
    (match readRecords s 1 false 0x40000 0 1 with | .ok [(x, _)] => recField x 0x18 16 == 0 | _ => false) = true ∧
    after (exec (.launch 4 5) s) (fun t => (t.me.advance 1).regNat (.s 4) == 1 && (t.job 1).statusOf 1 == some 0 && t.chip.nextLid == 2) = true ∧
    seen (exec (.launch 4 5) (foreman 2 1)) 1 (.s 4) = some 0xFFFFFFFF0000000C ∧
    seen (exec (.glaunch 4 5 6) (foreman 2 0)) 1 (.s 4) = some 0xFFFFFFFF0000000D := by decide +kernel
theorem witness_glaunch : let s := (foreman 2 0).mapMe fun c => { c with s := Tab.set c.s 6 1 }
    1 ≤ (s.rS 6).toNat ∧ (s.rS 6).toNat ≤ 16 ∧ seen (exec (.glaunch 4 5 6) s) 1 (.s 4) = some 1 := by decide +kernel
/-- LaunchAndComplete: a record that has each of the reasons 1 to 11 of R332 and none before it. -/
theorem witness_refusals : let why := fun (x : Nat) => refuseReason (foreman 2 0) 1 0 false (record 2 + BitVec.ofNat 2048 x); let b := fun (o : Nat) => 2 ^ (8 * o)
    why 0 = 0 ∧ why 1 = 1 ∧ why 0x10000 = 1 ∧ why (4 * b 0x12) = 2 ∧ why (b 0x12) = 3 ∧ why (4 * b 0x14) = 4 ∧ why (3 * 2 ^ 62 * b 0x28) = 5 ∧
    why ((2 ^ 62 + 15) * b 0x28) = 5 ∧ why ((2 ^ 62 + 14) * b 0x28) = 0 ∧ why (2 ^ 63 * b 0x28) = 6 ∧
    why (b 0x12 + 4 * b 0x14 + 65534 * b 0x28 + 65536 * b 0x30) = 7 ∧ why (b 0x12 + 4 * b 0x14 + 65534 * b 0x28 + 65535 * b 0x30) = 0 ∧
    why (4 * b 0x13) = 8 ∧ why (4097 * b 0x58) = 8 ∧ refuseReason ((foreman 2 0).mapJob 1 fun j => j.setReg 0x11C 2) 1 0 false (record 2) = 9 ∧
    why (b 0x18) = 10 ∧ why (2 * b 0x10) = 11 := by decide +kernel
/-- LaunchAndComplete: what readRecord answers for a misaligned address, an unreadable one and a refused record. -/
theorem witness_read_record : readRecord (foreman 2 0) 1 0 false 0x40001 = .error 0xFFFFFFFF0000000C ∧ readRecord (foreman 2 0) 1 1 true 0x70000 = .error 0xFFFFFFFF0000010C ∧
    readRecord ((foreman 2 0).mapJob 1 fun j => j.setReg 0x11C 2) 1 0 false 0x40000 = .error 0xFFFFFFFF00000009 ∧
    readRecords (foreman 2 0) 1 true 0x70000 0 1 = .error 0xFFFFFFFF0000000C := by decide +kernel
/-- The foreman of job 1 with launch 1 as given and its status 0. -/
def launched (l : Launch) : State := (foreman 2 0).onChip fun c => { c with launches := [(1, l)], jobs := Tab.set c.jobs 1 { (Tab.get {} c.jobs 1) with window := [(1, 0)] } }
theorem witness_launch_waits : let s := (launched (waiting 2)).onChip fun c => { c with launches := (List.range 16).map fun i => (i + 1, waiting 2) }
    after (exec (.launch 4 5) s) (fun t => t.me.blocked == some .launchRoom) = true ∧
    after (exec (.glaunch 4 5 6) (s.mapMe fun c => { c with s := Tab.set c.s 6 1 })) (fun t => t.me.blocked == some .launchRoom) = true := by decide +kernel
theorem witness_complete : let s := launched { waiting 2 with active := true, done := true }
    (s.job 1).statusOf 1 = some 0 ∧ (∀ y ∈ s.chip.launches, y.2.preds = [] ∧ y.2.arrivals = []) ∧
    after (exec (.launchComplete 1) s) (fun t => t.chip.launches.isEmpty && (t.job 1).statusOf 1 == some 1) = true := by decide +kernel
theorem witness_dispatch : let s := launched (waiting 2); let x := recDim (record 2) (recNest (record 2) 0)
    s.hasTaken 2 = false ∧ after (exec .dispatch (s.onRun fun r => { r with once := [2] })) (fun t => decide (t.chip.dispatched = s.chip.dispatched)) = true ∧
    dispatchOrder s = 1 :: (dispatchOrder s).drop 1 ∧ candidate s 1 = some (1, waiting 2) ∧ (s.job 1).fmode = 0 ∧ recHandlers (record 2) = 0 ∧
    recNdim (record 2) = 1 ∧ x = 2 ∧ after (exec .dispatch s) (fun t => (Tab.find t.chip.launches 1).any fun m => m.walk == some ([0], [2])) = true := by
  decide +kernel
theorem witness_assign : let s := launched { waiting 2 with active := true, order := 1, walk := some ([0], [2]) }
    s.hasTaken 3 = false ∧ usable s 1 0 = true ∧ usable s 1 1 = true ∧
    after (exec .iterationAssign (s.onRun fun r => { r with once := [3] })) (fun t => (t.ctx 0).status == .free) = true ∧
    walkerOrder s = [1] ∧ decide (bringWalk s 1 = s) = true ∧ pickCtx s { waiting 2 with active := true, order := 1, walk := some ([0], [2]) } = some 0 ∧
    after (exec .iterationAssign s) (fun t => (t.ctx 0).pc == 0x50000 && (t.ctx 0).status == .running) = true := by decide +kernel
theorem witness_iteration_end : let s := (launched { waiting 2 with active := true, count := 1 }).mapCtx 0 fun c =>
      { c with status := .running, endi := true, cr := { c.cr with job := 1, launch := 1 } }
    drained s 0 = true ∧ heldTokens s 0 = [] ∧ after (exec (.iterationEnd 0) s) (fun t => (t.ctx 0).status == .free &&
      (Tab.find t.chip.launches 1).any fun m => m.count == 0) = true := by decide +kernel
/-- IterationEndCancelWait: a token held at ENDI, and one whose write-back fails. -/
theorem witness_iteration_end_token : let s := (((launched { waiting 2 with active := true, count := 1 }).mapCtx 0 fun c =>
      { c with status := .running, endi := true, cr := { c.cr with job := 1, launch := 1 } }).onChip fun c => { c with tokens := [(4, { state := .held 0 })] })
    let bound := (s.mapJob 1 fun j => { j with regions := [(0, ⟨0x50000, 48, 0x11, 0, 0, 0, 4, 0, false, []⟩)] }).mapCore 0 fun k =>
      { k with map := [(0, MapEntry.image ⟨0x50000, 48, 0, 0⟩)], sect := [(0, 1)] }
    heldTokens s 0 = [4] ∧ ok (releaseOn s 0 1 4) = true ∧ after (exec (.iterationEnd 0) s) (fun t => (t.token 4).state == .free) = true ∧
    codeOf (releaseOn bound 0 1 4) = some 0x10 ∧ after (exec (.iterationEnd 0) bound) (fun t => (t.job 1).waiting.any fun w => w.record.code == 0x10) = true := by decide +kernel
theorem witness_handler_end : let s := (launched { waiting 2 with active := true, count := 1, holds := [0] }).mapCtx 3 fun c =>
      { c with status := .running, endi := true, handlerRun := true, cr := { c.cr with job := 1, launch := 1 } }
    drained s 3 = true ∧ after (exec (.iterationEnd 3) s) (fun t => (t.ctx 3).status == .reserved) = true := by decide +kernel
theorem witness_cancel : let s := (launched { waiting 2 with active := true, count := 1 }).mapMe fun c => { c with s := Tab.set c.s 5 1 }
    completeDue s 1 = s ∧ unitLaunches s 1 .lnch 1 = [1] ∧ unitLaunches s 1 .graph 1 = [1] ∧ unitLaunches s 1 .step 1 = [1] ∧ launchesOf s 1 = [1] ∧
    after (exec (.cancel .lnch 4 5) s) (fun t => (Tab.find t.chip.launches 1).any fun m => m.cancelled && m.done) = true ∧
    unitLaunches s 1 .lnch 2 = [] ∧ cancellable s 1 1 = false ∧
    after (exec (.waitc .lnch 4 5) s) (fun t => t.me.blocked == some .waitc) = true ∧ after (exec (.waitc .step 4 5) s) (fun t => t.me.blocked == some .waitc) = true ∧
    after (exec (.waitc .job 4 5) s) (fun t => t.me.blocked == some .waitc) = true ∧ (graphOf (s.job 1) 1).contains 1 = true := by decide +kernel
theorem witness_cancel_iteration : let s := (foreman 2 0).mapCtx 0 fun c => { c with status := .running, cr := { c.cr with job := 1 } }
    cancellable s 1 0 = true ∧ seen (exec (.cancel .iter 4 6) s) 1 (.s 4) = some 0 := by decide +kernel
theorem witness_waitc : let s := (foreman 2 0).mapJob 1 fun j => { j with window := [(0, 3)] }
    (s.job 1).statusOf 0 = some 3 ∧ seen (exec (.waitc .lnch 4 6) s) 1 (.s 4) = some 3 ∧ notAssigned s 0x40000 = true ∧
    seen (exec (.waitc .lnch 4 5) s) 1 (.s 4) = some 5 ∧ unitStatus s 1 .graph 0 = some 3 := by decide +kernel

/-- RequestInstructions: request 3 of job 1, free, then queued, active and evicted. -/
def withRequest (q : Req) : State :=
  let s := (foreman 2 0).mapJob 1 fun j => j.setReg 0x119 (BitVec.ofNat 64 (2 + 4 * 2 ^ 16))
  (s.mapMe fun c => { c with s := Tab.set (Tab.set [] 5 3) 6 0x40000 }).onChip fun c => { c with reqs := [(3, q)] }
theorem witness_requests : let s := withRequest {}
    bits ((s.job 1).reg 0x119) 15 0 ≤ 3 ∧ 3 < bits ((s.job 1).reg 0x119) 15 0 + bits ((s.job 1).reg 0x119) 32 16 ∧
    after (exec (.admitReq 4 5) s) (fun t => (t.req 3).state == 1 && (t.req 3).admseq == 1) = true ∧
    ok (plainWrite s 1026 0x40000 (s.req 3).bytes) = true ∧ ok (readVa s 0 0x40000 128) = true ∧
    after (exec (.rqwr 1 4 5 6) s) (fun t => (t.req 3).rid == 0x50000) = true ∧
    seen (exec (.rqwr 0x808 4 5 6) (withRequest { state := 2 })) 1 (.s 4) = some 1 ∧
    after (exec (.evict 4 5) (withRequest { state := 2, slot := 1 })) (fun t => (t.req 3).state == 4) = true ∧
    seen (exec (.evict 4 5) s) 1 (.s 4) = some 1 := by decide +kernel

/-- StepInstruction: request 3 queued, its KV page table of one block, head and page at 0x40000, step tables at 0x60000. -/
def stepping : State :=
  let s := (withRequest { state := 1, admseq := 1, kvpt := 0x40000 }).mapJob 1 fun j => (j.setReg 0x10C 0x200000001).setReg 0x109 0x60000
  ((mapPage s 0x60000 0x32 0x30).pokeNum 0x300000 8 0x100000001).pokeNum 0x300008 8 1
theorem witness_step_instruction : let s := stepping
    (match planStep s 1 with | .go t f => decide (t = s) && f.posts.isEmpty | _ => false) = true ∧ modeOf s 1026 = 0 ∧ (s.job 1).fmode = 0 ∧
    (match kvHeader s 0 0x40000 with | .ok h => h.ok && h.npg == 1 | _ => false) = true ∧ ok (translate s 0 (s.job 1).stepbase .write) = true := by decide +kernel
/-- The foreman of job 1 under a mode, its ring of 126 records at a page. -/
def stepLogged (mode : Nat) (page : Nat) : State :=
  (stepping.mapJob 1 fun j => ((j.setReg 0x104 (BitVec.ofNat 64 page)).setReg 0x105 12).setReg 0x10F (BitVec.ofNat 64 (16 * mode)) |>.setReg 0x120 2).mapMe fun c =>
    { c with cr := { c.cr with mode := BitVec.ofNat 3 mode } }
/-- StepInstruction: in RECORD a ring that cannot be read, in REPLAY a log that has ended. -/
theorem witness_step_logged : let s := stepLogged 2 0x80000; let r := ((mapPage (stepLogged 3 0x70000) 0x70000 0x33 0x30).pokeNum 0x330010 1 1).pokeNum 0x330018 8 1
    (match planStep s 1 with | .part _ => true | _ => false) = true ∧ after (exec .step s) (fun t => (t.job 1).ringFault && t.me.blocked == some .step) = true ∧
    (match planStep r 1 with | .diverge _ _ => true | _ => false) = true ∧ after (exec .step r) (fun t => (t.job 1).diverged) = true ∧
    (match planStep (mapPage stepping 0x60000 0x32 0x10) 1 with | .bad _ => true | _ => false) = true := by decide +kernel
theorem witness_step_refused : after (exec .step (launched (waiting 2))) (fun t => t.me.blocked == some .step) = true := by decide +kernel

/-! ## Pre-emption, resumption, saving, watchdogs -/

/-- The foreman of job 1, kernel context 0 of its job stopped with a held record of SEQ 0, the mask of core 0 at 0x40000. -/
def withHeld (code : BitVec 8) (st : Status) : State :=
  let s := (foreman 2 0).mapMe fun c => { c with s := Tab.set (Tab.set [] 7 0x40000) 5 1 }
  let s := s.pokeNum 0x300000 32 1
  s.mapCtx 0 fun c => { c with status := st, cr := { c.cr with job := 1, launch := 1 }, held := some ⟨{ (s.recordOf 0 code 0 0 0) with tslot := 0 }, some 0, some { rest := [⟨.s, 0, false, .nop⟩] }⟩ }
theorem witness_preempt : let s := withHeld 1 .stopped
    bits (s.rS 5) 5 0 = s.me.cr.job.toNat ∧ (match readVaNum s 0 0x40000 32 with | .ok m => m == 1 | _ => false) = true ∧
    after (exec (.preempt 4 5 7) s) (fun t => (t.ctx 0).preempting && (t.job 1).preempted == 1) = true ∧
    after (exec (.preemptRel 4 5 7) s) (fun t => (t.job 1).preempted == 0) = true ∧ seen (exec (.preempt 4 6 7) s) 1 (.s 4) = some 1 := by decide +kernel
theorem witness_ctxres : let s := withHeld 4 .stopped
    (s.ctx 0).cr.job = s.me.cr.job ∧ after (exec (.ctxres .skip 4 6 6) s) (fun t => (t.ctx 0).status == .running && (t.ctx 0).kept == some {}) = true ∧
    after (exec (.ctxres .retry 4 6 6) s) (fun t => ((t.ctx 0).kept.map fun f => f.rest.length) == some 1) = true ∧
    seen (exec (.ctxres .skip 4 6 6) (withHeld 8 .stopped)) 1 (.s 4) = some 1 ∧ seen (exec (.ctxres .retry 4 6 5) s) 1 (.s 4) = some 1 ∧
    after (exec (.ctxres .retry 4 6 6) (withHeld 4 .saved)) (fun t => (t.ctx 0).atRestore == some (0, 0)) = true := by decide +kernel
theorem witness_ctxres_kill : let s := (withHeld 4 .stopped).onChip fun c => { c with launches := [(1, { waiting 2 with active := true, count := 1 })] }
    Tab.find s.chip.launches (s.ctx 0).cr.launch.toNat = some { waiting 2 with active := true, count := 1 } ∧
    after (exec (.ctxresKill 4 6 6) s) (fun t => (t.ctx 0).status == .free && (Tab.find t.chip.launches 1).all fun m => m.cancelled && m.count == 0) = true := by
  decide +kernel
theorem witness_save : let s := (inBundle 5 fun c => { c with preempting := true }).mapJob 0 fun j => j.setReg 0x10B 0x1000000
    (s.ctx 5).coming = [] ∧ (s.ctx 5).reds = [] ∧ (s.core 1).fly = [] ∧ areaBase s 5 = 0x1000000 + 5 * 294912 ∧ areaPopulated s (areaBase s 5) = true ∧
    areaPopulated s (hbmSize - 294912 + 1) = false := by decide +kernel
theorem witness_restore : let a : SaveArea := { ctx := {}, count := 0, launch := 0, job := 0, base := 0x1000000 }
    let s := (inBundle 5 fun c => { c with status := .saved, saves := 1 }).onChip fun c => { c with areas := [(5, a)] }
    Tab.find s.chip.areas 5 = some a ∧ restorable s 5 a = true ∧ restorable (s.mapCtx 5 fun c => { c with status := .running }) 5 a = false ∧ (a.count + 1 == (s.ctx 5).saves) = true ∧
    areaVerifies (s.mapCtx 5 fun c => { c with saves := 7 }) 5 a = false := by decide +kernel
/-- A context whose bundle, a PHWAIT that blocks, has waited 3 cycles. -/
def waitingLong (wd : Lane) (n : Nat) : State :=
  let s := State.reset.withFetchWord 256 (oneSlotBundle false 0 .s ((encodeSlot 0 false (.phwait .pkg 5)).map Prod.snd |>.getD 0)).toNat
  let s := s.mapJob 0 fun j => j.setReg 0x117 (BitVec.ofNat 64 (4 * 2 ^ 12))
  (s.mapCtx 0 fun c => { c with blocked := some (.phaser 2), wdCount := n, cr := { c.cr with wdog := wd }, s := Tab.set [] 5 2 }).onChip fun c =>
    { c with phasers := Tab.set [] 2 { members := [⟨0, 0, true, 1, 0, false⟩] } }
theorem witness_watchdog : let s := waitingLong 3 3
    (match unmet s 0 with | some (f, sl, x) => f.ctx == 0 && sl == .s && x == .phaser 2 | none => false) = true ∧
    after (exec (.watchdogTimeout 0) s) (fun t => (t.ctx 0).held.any fun h => h.record.code == 2 && h.record.info == 0x200000003) = true ∧
    after (exec (.watchdogTimeout 0) (waitingLong 4 3)) (fun t => (t.ctx 0).status == .running) = true ∧
    after (exec (.watchdogTimeout 0) (waitingLong 0 3)) (fun t => (t.ctx 0).status == .running) = true := by decide +kernel

/-! ## Addresses, tiles, scratch, rings -/

theorem test_aadd : seen (exec (.aadd 7 5 192) (with56 0x1000 0)) 1 (.s 7) = some 0x10C0 := by decide +kernel
/-- AddressInstructions: a field written whole, positions wrapped, an image loaded and one misaligned. -/
theorem witness_streams : let s := with56 0x40000 2
    seen (exec (.gset .n0 3 6) s) 1 (.g 3) = some (2 * 2 ^ 184) ∧
    after (exec (.gadv 3 6) (s.mapMe fun c => { c with g := Tab.set [] 3 (2 * 2 ^ 184) })) (fun t => (t.me.advance 1).regNat (.g 3) == 2 * 2 ^ 184 + 2 * 2 ^ 220) = true ∧
    landed (exec (.gload false 3 5) (withWord 0 7 0)) (.g 3) = some 7 ∧
    after (exec (.gload false 3 5) (withWord 1 7 0)) (fun t => t.me.doom.any fun r => r.code == 0x10) = true := by decide +kernel

/-- R344's walk: two rows of 64 I8 elements, row stride 64. -/
def rows2 : StreamBits := BitVec.ofNat 256 (0x40000 + 10 * 2 ^ 56 + 64 * 2 ^ 112 + 1 * 2 ^ 184)
/-- A TLD command in flight on core 0 for those rows. -/
def tileFlying (w : Bool) : State :=
  let s := (withWord 0 0x0807060504030201 0).pokeNum 0x300040 8 0x11
  let i : Instr := if w then .tst .df false false 3 2 5 else .tld .df false false 3 2 5
  let c : Command := { ctx := 0, instr := i, cap := { g := rows2, count := 2 }, serial := 0, pc := 0, launch := 0 }
  let t : Tile := { fmt := 10, live := 2, rows := Tab.set [] 0 { data := 0x77 } }
  (s.mapCtx 0 fun x => { x with t := Tab.set [] 3 (if w then t else {}) }).mapCore 0 fun k => { k with fly := [c] }
/-- A region of 48 bytes at 0x40000 under token 0. -/
def token48 : Region := { base := 0x40000, len := 48, ctl := 0x11, nslice := 0, prod := 0, slen := 0, obj := 0, pv := 0, published := false, seen := [] }
theorem witness_tile_issue : let s := (withWord 0 1 0).mapMe fun c => { c with g := Tab.set [] 2 rows2 }
    indirect (s.rG 2) = false ∧ ok (footprint s 0 false 64 false (walkSteps rows2 .i8 false [] 2)) = true ∧
    modeOf s 0 = 0 ∧
    codeOf (footprint ((s.mapMe fun c => { c with cr := { c.cr with mode := 1 } }).mapJob 0 fun j => { j with regions := [(0, token48)] }) 0 false 64 false
      (walkSteps rows2 .i8 false [] 2)) = some 0x04 ∧
    after (exec (.tld .df false false 3 2 6) (s.mapMe fun c => { c with s := Tab.set c.s 6 2 })) (fun t => ((t.core 0).aq.map fun c => c.cap.count) == [2]) = true := by
  decide +kernel
theorem witness_tile_load : let s := tileFlying false
    (nextComplete s 0 .a).isSome = true ∧ after (exec (.tileCommandComplete 0) s) (fun t => ((t.ctx 0).tile 3).live == 2 &&
      (((t.ctx 0).tile 3).row 0).data.toNat == 0x0807060504030201 && (((t.ctx 0).tile 3).row 1).data.toNat == 0x11) = true ∧
    nextComplete (withWord 0 0 0) 0 .a = none := by decide +kernel
theorem witness_tile_store : after (exec (.tileCommandComplete 0) (tileFlying true)) (fun t => t.peek 0x300000 8 == 0x77 && t.peek 0x300040 8 == 0) = true := by
  decide +kernel

/-- Context 0 whose job has the first 64 KiB of scratch, and S[5], S[6]. -/
def withScratch (a b : Word) : State := (mapPage (withWord 0 9 0) 0x40000 0x30 0x30).mapJob 0 (fun j => j.setReg 0x115 (BitVec.ofNat 64 (0x10000 * 2 ^ 32))) |>.mapMe fun c =>
  { c with s := Tab.set (Tab.set [] 5 a) 6 b }
theorem witness_scratch : let s := withScratch 0x100 0xAABB
    ok (scrRead s 0 0x100 8) = true ∧ (s.core 0).entries = [] ∧ scrPoisoned s 0 0x100 8 = false ∧
    after (exec (.sst .h 6 5 0) s) (fun t => landed (exec (.sld .d 4 5 0) t) (.s 4) == some 0xAABB) = true ∧
    after (exec (.vlds 3 5 1) s) (fun t => t.me.doom.any fun r => r.code == 0x14) = true ∧ codeOf (scrRead s 0 0xFFFC 8) = some 0x14 ∧
    codeOf (scrWrite s 0 0xFFFC [0, 0, 0, 0, 0]) = some 0x14 := by decide +kernel
/-- RMAP of 96 bytes of the page at 0x40000 to scratch offset 0x200. -/
theorem witness_rmap : let s := withScratch 0x40000 (BitVec.ofNat 64 (0x200 + 96 * 2 ^ 22))
    seen (exec (.rmap 4 5 6) s) 1 (.s 4) = some 0 ∧ after (exec (.rmap 4 5 6) s) (fun t => (t.core 0).entries.length == 1 &&
      seen (exec (.rmap 4 5 6) t) 1 (.s 4) == some 2 && after (exec (.rfill 4 5 6) t) (fun u => (u.me.advance 1).regNat (.s 4) == 2 &&
        Cells.num u.scr 0x200 8 == 9 && seen (exec (.rinv 4 5 6) u) 1 (.s 4) == some 2) &&
      seen (exec (.runmap 4 7) t) 1 (.s 4) == some 0) = true ∧
    seen (exec (.rmap 4 5 6) (withScratch 0x40001 (BitVec.ofNat 64 (0x200 + 96 * 2 ^ 22)))) 1 (.s 4) = some 3 ∧
    seen (exec (.runmap 4 5) s) 1 (.s 4) = some 1 := by decide +kernel

/-- Rings: the handle of R358's worked example, CAP 2, filled, advanced, and a count above CAP. -/
theorem witness_rings : let s := withScratch (BitVec.ofNat 64 (0x100 + 1 * 2 ^ 22)) 0x7FF
    after (exec (.qcfg 1 4 5 6) s) (fun t => let u := t.mapMe fun c => { c.advance 1 with s := Tab.set (Tab.set [] 5 1) 6 3 }
      decide (u.me.regNat (.s 4) = 0 ∧ bits (u.me.rQ 1) 60 49 = 1) && after (exec (.qwaite 1 5) u) (fun x => x.me.blocked.isNone) &&
      after (exec (.qwaitf 1 5) u) (fun x => x.me.blocked.isSome) && after (exec (.qwaitf 1 6) u) (fun x => x.me.held.any fun h => h.record.code == 3) &&
      after (exec (.qadvT 1 5) u) (fun x => bits ((x.me.advance 1).rQ 1) 87 75 == 1)) = true ∧
    seen (exec (.qcfg 1 4 5 6) (withScratch 1 0x7FF)) 1 (.s 4) = some 1 ∧ seen (exec (.qcfg 1 4 5 6) (withScratch 0x100 9)) 1 (.s 4) = some 2 := by decide +kernel
theorem witness_ring_credit : let s := (with56 1 0).mapMe fun c => { c with q := Tab.set [] 1 (BitVec.ofNat 128 (5 * 2 ^ 61 + 1 * 2 ^ 108 + 1 * 2 ^ 75)) }
    bits (s.me.rQ 1) 71 61 ≠ 0x7FF ∧ after (exec (.qadvH 1 5) s) (fun t => ((Tab.get [] t.chip.net.inject 0).map Flit.target) == [5]) = true := by decide +kernel

/-! ## Vectors -/

/-- Context 0 with V[1] and V[2] holding a and b in every lane, K[1] naming lanes 0 and 1. -/
def withVectors (a b : Nat) : State := inBundle 0 fun c =>
  let all := fun (n : Nat) => (BitVec.ofNat 2048 ((List.range 64).foldl (fun x _ => x * 2 ^ 32 + n) 0) : Vec)
  { c with v := Tab.set (Tab.set [] 1 (all a)) 2 (all b), k := Tab.set [] 1 3 }
/-- Lane j of V[n] a while after an outcome. -/
def lane (o : Out) (n : Nat) (v : Nat) (j : Nat) : Option Nat :=
  match o with | .next t => some (laneOf (Tab.get 0 (t.me.advance n).v v) j).toNat | _ => none
/-- VEXP2 of 0.5, the worked value of R366's chapter. -/
theorem test_vexp2 : lane (exec (.vexp2 3 1 1) (withVectors 0x3F000000 0)) 6 3 1 = some 0x3FB50000 := by decide +kernel
theorem test_vadd_merges : let o := exec (.vadd 2 1 2 1) (withVectors 0x3F800000 0x40000000)
    lane o 4 2 0 = some 0x40400000 ∧ lane o 4 2 2 = some 0x40000000 := by decide +kernel
theorem test_vmax_nan : lane (exec (.vmax 3 1 2 1) (withVectors 0x7FC12345 0x40000000)) 4 3 0 = some 0x7FC00000 := by decide +kernel
theorem test_vcmp_signal : seen (exec (.vcmp .eq 2 1 2 1) (withVectors 0x7F800001 0)) 2 (.ctl 0x010) = some 1 := by decide +kernel
theorem test_vicmp : seen (exec (.vicmp .lt 2 1 2 1) (withVectors 0xFFFFFFFF 0)) 2 (.k 2) = some 3 := by decide +kernel
theorem test_vimul : lane (exec (.vimul 3 1 2 1) (withVectors 0x10001 0x10001)) 3 3 0 = some 0x20001 := by decide +kernel
theorem test_viota : lane (exec (.viota 3 0 1) (withVectors 0 0)) 1 3 1 = some 1 := by decide +kernel
theorem test_kpopc : seen (exec (.kpopc 4 1) (withVectors 0 0)) 2 (.s 4) = some 2 := by decide +kernel
/-- ConvertTileReduce: a tile row with and without poison, an empty mask and one that is not. -/
theorem witness_tile_rows : let s := (withVectors 0x3F800000 7).mapMe fun c => { c with t := Tab.set [] 2 { fmt := 9, live := 1, rows := Tab.set (Tab.set [] 0 { data := 0x3F800000 }) 1 { poison := true } } }
    ((s.me.tile 2).row 0).poison = false ∧ ((s.me.tile 2).row 1).poison = true ∧
    after (exec (.vtr .rne false 3 2 0) s) (fun t => (t.me.coming.getLast?.map fun x => (laneOf (Tab.get 0 (t.me.landComing x).v 3) 0).toNat) == some 0x3F800000) = true ∧
    s.rK 1 ≠ 0 ∧ s.rK 2 = 0 ∧ (3 : VReg) ≠ 4 := by decide +kernel
theorem test_vred_sum : lane (exec (.vred .sum 3 1 1) (withVectors 0x3F800000 0)) 7 3 0 = some 0x40000000 := by decide +kernel
theorem test_vtopk_pads : let o := exec (.vtopk 2 3 1 4 1) (withVectors 0x3F800000 0)
    lane o 12 3 1 = some 0x3F800000 ∧ lane o 12 3 2 = some 0xFF800000 ∧ lane o 12 3 3 = some 0 := by decide +kernel

/-! ## Matrix and row commands -/

/-- Context 0 with a command of instruction i in flight on core 0, tiles 2 and 3 as given. -/
def flying (i : Instr) (cap : Capture) (t2 t3 : Tile) : State :=
  ((withWord 0 9 0).mapCtx 0 fun c => { c with t := Tab.set (Tab.set [] 2 t2) 3 t3 }).mapCore 0 fun k =>
    { k with fly := [{ ctx := 0, instr := i, cap, serial := 0, pc := 0, launch := 0 }] }
/-- Every matrix instruction is the next command to complete where it flies alone, no tile of it poisoned. -/
theorem witness_matrix_commands : ([.aclr 0 5, .mzero 2, .mma 0 (.tile 2) (.tile 3), .mmas 0 (.tile 2) (.tile 3) 2, .matt 0 2 (.tile 4) (.tile 3),
    .mattf .bf16 .rne 2 0, .acrd .fp32 .rne true 2 0, .acld 0 2 5, .mtrn 2 3, .mcvt .i8 .sr 2 3, .cmpr 2 3 4] : List Instr).all (fun i =>
      let s := flying i {} {} {}; (nextComplete s 0 .m).isSome && !anyPoison ((s.ctx 0).tile 2) 64 && !((s.ctx 0).acc 0).anyPoison 64) = true ∧
    (let s := flying (.mtrn 2 3) {} {} { live := 1, rows := Tab.set [] 0 { poison := true } }
     anyPoison ((s.ctx 0).tile 3) 8 = true ∧ after (exec (.matrixCommandComplete 0) s) (fun t => ((t.job 0).waiting.map fun w => w.record.code) == [0x11]) = true) ∧
    (engineTag 6).isSome = true ∧ engineTag 9 = none ∧ nextComplete (withWord 0 0 0) 0 .m = none := by decide +kernel
theorem test_mzero : after (exec (.matrixCommandComplete 0) (flying (.mzero 2) {} { fmt := 6, live := 3, rows := Tab.set [] 0 { data := 1 } } {}))
    (fun t => ((t.ctx 0).tile 2).fmt == 6 && ((t.ctx 0).tile 2).live == 0 && (((t.ctx 0).tile 2).row 0) == {}) = true := by decide +kernel
theorem test_aclr : after (exec (.matrixCommandComplete 0) (flying (.aclr 1 5) { sa := 0xABC } {} {})) (fun t => ((t.ctx 0).acc 1).alpha == 0xABC) = true := by
  decide +kernel
/-- MatrixIssueAndAccept: a command accepted, one of a context being pre-empted, and an FRECV. -/
theorem witness_accept : let c : Command := { ctx := 0, instr := .mzero 2, cap := {}, serial := 0, pc := 0, launch := 0 }
    let s := (with56 0 0).mapCore 0 fun k => { k with mq := [c], xq := [{ c with instr := .frecv none 2 5 }] }
    acceptable s c = true ∧ acceptable (s.mapCtx 0 fun x => { x with preempting := true }) c = false ∧ (s.core 0).queue .m = [c] ∧
    after (exec (.engineCommandAccept 0 .m) s) (fun t => (t.core 0).mq.isEmpty && (t.core 0).fly.length == 1) = true ∧
    after (exec (.engineCommandAccept 0 .x) s) (fun t => (t.core 0).waitRows.length == 1) = true ∧
    after (exec (.mma 0 (.tile 2) (.tile 3)) s) (fun t => (t.core 0).mq.length == 2) = true ∧ ok (streamOperand s (.stream 1) 64) = true := by decide +kernel

/-- RowControl: the lifecycle of R79's worked example: 0x0025_0409 counts down to 0x0025_0405 and then to 0x0025_0400. -/
theorem test_row_countdown : let run := fun (v : Lane) => exec (.xCommandComplete 0) (flying (.cwupd false false 2 5 0) { blockno := 4 } { rows := Tab.set [] 0 { rcw := v } } {})
    after (run 0x00250409) (fun t => (((t.ctx 0).tile 2).row 0).rcw == 0x00250405) = true ∧
    after (run 0x00250405) (fun t => (((t.ctx 0).tile 2).row 0).rcw == 0x00250400) = true := by decide +kernel
theorem witness_row_commands : ([.cwld false 2 5, .cwst false 2 5, .cwupd false false 2 5 0, .cwcnt false 4 2, .compact false 0 2 3, .restore 0 2 3] : List Instr).all (fun i =>
      let s := flying i { sa := 0x40000 } {} {}; (xReady s 0).length == 1 && isNext (exec (.xCommandComplete 0) s)) = true ∧
    ok (walkCheck (withWord 0 9 0) 0 false 0 0x40000 256 false) = true ∧ ok (walkRead (withWord 0 9 0) 0 false 0 0x40000 256) = true ∧
    codeOf (walkRead (withWord 0 9 0) 0 false 0 0x50000 256) = some 0x10 ∧ xReady (withWord 0 9 0) 0 = [] := by decide +kernel
/-- EXNOTE of a tile with one row that exits in this block, with one poisoned, and with none. -/
theorem witness_exnote : let s := fun (t : Tile) => (inPartition 0 0).mapMe fun c => { c with t := Tab.set [] 2 t }
    let one : Tile := { rows := Tab.set [] 0 { rcw := 0x00250002 } }
    anyPoison one 64 = false ∧ modeOf (s one) 0 = 0 ∧ after (exec (.exnote 2) (s one)) (fun t => (t.chip.shaft.queue.map Transfer.notice) == [true]) = true ∧
    after (exec (.exnote 2) (s {})) (fun t => t.chip.shaft.queue.isEmpty && (t.core 0).xq.length == 1) = true ∧
    anyPoison { rows := Tab.set [] 0 { poison := true } } 64 = true := by decide +kernel
/-- RowControl: commands that read a poisoned row. -/
theorem witness_row_poison : let bad : Tile := { fmt := 7, rows := Tab.set [] 0 { poison := true, rcw := 0x00250409 } }
    let killed := fun (i : Instr) => after (exec (.xCommandComplete 0) (flying i { count := 1 } bad {})) fun t => ((t.job 0).waiting.map fun w => w.record.code) == [0x11]
    anyPoison bad 64 = true ∧ killed (.cwupd false false 2 5 0) = true ∧ killed (.cwcnt false 4 2) = true ∧ killed (.compact false 0 3 2) = true ∧ killed (.kvexs 2 6) = false := by decide +kernel
/-- A command on core 0 that owes nine sector transfers where its job's allowance has four left. -/
def owing (i : Instr) : State := ((flying i {} {} {}).mapJob 0 fun j => { j with alw := { hbm := 4 } }).mapCore 0 fun k =>
  { k with fly := k.fly.map fun c => { c with owed := 9 } }
theorem witness_owed : ([Engine.m, .x, .a].zip [(Instr.mzero 2, Instr.matrixCommandComplete 0), (.cwupd false false 2 5 0, .xCommandComplete 0),
    (.tld .df false false 3 2 5, .tileCommandComplete 0)]).all (fun x =>
      let s := owing x.2.1
      ((s.core 0).fly.all fun c => (payCommand s c).1 == 5) && (x.1 == .x && (xReady s 0).length == 1 || (nextComplete s 0 x.1).isSome) &&
      after (exec x.2.2 s) fun t => (t.core 0).fly.map Command.owed == [5]) = true := by decide +kernel
/-- KvInstructions: a plan with no rows, and the completion of each command. -/
theorem witness_kv : ok (kvappPlan false false 0 2 5 (withWord 0 9 0)) = true ∧ ok (kvgPlan false 0 1 6 (withWord 0 9 0)) = true ∧
    ok (kvexsPlan 2 6 (withWord 0 9 0)) = true ∧
    ([.kvapp false false 0 2 5, .kvg .df false 0 2 1 5 none, .kvg .df false 0 2 1 5 (some 4), .kvexs 2 6] : List Instr).all (fun i =>
      let s := flying i {} {} {}; (xReady s 0).length == 1 && isNext (exec (.xCommandComplete 0) s)) = true ∧
    (let s := withRequest { state := 2 }; ((kvEnd s (3, 0x0B, 0x40000, 0)).req 3).state = 3 ∧ ((kvEnd s (3, 0x10, 0x40000, 0)).req 3).state = 5) := by decide +kernel
/-- The page of request 3's first position by its table at 0x40000: 0x60000, at physical 0x320000. -/
theorem witness_kv_find : let s := (((stepping.pokeNum 0x300040 8 0x60001).pokeNum 0x300048 8 0x60001))
    let s := s.mapJob 1 fun j => { j with snapMem := s.mem }
    let k : KvSlot := { ix := 3, slot := 0, len := 1, now := s.req 3, snap := s.req 3 }
    let f := fun (z : State) (w : Bool) => kvFind z k 0 0 0 0 w .whole false
    f s true = .ok (.page 0x60000 0x320000) ∧ kvFind s k 1 0 0 0 true .whole false = .ok (.fault 0x10 0 0) ∧
    f (mapPage s 0x60000 0x32 0x10) true = .ok (.fault 0x10 0x60000 0) ∧ f (mapPage s 0x60000 0x32 0x38) true = .ok (.fault 0x11 0x60000 0x320000) ∧
    f ((s.pokeNum 0x320088 8 1).onChip fun c => { c with poison := [sectorOf 0x320000] }) false = .ok (.fault 0x11 0x60000 0x320000) ∧
    codeOf (f (mapPage s 0x60000 0x32 0x32) true) = some 0x10 := by decide +kernel
/-- The same with a table entry that is not valid, one that names the second tier, and one that names a page that is not mapped. -/
theorem witness_kv_find_entry : let s := fun (e : Nat) => (fun (z : State) => z.mapJob 1 fun j => { j with snapMem := z.mem }) (stepping.pokeNum 0x300040 8 e)
    let f := fun (e : Nat) => kvFind (s e) { ix := 3, slot := 0, len := 1, now := (s e).req 3, snap := (s e).req 3 } 0 0 0 0 false .none false
    f 0x60000 = .ok (.fault 0x10 0 0) ∧ f 0x60003 = .ok (.deferred 0x60000) ∧ f 0x90001 = .ok (.fault 0x10 0x90000 0) := by decide +kernel

/-! ## Exchange -/

/-- Context 0 with S[5] = a, S[6] = b, S[7] = c, G[2] the two rows at 0x40000, the first 64 KiB of scratch its share, core 0 and 1 its partition,
peer 7 known, and fabric allowance. -/
def exchanging (a b c : Word) : State :=
  let s := (withScratch a b).mapMe fun x => { x with s := Tab.set x.s 7 c, g := Tab.set [] 2 rows2 }
  (s.mapJob 0 fun j => { (j.setReg 0x11C 3) with alw := { j.alw with fab := 4096 } }).onFab fun f => { f with peers := [(7, 1)] }
theorem witness_gath_issue : let s := exchanging 0 0 0
    ok (captureIndexes s 0 (s.rG 2) 2) = true ∧ ok (footprint s 0 false 64 false (walkSteps rows2 .i8 false [] 2)) = true ∧
    after (exec (.gath .df 3 2 5) s) (fun t => ((t.core 0).xq.map fun c => c.cap.count) == [2]) = true ∧
    after (exec (.gath .df 3 2 5) (exchanging 5 0 0)) (fun t => t.me.doom.any fun r => r.code == 0x10) = true ∧
    after (exec (.scat .df 3 2 5) (exchanging 0x8000000000000007 0 0)) (fun t => ((t.core 0).xq.map fun c => c.cap.sa) == [0x8000000000000007]) = true ∧
    after (exec (.gath .df 3 2 5) (exchanging 0x8000000000000008 0 0)) (fun t => ((t.job 0).waiting.map fun w => w.record.code) == [0x0A]) = true ∧
    codeOf (captureIndexes (s.mapJob 0 fun j => j.setReg 0x115 0) 0 (rows2 ||| (1 : StreamBits) <<< 66) 2) = some 0x14 := by decide +kernel
/-- The window address of core 1's scratch offset 0x200. -/
def window1 : Word := 0xFE0100000200
theorem witness_put_issue : let s := exchanging 0x100 32 window1
    windowOk s 0 1 0x200 32 = true ∧ ok (scrCheck s 0 0x100 32 false) = true ∧ codeOf (scrCheck s 0 0xFFF0 32 false) = some 0x14 ∧
    after (exec (.put false .plain 7 5 6) s) (fun t => (t.core 0).xq.length == 1) = true ∧
    after (exec (.put false (.ring 1) 7 5 6) (exchanging 0x100 32 5)) (fun t => (t.core 0).xq.length == 1) = true ∧
    after (exec (.put false .plain 7 5 6) (exchanging 0x100 8 window1)) (fun t => t.me.doom.any fun r => r.code == 0x14) = true ∧
    after (exec (.put false .plain 7 5 6) (exchanging 0x100 24 window1)) (fun t => (t.core 0).xq.length == 1) = true ∧
    after (exec (.put false .plain 7 5 6) (exchanging 0x100 32 0xFE0200000200)) (fun t => t.me.doom.any fun r => r.code == 0x14) = true ∧
    after (exec (.get false 5 7 6) s) (fun t => (t.core 0).xq.length == 1) = true := by decide +kernel
/-- A send descriptor at scratch 0x100 with its first 8 bytes, its second and its third as given. -/
def sending (d0 d1 d2 : Nat) : State :=
  let s := exchanging 0x100 0x200 0
  match scrStore s 0 0x100 (leBytes 8 d0 ++ leBytes 8 d1 ++ leBytes 16 d2) with | .ok t => t | .error _ => s
theorem witness_fsend : let store := sending 7 0 16; let notice := sending 7 0x200 64
    ok (scrRead store 0 0x100 32) = true ∧ after (exec (.fsend false false 5 6) store) (fun t => (t.core 0).xq.length == 1) = true ∧
    after (exec (.fsend false true 5 6) notice) (fun t => (t.core 0).xq.length == 1) = true ∧
    after (exec (.fsend false false 5 6) (sending 7 0x100 1)) (fun t => (t.core 0).xq.length == 1) = true ∧
    after (exec (.fsend false true 5 6) store) (fun t => t.me.doom.any fun r => r.code == 0x14) = true ∧
    after (exec (.fsend false false 5 6) (exchanging 0x101 0 0)) (fun t => t.me.doom.any fun r => r.code == 0x14) = true := by decide +kernel
theorem witness_frecv : let s := (exchanging 0 0 0).mapMe fun c => { c with cr := { c.cr with mode := 1 } }
    modeOf s 0 = 1 ∧ after (exec (.frecv none 3 5) s) (fun t => t.me.held.any fun h => h.record.code == 0x06) = true ∧
    after (exec (.frecv (some 6) 3 5) s) (fun t => (t.core 0).xq.length == 1) = true := by decide +kernel

/-- An X command of context 0 in flight in that setting. -/
def exchangeFlying (i : Instr) (cap : Capture) : State :=
  (exchanging 0 0 0).mapCore 0 fun k => { k with fly := [{ ctx := 0, instr := i, cap, serial := 4, pc := 0, launch := 0 }] }
theorem witness_gath_complete : let i : Instr := .gath .df 3 2 5; let cap : Capture := { g := rows2, count := 2 }; let far := { cap with sa := 0x8000000000000007 }
    let reply := fun (r : Nat) (b : BitVec 16) => { someItem .gathReply with stepn := BitVec.ofNat 32 r, bnd := b, payload := [5] }
    let replies := fun (l : List FabItem) (n : Nat) => (exchangeFlying i { far with base := n }).onFab fun f => { f with replies := l }
    ok (walkRead (exchangeFlying i cap) 0 false 0 0x40000 64) = true ∧
    after (exec (.xCommandComplete 0) (exchangeFlying i cap)) (fun t => ((t.ctx 0).tile 3).live == 2) = true ∧
    after (exec (.xCommandComplete 0) (exchangeFlying i far)) (fun t => (t.chip.fab.sent.map FabItem.kind) == [.gathRequest]) = true ∧
    after (exec (.xCommandComplete 0) (replies [reply 0 0, reply 1 0] 2)) (fun t => ((t.ctx 0).tile 3).live == 2 && (((t.ctx 0).tile 3).row 1).data == 5) = true ∧
    after (exec (.xCommandComplete 0) (replies [reply 0 0x10] 1)) (fun t => ((t.job 0).waiting.map fun w => w.record.code) == [0x10]) = true := by decide +kernel
theorem witness_scat_complete : let i : Instr := .scat .df 3 2 5; let far : Capture := { g := rows2, count := 2, sa := 0x8000000000000007 }
    let with3 := fun (s : State) => s.mapCtx 0 fun c => { c with t := Tab.set [] 3 { fmt := 10, live := 2, rows := Tab.set [] 0 { data := 9 } } }
    after (exec (.xCommandComplete 0) (with3 (exchangeFlying i far))) (fun t => (t.chip.fab.sent.map fun m => (m.kind, m.payload.headD 0)) == [(.store, 9)]) = true ∧
    after (exec (.xCommandComplete 0) (with3 (exchangeFlying i { far with base := 2 }))) (fun t => (t.core 0).fly.isEmpty) = true ∧
    after (exec (.xCommandComplete 0) (with3 (exchangeFlying i { far with sa := 0 }))) (fun t => t.peek 0x300000 8 == 9) = true := by decide +kernel
theorem witness_put_get : let put := fun (e : PutEnd) (sd : Word) => exchangeFlying (.put false e 7 5 6) { sa := 0x100, sb := 160, sd }
    let get := fun (n : Nat) => exchangeFlying (.get false 5 7 6) { sa := window1, sb := 16, sd := 0x100, base := n, idx := [1, 2] }
    ok (scrFetch (put .plain window1) 0 0x100 160) = true ∧
    after (exec (.xCommandComplete 0) (put .plain window1)) (fun t => ((Tab.get [] t.chip.net.inject 0).map Flit.len) == [4, 4, 4, 4, 1]) = true ∧
    after (exec (.xCommandComplete 0) (put (.ring 2) 5)) (fun t => ((Tab.get [] t.chip.net.inject 0).map Flit.target) == [5, 5, 5, 5, 5]) = true ∧
    codeOf (scrFetch ((put .plain window1).onChip fun c => { c with scrPoison := [(0x100, 48)] }) 0 0x100 160) = some 0x11 ∧
    after (exec (.xCommandComplete 0) (get 0)) (fun t => ((Tab.get [] t.chip.net.inject 0).map Flit.target) == [1] && (t.core 0).fly.length == 1) = true ∧
    after (exec (.xCommandComplete 0) (get 3)) (fun t => (t.core 0).fly.isEmpty) = true ∧
    after (exec (.xCommandComplete 0) (get 2)) (fun t => t.scrBytes 0 0x100 3 == [1, 2, 0]) = true := by decide +kernel
theorem witness_fabric_commands : let send := exchangeFlying (.fsend false false 5 6) { items := [{ someItem .store with dst := 7 }] }
    let rows := (exchangeFlying (.frecv none 3 5) {}).mapJob 0 fun j => { j with rowsq := [(0, [{ someItem .rows with payload := leBytes 136 (5 + 2 ^ 1056 * 0x250409) }])] }
    after (exec (.xCommandComplete 0) send) (fun t => t.chip.fab.sent.length == 1) = true ∧
    after (exec (.xCommandComplete 0) rows) (fun t => (((t.ctx 0).tile 3).row 0).data == 5 && (((t.ctx 0).tile 3).row 0).rcw == 0x250409) = true := by decide +kernel

/-! ## Deliveries, the shaft, the viaducts -/

/-- A flit of job 0 from context 4 (core 1) at stop 0 of level 0 to a core's context g. -/
def flit (g : Nat) (cargo : Cargo) : Flit :=
  { part := 0, dlvl := BitVec.ofNat 3 (g / 128), dstop := BitVec.ofNat 4 (coreStop (g / 4)), target := g, slvl := 0, sstop := 0, sender := 4, pseq := 9, ix := 0, len := 1, circuit := 0, ds := false, launch := 0, cargo }
/-- That packet ready at core 0. -/
def ready (f : Flit) : State := (exchanging 0 0 0).onNet fun n => { n with ready := [⟨f, 0⟩] }
theorem witness_put_delivery : let put := fun (off : Word) (e : PutEnd) => ready (flit 0 (.put off (List.replicate 16 7) true e off))
    (nextDelivery (put 0x200 .plain) 0 [] (put 0x200 .plain).chip.net.ready).isSome = true ∧ nextDelivery (withWord 0 0 0) 0 [] [] = none ∧
    windowOk (put 0x200 .plain) 0 0 0x200 16 = true ∧ ok (windowWrite (put 0x200 .plain) 0 0x200 (List.replicate 16 7)) = true ∧
    after (exec (.putDelivery 0) (put 0x200 .plain)) (fun t => t.scrBytes 0 0x20F 2 == [7, 0]) = true ∧
    windowOk (put 0x10000 .plain) 0 0 0x10000 16 = false ∧ after (exec (.putDelivery 0) (put 0x10000 .plain)) (fun t => t.chip.net.sunk == 1) = true := by
  decide +kernel
theorem witness_put_handler : let s := (ready { flit 0 (.put 0x200 (List.replicate 16 7) true (.handler 0) 0x200) with launch := 1 }).onChip fun c =>
      { c with launches := [(1, { waiting 2 with active := true, image := record 2 ||| BitVec.ofNat 2048 (2 ^ (8 * 0x48 + 59)) })] }
    (nextDelivery s 0 [] s.chip.net.ready).isSome = true ∧
    after (exec (.putDelivery 0) s) (fun t => t.scrBytes 0 0x20F 1 == [7] && ((Tab.find t.chip.launches 1).map fun l => l.arrivals.length) == some 1) = true ∧
    0 < recHandlers (record 2 ||| BitVec.ofNat 2048 (2 ^ (8 * 0x48 + 59))) := by decide +kernel
theorem witness_ring_delivery : let s := fun (bs : List Byte) => (ready (flit 1 (.put 0 bs true (.ring 2) 1))).mapCtx 1 fun c =>
      { c with status := .reserved, q := Tab.set [] 2 (BitVec.ofNat 128 (1 * 2 ^ 49 + 0x10 * 2 ^ 19)) }
    (ringPackets (flit 1 (.put 0 [] true (.ring 2) 1)) 2 (s [1]).chip.net.ready).isSome = true ∧
    after (exec (.putDelivery 0) (s (List.replicate 16 7))) (fun t => t.scrBytes 0 0x10F 2 == [7, 0] && bits ((t.ctx 1).rQ 2) 127 108 == 1) = true ∧
    after (exec (.putDelivery 0) (s [1])) (fun t => t.chip.net.sunk == 1) = true := by decide +kernel
theorem witness_get_delivery : let s := ready (flit 0 (.getRequest 0x200 16 0x100 4)); let r := (ready (flit 0 (.getReply 0x100 [3] true 4))).mapCore 0 fun k =>
      { k with fly := [{ ctx := 0, instr := .get false 5 7 6, cap := { base := 1 }, serial := 4, pc := 0, launch := 0 }] }
    windowOk s 0 0 0x200 16 = true ∧ ok (windowRead s 0 0x200 16) = true ∧
    after (exec (.putDelivery 0) s) (fun t => ((Tab.get [] t.chip.net.inject 0).map Flit.target) == [4]) = true ∧
    after (exec (.putDelivery 0) r) (fun t => ((t.core 0).fly.map fun c => (c.cap.base, c.cap.idx)) == [(2, [3])]) = true := by decide +kernel

/-- A transfer of context g of job 0, entered in a cycle. -/
def transfer (g n : Nat) : Transfer := { ctx := g, job := 0, notice := false, line := 3, mask := 2, payload := 0xBBAA, entered := n }
/-- The first slot owned by level 0, allowance left, and a send queue. -/
def shafting (q : List Transfer) (fl : List (Nat × Transfer)) : State :=
  (State.reset.mapJob 0 fun j => { j with alw := { j.alw with shf := 5 } }).onChip fun c => { c with shaft := { c.shaft with table := 0, queue := q, flight := fl, commit := some 7 } }
theorem witness_shaft_steps : let s := shafting [transfer 5 2, transfer 6 1] []
    s.cyc % 64 = 0 ∧ after (exec .frameBoundary s) (fun t => t.chip.shaft.table == 7 && t.chip.shaft.commit.isNone) = true ∧
    bits s.chip.shaft.table 3 0 = 0 ∧ (s.level 0).power = .awake ∧ (s.once 1).isSome = true ∧ modeOf s 5 < 2 ∧ (s.job 0).shfUsed < (s.job 0).alw.shf.toNat ∧
    after (exec .shaftSlotSend s) (fun t => (t.chip.shaft.flight.map fun x => x.2.ctx) == [6] && (t.chip.shaft.queue.map Transfer.ctx) == [5]) = true ∧
    after (exec .shaftSlotSend (shafting [transfer 5 2] [])) (fun t => t.chip.shaft.queue.isEmpty) = true ∧
    after (exec .shaftSlotSend ((shafting [transfer 5 2] []).mapJob 0 fun j => { j with shfUsed := 5 })) (fun t => t.chip.shaft.queue.length == 1) = true ∧
    after (exec .shaftSlotSend ((shafting [{ transfer 5 0 with job := 1 }, transfer 5 2] []).mapJob 0 fun j => j)) (fun t => (t.chip.shaft.queue.map Transfer.job) == [1]) = true ∧
    after (exec .shaftSlotSend (s.mapLevel 0 fun y => { y with power := .freezing })) (fun t => t.chip.shaft.queue.length == 2) = true := by
  decide +kernel
theorem witness_shaft_apply : let s := shafting [] [(0, transfer 5 0)]; let late := s.onRun fun r => { r with cyc := 8 }
    s.cyc < 0 + 8 ∧ after (exec .shaftTransferApply s) (fun t => t.chip.shaft.flight.length == 1) = true ∧
    after (exec .shaftTransferApply late) (fun t => t.chip.shaft.flight.isEmpty && Cells.read t.rep (3 * 0x100000 + 193) == 0xBB && Cells.read t.rep (8 * 0x100000 + 192) == 0) = true ∧
    after (exec .shaftTransferApply (late.mapLevel 2 fun y => { y with power := .refilling })) (fun t => (t.level 2).buffered.length == 1) = true := by
  decide +kernel

/-- Routing entry 0 of stop 2 of level 0 and of level 1 for flits to level 0 with any stop, its ACT as given; one flit from context 4 for context 8. -/
def routed (act : Nat) (f : Flit) : State := (exchanging 0 0 0).onNet fun n =>
  { n with routes := (List.range 24).map fun k => (64 * k, BitVec.ofNat 32 (2 ^ 31 + 15 * 2 ^ 9 + act)), pos := [(2, f)], golden := 5 }
/-- A message to context 8, on core 2, whose stop is 0. -/
def note (g : Nat) : Flit := flit g (.message 0x55)
theorem witness_inject : let s := fun (l : List Flit) => (routed 1 (note 40)).onNet fun n => { n with inject := [(2, l)], pos := [] }
    lookupRoute (s []).chip.net 0 2 (note 8) = some 1 ∧
    after (exec (.flitInject 0 2) (s [note 8])) (fun t => (Tab.find t.chip.net.pos 2).isSome && (Tab.get [] t.chip.net.inject 2).isEmpty) = true ∧
    after (exec (.flitInject 0 2) ((s [note 8]).onNet fun n => { n with inject := (5, [note 8]) :: n.inject })) (fun t => t.chip.net.pos.isEmpty) = true ∧
    after (exec (.flitInject 0 2) ((s [note 8]).onNet fun n => { n with pos := [(2, note 8)] })) (fun t => (Tab.get [] t.chip.net.inject 2).length == 1) = true := by
  decide +kernel
/-- The stop of level 0 that serves a context on core 20, whose stop number is 7. -/
theorem witness_eject : let g := 80; let f := note g; let on := fun (s : State) => (s.onNet fun n => { n with pos := [(7, f)] }).mapCtx g fun c => { c with status := .running }
    coreStop 20 = 7 ∧ f.dlvl = 0 ∧ f.dstop = 7 ∧ levelOf g = 0 ∧ (routed 0 f).chip.net.parts = [] ∧
    after (exec (.flitEject 0 7) (on (routed 0 f))) (fun t => (t.ctx g).recv == [⟨4, 0x55⟩] && t.chip.net.pos.isEmpty) = true ∧
    after (exec (.flitEject 0 7) ((on (routed 0 f)).mapCtx g fun c => { c with status := .saved })) (fun t => (Tab.get [] t.chip.net.overflow 0).length == 1) = true ∧
    after (exec (.flitEject 0 7) ((on (routed 0 f)).onNet fun n => { n with overflow := [(0, (List.replicate 256 f))] })) (fun t => t.chip.net.pos.length == 1) = true ∧
    (let full := ((routed 0 f).onNet fun n => { n with overflow := [(0, (List.replicate 256 f))] }); ((Tab.get [] full.chip.net.overflow 0).map Flit.len).sum = 256) ∧
    queueTakes (on (routed 0 f)) f = true ∧
    after (exec (.flitEject 0 7) (on (routed 1 f))) (fun t => t.chip.net.pos.length == 1) = true := by decide +kernel
theorem witness_sunk : let f := note 80; let on := fun (s : State) => (s.onNet fun n => { n with pos := [(7, f)] }).mapCtx 80 fun c => { c with status := .running }
    let one := fun (s : State) (n : Nat) => after (exec (.flitEject 0 7) s) (fun t => t.chip.net.sunk == 1 && (t.level 0).sunk == 1 && t.peek s.chip.sup.sinkBase 8 == f.dest.toNat && t.chip.net.pos.length == n)
    one (on (routed 5 f)) 0 = true ∧ one ((on (routed 0 f)).mapCore 20 fun k => { k with resetting := true }) 0 = true ∧
    one ((on (routed 0 f)).mapLevel 0 fun y => { y with power := .asleep }) 0 = true ∧
    after (exec (.flitEject 0 6) ((routed 0 f).onNet fun n => { n with pos := [(6, f)] })) (fun t => t.chip.net.sunk == 1) = true := by decide +kernel
theorem witness_winze : let f := { note 200 with dlvl := 0 }; let s := (routed 3 f)
    after (exec (.flitEject 0 2) s) (fun t => ((Tab.get [] t.chip.net.winze 0).map fun x => x.1) == [8]) = true ∧
    after (exec (.flitEject 1 2) ((routed 4 f).onNet fun n => { n with pos := [(26, f)] })) (fun t => (Tab.get [] t.chip.net.winze 3).length == 1) = true ∧
    (let w := fun (act c : Nat) => (routed act f).onNet fun n => { n with pos := [], winze := [(0, [(c, 2, f)])] }
     after (exec (.winzeArrival 0 true) (w 1 0)) (fun t => (Tab.get [] t.chip.net.inject 14).length == 1) = true ∧
     after (exec (.winzeArrival 0 true) (w 1 5)) (fun t => (Tab.get [] t.chip.net.winze 0).length == 1) = true ∧
     after (exec (.winzeArrival 0 true) (w 3 0)) (fun t => (Tab.get [] t.chip.net.winze 2).length == 1) = true ∧
     let two := { f with len := 2 }; let z := fun (l : List Flit) => (w 1 0).onNet fun n => { n with winze := [(0, [(0, 2, two)])], asm := [(8 * two.pseq + 1, l)] }
     after (exec (.winzeArrival 0 true) (z [])) (fun t => (Tab.get [] t.chip.net.asm (8 * two.pseq + 1)).length == 1 && (Tab.get [] t.chip.net.inject 14).isEmpty) = true ∧
     after (exec (.winzeArrival 0 true) (z [two])) (fun t => (Tab.get [] t.chip.net.inject 14).length == 2 && (Tab.find t.chip.net.asm (8 * two.pseq + 1)).isNone) = true) := by decide +kernel
theorem witness_rivals : let f := { note 80 with pseq := 1, circuit := 2 }; let y := { note 80 with pseq := 2, circuit := 3 }
    let s := ((routed 0 f).onNet fun n => { n with pos := [(7, f), (19, y)] }).mapCtx 80 fun c => { c with status := .running }
    leaving s 0 0 7 = some (0, f) ∧ leaving s 0 1 7 = some (1, y) ∧
    after (exec (.flitEject 0 7) s) (fun t => (Tab.find t.chip.net.pos 7).isSome && (Tab.find t.chip.net.pos 19).isNone) = true ∧
    (moveViaducts ((routed 0 f).onNet fun n => { n with pos := [(11, f)] })).chip.net.pos = [(0, { f with circuit := 3 })] := by decide +kernel
theorem witness_drain : let f := note 80; let s := fun (st : Status) => (routed 0 f).onNet (fun n => { n with overflow := [(0, [f])] }) |>.mapCtx 80 fun c => { c with status := st }
    after (exec (.overflowStoreDrain 0) (s .running)) (fun t => (t.ctx 80).recv.length == 1 && (Tab.get [] t.chip.net.overflow 0).isEmpty) = true ∧
    after (exec (.overflowStoreDrain 0) (s .saved)) (fun t => (Tab.get [] t.chip.net.overflow 0).length == 1) = true := by decide +kernel

/-! ## The fabric, the trap queue, errors -/

/-- A module in READY whose tick 5 begins now, with what has arrived, job 1 started; peer 7 known; S[5]'s page writable. -/
def ticking (l : List (Nat × FabItem)) : State :=
  let s := (withWord 0 1 0).onHost fun h => { h with state := 5 }
  (s.onFab fun f => { f with tick := 4, tickus := 1, time := 5000, dist := 4, peers := [(7, 1)], inbox := l }).mapJob 1 fun j => { j with started := true }
/-- An item of job 1 sent in tick 1, so due at tick 5. -/
def due (k : ItemKind) : FabItem := { someItem k with job := 1, sendTick := 1, payload := [1, 2], priority := false, stepn := 3, bnd := 2 }
theorem witness_tick : let b := fun (l : List (Nat × FabItem)) => exec .tickBoundary (ticking l); let notice := { due .notice with sendTick := 2, priority := true }
    (match translate (ticking []) ((ticking []).job 1).asid 0x40000 .write with | .ok x => x.1 == 0x300000 | _ => false) = true ∧
    after (b []) (fun t => t.chip.fab.tick == 5 && t.chip.fab.time == 5000) = true ∧
    after (b [(4, due .store)]) (fun t => t.chip.fab.inbox.isEmpty && t.chip.fab.overruns == 0 && t.peek 0x300000 3 == 0x201) = true ∧
    after (b [(5, due .store)]) (fun t => t.chip.fab.overruns == 1) = true ∧
    after (b [(4, due .rows)]) (fun t => ((t.job 1).queueOf 0).length == 1 && t.chip.fab.inbox.isEmpty) = true ∧
    after (b [(4, notice)]) (fun t => (t.job 1).noticeStore == [notice]) = true ∧
    after (exec .tickBoundary ((ticking [(4, notice)]).mapJob 1 fun j => { j with rowsSeen := [(3, 2)] })) (fun t => ((t.job 1).waiting.map fun w => w.record.kind) == [2]) = true ∧
    after (b [(4, { due .store with sendTick := 2 })]) (fun t => t.chip.fab.inbox.length == 1) = true ∧
    after (exec .tickBoundary ((ticking []).onFab fun f => { f with time := 4999 })) (fun t => t.chip.fab.tick == 4) = true := by decide +kernel
/-- FabricAndClock: under the log a delivered store to the flag word of a bound region is a fault of its agent. -/
theorem witness_store_flag : let s := fun (m : Nat) (o : Nat) => (ticking []).mapJob 1 fun j => { (j.setReg 0x10F (BitVec.ofNat 64 (16 * m))) with regions := [(6, { (regionOf (leBytes 64 0)) with ctl := 0x20, obj := 0x40000 + o })] }
    storeHitsFlag (s 2 0) 1 (due .store) = some 6 ∧ storeHitsFlag (s 0 0) 1 (due .store) = none ∧ storeHitsFlag (s 2 2) 1 (due .store) = none ∧
    (((deliverStore (s 2 0) 1 (due .store)).job 1).waiting.map fun w => (w.record.code, w.record.acc, w.record.info)) = [(4, 1, 6)] := by decide +kernel
/-- FabricAndClock: rows whose receive queue has no room stay, those past the end of their time are dropped. -/
theorem witness_rows : let b := fun (l : List (Nat × FabItem)) => exec .tickBoundary (ticking l)
    5 < (due .rows).sendTick.toNat + 256 ∧ ((ticking []).job 1).queueOf 0 = [] ∧
    after (exec .tickBoundary ((ticking [(4, due .rows)]).onFab fun f => { f with tick := 300, time := 301000 })) (fun t => t.chip.fab.inbox.isEmpty && ((t.job 1).queueOf 0).isEmpty) = true ∧
    after (b [(4, { due .rows with queue := 3 })]) (fun t => (t.job 1).rowsSeen == [(3, 2)]) = true := by decide +kernel
theorem witness_fabric : let s := ticking []; let old := fun (i : FabItem) => s.onFab fun f => { f with tick := 257, sent := [i] }
    after (exec (.fabricItemReceive (due .store)) s) (fun t => (t.chip.fab.inbox.map Prod.fst) == [4]) = true ∧
    after (exec (.fabricItemReceive { due .store with src := 9 }) s) (fun t => t.chip.fab.inbox.isEmpty) = true ∧
    after (exec (.fabricItemAbandon 0) (old (due .store))) (fun t => ((t.job 1).waiting.map fun w => w.record.kind) == [4] && t.chip.fab.sent.isEmpty) = true ∧
    after (exec (.fabricItemAbandon 0) (old { due .notice with ds := true })) (fun t => ((t.job 1).waiting.map fun w => w.record.kind) == [2]) = true ∧
    after (exec (.fabricItemAbandon 0) (old (due .rows))) (fun t => (t.job 1).waiting.isEmpty) = true ∧
    after (exec (.fabricItemAbandon 0) (old (due .gathRequest))) (fun t => (t.chip.fab.replies.map FabItem.bnd) == [0x10]) = true ∧
    after (exec (.fabricItemAbandon 0) (s.onFab fun f => { f with sent := [due .store] })) (fun t => t.chip.fab.sent.length == 1) = true := by decide +kernel
/-- The slew of R240: over a million nanoseconds the clock may gain or lose a hundred. -/
theorem test_slew : let t := fun (m : Word) => exec (.ptpTimeSync 1000000 m) (ticking [])
    after (t 1005050) (fun u => u.chip.fab.time == 1005050 && u.chip.fab.offset == 0) = true ∧ after (t 2000000) (fun u => u.chip.fab.time == 1005100) = true ∧
    after (t 0) (fun u => u.chip.fab.time == 1004900) = true := by decide +kernel

/-- Job 0's trap queue of 8 KiB in the page at 0x40000, one record waiting. -/
def trapping (n : Nat) (rd : Nat) : State :=
  let s := (mapPage (withWord 0 rd 0) 0x40000 0x30 0x30).mapJob 0 fun j => { (j.setReg 0x108 0x4000D) with tqSeq := BitVec.ofNat 64 n }
  s.mapJob 0 fun j => { j with waiting := [{ record := s.recordOf 0 4 0 0 0, own := some 0 }] }
theorem witness_trap_record : let x := fun (n rd : Nat) => exec (.trapRecordWrite 0) ((trapping n rd).pokeNum 0x300000 8 rd)
    after (x 0 0) (fun t => (t.job 0).waiting.isEmpty && t.peek 0x300080 1 == 4 && t.peek 0x300008 8 == 1) = true ∧
    after (x 62 0) (fun t => (t.job 0).waiting.isEmpty && t.peek (0x300080 + 128 * 62) 1 == 4) = true ∧
    after (x 63 0) (fun t => (t.job 0).waiting.length == 1) = true ∧ after (x 63 1) (fun t => t.peek 0x300080 1 == 4 && t.peek 0x3000A8 8 == 63) = true ∧
    after (exec (.trapRecordWrite 0) ((trapping 0 0).mapJob 0 fun j => j.setReg 0x108 0)) (fun t => (t.job 0).waiting.length == 1) = true := by decide +kernel
/-- TrapRecords: a held record takes its number, and a freed context 3 is reserved again once its record is written. -/
theorem witness_trap_owner : let own := fun (g : Nat) => ((trapping 0 0).pokeNum 0x300000 8 0).mapJob 0 fun j => { j with waiting := [{ record := State.reset.recordOf 0 4 0 0 0, own := some g }] }
    let held := (own 4).mapCtx 4 fun c => { c with status := .stopped, held := some { record := State.reset.recordOf 4 4 0 0 0, seq := none, frame := none } }
    let claimed := ((own 3).mapJob 0 fun j => j.setReg 0x11C 1).onChip fun c => { c with launches := [(1, { waiting 2 with job := 0, active := true, holds := [0], image := record 2 ||| BitVec.ofNat 2048 (2 ^ (8 * 0x48 + 59)) })] }
    after (exec (.trapRecordWrite 0) held) (fun t => ((t.ctx 4).held.map Held.seq) == some (some 0)) = true ∧
    ((own 3).ctx 3).status = .free ∧ claimant (own 3) 0 = none ∧ after (exec (.trapRecordWrite 0) (own 3)) (fun t => (t.ctx 3).status == .free && (t.job 0).waiting.isEmpty) = true ∧
    (claimant claimed 0).isSome = true ∧ (claimed.chip.launches.all fun y => y.2.arrivals.isEmpty) = true ∧
    after (exec (.trapRecordWrite 0) claimed) (fun t => (t.ctx 3).status == .reserved) = true := by decide +kernel
theorem witness_fault_window : let s := fun (v : Bool) => ((trapping 0 0).onHost fun h => { h with fvalid := v }).mapJob 0 fun j => { j with waiting := [{ record := State.reset.recordOf 1024 4 0 0 0, own := some 1024 }] }
    ((s false).job 0).waiting.all (fun w => w.record.ctx == 1024) = true ∧
    after (exec (.trapRecordWrite 0) (s false)) (fun t => t.chip.host.fvalid && bits t.chip.host.fault 34 24 == 1024) = true ∧
    after (exec (.trapRecordWrite 0) ((s true).mapJob 0 fun j => j.setReg 0x108 0)) (fun t => (t.job 0).waiting.length == 1) = true := by decide +kernel

/-- An error log of 16 record blocks and 4 checkpoint blocks, n records since the last checkpoint. -/
def logging (n : Nat) : State := State.reset.onCer fun c => { c with recBlocks := 16, ckpBlocks := 4, sinceCkp := n, ack := 1, ckpNext := 1, next := 1 }
theorem witness_errors : let s := logging 0
    populated s 0x300000 = true ∧ s.chip.cer.hasRoom 1 = true ∧ s.chip.cer.hasBlock = true ∧
    after (exec (.eccDoubleBit (.hbm 0x300000)) s) (fun t => t.chip.poison == [sectorOf 0x300000]) = true ∧
    after (exec (.eccDoubleBit (.tile 5 2 3)) s) (fun t => (((t.ctx 5).tile 2).row 3).poison) = true ∧
    after (exec (.expanderLinkDrop 3) (s.onSup fun x => { x with expanders := [(3, 0, 0)] })) (fun t => t.chip.sup.dropped == [3]) = true ∧
    after (exec (.expanderLinkDrop 3) s) (fun t => t.chip.sup.dropped.isEmpty) = true := by decide +kernel
/-- BitErrors: the other units, and a sector of scratch that a table entry maps at an offset of its own. -/
theorem witness_error_sites : let s := logging 0; let two := fun (e : EccSite) => exec (.eccDoubleBit e) s
    let mapped := s.mapCore 5 fun k => { k with map := [(2, MapEntry.image ⟨0x40030, 0x90, 0x110, 0⟩)] }
    (∀ e ∈ [EccSite.l1 5 0x300040, .icache 5 0x300040, .l2 3 0x300040, .l3 0x300040, .tcache 5 0x300040, .saveArea 9 0x300040],
      after (two e) (fun t => t.chip.poison == [sectorOf 0x300040]) = true) ∧
    after (two (.replica 2 0x1040)) (fun t => t.chip.repPoison == [2 * 0x4000 + 0x41]) = true ∧
    after (two (.acc 5 1 7)) (fun t => (Tab.get {} ((t.ctx 5).acc 1).lanes 7).poison) = true ∧
    after (two (.queue 5)) (fun t => t.chip.cer.next == 2 && t.chip.poison.isEmpty) = true ∧
    after (two (.scratch 5 0x123)) (fun t => scrPoisoned t 5 0x120 1 && !scrPoisoned t 5 0x11F 1 && scrPoisoned t 5 0x14F 1 && !scrPoisoned t 5 0x150 1) = true ∧
    (mapped.core 5).entries.length = 1 ∧ (mapped.core 5).scrSector 0x123 ≠ (s.core 5).scrSector 0x123 ∧
    after (exec (.eccSingleBit (.scratch 5 0x123)) s) (fun t => t.chip.cer.next == 2 && t.chip.scrPoison.isEmpty) = true := by decide +kernel
theorem witness_parity : let s := fun (l : List LogWrite) => (logging 0).mapCtx 5 fun c => { c with status := .running, s := Tab.set [] 7 9, oplog := l }
    after (exec (.registerParityFail 5 0 7) (s [])) (fun t => (t.ctx 5).status == .free && ((t.job 0).waiting.any fun w => w.record.code == 0x13)) = true ∧
    after (exec (.registerParityFail 5 0 7) (s [⟨0, 7⟩])) (fun t => (t.ctx 5).status == .running) = true ∧
    ((s []).ctx 5).regValue 0 7 ≠ (startOf (s []) 5).regValue 0 7 ∧ (s []).chip.phasers = [] ∧ (s []).chip.launches = [] ∧
    ((logging 0).chip.cer.gaps = [] ∧ (logging 0).chip.cer.sinceCkp < 4095 ∧ 0 < (logging 0).chip.cer.recBlocks) := by decide +kernel

/-! ## The tier engine -/

/-- PMIG's descriptor at 0x40040 for the page at va 0x60000, mapped at physical 0x320000, to a second-tier page. -/
def migrating (dst : Nat) : State :=
  let s := ((withWord 0x40 0x60000 0).pokeNum 0x300048 8 dst).pokeNum 0x300050 16 0
  (mapPage s 0x60000 0x32 0x30).onSup fun x => { x with tier2 := 0x400000 }
theorem witness_pmig : let s := migrating tier2Base
    (match readVa s 0 0x40040 32 with | .ok bs => leNat (bs.take 8) == 0x60000 | _ => false) = true ∧ pagePopulated s tier2Base 0x10000 = true ∧
    (match lookup s 0 0x60000 with | .hit e pa _ => !e.getLsbD 57 && pa == 0x320000 | _ => false) = true ∧ inTier2 tier2Base = true ∧
    seen (exec (.pmig 4 5) s) 1 (.s 4) = some 0 ∧ seen (exec (.pmig 4 5) (migrating 0x330000)) 1 (.s 4) = some 1 ∧
    seen (exec (.pmig 4 5) (with56 0x50000 0)) 1 (.s 4) = some 1 := by decide +kernel
/-- The migration of that page in progress, its destination in the other tier and far from its way. -/
def theMove : Migration := { job := 0, asid := 0, va := 0x60000, src := 0x320000, dst := tier2Base, big := false, way := setAt (with56 0 0) 0 0x60000 0, kve := 0, pool := none }
theorem witness_migration : let s := (migrating tier2Base).onChip fun c => { c with migs := [theMove] }
    firstPoison s 0x320000 0x10000 = none ∧ pagePopulated s tier2Base 0x10000 = true ∧ droppedAt s tier2Base = false ∧ theMove.way + 16 ≤ theMove.dst ∧
    firstPoison (s.onChip fun c => { c with poison := [sectorOf 0x320040] }) 0x320000 0x10000 ≠ none ∧
    pagePopulated (s.onSup fun x => { x with tier2 := 0 }) tier2Base 0x10000 = false ∧ codeOf (readVa s 0 0x40048 8) = none := by decide +kernel
/-- Job 1's demotion pool of 4 KiB at 0x350000 with one entry, and a demotion of the one page of a KV table at 0x40000. -/
def demoting (tail entry : Nat) : State :=
  let s := ((migrating tier2Base).pokeNum 0x300040 8 0x60001).pokeNum 0x350008 8 tail
  ((s.pokeNum 0x350040 8 entry).onChip fun c => { c with dems := [{ job := 1, asid := 0, kvpt := 0x40000, next := 0, total := 1 }] }).mapJob 1 fun j => j.setReg 0x10D 0x35000C
theorem witness_demotion : let e := fun (t x : Nat) => exec (.demotionPage 1) (demoting t x)
    (match readVaNum (demoting 1 tier2Base) 0 0x40040 8 with | .ok v => v == 0x60001 && kvPageVa v == 0x60000 | _ => false) = true ∧
    (match lookup (demoting 1 tier2Base) 0 0x60000 with | .hit w x y => x == 0x320000 && (demoting 1 tier2Base).peek y 8 / 2 ^ 62 % 2 == 0 && !w.getLsbD 57 | _ => false) = true ∧
    after (e 1 tier2Base) (fun t => t.chip.migs.length == 1 && t.chip.dems.isEmpty) = true ∧
    after (e 0 tier2Base) (fun t => t.chip.migs.isEmpty && t.chip.dems.isEmpty) = true ∧
    after (e 1 (tier2Base + 1)) (fun t => t.peek 0x350000 8 == 1 && t.peek 0x350040 8 == tier2Base + 2) = true ∧
    after (exec (.demotionPage 1) ((demoting 1 tier2Base).mapJob 1 fun j => j.setReg 0x10D 0)) (fun t => t.chip.dems.isEmpty) = true ∧
    after (exec (.demotionPage 1) ((demoting 1 tier2Base).pokeNum 0x300040 8 0x60000)) (fun t => t.chip.dems.isEmpty && t.peek 0x350000 8 == 0) = true ∧
    after (exec (.demotionPage 1) ((demoting 1 tier2Base).onChip fun c => { c with dems := [{ job := 1, asid := 0, kvpt := 0x90000, next := 0, total := 2 }] }))
      (fun t => (t.chip.dems.map Demotion.next) == [1]) = true := by decide +kernel
/-- TierSteps: an entry taken for a page that is in the second tier already, or that migrates, is marked failed. -/
theorem witness_demotion_stays : let s := demoting 1 tier2Base
    let failed := fun (z : State) => after (exec (.demotionPage 1) z) fun t => t.chip.dems.isEmpty && t.chip.migs.isEmpty && t.peek 0x350000 8 == 1 && t.peek 0x350040 8 == tier2Base + 2
    failed (mapPage s 0x60000 0x32 0x32) = true ∧ failed (mapPage s 0x60000 (tier2Base / 65536) 0x30) = true ∧
    (match lookup (mapPage s 0x60000 0x32 0x32) 0 0x60000 with | .hit e _ _ => e.getLsbD 57 | _ => false) = true := by decide +kernel
/-- TierSteps: TIER written in the KV entry that a migration names. -/
theorem witness_kv_tier : let s := (mapPage (migrating tier2Base) 0x40000 0x30 0xB0).pokeNum 0x300040 8 0x60001; let m := { theMove with kve := 0x40040 }
    (match readVaNum s 0 m.kve 8 with | .ok v => v == 0x60001 | _ => false) = true ∧ (writeKvTier s m).peek 0x300040 8 = 0x60003 ∧
    ((s.job 0).waiting.filter fun w => w.own.isNone).length < 256 := by decide +kernel

/-! ## Checkpoints, the host's window, repair -/

theorem witness_checkpoint : let s := logging 4095
    4095 ≤ s.chip.cer.sinceCkp ∧ s.chip.cer.gaps = [] ∧ s.chip.cer.hasRoom 2 = true ∧ s.chip.cer.hasBlock = true ∧ s.chip.cer.spent < 0x100000 ∧
    ((logging 0).onCer fun c => { c with next := 1025 }).chip.cer.hasRoom 1 = false ∧ ¬ 4095 ≤ (logging 0).chip.cer.sinceCkp := by decide +kernel
theorem witness_window : let r : TrapRec := State.reset.recordOf 1024 4 0 0 0
    let s := (State.reset.onHost fun h => { h with fvalid := true }).mapCtx 1024 fun c => { c with status := .stopped, held := some { record := r, seq := some 3, frame := some { ctx := 1024, core := 256 } } }
    after (exec (.resgo 3 2) s) (fun t => (t.ctx 1024).status == .running && !t.chip.host.fvalid) = true ∧
    after (exec (.resgo 4 2) s) (fun t => (t.ctx 1024).status == .stopped) = true := by decide +kernel
theorem witness_error_window : let s := (logging 0).onCer fun c => { c with next := 9, ckpSeqs := [(1, 5)], ckps := [(1, List.replicate 16 1)], ckpix := 5 }
    after (exec .ckpdataRead s) (fun t => t.chip.cer.ckpWord == 0x0101010101010101 && t.chip.cer.ckpPos == 1) = true ∧
    after (exec .ckpdataRead (s.onCer fun c => { c with ckpix := 6 })) (fun t => t.chip.cer.ckpWord == 0) = true ∧
    after (exec (.cerack 20) s) (fun t => t.chip.cer.ack == 9) = true ∧ (4 : Word).toNat < (s.onCer fun c => { c with cerack := 5 }).chip.cer.cerack.toNat := by
  decide +kernel
theorem witness_repair : let s := (logging 0).mapLevel 3 fun y => { y with power := .asleep }
    after (exec (.stripRepair 3 false 2) (s.mapCore 105 fun k => { k with resetting := true })) (fun t => (t.level 3).spareCore && !(t.core 105).resetting) = true ∧
    after (exec (.stripRepair 3 true 4) s) (fun t => !(t.level 3).spareSlice) = true ∧ after (exec (.stripRepair 3 true 3) s) (fun t => (t.level 3).spareSlice) = true ∧
    after (exec (.stripRepair 3 false 2) (s.mapLevel 3 fun y => { y with spareCore := true })) (fun t => (t.core 105).mappedOut) = true ∧
    after (exec (.stripRepair 3 true 2) (s.mapLevel 3 fun y => { y with spareSlice := true })) (fun t => (t.level 3).slicesOut == [2]) = true := by
  decide +kernel
/-- CheckpointsAndHostWindow: what the host reads of the state, and of a record of the log. -/
theorem witness_bar : let s := (logging 0).onCer fun c => { c with next := 9, cerix := 8, records := [(8, 0x77 * 2 ^ 128)] }
    (s.chip.cer.recordAt 8).isSome = true ∧ barRead s 0x5008 = 1 ∧ barRead s 0x5050 = 0x77 ∧ barRead s 0x4018 = 9 ∧
    (barRead (s.onHost fun h => { h with state := 5, pkgid := 3, failcode := 2 }) 0) = 0x20000C005 := by decide +kernel

/-! ## The mailbox -/

/-- A module that serves, with one command, its supervisor running and job 1 started. -/
def serving (c : BitVec 512) : State :=
  ((((logging 0).onHost fun h => { h with state := 5, cmd := [(0, c)], cmdwr := 1 }).mapCtx 1024 fun x => { x with status := .running }).mapJob 1 fun j =>
    { j with started := true, stepNo := 6, window := [(1, 4)] }).mapJob 0 fun j => { j with started := true }
/-- A command of a code for a job with payload p, tag 0x77. -/
def command (code job p : Nat) : BitVec 512 := BitVec.ofNat 512 (code + 0x77 * 2 ^ 16 + job * 2 ^ 32 + p * 2 ^ 64)
/-- The response in slot 0. -/
def response (o : Out) : Option (BitVec 512) := match o with | .next t => Tab.find t.chip.host.rsp 0 | _ => none
theorem witness_mailbox : (serving 0).chip.host.state = 5 ∧ endedJob (serving (command 4 1 0)) = none ∧
    (response (exec .query (serving (command 4 1 0)))).map BitVec.toNat = some (4 + 0x77 * 2 ^ 16 + 2 ^ 32 + 2 ^ 64 * (6 + 4 * 2 ^ 64)) ∧
    (response (exec .query (serving (command 4 9 0)))).map (fun w => bits w 15 8) = some 1 ∧
    (response (exec .setreg (serving (command 3 1 (0x10A + 0x50000 * 2 ^ 64))))).map (fun w => bits w 15 8) = some 0 ∧
    (response (exec .setreg (serving (command 3 64 0)))).map (fun w => bits w 15 8) = some 1 ∧
    (response (exec .endJob (serving (command 2 9 0)))).map (fun w => bits w 15 8) = some 1 ∧
    after (exec .endJob (serving (command 2 1 0))) (fun t => (t.job 1).ending && t.chip.host.endTag.isSome) = true ∧
    (response (exec .create (serving (command 1 0 0)))).map (fun w => bits w 15 8) = some 1 ∧ createJob (serving (command 1 0 0)) (command 1 0 0) = none ∧
    after (exec .ckpt (serving (command 5 1 0))) (fun t => t.chip.cer.wanted) = true ∧
    after (exec .attest ((serving (command 6 1 0)).onHost fun h => { h with attests := 0x100000 })) (fun t => t.chip.host.attests == 0x100000) = true ∧
    after (exec .attest (serving (command 6 1 0))) (fun t => t.chip.host.attests == 1) = true := by decide +kernel
theorem witness_end : let s := (serving (command 2 1 0)).mapJob 1 fun j => { j with started := true, ending := true }
    endedJob s = some 1 ∧ after (exec .endJob s) (fun t => (Tab.find t.chip.jobs 1).isNone) = true := by decide +kernel
theorem witness_rings_of_host : let s := (serving 0).onHost fun h => { h with cmdwr := 0 }
    s.chip.host.cmdwr = s.chip.host.cmdrd ∧
    (response (exec (.cmdwr [command 9 1 0]) s)).map (fun w => bits w 15 8) = some 2 ∧
    after (exec (.cmdwr [command 4 1 0]) s) (fun t => t.chip.host.cmdwr == 1 && t.chip.host.rspwr == 0) = true ∧
    after (exec (.rsprd 1) ((serving 0).onHost fun h => { h with state := 4, rspwr := 2 })) (fun t => t.chip.host.rsprd == 1) = true ∧
    after (exec (.rsprd 3) ((serving 0).onHost fun h => { h with state := 4, rspwr := 2 })) (fun t => t.chip.host.rsprd == 0) = true := by decide +kernel

/-! ## Boot -/

theorem witness_reset : let at_ := fun (st : BitVec 3) (n : Nat) => State.reset.onHost fun h => { h with state := st, cells := n }
    after (exec (.moduleReset none) (at_ 1 5)) (fun t => t.chip.host.state == 2 && t.chip.host.cells == 6) = true ∧
    after (exec (.moduleReset (some 8)) (at_ 1 5)) (fun t => t.chip.host.state == 6 && t.chip.host.failcode == 8) = true ∧
    after (exec (.moduleReset none) (at_ 1 32768)) (fun t => t.chip.host.failcode == 9) = true ∧
    after (exec (.moduleReset none) (at_ 2 5)) (fun t => t.chip.host.cells == 5) = true ∧
    after (exec (.bootdb 0x100 1) (at_ 2 5)) (fun t => t.chip.host.state == 3) = true ∧
    after (exec (.bootdb 0x100 2) (at_ 2 5)) (fun t => t.chip.host.state == 2 && t.chip.host.bootdesc == 0x100) = true ∧
    after (exec (.bootVerify none none) (at_ 3 5)) (fun t => t.chip.host.failcode == 1) = true ∧
    after (exec (.bootVerify (some []) (some [])) (at_ 3 5)) (fun t => t.chip.host.failcode == 1) = true ∧
    after (exec (.rstctl 0xA501) (at_ 5 5)) (fun t => t.chip.host.state == 1 && t.chip.host.cells == 5) = true := by decide +kernel
/-- An image with a body of zeros (R226). -/
def image (magic n : Nat) : List Byte := (leBytes 8 (magic + 2 ^ 32) ++ leBytes 8 0 ++ leBytes 8 n) ++ List.replicate (0x7E8 + n) 0
theorem image_length (magic n : Nat) : (image magic n).length = 0x800 + n := by simp [image, leBytes]; omega
/-- BootSteps: headers that are correct, the firmware's and the configuration's; both ways for its signatures follow, whichever they verify. -/
theorem witness_headers : headerOk (image 0x4638474E 0x10000) 0x4638474E 0x10000 0x4000000 = true ∧
    headerOk (image 0x4338474E 0x800) 0x4338474E 0x800 0x100000 = true ∧ headerOk (image 0x4338474E 0x7FF) 0x4338474E 0x800 0x100000 = false := by
  refine ⟨?_, ?_, by decide +kernel⟩ <;> unfold headerOk <;> simp only [image_length] <;> decide +kernel
/-- The head of a configuration body: package 5, two-microsecond ticks, an error log of 16 and 4 blocks at 0, no peers and no map-outs, the slot
table at 0xA0, one profile at 0xC0 with no code of its own, 128 shaft lines and 4 MiB of HBM, the routing tables at 0x148 (R227, R233). -/
def bodyHead : List Byte :=
  leBytes 8 5 ++ leBytes 8 0 ++ leBytes 4 0x040002 ++ leBytes 8 (2 ^ 64 - 1) ++ leBytes 4 0 ++ leBytes 8 0 ++ leBytes 4 16 ++ leBytes 4 4 ++ leBytes 8 0x80 ++
  leBytes 4 0x88 ++ leBytes 4 0x148 ++ leBytes 4 0xA0 ++ leBytes 4 0xC0 ++ leBytes 56 0 ++ leBytes 32 0 ++ leBytes 32 0 ++
  leBytes 8 1 ++ leBytes 128 (0x40000 + 2 ^ (8 * 0x1C) * 128 + 2 ^ (8 * 0x30) * 8 + 2 ^ (8 * 0x3A) + 2 ^ (8 * 0x40) * 13 + 2 ^ (8 * 0x48) * 0x400000)
/-- That configuration body, its routing tables of zeros. -/
def body : List Byte := bodyHead ++ List.replicate 24576 0
theorem bodyHead_length : bodyHead.length = 0x148 := by decide +kernel
theorem imgNum_zeros (h : List Byte) (n o k : Nat) (le : h.length ≤ o) : imgNum (h ++ List.replicate n 0) o k = 0 := by
  have z : ∀ m, leNat (List.replicate m (0 : Byte)) = 0 := by
    intro m
    induction m with
    | zero => rfl
    | succ m ih => rw [List.replicate_succ]; simp only [leNat, ih]; rfl
  unfold imgNum
  rw [List.drop_append, List.drop_eq_nil_of_le le, List.nil_append, List.drop_replicate, List.take_replicate]
  exact z _
/-- BootSteps: a configuration that is accepted. -/
theorem witness_config : configOk body 0 = true := by
  have rt : imgNum body 0x3C 4 = 0x148 := by decide +kernel
  have len : body.length = 0x148 + 24576 := by simp only [body, List.length_append, List.length_replicate, bodyHead_length]
  have tables : (List.range 6144).all (fun i => routeOk (imgNum body (0x148 + 4 * i) 4)) = true := by
    simp only [List.all_eq_true]
    intro i _
    rw [show imgNum body (0x148 + 4 * i) 4 = 0 from imgNum_zeros _ _ _ _ (by rw [bodyHead_length]; omega)]
    decide
  have fixed : fixedOk body = true := by unfold fixedOk within; simp only [len]; decide +kernel
  unfold configOk structuresOk within
  simp only [rt, tables, fixed, len]
  decide +kernel
/-- INIT with that configuration: the supervisor starts. -/
theorem witness_init : let s := State.reset.onHost fun h => { h with state := 4, cells := 1, cfg := List.replicate 0x800 0 ++ body }
    ((startSupervisor (applyLinks (bootRecord (applyFixed s (cfgBody s) 0)) (cfgBody s) 0 0 [])).map fun t => (t.ctx 1024).status) = some .running := by
  decide +kernel
/-- CREATE's job on core 3 with that profile, its code page mapped and accepted. -/
theorem witness_create : let c := BitVec.ofNat 512 (1 + 2 ^ (64 + 3) + 2 ^ (8 * 0x2A) + 2 ^ (8 * 0x30))
    let s := (((serving c).mapJob 1 fun _ => {}).onHost fun h => { h with cfg := List.replicate 0x800 0 ++ body }).onChip fun k =>
      { k with jobs := [], code := [⟨0x300000, false, .foreman, true⟩] }
    let s := mapPage (mapPage s 0x40000 0x30 0x50) 0x40000 0x30 0x50
    ((createJob s c).map Prod.fst) = some 1 := by decide +kernel

/-! ## Completion -/

/-- SyncCompletion: reductions, elementwise reductions, a landing result, PROBE and LOGMARK. -/
theorem witness_completion_reductions : let s := withWord 0 5 5
    modeOf s 0 = 0 ∧ ok (translate s 0 0x40000 .atomic) = true ∧ firstPoison s 0x300000 8 = none ∧ after (exec (.red .add true 5 6) s) (fun t => t.me.reds.length == 1) = true ∧
    after (exec (.redPerform 0) (s.mapMe fun c => { c with reds := [someRed 0] })) (fun t => t.me.reds.isEmpty) = true ∧ ok (oredPlan withOred 0x40100) = true ∧
    after (exec (.ored 5) withOred) (fun t => (t.core 0).commands.isEmpty && t.me.reds.isEmpty && !putsOut t.chip.net 0 &&
      (t.me.oreds.all fun r => r.mode == 0 && ok (releaseFor t r.job 0 2 r.va.toNat)) && after (exec (.oredCompletion 0) t) (fun u => u.me.oreds.isEmpty)) = true ∧
    after (exec (.scoreboardResultLand 0 0) (s.mapMe fun c => { c with coming := [⟨.regs [.s 4 9], 0, 0⟩] })) (fun t => t.me.coming.isEmpty) = true ∧
    (match probeStatus s (s.at 5 0) .w with | .ok n => n == 0 | _ => false) = true ∧ isNext (exec (.logmark 5) s) = true := by decide +kernel
/-- SyncCompletion: phasers in the job's range, joined at the lowest free index or at one of 1,024 that is asked for. -/
theorem witness_completion_phasers : let s := inJob 2 7; let r := (s.job 0).reg 0x117; let m := member true 1 1 0
    (bits r 11 0 ≤ 2 ∧ 2 < bits r 11 0 + bits r 24 12 ∧ (s.rS 5).toNat = 2) ∧ modeOf s 0 = 0 ∧ (s.phaser 2).members = [] ∧ (s.rS 6).toNat % 65536 < 1024 ∧
    after (exec (.phreg true true 4 5 6) s) (fun t => ((t.phaser 2).member 0).isSome) = true ∧ after (exec (.phdrop 5) m) (fun t => ((t.phaser 2).member 0).isNone) = true ∧
    ((m.phaser 2).member 0).isSome = true ∧ ok (releaseOn (member true 0 0 0) 0 0 2) = true ∧
    after (exec (.phsig .pkg 5) (member true 0 0 0)) (fun t => ((t.phaser 2).member 0).any fun q => q.sp == 1) = true ∧
    after (exec (.phwait .pkg 5) m) (fun t => ((t.phaser 2).member 0).any fun q => q.wp == 1) = true ∧
    after (exec (.phsw .pkg 5) (m.mapMe fun c => { c with signalled := true })) (fun t => !t.me.signalled) = true := by decide +kernel
/-- SyncCompletion: tokens, barriers, fences, regions and flags. -/
theorem witness_completion_sync : let s := inJob 2 0; let h := s.onChip fun c => { c with tokens := Tab.set [] 2 { state := .held 0 } }
    let b : Barrier := { set := true, mask := 1, cnt := 1, gen := 4 }; let z := (inBundle 0 fun c => { c with arrived := some 3 }).onChip fun c => { c with barriers := Tab.set [] 1 b }
    let r := withRegion 48
    (s.token 2).state ≠ .held 5 ∧ (s.token 2).waiters = [] ∧ after (exec (.tkacq .pkg false 3 5 6) s) (fun t => (t.token 2).state == .held 0) = true ∧
    ok (releaseOn h 0 1 2) = true ∧ after (exec (.tkrel .pkg 5) h) (fun t => (t.token 2).state == .free) = true ∧
    ((z.barrier 1).set && (z.barrier 1).job == z.me.cr.job.toNat && (z.barrier 1).mask.getLsbD z.cur.core && decide (z.cur.core < 256)) = true ∧
    after (exec (.bar 1) z) (fun t => t.me.arrived.isNone) = true ∧
    after (exec (.barrierRelease 1) (z.mapBarrier 1 fun b => { b with releaseAt := some 0 })) (fun t => (t.barrier 1).gen == 5) = true ∧
    after (exec (.fence .pkg) s) (fun t => 1 ≤ t.me.fencing) = true ∧ ok (writeBackCore 0 0x60000 48 r 0) = true ∧
    after (exec (.rbind 4 5 6) r) (fun t => (Tab.find (t.job 0).regions 0).isSome && ok (foldE (writeBackCore 0 0x60000 48) t (t.chip.cores.map Prod.fst)) &&
      ok (writeVa t 0 0x50010 [0]) && after (exec (.runbind 4 6) t) (fun u => (Tab.find (u.job 0).regions 0).isNone)) = true ∧
    after (exec (.flwait .pkg 5 6) (withWord 0 5 5)) (fun t => t.peek 0x300000 8 == 5) = true := by decide +kernel
/-- SystemCompletion: every job of the launches' state is in FREE mode. -/
theorem launched_free (l : Launch) : ∀ i, ((launched l).job i).fmode = 0 := by
  intro i
  have jobs : (launched l).chip.jobs = [(1, (launched l).job 1)] := rfl
  by_cases h : i = 1
  · subst h; have : (launched l).job 1 = (launched (waiting 2)).job 1 := rfl
    rw [this]; decide +kernel
  · have : (launched l).job i = {} := by unfold State.job; rw [jobs]; simp [Tab.get, Tab.find, Ne.symm h]
    rw [this]; rfl
theorem witness_completion_launches : let s := foreman 2 0; let l := { waiting 2 with active := true, order := 1, walk := some ([0], [2]) }
    (s.chip.launches.filter fun y => y.2.job == 1).length < 16 ∧ ok (readRecords s 1 false 0x40000 0 1) = true ∧ ok (readRecords s 1 true 0x40000 0 1) = true ∧
    after (exec (.launch 4 5) s) (fun t => t.chip.nextLid != s.chip.nextLid) = true ∧
    after (exec (.glaunch 4 5 6) (s.mapMe fun c => { c with s := Tab.set c.s 6 1 })) (fun t => t.chip.nextLid != s.chip.nextLid) = true ∧
    (candidate (launched (waiting 2)) 1).isSome = true ∧ after (exec .dispatch (launched (waiting 2))) (fun t => t.hasTaken 2) = true ∧
    walkerOrder (launched l) = [1] ∧ decide (bringWalk (launched l) 1 = launched l) = true ∧ recNdim l.image = 1 ∧ pickCtx (launched l) l = some 0 ∧
    after (exec .iterationAssign (launched l)) (fun t => t.hasTaken 3 && (t.ctx 0).status == .running) = true := by decide +kernel
/-- SystemCompletion: levels of a machine with no context in use, and none a member of a phaser. -/
theorem witness_completion_levels : (∀ h, (State.reset.ctx h).status = .free) ∧ (∀ h, memberships State.reset h = []) ∧ State.reset.cyc % 64 = 0 ∧
    State.reset.chip.shaft.queue = [] ∧ State.reset.chip.launches = [] ∧
    (let at_ := fun (p : Power) => (State.reset.mapLevel 3 fun y => { y with power := p }).onRun fun r => { r with cyc := 64 }
     (State.reset.level 3).power = .awake ∧ (State.reset.level 3).mappedOut = false ∧
     after (exec (.levelSleepRequest 3) State.reset) (fun t => (t.level 3).power == .draining) = true ∧
     after (exec (.wakeReplicaCopy 3) (at_ .waking)) (fun t => (t.level 3).power == .refilling) = true ∧
     after (exec (.wakeComplete 3) (at_ .refilling)) (fun t => (t.level 3).power == .awake) = true) :=
  ⟨fun _ => rfl, fun _ => rfl, by decide +kernel, by decide +kernel, by decide +kernel, by decide +kernel⟩
/-- SystemCompletion: routing, barriers, containment and the log registers of a free context. -/
theorem witness_completion_supervisor : (∀ h, ((State.reset.mapCore 9 fun k => { k with resetting := true }).ctx h).status = .free) ∧
    (let w := State.reset.onNet fun n => { n with swap := some 1 }; let q := (supervisor 0x801).barrier 1
     (w.chip.net.pos = [] ∧ w.chip.net.winze = []) ∧ after (exec .routeSwapComplete w) (fun t => t.chip.net.swap.isNone) = true ∧
     (supervisor 3).chip.net.swap = none ∧ (supervisor 3).chip.net.shadow = [] ∧ q.arrivals = [] ∧ q.releaseAt = none ∧ (0x801 : Word).getLsbD 11 = true ∧
     ((supervisor 9).core 9).resetting = false ∧ after (exec (.coreLogicUncorrectable 9) (supervisor 9)) (fun t => (t.core 9).resetting) = true) :=
  ⟨fun _ => rfl, by decide +kernel⟩

/-! ## The order log and the region checker -/

/-- What a readiness is: 0 goes, 1 waits, else the code of its failure. -/
def readyCode : Ready → Nat
  | .go => 0
  | .wait _ => 1
  | .bad b => b.code.toNat
/-- What a step of an agent's decision is: 0 goes, 1 is held, 2 diverges. -/
def agentCode : AgentLog → Nat
  | .go _ => 0
  | .hold _ => 1
  | .diverge _ => 2
/-- Kernel context 0 under a mode with its ring of 126 records at 0x70000, RD and WR as given and the first record placed. -/
def ringed (mode rd wr : Nat) (r : BitVec 256) : State :=
  let s := mapPage (inBundle 0 fun c => { c with cr := { c.cr with mode := BitVec.ofNat 3 mode, logbase := 0x70000, logsize := 12, logwr := BitVec.ofNat 64 wr } }) 0x70000 0x33 0x30
  (s.pokeNum 0x330000 8 rd).pokeNum 0x330008 8 wr |>.pokeNum 0x330010 8 1 |>.pokeNum 0x330040 32 r.toNat
/-- A MARK of context 0, and its record with a count. -/
def mark : Logged := { type := 12, flags := 0, obj := 0, val := 7, ctx := 0, key := countKey 9 0 }
/-- OrderLog: a ring with room for one record, one that is full, one that cannot be read; the record written, VER with it. -/
theorem witness_log_record : let s := ringed 2 0 0 0
    (logReady s 0 mark).ready = .go ∧ ok (writeVa (setLogRd s 0 0) 0 0x70010 (leBytes 8 1)) = true ∧
    (match logDone s 0 mark with | .ok t => t.peek 0x330040 32 == (mark.image 0).toNat && t.peek 0x330008 8 == 1 && t.peek 0x330010 1 == 1 &&
      (t.ctx 0).cr.logwr == 1 && (t.job 0).count mark.key == 1 | .error _ => false) = true ∧
    (logReady (ringed 2 0 125 0) 0 mark).ready = .go ∧ (logReady (ringed 2 0 126 0) 0 mark).ready = .wait .logFull ∧
    readyCode (logReady (s.mapMe fun c => { c with cr := { c.cr with logbase := 0x90000 } }) 0 mark).ready = 0x10 ∧
    modeOf (ringed 0 0 0 0) 0 < 2 ∧ (mark.image 5).toNat % 2 ^ 192 = 12 + 5 * 2 ^ 32 + 7 * 2 ^ 128 := by decide +kernel
/-- OrderLog: in REPLAY a record due and equal, one whose turn has not come, one of another VAL or kind, none yet, the log's end, and a reserved one. -/
theorem witness_log_replay : let s := fun (r : BitVec 256) => ringed 3 0 1 r; let code := fun (z : State) => readyCode (logReady z 0 mark).ready
    code (s (mark.image 0)) = 0 ∧ (logReady (s (mark.image 1)) 0 mark).ready = .wait .replay ∧ code (s ({ mark with val := 8 }.image 0)) = 8 ∧
    code (s ({ mark with type := 3 }.image 0)) = 8 ∧ code (s ({ mark with type := 13 }.image 0)) = 8 ∧ code (ringed 3 1 1 0) = 1 ∧
    code ((ringed 3 1 1 0).pokeNum 0x330018 8 1) = 8 ∧ code ((s (mark.image 0)).pokeNum 0x330010 8 2) = 8 ∧
    (logReady ((s ({ mark with type := 6 }.image 0)).onChip fun c => { c with shaft := { c.shaft with queue := [transfer 0 0] } }) 0 mark).ready = .wait .replay ∧
    code (s ({ mark with type := 6 }.image 0)) = 8 ∧
    (match logDone (s (mark.image 0)) 0 mark with | .ok t => t.peek 0x330000 8 == 1 && (t.ctx 0).cr.logrd == 1 && (t.job 0).count mark.key == 1 | .error _ => false) = true := by
  decide +kernel
/-- OrderLog: a bundle of two logged slots with room for one record issues neither; with room for two it is not blocked. -/
theorem witness_log_bundle : let s := fun (wr : Nat) => (ringed 2 0 wr 0).onCur fun f => { f with rest := [⟨.s, 0, false, .logmark 5⟩, ⟨.x, 0, false, .logmark 6⟩] }
    ((s 125).cur.active.filter (s 125).cur.qualify).length = 2 ∧ slotCause (s 125) (.logmark 5) = none ∧ slotRecords (s 125) (.logmark 5) = 1 ∧
    blockOf (s 125) = some (.x, .logFull) ∧ blockOf (s 124) = none ∧ blockOf (s 126) = some (.s, .logFull) := by decide +kernel
/-- The foreman's decision that launch 1 is dispatched. -/
def dispatching : Logged := dispRecord (waiting 2) 0 0
/-- The foreman of job 1 under a mode with its ring's page mapped, RD, WR and the first record as given. -/
def agentRing (mode rd wr : Nat) (r : BitVec 256) : State :=
  (mapPage (stepLogged mode 0x70000) 0x70000 0x33 0x30).pokeNum 0x330000 8 rd |>.pokeNum 0x330008 8 wr |>.pokeNum 0x330010 8 1 |>.pokeNum 0x330040 32 r.toNat
/-- OrderLogAgents: a decision made and held in RECORD; in REPLAY made, awaited, held behind another party's record, and diverging. -/
theorem witness_agent_log : let code := fun (s : State) => agentCode (agentOp s 1 dispatching 1); let s := fun (r : BitVec 256) => agentRing 3 0 1 r
    code (agentRing 2 0 0 0) = 0 ∧ code ((agentRing 2 0 0 0).mapMe fun c => { c with cr := { c.cr with logwr := 126 } }) = 1 ∧
    code (s (dispatching.image 0)) = 0 ∧ code (s (dispatching.image 1)) = 1 ∧ code (agentRing 3 1 1 0) = 1 ∧ code (s ({ dispatching with ctx := 1026, type := 12 }.image 0)) = 1 ∧
    code (s ({ dispatching with type := 8 }.image 0)) = 2 ∧ code (s ({ dispatching with val := 1 }.image 0)) = 2 ∧ code (s 0) = 2 ∧
    code ((agentRing 3 1 1 0).pokeNum 0x330018 8 1) = 2 ∧ code ((s (dispatching.image 0)).mapJob 1 fun j => { j with diverged := true }) = 1 ∧
    (match agentOp (s 0) 1 dispatching 1 with | .diverge t => (t.job 1).diverged && (t.job 1).waiting.length == 1 | _ => false) = true ∧
    code (launched (waiting 2)) = 0 ∧ 0x7F0 ≤ dispatching.ctx ∧ dispatching.ctx ≤ 0x7F2 := by decide +kernel
/-- OrderLogAgents: a drop of context 0's membership in phaser 2 with room, without, awaited, due and differing. -/
theorem witness_forced_drop : let m : Member := ⟨0, 0, true, 0, 0, false⟩; let o := phaseRecord (ringed 3 0 1 0) 0 2 1 m
    let s := fun (mode rd wr : Nat) (r : BitVec 256) => (ringed mode rd wr r).mapPhaser 2 fun p => { p with members := [m] }
    let gone := fun (z : State) => ((forcedDrop z 0 2 m).phaser 2).members.isEmpty
    gone (s 0 0 0 0) = true ∧ gone (s 2 0 0 0) = true ∧ gone (s 2 0 126 0) = false ∧ gone (s 3 0 1 (o.image 0)) = true ∧ gone (s 3 0 1 (o.image 1)) = false ∧
    gone (s 3 1 1 0) = false ∧ gone (s 3 0 1 ({ o with val := 3 }.image 0)) = true ∧
    ((forcedDrop (s 3 0 1 ({ o with val := 3 }.image 0)) 0 2 m).job 0).waiting.length = 1 ∧ ((forcedDrop (s 3 0 1 (o.image 0)) 0 2 m).job 0).waiting = [] := by decide +kernel

/-- Context 0 of job 0 under STRICT with a bound region and the page of 0x40000 mapped with flags. -/
def checked (flags : Nat) (l : Tab Region) : State :=
  (mapPage (inBundle 0 fun c => { c with cr := { c.cr with mode := 1 } }) 0x40000 0x30 flags).mapJob 0 fun j => { j with regions := l }
/-- INFO of a refusal with code 0x04: none where the access is let go. -/
def refusal (s : State) (va : Word) (n : Nat) (w : Bool) : Option Nat :=
  match regionCheck s 0 va n w with
  | .ok _ => none
  | .error b => if b.code = 4 then some b.info.toNat else some 0x10000
/-- RegionChecker: token, flag and phaser regions at index 6, bytes of no region, and a page that may be written. -/
theorem witness_regions : let r : Region := { token48 with ctl := 0x11, obj := 4 }; let f : Region := { r with ctl := 0x21, obj := 0x41000, prod := 0, pv := 5 }
    let p : Region := { r with ctl := 0x01, obj := 2, nslice := 1, slen := 48 }; let at_ := fun (r : Region) => checked 0x30 [(6, r)]
    let token := (at_ r).onChip fun c => { c with tokens := [(4, { state := .held 0 })] }
    let phase := fun (sp wp : Lane) (w : Bool) => (at_ p).onChip fun c => { c with phasers := [(2, { k := 1, members := [⟨0, 0, true, sp, wp, w⟩] })] }
    refusal (at_ r) 0x40000 8 false = some 6 ∧ refusal token 0x40000 8 true = none ∧ refusal (at_ f) 0x40000 8 true = none ∧
    refusal (at_ { f with published := true }) 0x40000 8 true = some 6 ∧ refusal (at_ { f with published := true }) 0x40000 8 false = none ∧
    refusal (at_ { f with prod := 9 }) 0x40000 8 false = some 6 ∧ refusal (at_ { f with prod := 9, seen := [0] }) 0x40000 8 false = none ∧
    refusal (at_ { f with prod := 9, seen := [0] }) 0x41000 8 true = some 6 ∧ refusal (phase 0 0 false) 0x40000 48 true = none ∧
    refusal (phase 1 0 false) 0x40000 48 true = some 6 ∧ refusal (phase 1 1 true) 0x40000 48 false = none ∧ refusal (phase 1 1 true) 0x40000 48 true = some 6 ∧
    refusal (at_ r) 0x4002F 1 false = some 6 ∧ refusal (at_ r) 0x40030 8 false = some 0xFFFF ∧ refusal (checked 0x10 [(6, r)]) 0x40030 8 false = none ∧
    refusal (checked 0x10 []) 0x40030 8 true = some 0xFFFF ∧ refusal (checked 0x10 []) 0x50000 8 false = some 0xFFFF ∧ refusal (at_ r) 0x40028 16 false = some 6 ∧
    refusal (checked 0 []) 0x40000 8 false = some 0xFFFF ∧ refusal (token.mapMe fun c => { c with cr := { c.cr with mode := 0 } }) 0x40030 8 true = none ∧
    refusal token 0x40028 16 true = some 0xFFFF ∧
    codeOf (regionCheck ((checked 0x10 []).onChip fun c => { c with poison := [sectorOf (setAt (checked 0x10 []) 0 0x40000 0)] }) 0 0x40000 8 false) = some 0x11 := by
  decide +kernel
/-- RegionChecker: a private page whose sector another iteration has written, read, or not touched; publication and observation. -/
theorem witness_grants : let s := fun (g : Tab (Option Nat × List Nat)) => (checked 0x30 []).mapCtx 0 (fun c => { c with cr := { c.cr with launch := 1 } }) |>.onChip fun c =>
      { c with launches := [(1, { waiting 2 with priv := [(0x40000, 0)], grants := g })] }; let k := sectorOf 0x40000
    let z := checked 0x30 [(6, { token48 with ctl := 0x21, obj := 0x41000, prod := 0, pv := 5 })]
    refusal (s []) 0x40000 8 true = none ∧ refusal (s [(k, (some 3, []))]) 0x40000 8 false = some 0xFFFE ∧ refusal (s [(k, (none, [3]))]) 0x40000 8 true = some 0xFFFE ∧
    refusal (s [(k, (none, [3]))]) 0x40000 8 false = none ∧ ((observeFlag z 0 0x41000 5).job 0).regions.map (fun y => y.2.seen) = [[0]] ∧
    ((publishFlag z 0 0 0x41000 5).job 0).regions.map (fun y => y.2.published) = [true] ∧ ((publishFlag z 0 0 0x41000 4).job 0).regions.map (fun y => y.2.published) = [false] ∧
    (match regionCheck (s []) 0 0x40000 8 true with | .ok t => ((Tab.find t.chip.launches 1).map fun l => l.grants) == some [(k, (some 0, []))] | .error _ => false) = true := by
  decide +kernel

/-! ## Operations under the log, and clauses with several conditions -/

/-- BundleEndNopEndiHalt: ENDI of a member in RECORD with room for its drop, and without. -/
theorem witness_endi_record : let s := fun (wr : Nat) => (ringed 2 0 wr 0).mapPhaser 2 fun p => { p with members := [⟨0, 0, true, 0, 0, false⟩] }
    (memberships (s 0) 0).length = 1 ∧ after (exec .endi (s 125)) (fun t => t.cur.ended) = true ∧
    after (exec .endi (s 126)) (fun t => t.me.blocked == some .logFull && !t.cur.ended) = true := by decide +kernel
/-- ControlRegisters: a write of FPSTAT in the tick in which flags land. -/
theorem witness_fpstat_landing : let s := (with56 0x18 0).mapMe fun c => { c with pend := [⟨1, [], 0x21, 1, false⟩] }
    after (exec (.fpstatWrite 5) s) (fun t => (t.me.advance 1).regNat (.ctl 0x010) == 0x39) = true := by decide +kernel
/-- ScalarMemory: eight bytes over two pages. -/
theorem witness_two_pages : let s := mapPage (mapPage (with56 0 0) 0x40000 0x30 0x30) 0x50000 0x35 0x30; let s := (s.pokeNum 0x30FFFC 4 0x44332211).pokeNum 0x350000 4 0x88776655
    readVa s 0 0x4FFFC 8 = .ok [0x11, 0x22, 0x33, 0x44, 0x55, 0x66, 0x77, 0x88] ∧
    (match writeVa s 0 0x4FFFC (leBytes 8 1) with | .ok t => t.peek 0x30FFFC 4 == 1 && t.peek 0x350000 4 == 0 | .error _ => false) = true ∧
    ok (translate s 0 0x50000 .write) = true ∧ firstPoison s 0x30FFFC 4 = none ∧ firstPoison s 0x350000 4 = none := by decide +kernel
/-- MessagesAndShaft: a foreman's message to a context that runs, one with a full queue, one that is free and one whose core is in reset. -/
theorem witness_foreman_message : let s := ((foreman 2 0).mapMe fun c => { c with s := Tab.set [] 5 1 }).mapCtx 1 fun c => { c with status := .running }
    let full := s.mapCtx 1 fun c => { c with recv := List.replicate 16 ⟨0, 0⟩ }
    s.cur.ctx = 1026 ∧ (s.job 1).partition.getLsbD 0 = true ∧ after (exec (.msend false 6 5) s) (fun t => (t.ctx 1).recv.length == 1) = true ∧
    after (exec (.msend false 6 5) full) (fun t => (Tab.get [] t.chip.net.overflow 0).length == 1) = true ∧
    after (exec (.msend false 6 5) (s.mapCtx 1 fun c => { c with status := .free })) (fun t => t.chip.net.sunk == 1) = true ∧
    after (exec (.msend false 6 5) (s.mapCore 0 fun k => { k with resetting := true })) (fun t => t.chip.net.sunk == 1) = true := by decide +kernel
/-- MessagesAndShaft: SHPUT under the log. -/
theorem witness_shput_log : let s := fun (m wr : Nat) (r : BitVec 256) => ((ringed m 0 wr r).mapJob 0 fun j => (j.setReg 0x11C 3).setReg 0x116 (16 + 128 * 0x10000)).mapMe fun c => { c with s := Tab.set [] 5 63 }
    let p : Logged := .of (s 3 1 0) 0 recShaft 0 0 (64 * 79) (countKey 4 0); let put := fun (z : State) (n : Nat) => after (exec (.shput 16 5 6) z) (fun t => t.chip.shaft.queue.length == n) = true
    put (s 0 0 0) 1 ∧ put (s 2 125 0) 1 ∧ put (s 2 126 0) 0 ∧ put (s 3 1 (p.image 0)) 1 ∧ put (s 3 1 (p.image 4)) 1 ∧ put (s 3 0 0) 0 ∧
    after (exec (.shput 16 5 6) (s 3 1 ({ p with val := 1 }.image 0))) (fun t => t.me.status == .stopped) = true := by decide +kernel
/-- SupervisorCommits: a commit beside another job's allowance, at the limit of core issue and one above it. -/
theorem witness_two_commits : let s := fun (n m : Nat) => State.reset.onChip fun c => { c with jobs :=
      [(1, { alw := { cls := BitVec.ofNat 64 m }, regs := [(0x11C, 3)] }), (2, { commit := some { cls := BitVec.ofNat 64 n }, regs := [(0x11C, 2)] })] }
    let done := fun (n m : Nat) (b : Bool) => after (exec .budgetPeriodRefill (s n m)) (fun t => (t.job 2).commitRefused == !b && ((t.job 2).alw.cls == if b then BitVec.ofNat 64 n else 0)) = true
    done 8000 192 true ∧ done 8000 193 false ∧ ((s 1 1).job 1).partition = 3 := by decide +kernel
/-- DispatchAndAssign, SystemCompletion: a dispatch that the foreman's ring lets go, holds, or makes diverge. -/
theorem witness_dispatch_logged : let s := fun (z : State) => z.onChip fun c => { c with launches := [(1, waiting 2)] }
    after (exec .dispatch (s (agentRing 2 0 0 0))) (fun t => t.hasTaken 2 && t.peek 0x330008 8 == 1) = true ∧
    after (exec .dispatch (s (agentRing 3 1 1 0))) (fun t => !t.hasTaken 2) = true ∧ after (exec .dispatch (s (agentRing 3 0 1 0))) (fun t => (t.job 1).diverged) = true ∧
    (candidate (s (agentRing 2 0 0 0)) 1).isSome = true := by decide +kernel
/-- DispatchAndAssign: in REPLAY the logged context is assigned, waited for, or outside the launch's cores. -/
theorem witness_assign_logged : let l := { waiting 2 with active := true, order := 1, walk := some ([0], [2]) }
    let s := fun (g : Nat) => (agentRing 3 0 1 ((dispRecord l 1 (BitVec.ofNat 64 g)).image 0)).onChip fun c => { c with launches := [(1, l)] }
    after (exec .iterationAssign (s 2)) (fun t => (t.ctx 2).status == .running && t.hasTaken 3) = true ∧
    after (exec .iterationAssign ((s 2).mapCtx 2 fun c => { c with status := .saved })) (fun t => !t.hasTaken 3) = true ∧
    after (exec .iterationAssign (s 7)) (fun t => (t.job 1).diverged) = true := by decide +kernel
/-- ViaductSteps: during a swap the rest of a begun packet goes on and the next packet does not. -/
theorem witness_swap : let s := fun (f : Flit) => (routed 1 (note 40)).onNet fun n => { n with inject := [(2, [f])], pos := [], swap := some 1 }
    after (exec (.flitInject 0 2) (s { note 8 with ix := 1, len := 2 })) (fun t => t.chip.net.pos.length == 1) = true ∧
    after (exec (.flitInject 0 2) (s (note 8))) (fun t => t.chip.net.pos.isEmpty) = true := by decide +kernel
/-- ExchangeCommands: a ring's packet that waits behind another of its context in the overflow store. -/
theorem witness_ring_waits : let f := flit 1 (.put 0 (List.replicate 16 7) true (.ring 2) 1); let s := (ready f).mapCtx 1 fun c =>
      { c with status := .running, q := Tab.set [] 2 (BitVec.ofNat 128 (1 * 2 ^ 49 + 0x10 * 2 ^ 19)) }
    after (exec (.putDelivery 0) (s.onNet fun n => { n with overflow := [(0, [f])] })) (fun t => (Tab.get [] t.chip.net.overflow 0).length == 2) = true ∧
    after (exec (.putDelivery 0) s) (fun t => bits ((t.ctx 1).rQ 2) 127 108 == 1) = true := by decide +kernel

end Sys2Proof.Tests
end

section
/-! Checks 1 to 3 of R213 as the rules name the bits of a bundle, what decoding the slots says about which are present, and R242. -/

namespace Sys2Proof.Machine

/-! ## Bits of a bundle -/

/-- The two ways to name a run of bits: the model's extract, the statements' number. -/
theorem bits_eq_extractLsb' {w : Nat} (x : BitVec w) (hi lo : Nat) :
    bits x hi lo = (x.extractLsb' lo (hi + 1 - lo)).toNat := by
  rw [BitVec.extractLsb'_toNat, Nat.shiftRight_eq_div_pow, bits]

theorem bundle_version_iff (b : BitVec 256) : b.extractLsb' 13 3 = 1 ↔ bits b 15 13 = 1 := by
  rw [bits_eq_extractLsb', ← BitVec.toNat_inj]; rfl

theorem bundle_reserved_iff (b : BitVec 256) : b.extractLsb' 10 3 = 0 ↔ bits b 12 10 = 0 := by
  rw [bits_eq_extractLsb', ← BitVec.toNat_inj]; rfl

theorem slotBits_toNat (b : BitVec 256) (sl : Slot) :
    (slotBits b sl).toNat = bits b (63 + 48 * sl.index) (16 + 48 * sl.index) := by
  have width : 63 + 48 * sl.index + 1 - (16 + 48 * sl.index) = 48 := by omega
  rw [bits_eq_extractLsb', width, slotBits]

theorem slotBits_eq_zero_iff (b : BitVec 256) (sl : Slot) :
    slotBits b sl = 0 ↔ bits b (63 + 48 * sl.index) (16 + 48 * sl.index) = 0 := by
  rw [← slotBits_toNat, ← BitVec.toNat_inj]; rfl

theorem mem_allSlots (sl : Slot) : sl ∈ allSlots := by cases sl <;> decide

/-- Some absent slot of the bundle is not all zero, which R242 forbids. -/
def absentSlotHolds (b : BitVec 256) : Prop :=
  ∃ sl, slotPresent b sl = false ∧ bits b (63 + 48 * sl.index) (16 + 48 * sl.index) ≠ 0

/-- The decoder's check 3 of R213 is R242's rule for absent slots. -/
theorem absentNotZero_iff (b : BitVec 256) :
    allSlots.any (fun sl => !slotPresent b sl && slotBits b sl != 0) = true ↔ absentSlotHolds b := by
  simp only [absentSlotHolds, List.any_eq_true, mem_allSlots, true_and, Bool.and_eq_true, Bool.not_eq_true', bne_iff_ne,
    ne_eq, slotBits_eq_zero_iff]

/-! ## The slots -/

/-- A check of the scanner followed by the rest: where the whole answers, the check has found nothing and the rest answers. -/
theorem ok_of_check {α : Type} {c : Prop} [Decidable c] {e : Reject} {rest : Except Reject α} {x : α}
    (h : (if c then .error e else rest) = .ok x) : ¬ c ∧ rest = .ok x := by
  by_cases found : c
  · rw [if_pos found] at h; cases h
  · rw [if_neg found] at h; exact ⟨found, h⟩

theorem decodeSlot_slot {sl : Slot} {x : BitVec 48} {i : SlotInstr} (h : decodeSlot sl x = .ok i) : i.slot = sl := by
  unfold decodeSlot at h
  split at h
  · cases h
  · obtain ⟨-, h⟩ := ok_of_check h
    cases h; rfl

/-- What decoding a list of slots whose first is present can give. -/
theorem decodeSlots_cons_present {b : BitVec 256} {sl : Slot} {r : List Slot} {l : List SlotInstr}
    (p : slotPresent b sl = true) (h : decodeSlots b (sl :: r) = .ok l) :
    ∃ i t, decodeSlot sl (slotBits b sl) = .ok i ∧ decodeSlots b r = .ok t ∧ l = i :: t := by
  rw [decodeSlots, if_pos p] at h
  split at h
  · cases h
  · cases h
  · next i t hi ht => exact ⟨i, t, hi, ht, by cases h; rfl⟩

theorem decodeSlots_cons_absent {b : BitVec 256} {sl : Slot} (r : List Slot) (p : slotPresent b sl = false) :
    decodeSlots b (sl :: r) = decodeSlots b r := by
  rw [decodeSlots, if_neg (by simp [p])]

theorem decodeSlots_map_slot {b : BitVec 256} {sls : List Slot} {l : List SlotInstr} (h : decodeSlots b sls = .ok l) :
    l.map SlotInstr.slot = sls.filter (slotPresent b) := by
  induction sls generalizing l with
  | nil => cases h; rfl
  | cons sl r ih =>
    cases p : slotPresent b sl with
    | true =>
      obtain ⟨i, t, hi, ht, rfl⟩ := decodeSlots_cons_present p h
      rw [List.map_cons, decodeSlot_slot hi, ih ht, List.filter_cons_of_pos p]
    | false =>
      rw [decodeSlots_cons_absent r p] at h
      rw [ih h, List.filter_cons_of_neg (by simp [p])]

/-! ## The bundle -/

/-- What a bundle that decodes has passed of checks 1 to 3 of R213, and what it then is. -/
theorem decodeBundle_ok {k : Option PageKind} {b : BitVec 256} {x : Bundle} (h : decodeBundle k b = .ok x) :
    bits b 15 13 = 1 ∧ bits b 12 10 = 0 ∧
      ¬ absentSlotHolds b ∧ ∃ l, decodeSlots b allSlots = .ok l ∧ x = ⟨b.getLsbD 9, b.extractLsb' 0 4, l⟩ := by
  rw [← bundle_version_iff, ← bundle_reserved_iff, ← absentNotZero_iff]
  unfold decodeBundle at h
  obtain ⟨version, h⟩ := ok_of_check h
  obtain ⟨reserved, h⟩ := ok_of_check h
  obtain ⟨absent, h⟩ := ok_of_check h
  obtain ⟨-, h⟩ := ok_of_check h
  refine ⟨not_not.mp version, not_not.mp reserved, absent, ?_⟩
  split at h
  · cases h
  · next l slots =>
    obtain ⟨-, h⟩ := ok_of_check h
    obtain ⟨-, h⟩ := ok_of_check h
    cases h
    exact ⟨l, slots, rfl⟩

theorem decodeBundle_version (k : Option PageKind) {b : BitVec 256} (version : bits b 15 13 ≠ 1) :
    decodeBundle k b = .error .version := by
  rw [decodeBundle, if_pos (mt (bundle_version_iff b).mp version)]

theorem decodeBundle_headerReserved (k : Option PageKind) {b : BitVec 256} (version : bits b 15 13 = 1)
    (reserved : bits b 12 10 ≠ 0) : decodeBundle k b = .error .headerReserved := by
  rw [decodeBundle, if_neg (not_not.mpr ((bundle_version_iff b).mpr version)),
    if_pos (mt (bundle_reserved_iff b).mp reserved)]

theorem decodeBundle_absentNotZero (k : Option PageKind) {b : BitVec 256} (version : bits b 15 13 = 1)
    (reserved : bits b 12 10 = 0) (absent : absentSlotHolds b) :
    decodeBundle k b = .error .absentNotZero := by
  rw [decodeBundle, if_neg (not_not.mpr ((bundle_version_iff b).mpr version)),
    if_neg (not_not.mpr ((bundle_reserved_iff b).mpr reserved)), if_pos ((absentNotZero_iff b).mpr absent)]

/-- Settles O6: the three refusals are the decoder's first three checks, and a bundle that decodes has passed them; its slots by induction over
the list of slots. -/
theorem bundleHeader : Obligations.BundleHeader := by
  unfold Obligations.BundleHeader
  intro k b x slots there held
  refine ⟨fun h => ?_, decodeBundle_version k, decodeBundle_headerReserved k, decodeBundle_absentNotZero k⟩
  obtain ⟨version, reserved, absent, l, hl, rfl⟩ := decodeBundle_ok h
  have sc : (b.extractLsb' 0 4).toNat = bits b 3 0 := (bits_eq_extractLsb' b 3 0).symm
  have zero : ∀ sl, there sl = false → held sl = 0 := fun sl off => by_contra fun on => absent ⟨sl, off, on⟩
  exact ⟨version, reserved, rfl, sc, decodeSlots_map_slot hl, zero⟩

end Sys2Proof.Machine
end

section
/-! The integer instructions of the S slot (R290, with R112): what each word operation is as a number, what a result of it gives, and which
words the decoder refuses. -/

namespace Sys2Proof.Machine

/-! ## Word operations as numbers -/

theorem toNat_wrap_word (z : Int) : (wrap 64 z).toNat = mod64 z := BitVec.toNat_ofInt z

theorem mod64_toInt (x : Word) : mod64 x.toInt = x.toNat := by
  rw [← toNat_wrap_word, wrap, BitVec.ofInt_toInt]

theorem toNat_ofNat_word {n : Nat} (small : n < 2 ^ 64) : (BitVec.ofNat 64 n).toNat = n := by
  rw [BitVec.toNat_ofNat, Nat.mod_eq_of_lt small]

theorem toNat_sub_word (x y : Word) : (x - y).toNat = mod64 (x.toNat - y.toNat) := by
  rw [BitVec.toNat_sub, mod64]
  have fits := y.isLt
  omega

theorem toNat_andn_word (x y : Word) : (x &&& ~~~y).toNat = Nat.land x.toNat (2 ^ 64 - 1 - y.toNat) := by
  rw [BitVec.toNat_and, BitVec.toNat_not]; rfl

theorem toNat_shiftLeft_word (x : Word) (n : Nat) : (x <<< n).toNat = x.toNat * 2 ^ n % 2 ^ 64 := by
  rw [BitVec.toNat_shiftLeft, Nat.shiftLeft_eq]

theorem toNat_shiftRight_word (x : Word) (n : Nat) : (x >>> n).toNat = x.toNat / 2 ^ n := by
  rw [BitVec.toNat_ushiftRight, Nat.shiftRight_eq_div_pow]

theorem toNat_sshiftRight_word (x : Word) (n : Nat) : (x.sshiftRight n).toNat = mod64 (x.toInt / 2 ^ n) := by
  rw [← mod64_toInt, BitVec.toInt_sshiftRight, Int.shiftRight_eq_div_pow, Nat.cast_pow, Nat.cast_ofNat]

/-- A rotation is a sum: the bits shifted left and those that enter below do not overlap. -/
theorem toNat_rotl64 (x : Word) {n : Nat} (h : n < 64) :
    (rotl64 x n).toNat = x.toNat * 2 ^ n % 2 ^ 64 + x.toNat / 2 ^ (64 - n) := by
  have words : 2 ^ 64 = 2 ^ (64 - n) * 2 ^ n := by rw [← Nat.pow_add, Nat.sub_add_cancel h.le]
  have left : x.toNat * 2 ^ n % 2 ^ 64 = (x.toNat % 2 ^ (64 - n)) <<< n := by
    rw [words, Nat.mul_mod_mul_right, Nat.shiftLeft_eq]
  have entering : x.toNat / 2 ^ (64 - n) < 2 ^ n := Nat.div_lt_of_lt_mul (words ▸ x.isLt)
  rw [rotl64, BitVec.toNat_or, toNat_shiftLeft_word, toNat_shiftRight_word, left, ← Nat.shiftLeft_add_eq_or_of_lt entering]

theorem minOf_unsigned (x y : Word) : (minOf true x y).toNat = min x.toNat y.toNat := by
  rw [minOf, if_pos rfl, apply_ite BitVec.toNat, min_def]

theorem maxOf_unsigned (x y : Word) : (maxOf true x y).toNat = max x.toNat y.toNat := by
  rw [maxOf, if_pos rfl, apply_ite BitVec.toNat, max_def]

theorem minOf_signed (x y : Word) : (minOf false x y).toNat = mod64 (min x.toInt y.toInt) := by
  rw [minOf, if_neg Bool.false_ne_true, ← mod64_toInt, apply_ite BitVec.toInt, min_def]

theorem maxOf_signed (x y : Word) : (maxOf false x y).toNat = mod64 (max x.toInt y.toInt) := by
  rw [maxOf, if_neg Bool.false_ne_true, ← mod64_toInt, apply_ite BitVec.toInt, max_def]

theorem mulHigh_unsigned (x y : Word) : (mulHigh true x y).toNat = x.toNat * y.toNat / 2 ^ 64 :=
  toNat_ofNat_word (Nat.div_lt_of_lt_mul (Nat.mul_lt_mul'' x.isLt y.isLt))

theorem mulHigh_signed (x y : Word) : (mulHigh false x y).toNat = mod64 (x.toInt * y.toInt / 2 ^ 64) := toNat_wrap_word _

/-! ## Quotients and remainders (R112) -/

theorem divide_unsigned (x y : Word) :
    (divide true x y).toNat = if y.toNat = 0 then 2 ^ 64 - 1 else x.toNat / y.toNat := by
  rw [divide, if_pos rfl, apply_ite BitVec.toNat, BitVec.toNat_udiv]
  exact if_congr BitVec.toNat_inj.symm rfl rfl

theorem divide_signed (x y : Word) :
    (divide false x y).toNat = if y.toNat = 0 then 2 ^ 64 - 1 else mod64 (x.toInt.tdiv y.toInt) := by
  rw [divide, if_neg Bool.false_ne_true, apply_ite BitVec.toNat, toNat_wrap_word]
  exact if_congr BitVec.toNat_inj.symm rfl rfl

theorem remainder_unsigned (x y : Word) :
    (remainder true x y).toNat = if y.toNat = 0 then x.toNat else x.toNat % y.toNat := by
  rw [remainder, if_pos rfl, apply_ite BitVec.toNat, BitVec.toNat_umod]
  exact if_congr BitVec.toNat_inj.symm rfl rfl

theorem remainder_signed (x y : Word) :
    (remainder false x y).toNat = if y.toNat = 0 then x.toNat else mod64 (x.toInt.tmod y.toInt) := by
  rw [remainder, if_neg Bool.false_ne_true, apply_ite BitVec.toNat, toNat_wrap_word, ← Int.tmod_def]
  exact if_congr BitVec.toNat_inj.symm rfl rfl

theorem toNat_ne_zero_of_toInt_eq_neg_one {y : Word} (h : y.toInt = -1) : y.toNat ≠ 0 := fun zero => by
  rw [BitVec.eq_of_toNat_eq (y := 0) zero] at h; cases h

/-- The one quotient that does not fit, −2^63 by −1, wraps to −2^63. -/
theorem divide_overflow {x y : Word} (hx : x.toInt = -2 ^ 63) (hy : y.toInt = -1) : (divide false x y).toNat = 2 ^ 63 := by
  rw [divide_signed, if_neg (toNat_ne_zero_of_toInt_eq_neg_one hy), hx, hy]; decide

theorem remainder_overflow {x y : Word} (hx : x.toInt = -2 ^ 63) (hy : y.toInt = -1) : (remainder false x y).toNat = 0 := by
  rw [remainder_signed, if_neg (toNat_ne_zero_of_toInt_eq_neg_one hy), hx, hy]; decide

/-! ## Counting bits -/

theorem leadingZeros_zero (w : Nat) : leadingZeros w 0 = w := if_pos rfl

theorem leadingZeros_bounds {w x : Nat} (nonzero : x ≠ 0) (small : x < 2 ^ w) :
    leadingZeros w x < w ∧ 2 ^ (w - 1 - leadingZeros w x) ≤ x ∧ x < 2 ^ (w - leadingZeros w x) := by
  have top : x.log2 < w := (Nat.log2_lt nonzero).mpr small
  have down : w - 1 - leadingZeros w x = x.log2 := by rw [leadingZeros, if_neg nonzero]; omega
  have up : w - leadingZeros w x = x.log2 + 1 := by rw [leadingZeros, if_neg nonzero]; omega
  rw [down, up]
  exact ⟨by omega, Nat.log2_self_le nonzero, Nat.lt_log2_self⟩

theorem leadingZeros_le (w x : Nat) : leadingZeros w x ≤ w := by
  unfold leadingZeros; split <;> omega

theorem trailingZeros_le (x w : Nat) : trailingZeros x w ≤ w := by
  induction w generalizing x with
  | zero => exact le_rfl
  | succ w ih =>
    rw [trailingZeros]
    have rest := ih (x / 2)
    split <;> omega

theorem trailingZeros_zero (w : Nat) : trailingZeros 0 w = w := by
  induction w with
  | zero => rfl
  | succ w ih => rw [trailingZeros, if_neg (by decide), ih, Nat.add_comm]

/-- All bits below the lowest one bit are zero, and that bit is not. -/
theorem trailingZeros_mod {x w : Nat} (nonzero : x ≠ 0) (small : x < 2 ^ w) :
    x % 2 ^ trailingZeros x w = 0 ∧ x % 2 ^ (trailingZeros x w + 1) ≠ 0 := by
  induction w generalizing x with
  | zero => omega
  | succ w ih =>
    rw [trailingZeros]
    by_cases odd : x % 2 = 1
    · rw [if_pos odd]
      exact ⟨Nat.mod_one x, by rw [Nat.zero_add, Nat.pow_one]; omega⟩
    · obtain ⟨zeros, one⟩ := ih (x := x / 2) (by omega) (by omega)
      have even : x = 2 * (x / 2) := by omega
      rw [if_neg odd, Nat.add_comm 1, Nat.pow_succ', Nat.pow_succ', even, Nat.mul_mod_mul_left, Nat.mul_mod_mul_left,
        ← even, zeros]
      exact ⟨rfl, by omega⟩

theorem onesCount_eq_length (x w : Nat) : onesCount x w = ((List.range w).filter fun i => x.testBit i).length := by
  induction w generalizing x with
  | zero => rfl
  | succ w ih =>
    have higher : (fun i => x.testBit i) ∘ Nat.succ = fun i => (x / 2).testBit i := funext fun i => Nat.testBit_succ x i
    rw [onesCount, ih, List.range_succ_eq_map, List.filter_cons, List.filter_map, higher, Nat.testBit_zero]
    by_cases odd : x % 2 = 1
    · simp [odd, Nat.add_comm]
    · simp [show x % 2 = 0 by omega]

theorem onesCount_le (x w : Nat) : onesCount x w ≤ w := by
  rw [onesCount_eq_length]
  exact (List.length_filter_le _ _).trans List.length_range.le

/-! ## What the two shapes of R290 give -/

theorem givesS_of_alu2 {s : State} {i : Instr} {n v : Nat} {f : Word → Word → Word} {d a b : SReg}
    (he : exec i s = alu2 (n + 1) f d a b s) (hv : (f (s.rS a) (s.rS b)).toNat = v) : givesS s i (n + 1) d v :=
  hv ▸ givesS_result he

theorem givesS_of_alu1 {s : State} {i : Instr} {v : Nat} {f : Word → Word} {d a : SReg}
    (he : exec i s = alu1 f d a s) (hv : (f (s.rS a)).toNat = v) : givesS s i 1 d v :=
  hv ▸ givesS_result he

theorem shiftOf_lt (y : Word) : shiftOf y < 64 := Nat.mod_lt _ (by decide)

/-- A count of bits fits its register. -/
theorem givesS_count {s : State} {i : Instr} {f : Nat → Nat} {d a : SReg}
    (he : exec i s = alu1 (fun x => BitVec.ofNat 64 (f x.toNat)) d a s) (hf : f (s.rS a).toNat ≤ 64) :
    givesS s i 1 d (f (s.rS a).toNat) :=
  givesS_of_alu1 he (toNat_ofNat_word (hf.trans_lt (by decide)))

theorem givesS_clz (s : State) (d a : SReg) : givesS s (.clz d a) 1 d (leadingZeros 64 (s.rS a).toNat) :=
  givesS_count (f := leadingZeros 64) rfl (leadingZeros_le 64 _)

theorem givesS_ctz (s : State) (d a : SReg) : givesS s (.ctz d a) 1 d (trailingZeros (s.rS a).toNat 64) :=
  givesS_count (f := fun x => trailingZeros x 64) rfl (trailingZeros_le _ 64)

theorem givesS_popc (s : State) (d a : SReg) : givesS s (.popc d a) 1 d (onesCount (s.rS a).toNat 64) :=
  givesS_count (f := fun x => onesCount x 64) rfl (onesCount_le _ 64)

/-! ## Stray fields (R246, R283) -/

/-- The F1 fields of a slot's word. -/
def slotF1 (x : BitVec 48) : F1 := F1.unpack (x.extractLsb' 0 35)

theorem toNat_slotOp (x : BitVec 48) : (slotOp x).toNat = bits x 47 40 := (bits_eq_extractLsb' x 47 40).symm

theorem slotF1_fn_toNat (x : BitVec 48) : (slotF1 x).fn.toNat = bits x 16 0 := by
  simp only [slotF1, F1.unpack, BitVec.extractLsb'_toNat, Nat.shiftRight_eq_div_pow, bits]; omega

theorem slotF1_b_toNat (x : BitVec 48) : (slotF1 x).b.toNat = bits x 22 17 := by
  simp only [slotF1, F1.unpack, BitVec.extractLsb'_toNat, Nat.shiftRight_eq_div_pow, bits]; omega

theorem slotF1_fn_high (x : BitVec 48) : bits x 16 1 = (slotF1 x).fn.toNat / 2 := by
  rw [slotF1_fn_toNat]; simp only [bits]; omega

theorem slotF1_fn_low (x : BitVec 48) : bits x 0 0 = (slotF1 x).fn.toNat % 2 := by
  rw [slotF1_fn_toNat]; simp only [bits]; omega

theorem narrow_one_eq_none {m : Nat} {x : BitVec m} (high : x.toNat / 2 ≠ 0) : narrow 1 x = none := by
  refine if_neg fun same => high ?_
  rw [← same, BitVec.toNat_setWidth, BitVec.toNat_setWidth]
  have widened := Nat.mod_le (x.toNat % 2 ^ 1) (2 ^ m)
  omega

theorem dec3_eq_none {mk : SReg → SReg → SReg → Instr} {o : BitVec 35} (fn : (F1.unpack o).fn ≠ 0) : dec3 mk o = none := if_neg fn

theorem dec3u_eq_none {mk : Bool → SReg → SReg → SReg → Instr} {o : BitVec 35} (high : (F1.unpack o).fn.toNat / 2 ≠ 0) :
    dec3u mk o = none := by
  rw [dec3u, narrow_one_eq_none high]; rfl

theorem dec2_eq_none {mk : SReg → SReg → Instr} {o : BitVec 35} (stray : (F1.unpack o).fn ≠ 0 ∨ (F1.unpack o).b ≠ 0) :
    dec2 mk o = none := if_neg (not_and_or.mpr stray)

/-- R290's opcodes of two operands without .U. -/
def opsTwo : List Nat := [0x01, 0x03, 0x04, 0x08, 0x0A, 0x0C, 0x0E, 0x0F, 0x11, 0x13, 0x15]
/-- R290's opcodes with .U in fn[0]. -/
def opsTwoU : List Nat := [0x05, 0x06, 0x07, 0x16, 0x17]
/-- R290's opcodes that use no b. -/
def opsOne : List Nat := [0x18, 0x19, 0x1A]

theorem decS_opsTwo {op : BitVec 8} (o : BitVec 35) (h : op.toNat ∈ opsTwo) : ∃ mk, decS op o = some (dec3 mk o) := by
  simp only [opsTwo, List.mem_cons, List.not_mem_nil, or_false] at h
  rcases h with h | h | h | h | h | h | h | h | h | h | h <;> exact ⟨_, by rw [decS, h]; rfl⟩

theorem decS_opsTwoU {op : BitVec 8} (o : BitVec 35) (h : op.toNat ∈ opsTwoU) : ∃ mk, decS op o = some (dec3u mk o) := by
  simp only [opsTwoU, List.mem_cons, List.not_mem_nil, or_false] at h
  rcases h with h | h | h | h | h <;> exact ⟨_, by rw [decS, h]; rfl⟩

theorem decS_opsOne {op : BitVec 8} (o : BitVec 35) (h : op.toNat ∈ opsOne) : ∃ mk, decS op o = some (dec2 mk o) := by
  simp only [opsOne, List.mem_cons, List.not_mem_nil, or_false] at h
  rcases h with h | h | h <;> exact ⟨_, by rw [decS, h]; rfl⟩

theorem decodeSlot_field_of_decS {x : BitVec 48} (h : decS (slotOp x) (x.extractLsb' 0 35) = some none) :
    decodeSlot .s x = .error .field := by
  have refused : decodeOps .s (slotOp x) (x.extractLsb' 0 35) = .error .field := by rw [decodeOps, decTable, h]
  rw [decodeSlot, refused]

theorem slotF1_fn_ne_zero {x : BitVec 48} (h : bits x 16 1 ≠ 0 ∨ bits x 0 0 = 1) : (slotF1 x).fn ≠ 0 := fun zero => by
  rw [slotF1_fn_high, slotF1_fn_low, zero] at h
  revert h; decide

theorem slotF1_b_ne_zero {x : BitVec 48} (h : bits x 22 17 ≠ 0) : (slotF1 x).b ≠ 0 := fun zero => by
  rw [← slotF1_b_toNat, zero] at h
  exact h rfl

theorem decodeSlot_field_of_opsTwo {x : BitVec 48} (op : bits x 47 40 ∈ opsTwo) (stray : bits x 16 1 ≠ 0 ∨ bits x 0 0 = 1) :
    decodeSlot .s x = .error .field := by
  obtain ⟨mk, shape⟩ := decS_opsTwo (x.extractLsb' 0 35) (toNat_slotOp x ▸ op)
  exact decodeSlot_field_of_decS (shape.trans (congrArg some (dec3_eq_none (slotF1_fn_ne_zero stray))))

theorem decodeSlot_field_of_opsTwoU {x : BitVec 48} (op : bits x 47 40 ∈ opsTwoU) (stray : bits x 16 1 ≠ 0) :
    decodeSlot .s x = .error .field := by
  obtain ⟨mk, shape⟩ := decS_opsTwoU (x.extractLsb' 0 35) (toNat_slotOp x ▸ op)
  exact decodeSlot_field_of_decS (shape.trans (congrArg some (dec3u_eq_none (slotF1_fn_high x ▸ stray))))

theorem decodeSlot_field_of_opsOne {x : BitVec 48} (op : bits x 47 40 ∈ opsOne)
    (stray : (bits x 16 1 ≠ 0 ∨ bits x 0 0 = 1) ∨ bits x 22 17 ≠ 0) : decodeSlot .s x = .error .field := by
  obtain ⟨mk, shape⟩ := decS_opsOne (x.extractLsb' 0 35) (toNat_slotOp x ▸ op)
  exact decodeSlot_field_of_decS
    (shape.trans (congrArg some (dec2_eq_none (stray.imp slotF1_fn_ne_zero slotF1_b_ne_zero))))

theorem opsOne_disjoint_opsTwo : ∀ n ∈ opsOne, n ∉ opsTwo := by decide

theorem opsOne_disjoint_opsTwoU : ∀ n ∈ opsOne, n ∉ opsTwoU := by decide

/-- A word of R290's opcodes with a stray bit set is refused, by the shape its opcode is decoded in. -/
theorem decodeSlot_stray {x : BitVec 48} (op : bits x 47 40 ∈ opsTwo ∨ bits x 47 40 ∈ opsTwoU ∨ bits x 47 40 ∈ opsOne)
    (stray : bits x 16 1 ≠ 0 ∨ bits x 0 0 = 1 ∧ bits x 47 40 ∉ opsTwoU ∨ bits x 47 40 ∈ opsOne ∧ bits x 22 17 ≠ 0) :
    decodeSlot .s x = .error .field := by
  rcases op with two | twoU | one
  · refine decodeSlot_field_of_opsTwo two ?_
    rcases stray with high | ⟨low, -⟩ | ⟨one, -⟩
    · exact .inl high
    · exact .inr low
    · exact absurd two (opsOne_disjoint_opsTwo _ one)
  · refine decodeSlot_field_of_opsTwoU twoU ?_
    rcases stray with high | ⟨-, notU⟩ | ⟨one, -⟩
    · exact high
    · exact absurd twoU notU
    · exact absurd twoU (opsOne_disjoint_opsTwoU _ one)
  · refine decodeSlot_field_of_opsOne one ?_
    rcases stray with high | ⟨low, -⟩ | ⟨-, b⟩
    · exact .inl (.inl high)
    · exact .inl (.inr low)
    · exact .inr b

theorem mem_opsTwo_or_opsTwoU_or_opsOne : ∀ n ∈ [0x01, 0x03, 0x04, 0x05, 0x06, 0x07, 0x08, 0x0A, 0x0C, 0x0E, 0x0F, 0x11,
    0x13, 0x15, 0x16, 0x17, 0x18, 0x19, 0x1A], n ∈ opsTwo ∨ n ∈ opsTwoU ∨ n ∈ opsOne := by decide

/-- Settles O7: each instruction is one of the two shapes of R290 with a word operation whose number the lemmas above give, and a stray field
is refused by the shape its opcode is decoded in. -/
theorem integerArithmetic : Obligations.IntegerArithmetic := by
  unfold Obligations.IntegerArithmetic
  refine ⟨fun s d a b => ?_, fun s d a b => ?_, fun s d a => ?_, fun x => ?_⟩
  · intro x y n
    exact ⟨givesS_of_alu2 (f := (· + ·)) rfl (BitVec.toNat_add x y), givesS_of_alu2 (f := (· - ·)) rfl (toNat_sub_word x y),
      givesS_of_alu2 (f := (· * ·)) rfl (BitVec.toNat_mul x y), givesS_of_alu2 (f := (· &&& ·)) rfl (BitVec.toNat_and x y),
      givesS_of_alu2 (f := (· ||| ·)) rfl (BitVec.toNat_or x y), givesS_of_alu2 (f := (· ^^^ ·)) rfl (BitVec.toNat_xor x y),
      givesS_of_alu2 (f := fun x y => x &&& ~~~y) rfl (toNat_andn_word x y),
      givesS_of_alu2 (f := fun x y => x <<< shiftOf y) rfl (toNat_shiftLeft_word x n),
      givesS_of_alu2 (f := fun x y => x >>> shiftOf y) rfl (toNat_shiftRight_word x n),
      givesS_of_alu2 (f := fun x y => x.sshiftRight (shiftOf y)) rfl (toNat_sshiftRight_word x n),
      givesS_of_alu2 (f := fun x y => rotl64 x (shiftOf y)) rfl (toNat_rotl64 x (shiftOf_lt y)),
      givesS_of_alu2 (f := minOf true) rfl (minOf_unsigned x y), givesS_of_alu2 (f := maxOf true) rfl (maxOf_unsigned x y),
      givesS_of_alu2 (f := minOf false) rfl (minOf_signed x y), givesS_of_alu2 (f := maxOf false) rfl (maxOf_signed x y)⟩
  · intro x y
    exact ⟨givesS_of_alu2 (f := mulHigh true) rfl (mulHigh_unsigned x y), givesS_of_alu2 (f := mulHigh false) rfl (mulHigh_signed x y),
      givesS_of_alu2 (f := divide true) rfl (divide_unsigned x y), givesS_of_alu2 (f := divide false) rfl (divide_signed x y),
      givesS_of_alu2 (f := remainder true) rfl (remainder_unsigned x y),
      givesS_of_alu2 (f := remainder false) rfl (remainder_signed x y),
      fun hx hy => ⟨givesS_of_alu2 (f := divide false) rfl (divide_overflow hx hy),
        givesS_of_alu2 (f := remainder false) rfl (remainder_overflow hx hy)⟩⟩
  · intro x
    refine ⟨⟨_, givesS_clz s d a, ?_, ?_⟩, ⟨_, givesS_ctz s d a, ?_, ?_⟩, ?_⟩
    · exact fun zero => (congrArg (leadingZeros 64) zero).trans (leadingZeros_zero 64)
    · intro nonzero
      obtain ⟨lt, low, high⟩ := leadingZeros_bounds nonzero (s.rS a).isLt
      exact ⟨Nat.le_of_lt_succ lt, low, high⟩
    · exact fun zero => (congrArg (trailingZeros · 64) zero).trans (trailingZeros_zero 64)
    · exact fun nonzero => trailingZeros_mod nonzero (s.rS a).isLt
    · exact onesCount_eq_length x 64 ▸ givesS_popc s d a
  · exact ⟨fun op stray => decodeSlot_stray (mem_opsTwo_or_opsTwoU_or_opsOne _ op) stray, rfl⟩

end Sys2Proof.Machine
end
